-- ==== Sys2Proof/Word.lean ====
section
/-! DEFINITION. The bit-vector types of the wire: bytes of the station link and of the field lines, the
16-bit check of R188 and the 32-bit check of R180. Everything the part counts or measures is a Nat. -/

namespace Sys2Proof

/-- One byte on the station link or on a field line. -/
abbrev Byte := BitVec 8

/-- The 16-bit check of the link and field frames (R188, R200). -/
abbrev Half := BitVec 16

/-- The 32-bit check of the table image (R180). -/
abbrev Word := BitVec 32

end Sys2Proof
end

