-- ==== Sys2Proof/Syntax.lean ====
section
/-! DEFINITION. The commands of the Ardegen 4120: one constructor of `Instr` for each row of
spec/opcode_table.json, with the operands the row's rule needs (log entry 2). Request operands are the raw
numbers of the request's payload (R199), before any check. -/

namespace Sys2Proof

/-- The two field lines (R147); on the wire 0 is A and 1 is B (R199). -/
inductive Line where
  | a
  | b
deriving DecidableEq, Repr, Inhabited

/-- The payload of PUT_VALVE, in the order of R16. -/
structure ValveFields where
  valve : Nat
  sideA : Nat
  sideB : Nat
  zone : Nat
  normal : Nat
  kind : Nat
  line : Nat
  address : Nat
  length : Nat
  waveSpeed : Nat
  velocity : Nat
  tmin : Nat
  tmax : Nat
  stall : Nat
deriving DecidableEq, Repr, Inhabited

/-- The payload of PUT_ZONE, in the order of R20. -/
structure ZoneFields where
  zone : Nat
  hmax : Nat
  slots : Nat
  ceiling : Nat
  hysteresis : Nat
  settle : Nat
  drop : Nat
  detect : Nat
deriving DecidableEq, Repr, Inhabited

/-- The requests of the table of R199, each with its payload fields as sent. HALT_VALVE is one kind on the
wire; its mode makes the two rows HALT_VALVE_STOP and HALT_VALVE_LIFT. -/
inductive Request where
  | putSegment (segment zone source connections priority : Nat) (name : List Byte)
  | deleteSegment (segment : Nat)
  | putValve (f : ValveFields)
  | deleteValve (valve : Nat)
  | putSensor (sensor line address segment : Nat)
  | deleteSensor (sensor : Nat)
  | putZone (f : ZoneFields)
  | setTiming (validity lifetime exponent window : Nat)
  | setFlow (valve velocity : Nat)
  | readSegment (segment : Nat)
  | readValve (valve : Nat)
  | readZone (zone : Nat)
  | readSensor (sensor : Nat)
  | readTiming
  | nextRecord (kind start : Nat)
  | setHealth (valve health : Nat)
  | confirmValve (valve report : Nat)
  | moveValve (valve target time : Nat)
  | haltValve (valve mode : Nat)
  | readValveState (valve : Nat)
  | openIncident (segment : Nat)
  | authorize (slot override : Nat)
  | abort (slot : Nat)
  | release (slot : Nat)
  | closeIncident (slot : Nat)
  | readIncident (slot : Nat)
  | readPlan (slot page : Nat)
  | readMotion (zone : Nat)
  | resumeZone (zone : Nat)
  | readZoneWatch (zone : Nat)
  | readSensorWatch (sensor : Nat)
  | fieldClear (line : Nat)
  | readNode (line address : Nat)
  | exerciseValve (valve target : Nat)
  | readExercises
  | commitTable
  | resetStation
  | readNotice
  | setNoticeClasses (mask : Nat)
  | status
  | identify
deriving DecidableEq, Repr, Inhabited

/-- The commands: the rows of spec/opcode_table.json in its order. A request row carries the request's tag
and payload fields. -/
inductive Instr where
  /-- POWER_ON (R187), with the level of RATE that the reset samples. -/
  | powerOn (rate : Bool)
  /-- RESET_PIN_ASSERT (R187). -/
  | resetPinAssert
  /-- RESET_PIN_RELEASE (R187), with the level of RATE that the reset samples. -/
  | resetPinRelease (rate : Bool)
  /-- LOADING_END (R181); a flash device that does not answer reads as all ones. -/
  | loadingEnd (flashAnswers : Bool)
  /-- SETTLE_WAIT_END (R184). -/
  | settleWaitEnd
  /-- STORE_ERASE_DONE (R183), with the device's error report. -/
  | storeEraseDone (error : Bool)
  /-- STORE_WRITE_DONE (R183), with the device's error report. -/
  | storeWriteDone (error : Bool)
  /-- STORE_VERIFY_DONE (R183), with whether a difference was found. -/
  | storeVerifyDone (differs : Bool)
  /-- FLASH_OPERATION_TIMEOUT (R183). -/
  | flashOperationTimeout
  /-- REQUEST_FRAME_RECEIVED (R188): these bytes arrive on LRX with no gap above 20 ms. -/
  | requestFrameReceived (bytes : List Byte)
  /-- FRAME_GAP_TIMEOUT (R189). -/
  | frameGapTimeout
  /-- BREAK_RECEIVED (R189). -/
  | breakReceived
  /-- FRAMING_ERROR (R189). -/
  | framingError
  /-- REPLY_SENT (R190). -/
  | replySent
  /-- PUT_SEGMENT (R14). -/
  | putSegment (tag : Byte) (segment zone source connections priority : Nat) (name : List Byte)
  /-- DELETE_SEGMENT (R15). -/
  | deleteSegment (tag : Byte) (segment : Nat)
  /-- PUT_VALVE (R16). -/
  | putValve (tag : Byte) (f : ValveFields)
  /-- DELETE_VALVE (R18). -/
  | deleteValve (tag : Byte) (valve : Nat)
  /-- PUT_SENSOR (R19). -/
  | putSensor (tag : Byte) (sensor line address segment : Nat)
  /-- DELETE_SENSOR (R19). -/
  | deleteSensor (tag : Byte) (sensor : Nat)
  /-- PUT_ZONE (R20). -/
  | putZone (tag : Byte) (f : ZoneFields)
  /-- SET_TIMING (R21). -/
  | setTiming (tag : Byte) (validity lifetime exponent window : Nat)
  /-- SET_FLOW (R10). -/
  | setFlow (tag : Byte) (valve velocity : Nat)
  /-- READ_SEGMENT (R23). -/
  | readSegment (tag : Byte) (segment : Nat)
  /-- READ_VALVE (R23). -/
  | readValve (tag : Byte) (valve : Nat)
  /-- READ_ZONE (R23). -/
  | readZone (tag : Byte) (zone : Nat)
  /-- READ_SENSOR (R23). -/
  | readSensor (tag : Byte) (sensor : Nat)
  /-- READ_TIMING (R23). -/
  | readTiming (tag : Byte)
  /-- NEXT_RECORD (R24). -/
  | nextRecord (tag : Byte) (kind start : Nat)
  /-- SET_HEALTH (R39). -/
  | setHealth (tag : Byte) (valve health : Nat)
  /-- CONFIRM_VALVE (R38). -/
  | confirmValve (tag : Byte) (valve report : Nat)
  /-- MOVE_VALVE (R40); a time of 0 means that none is given. -/
  | moveValve (tag : Byte) (valve target time : Nat)
  /-- HALT_VALVE_STOP (R42). -/
  | haltValveStop (tag : Byte) (valve : Nat)
  /-- HALT_VALVE_LIFT (R43). -/
  | haltValveLift (tag : Byte) (valve : Nat)
  /-- READ_VALVE_STATE (R44). -/
  | readValveState (tag : Byte) (valve : Nat)
  /-- OPEN_INCIDENT (R87). -/
  | openIncident (tag : Byte) (segment : Nat)
  /-- AUTHORIZE (R91). -/
  | authorize (tag : Byte) (slot override : Nat)
  /-- ABORT (R100). -/
  | abort (tag : Byte) (slot : Nat)
  /-- RELEASE (R101). -/
  | release (tag : Byte) (slot : Nat)
  /-- CLOSE_INCIDENT (R104). -/
  | closeIncident (tag : Byte) (slot : Nat)
  /-- READ_INCIDENT (R108). -/
  | readIncident (tag : Byte) (slot : Nat)
  /-- READ_PLAN (R109). -/
  | readPlan (tag : Byte) (slot page : Nat)
  /-- READ_MOTION (R130). -/
  | readMotion (tag : Byte) (zone : Nat)
  /-- RESUME_ZONE (R144). -/
  | resumeZone (tag : Byte) (zone : Nat)
  /-- READ_ZONE_WATCH (R146). -/
  | readZoneWatch (tag : Byte) (zone : Nat)
  /-- READ_SENSOR_WATCH (R146). -/
  | readSensorWatch (tag : Byte) (sensor : Nat)
  /-- FIELD_CLEAR (R161). -/
  | fieldClear (tag : Byte) (line : Nat)
  /-- READ_NODE (R165). -/
  | readNode (tag : Byte) (line address : Nat)
  /-- EXERCISE_VALVE (R168). -/
  | exerciseValve (tag : Byte) (valve target : Nat)
  /-- READ_EXERCISES (R178). -/
  | readExercises (tag : Byte)
  /-- COMMIT_TABLE (R182). -/
  | commitTable (tag : Byte)
  /-- RESET_STATION (R187). -/
  | resetStation (tag : Byte)
  /-- READ_NOTICE (R195). -/
  | readNotice (tag : Byte)
  /-- SET_NOTICE_CLASSES (R196). -/
  | setNoticeClasses (tag : Byte) (mask : Nat)
  /-- STATUS (R197). -/
  | status (tag : Byte)
  /-- IDENTIFY (R198). -/
  | identify (tag : Byte)
  /-- SUPPLY_WARNING_QUALIFIED (R163). -/
  | supplyWarningQualified
  /-- SUPPLY_WARNING_CLEARS (R163). -/
  | supplyWarningClears
  /-- CALL_START (R157). -/
  | callStart (line : Line)
  /-- DETAIL_DUE (R158). -/
  | detailDue (line : Line) (address : Nat)
  /-- SAMPLE_DUE (R159). -/
  | sampleDue (line : Line) (address : Nat)
  /-- ROLL_DUE (R159). -/
  | rollDue (line : Line) (address : Nat)
  /-- ANSWER_RECEIVED (R153), with the bytes of the answer frame (R200). -/
  | answerReceived (line : Line) (bytes : List Byte)
  /-- ANSWER_TIMEOUT (R154). -/
  | answerTimeout (line : Line)
  /-- CLEAR_SENT (R162). -/
  | clearSent (line : Line)
  /-- BROADCAST_HALT_SENT (R164). -/
  | broadcastHaltSent (line : Line)
  /-- STROKE_TIMEOUT (R122). -/
  | strokeTimeout (valve : Nat)
  /-- PLAN_EXPIRY (R90). -/
  | planExpiry (slot : Nat)
  /-- SETTLE_TIMER_EXPIRY (R142). -/
  | settleTimerExpiry (zone : Nat)
  /-- PLANNER_MERGE (R62). -/
  | plannerMerge
  /-- COMPUTATION_COMPLETION (R65). -/
  | computationCompletion
deriving DecidableEq, Repr, Inhabited

end Sys2Proof
end

