-- ==== Sys2Proof/WellFormed.lean ====
section
/-! DEFINITION. Which command terms stand for something that can arrive: a request's payload fields fit the
widths R199 gives them, and numbers named by an event lie in the range their rule gives. The machine itself
is total on every term. -/

namespace Sys2Proof

/-- The number fits one byte of a payload (R199). -/
def fits8 (n : Nat) : Bool := decide (n < 256)

/-- The number fits two bytes of a payload (R199). -/
def fits16 (n : Nat) : Bool := decide (n < 65536)

/-- The fields of PUT_VALVE fit their 22 bytes (R199). -/
def ValveFields.fits (f : ValveFields) : Bool :=
  fits16 f.valve && fits16 f.sideA && fits16 f.sideB && fits8 f.zone && fits8 f.normal && fits8 f.kind &&
  fits8 f.line && fits8 f.address && fits16 f.length && fits16 f.waveSpeed && fits16 f.velocity &&
  fits16 f.tmin && fits16 f.tmax && fits8 f.stall

/-- The fields of PUT_ZONE fit their 14 bytes (R199). -/
def ZoneFields.fits (f : ZoneFields) : Bool :=
  fits8 f.zone && fits16 f.hmax && fits8 f.slots && fits16 f.ceiling && fits16 f.hysteresis &&
  fits16 f.settle && fits16 f.drop && fits16 f.detect

/-- The request can be sent: every field fits its width, and a name tag keeps the payload within 240
bytes (R188, R191). -/
def Request.wf : Request → Bool
  | .putSegment n z s c p name =>
    fits16 n && fits8 z && fits8 s && fits16 c && fits8 p && decide (name.length ≤ 232)
  | .deleteSegment n => fits16 n
  | .putValve f => f.fits
  | .deleteValve v => fits16 v
  | .putSensor n l a g => fits8 n && fits8 l && fits8 a && fits16 g
  | .deleteSensor n => fits8 n
  | .putZone f => f.fits
  | .setTiming p l k w => fits16 p && fits16 l && fits8 k && fits8 w
  | .setFlow v q => fits16 v && fits16 q
  | .readSegment n => fits16 n
  | .readValve v => fits16 v
  | .readZone z => fits8 z
  | .readSensor n => fits8 n
  | .readTiming => true
  | .nextRecord k n => fits8 k && fits16 n
  | .setHealth v h => fits16 v && fits8 h
  | .confirmValve v r => fits16 v && fits8 r
  | .moveValve v t d => fits16 v && fits8 t && fits16 d
  | .haltValve v m => fits16 v && fits8 m
  | .readValveState v => fits16 v
  | .openIncident n => fits16 n
  | .authorize k o => fits8 k && fits8 o
  | .abort k => fits8 k
  | .release k => fits8 k
  | .closeIncident k => fits8 k
  | .readIncident k => fits8 k
  | .readPlan k p => fits8 k && fits8 p
  | .readMotion z => fits8 z
  | .resumeZone z => fits8 z
  | .readZoneWatch z => fits8 z
  | .readSensorWatch n => fits8 n
  | .fieldClear l => fits8 l
  | .readNode l a => fits8 l && fits8 a
  | .exerciseValve v t => fits16 v && fits8 t
  | .readExercises => true
  | .commitTable => true
  | .resetStation => true
  | .readNotice => true
  | .setNoticeClasses m => fits8 m
  | .status => true
  | .identify => true

/-- The tag and request that a request row stands for; an event row is none. -/
def Instr.request? : Instr → Option (Byte × Request)
  | .putSegment t n z s c p name => some (t, .putSegment n z s c p name)
  | .deleteSegment t n => some (t, .deleteSegment n)
  | .putValve t f => some (t, .putValve f)
  | .deleteValve t v => some (t, .deleteValve v)
  | .putSensor t n l a g => some (t, .putSensor n l a g)
  | .deleteSensor t n => some (t, .deleteSensor n)
  | .putZone t f => some (t, .putZone f)
  | .setTiming t p l k w => some (t, .setTiming p l k w)
  | .setFlow t v q => some (t, .setFlow v q)
  | .readSegment t n => some (t, .readSegment n)
  | .readValve t v => some (t, .readValve v)
  | .readZone t z => some (t, .readZone z)
  | .readSensor t n => some (t, .readSensor n)
  | .readTiming t => some (t, .readTiming)
  | .nextRecord t k n => some (t, .nextRecord k n)
  | .setHealth t v h => some (t, .setHealth v h)
  | .confirmValve t v r => some (t, .confirmValve v r)
  | .moveValve t v g d => some (t, .moveValve v g d)
  | .haltValveStop t v => some (t, .haltValve v 0)
  | .haltValveLift t v => some (t, .haltValve v 1)
  | .readValveState t v => some (t, .readValveState v)
  | .openIncident t n => some (t, .openIncident n)
  | .authorize t k o => some (t, .authorize k o)
  | .abort t k => some (t, .abort k)
  | .release t k => some (t, .release k)
  | .closeIncident t k => some (t, .closeIncident k)
  | .readIncident t k => some (t, .readIncident k)
  | .readPlan t k p => some (t, .readPlan k p)
  | .readMotion t z => some (t, .readMotion z)
  | .resumeZone t z => some (t, .resumeZone z)
  | .readZoneWatch t z => some (t, .readZoneWatch z)
  | .readSensorWatch t n => some (t, .readSensorWatch n)
  | .fieldClear t l => some (t, .fieldClear l)
  | .readNode t l a => some (t, .readNode l a)
  | .exerciseValve t v g => some (t, .exerciseValve v g)
  | .readExercises t => some (t, .readExercises)
  | .commitTable t => some (t, .commitTable)
  | .resetStation t => some (t, .resetStation)
  | .readNotice t => some (t, .readNotice)
  | .setNoticeClasses t m => some (t, .setNoticeClasses m)
  | .status t => some (t, .status)
  | .identify t => some (t, .identify)
  | .powerOn _ | .resetPinAssert | .resetPinRelease _ | .loadingEnd _ | .settleWaitEnd
  | .storeEraseDone _ | .storeWriteDone _ | .storeVerifyDone _ | .flashOperationTimeout
  | .requestFrameReceived _ | .frameGapTimeout | .breakReceived | .framingError | .replySent
  | .supplyWarningQualified | .supplyWarningClears | .callStart _ | .detailDue _ _ | .sampleDue _ _
  | .rollDue _ _ | .answerReceived _ _ | .answerTimeout _ | .clearSent _ | .broadcastHaltSent _
  | .strokeTimeout _ | .planExpiry _ | .settleTimerExpiry _ | .plannerMerge
  | .computationCompletion => none

/-- A node address of a call (R147). -/
def nodeAddress (a : Nat) : Bool := decide (1 ≤ a ∧ a ≤ 60)

/-- The command can arrive: its request can be sent, or the number its event names is in range. -/
def Instr.wf (i : Instr) : Bool :=
  match i with
  | .detailDue _ a | .sampleDue _ a | .rollDue _ a => nodeAddress a
  | .strokeTimeout v => decide (v < 768)
  | .planExpiry k => decide (k < 4)
  | .settleTimerExpiry z => decide (z < 16)
  | _ => match i.request? with
    | some (_, r) => r.wf
    | none => true

end Sys2Proof
end

