-- ==== Sys2Proof/Decode.lean ====
section
/-! DEFINITION. The opcode table gives no row any bits (every row's "fields" is empty and none has a "fixed"
pattern), so no word spells a command. -/

namespace Sys2Proof

/-- The command spelled by a word of the opcode table: the table has no row with bits, so none. -/
def decodeTableWord (_nbits _w : Nat) : Option Instr := none

end Sys2Proof
end

