-- ==== Sys2Proof/Machine/Table.lean ====
section
/-! DEFINITION. Tables of numbered records: lists of (number, record) pairs with the numbers strictly rising,
so that equal tables are equal data. Two readings: a table of records that may be absent (segments, valves,
sensors), and a table in which every number has a record and one record is the unlisted one. -/

namespace Sys2Proof.Machine

/-- Numbered records, numbers strictly rising (`Table.wf`). -/
abbrev Table (α : Type) := List (Nat × α)

/-- The record listed under the number. -/
def Table.find? {α : Type} : Table α → Nat → Option α
  | [], _ => none
  | (k, r) :: t, n => if n = k then some r else if n < k then none else Table.find? t n

/-- List the record under the number, replacing the one there. -/
def Table.put {α : Type} : Table α → Nat → α → Table α
  | [], n, x => [(n, x)]
  | (k, r) :: t, n, x =>
    if n = k then (n, x) :: t
    else if n < k then (n, x) :: (k, r) :: t
    else (k, r) :: Table.put t n x

/-- Remove the number from the table. -/
def Table.drop {α : Type} : Table α → Nat → Table α
  | [], _ => []
  | (k, r) :: t, n =>
    if n = k then t else if n < k then (k, r) :: t else (k, r) :: Table.drop t n

/-- The record of a number in a table whose unlisted record is `d`. -/
def Table.readD {α : Type} (t : Table α) (d : α) (n : Nat) : α := (t.find? n).getD d

/-- Write a record in a table whose unlisted record is `d`, keeping the form: `d` itself is not listed. -/
def Table.writeD {α : Type} [DecidableEq α] (t : Table α) (d : α) (n : Nat) (x : α) : Table α :=
  if x = d then t.drop n else t.put n x

/-- Every listed number is above `n`. -/
def Table.above {α : Type} (n : Nat) (t : Table α) : Bool := t.all fun e => decide (n < e.1)

/-- The canonical form: numbers strictly rising. -/
def Table.wf {α : Type} : Table α → Bool
  | [] => true
  | (k, _) :: t => Table.above k t && Table.wf t

/-- No listed record is the unlisted one. -/
def Table.lean {α : Type} [DecidableEq α] (d : α) (t : Table α) : Bool := t.all fun e => decide (e.2 ≠ d)

/-- The records of a list gathered under their numbers (R8); of two with one number the later stands. -/
def Table.gather {α : Type} (rows : List (Nat × α)) : Table α := rows.foldl (fun t p => t.put p.1 p.2) []

/-- The listed numbers, rising. -/
def Table.numbers {α : Type} (t : Table α) : List Nat := t.map (·.1)

/-- The lowest listed number at or above `n`. -/
def Table.next? {α : Type} (t : Table α) (n : Nat) : Option Nat := go t n
where
  /-- Search in rising order. -/
  go : Table α → Nat → Option Nat
  | [], _ => none
  | (k, _) :: t, n => if n ≤ k then some k else go t n

end Sys2Proof.Machine
end

