-- ==== Sys2Proof/Machine/Records.lean ====
section
/-! DEFINITION. The enumerations and records of the part: the network table (01), Valve State (02), the
planner (03), the incident slots (05), motion dispatch (06), the pressure watch (07), the field lines (08), the
exercises (09), storage (10) and notices (11). Each enumeration lists its values in the order its rule does,
because R199 codes them in that order. -/

namespace Sys2Proof.Machine

/-- A node's place: line and address 1..60 (R2, R5). -/
structure Node where
  line : Line
  address : Nat
deriving DecidableEq, Repr, Inhabited

/-- Normal state of a valve (R2). -/
inductive Normal where
  | normallyOpen
  | normallyClosed
deriving DecidableEq, Repr, Inhabited

/-- Kind of a valve (R2). -/
inductive ValveKind where
  | actuated
  | crew
deriving DecidableEq, Repr, Inhabited

/-- Recorded condition of a valve (R3). -/
inductive Health where
  | sound
  | suspect
  | inoperable
deriving DecidableEq, Repr, Inhabited

/-- A segment record (R1). -/
structure Segment where
  zone : Nat
  source : Bool
  connections : Nat
  priority : Bool
  name : Option (List Byte)
deriving DecidableEq, Repr, Inhabited

/-- A valve record (R2, R3); `node` is the valve's entry of the valve map (R7), valid when present. -/
structure Valve where
  sideA : Nat
  sideB : Nat
  zone : Nat
  normal : Normal
  kind : ValveKind
  node : Option Node
  length : Nat
  waveSpeed : Nat
  velocity : Nat
  tmin : Nat
  tmax : Nat
  stall : Nat
  health : Health
  measured : Option Nat
  exercised : Option Nat
deriving DecidableEq, Repr, Inhabited

/-- A zone record with the defaults of R4. -/
structure ZoneRec where
  hmax : Nat := 200
  slots : Nat := 2
  ceiling : Nat := 900
  hysteresis : Nat := 30
  settle : Nat := 30
  drop : Nat := 80
  detect : Nat := 20
deriving DecidableEq, Repr, Inhabited

/-- A sensor record (R5). -/
structure Sensor where
  node : Node
  segment : Nat
deriving DecidableEq, Repr, Inhabited

/-- The station parameters with the defaults of R6. -/
structure Timing where
  validity : Nat := 600
  lifetime : Nat := 900
  exponent : Nat := 3
  window : Nat := 4
deriving DecidableEq, Repr, Inhabited

/-- What occupies a node-map entry (R7); an unlisted entry is NONE. -/
inductive Occupant where
  | valve (v : Nat)
  | sensor (n : Nat)
deriving DecidableEq, Repr, Inhabited

/-- The records and parameters of the table as an image carries them (R180), each list in the order in which it
stands there: its byte layout is not given. -/
structure Image where
  segments : Table Segment
  valves : Table Valve
  sensors : Table Sensor
  zones : Table ZoneRec
  timing : Timing
deriving DecidableEq, Repr, Inhabited

/-- Causes of a failed load (R181). -/
inductive LoadCause where
  | format
  | check
  | content
deriving DecidableEq, Repr, Inhabited

/-- What stands in an image before its check (R180): the format number, the records and parameters, and whether each
enumeration of them holds a defined value (R181). -/
structure Content where
  format : Nat
  image : Image
  codesDefined : Bool
deriving DecidableEq, Repr, Inhabited

/-- What the table flash reads as: all ones, or an image with the check stored behind it (R180, R181). -/
inductive Flash where
  | erased
  | holds (content : Content) (check : Word)
deriving DecidableEq, Repr, Inhabited

/-- The causes of R199, in code order within each range. -/
inductive Cause where
  | stall
  | timeout
  | shortStroke
  | nodeFault
  | nodeAbsent
  | localMode
  | crewStuck
  | drift
  | withdrawn
  | interrupted
  | abandoned
  | preempted
  | host
  | notOpen
  | done
  | regionTooLarge
  | sourceReached
  | boundaryTooLarge
  | closedSetFull
  | burstListFull
  | tooManyFailures
  | close
  | reopen
  | settled
  | powerOn
  | resetPin
  | resetStation
  | format
  | check
  | content
  | erase
  | write
  | verify
deriving DecidableEq, Repr, Inhabited

/-- The notice kinds in the order of the class table of R193. -/
inductive NoticeKind where
  | planReady
  | planExpired
  | unisolable
  | expanded
  | isolated
  | merged
  | reopened
  | valveFailed
  | crewRequest
  | crewCancel
  | surgeLimited
  | exerciseDone
  | nodeAbsent
  | nodePresent
  | lineCleared
  | burstSuspected
  | surgeHold
  | surgeResumed
  | surgePersist
  | started
  | loadFailed
  | storeDone
  | storeFailed
  | supplyWarning
  | supplyRestored
deriving DecidableEq, Repr, Inhabited

/-- The notice classes in the bit order of R196. -/
inductive NoticeClass where
  | incident
  | valve
  | field
  | pressure
  | station
deriving DecidableEq, Repr, Inhabited

/-- A notice (R193); `clock` is in whole seconds. -/
structure Notice where
  kind : NoticeKind
  clock : Nat := 0
  slot : Option Nat := none
  valve : Option Nat := none
  zone : Option Nat := none
  segment : Option Nat := none
  node : Option Node := none
  cause : Option Cause := none
  value : Option Nat := none
deriving DecidableEq, Repr, Inhabited

/-- One mark for each of the five notice classes (R194, R196). -/
structure ClassMarks where
  incident : Bool
  valve : Bool
  field : Bool
  pressure : Bool
  station : Bool
deriving DecidableEq, Repr, Inhabited

/-- Position states (R25). -/
inductive Position where
  | opened
  | closed
  | partway
  | closing
  | opening
  | unknown
deriving DecidableEq, Repr, Inhabited

/-- Usability classes (R36). -/
inductive Usability where
  | barrier
  | closable
  | passable
deriving DecidableEq, Repr, Inhabited

/-- The holder of a stroke in motion (R34). -/
inductive Owner where
  | closeEntry (slot : Nat)
  | reopenEntry (slot : Nat)
  | move
  | exercise
deriving DecidableEq, Repr, Inhabited

/-- A Valve State record (R25); its defaults are the values of an absent valve (R18). `faults` has bit 0
OVERLOAD, 1 NO_POWER, 2 LOCAL, 3 POSITION_SENSOR (R200); `flow` is the current velocity with its arrival
second (R9); `kept` is the kept class (R37). -/
structure VsRec where
  position : Position := .unknown
  percent : Option Nat := none
  stale : Bool := false
  holds : Nat := 0
  localMark : Bool := false
  faults : Option (BitVec 4) := none
  owner : Option Owner := none
  request : Bool := false
  flow : Option (Nat × Nat) := none
  kept : Option Usability := none
deriving DecidableEq, Repr, Inhabited

/-- What a computation has read of a valve (R57). -/
structure Reading where
  velocity : Nat
  health : Health
deriving DecidableEq, Repr, Inhabited

/-- The computation in flight (R45), with the slots it has merged so far (R67) and the slots opened since its
round began, which its merge test may have come too early to see (R61, log entry 18). -/
structure Flight where
  slot : Nat
  seed : List Nat
  stale : Bool := false
  cancel : Bool := false
  readings : Table Reading := []
  merged : List Nat := []
  opened : List Nat := []
deriving DecidableEq, Repr, Inhabited

/-- Slot states (R81). -/
inductive SlotState where
  | free
  | planning
  | planned
  | closing
  | isolated
  | unisolable
  | aborted
  | reopening
  | done
deriving DecidableEq, Repr, Inhabited

/-- Entry kinds (R85). -/
inductive EntryKind where
  | actuated
  | crew
  | alreadyClosed
deriving DecidableEq, Repr, Inhabited

/-- Entry states (R85). -/
inductive EntryState where
  | proposed
  | pending
  | stroking
  | halted
  | crewWait
  | closed
  | opened
  | alreadyClosed
  | failed
  | stopped
deriving DecidableEq, Repr, Inhabited

/-- The passing halt causes (R85, R126). -/
inductive HaltCause where
  | surge
  | supply
  | clear
  | host
deriving DecidableEq, Repr, Inhabited

/-- A set of halt causes (R85). -/
structure HaltSet where
  surge : Bool := false
  supply : Bool := false
  clear : Bool := false
  host : Bool := false
deriving DecidableEq, Repr, Inhabited

/-- A work-list or reopen entry (R85). -/
structure Entry where
  valve : Nat
  kind : EntryKind
  state : EntryState
  tcmd : Nat := 0
  limited : Bool := false
  offNormal : Bool := false
  residual : Option Nat := none
  halts : HaltSet := {}
deriving DecidableEq, Repr, Inhabited

/-- A cut-off report (R60). -/
structure Report where
  regionConnections : Nat
  cutOffCount : Nat
  cutOffConnections : Nat
  priorityList : List Nat
  priorityOverflow : Nat
deriving DecidableEq, Repr, Inhabited

/-- An incident slot (R81); its defaults are the FREE values. Times are clock readings in tenths. -/
structure Slot where
  state : SlotState := .free
  burst : List Nat := []
  authorized : Option Nat := none
  overrideMark : Bool := false
  overrideRequired : Bool := false
  region : List Nat := []
  work : List Entry := []
  closedBy : List Nat := []
  failed : List (Nat × Cause) := []
  expansions : Nat := 0
  replanPending : Bool := false
  report : Option Report := none
  deadline : Option Nat := none
  reason : Option (Cause × Nat) := none
  released : Option Nat := none
  reopen : List Entry := []
deriving DecidableEq, Repr, Inhabited

/-- How a stroke ends (R124, R125): completed; failed with a cause; halted by a passing cause; halted by
ABORT or RELEASE; or halted because other work took the valve (PREEMPTED, ABANDONED, WITHDRAWN). -/
inductive StrokeEnd where
  | completed
  | failed (c : Cause)
  | halted (h : HaltCause)
  | dropped
  | taken (c : Cause)
deriving DecidableEq, Repr, Inhabited

/-- Phases of a stroke (R112). -/
inductive Phase where
  | sending
  | moving
  | halting
deriving DecidableEq, Repr, Inhabited

/-- A stroke record (R112), with the over-threshold count of R177 and the marks its rules need between
events: the position before the grant (R28), whether a percent was received (R28), whether the last sending
drew no answer (R120), whether the call waits for a handshake or for a DETAIL to be sent a second time (R120),
how many broadcast HALTs of its line until the supply warning ends it (R164), whether ABORT, RELEASE or a
removal took its entry away (R129, R103), halt causes that joined the pending end (R124), and whether a close entry has
become PENDING or HALTED for the valve since the end of a MOVE_VALVE or exercise stroke was decided (R117, R172; log
entry 19). -/
structure Stroke where
  valve : Nat
  zone : Nat
  owner : Owner
  retained : Bool := false
  target : Nat
  time : Nat
  phase : Phase := .sending
  sendings : Nat := 1
  accepted : Option Nat := none
  timeout : Option Nat := none
  pendingEnd : Option StrokeEnd := none
  overCount : Nat := 0
  before : Position × Option Nat
  gotPercent : Bool := false
  missedSending : Bool := false
  awaitsHandshake : Bool := false
  awaitsDetail : Bool := false
  supplyWait : Nat := 0
  orphan : Bool := false
  joined : HaltSet := {}
  claimed : Bool := false
deriving DecidableEq, Repr, Inhabited

/-- A MOVE_VALVE request (R40, R41, R111): waiting, or granted. -/
structure Move where
  valve : Nat
  closes : Bool
  given : Option Nat
  residual : Option Nat := none
  limited : Bool := false
  waiting : Bool := true
deriving DecidableEq, Repr, Inhabited

/-- Zone states (R131). -/
inductive ZoneState where
  | quiet
  | watch
  | hold
deriving DecidableEq, Repr, Inhabited

/-- A zone watch record with its reset values (R131). -/
structure ZoneWatch where
  state : ZoneState := .quiet
  factor : Nat := 1
  heldAt : Option Nat := none
  settleAt : Option Nat := none
  persist : Bool := false
deriving DecidableEq, Repr, Inhabited

/-- A sensor watch record with its reset values (R132); `last` is the last head with its time. -/
structure SensorWatch where
  baseline : Option Nat := none
  lowRun : Option Nat := none
  suspicion : Bool := false
  last : Option (Nat × Nat) := none
deriving DecidableEq, Repr, Inhabited

/-- Node kinds (R151). -/
inductive NodeKind where
  | actuator
  | sensor
  | none
deriving DecidableEq, Repr, Inhabited

/-- Node presence (R151). -/
inductive Presence where
  | unknown
  | present
  | absent
deriving DecidableEq, Repr, Inhabited

/-- The next call of the handshake (R151, R156). -/
inductive HandshakeStep where
  | needDetail
  | needAcknowledge
deriving DecidableEq, Repr, Inhabited

/-- Answer states (R149), in the code order of R200. -/
inductive AnswerState where
  | ready
  | moving
  | fault
  | attend
deriving DecidableEq, Repr, Inhabited

/-- A node-table entry with its reset values (R151); `last` is the last answer state with its time. -/
structure NodeEntry where
  kind : NodeKind := .none
  presence : Presence := .unknown
  misses : Nat := 0
  attend : Bool := false
  step : HandshakeStep := .needDetail
  last : Option (AnswerState × Nat) := Option.none
  rollDue : Option Nat := Option.none
  detailDue : Option Nat := Option.none
  sampleDue : Option Nat := Option.none
deriving DecidableEq, Repr, Inhabited

/-- Kinds of addressed call (R148). -/
inductive CallKind where
  | poll
  | detail
  | stroke
  | halt
  | acknowledge
  | sample
deriving DecidableEq, Repr, Inhabited

/-- Broadcasts of class 1 (R157): a CLEAR, which may be the start-up clear (R162), or the HALT of the supply
warning (R164). -/
inductive Broadcast where
  | clear (startUp : Bool)
  | halt
deriving DecidableEq, Repr, Inhabited

/-- A call on the line (R147): a broadcast, or an addressed call made in a class of R157. -/
inductive Call where
  | broadcast (b : Broadcast)
  | addressed (address : Nat) (kind : CallKind) (cls : Nat)
deriving DecidableEq, Repr, Inhabited

/-- Phases of an exercise (R167). -/
inductive ExercisePhase where
  | queued
  | outward
  | returnWait
  | returning
deriving DecidableEq, Repr, Inhabited

/-- An exercise (R167). -/
structure Exercise where
  valve : Nat
  zone : Nat
  target : Nat
  phase : ExercisePhase := .queued
  elapsed : Option Nat := none
  result : Option Cause := none
  degraded : Bool := false
deriving DecidableEq, Repr, Inhabited

/-- Station states (R179). -/
inductive StationState where
  | loading
  | blank
  | ready
deriving DecidableEq, Repr, Inhabited

/-- Steps of a store (R183). -/
inductive StoreStep where
  | erase
  | write
  | verify
deriving DecidableEq, Repr, Inhabited

/-- A store in progress (R183): the image formed at the request, the step, and whether the station state was
BLANK at the request. -/
structure Store where
  image : Image
  step : StoreStep
  blank : Bool
deriving DecidableEq, Repr, Inhabited

/-- Reply status codes (R192, R199). -/
inductive Status where
  | ok
  | accepted
  | unknownKind
  | badLength
  | outOfRange
  | notReady
  | busy
  | wrongState
  | noSlot
  | alreadyIsolated
  | incidentActive
  | valveHeld
  | notFound
  | tableFull
  | badTopology
  | overrideRequired
  | notActuated
  | inRegion
deriving DecidableEq, Repr, Inhabited

/-- What the general checks of R191 on kind and length make of a received frame. -/
inductive Received where
  | request (r : Request)
  | unknownKind
  | badLength
deriving DecidableEq, Repr, Inhabited

/-- A request in the receive buffer (R190). -/
structure Waiting where
  tag : Byte
  kind : Byte
  content : Received
deriving DecidableEq, Repr, Inhabited

/-- A reply formed by the part (R192): echoed tag and kind, status, reply data. -/
structure Reply where
  tag : Byte
  kind : Byte
  status : Status
  data : List Byte
deriving DecidableEq, Repr, Inhabited

/-- The receiver (R188): hunting, or assembling with the bytes taken since the start byte. -/
inductive Receiver where
  | hunting
  | assembling (taken : List Byte)
deriving DecidableEq, Repr, Inhabited

end Sys2Proof.Machine
end

