-- ==== Sys2Proof/Config.lean ====
section
/-! DEFINITION. The part's fixed numbers, each with its rule, and the free values: constants without a body,
so that nothing can evaluate them. -/

namespace Sys2Proof.Config

/-- Segment numbers are 0..511 (R1). -/
def segments : Nat := 512
/-- Valve numbers are 0..767 (R2). -/
def valves : Nat := 768
/-- Zone numbers are 0..15 (R4). -/
def zones : Nat := 16
/-- Sensor numbers are 0..47 (R5). -/
def sensors : Nat := 48
/-- Slot numbers are 0..3 (R81). -/
def slots : Nat := 4
/-- Node addresses are 1..60 on each line (R147). -/
def addresses : Nat := 60
/-- At most 24 source marks (R1, R14). -/
def sources : Nat := 24
/-- A region holds at most 48 segments (R51). -/
def regionCap : Nat := 48
/-- At most 40 closable boundary valves (R54). -/
def boundaryCap : Nat := 40
/-- At most 96 valves in the projected closed-by set (R55). -/
def closedCap : Nat := 96
/-- At most 4 segments in a burst list (R62, R84). -/
def burstCap : Nat := 4
/-- At most 16 entries in a failed list (R94). -/
def failedCap : Nat := 16
/-- At most 6 replans caused by failures (R94). -/
def expansionCap : Nat := 6
/-- The priority list of a report holds at most 16 segments (R60). -/
def priorityCap : Nat := 16
/-- The notice queue holds at most 32 notices (R194). -/
def noticeCap : Nat := 32
/-- The receive buffer holds at most 2 requests (R190). -/
def bufferCap : Nat := 2
/-- A request payload has at most 240 bytes (R188). -/
def payloadCap : Nat := 240
/-- At most 8 exercises (R167). -/
def exerciseCap : Nat := 8
/-- The image format number (R180). -/
def imageFormat : Nat := 2

/-- FREE VALUE (log entry 9): the bytes of an image before its check. R180 says the byte layout is the part's
own and does not give it. -/
opaque imageBytes : Machine.Content → List Byte

/-- FREE VALUE (log entry 4): the level of the RATE pin when RESET_STATION samples it afresh (R187); the argument tells
one such sampling from the next. -/
opaque rateLevel : Nat → Bool

/-- FREE VALUE (log entry 7): the flash content after a failed or abandoned store, which R183 calls unknown;
the argument tells one such content from the next. -/
opaque unknownFlash : Nat → Machine.Flash

/-- FREE VALUE (log entry 10): the seconds READ_ZONE_WATCH reports (R146) for a remaining settle time in
tenths; R146 does not state how a part of a second is rounded. -/
opaque remainingSeconds : Nat → Nat

/-- FREE VALUE (log entry 10): the seconds READ_ZONE_WATCH reports (R146) when no settle timer runs. -/
opaque noTimerSeconds : Nat

end Sys2Proof.Config
end

