-- ==== Sys2Proof/Machine/State.lean ====
section
/-! DEFINITION. The whole state of the part as plain data: every record its chapters name, and the queue of
commands that wait. -/

namespace Sys2Proof.Machine

/-- The link's state (R188, R190, R194, R198). ATTN is `Link.attn`. -/
structure Link where
  receiver : Receiver := .hunting
  buffer : List Waiting := []
  sending : Bool := false
  lastReply : Option Reply := none
  rateHigh : Bool := false
  notices : List Notice := []
  enables : ClassMarks := ⟨true, true, true, true, true⟩
  withheld : ClassMarks := ⟨false, false, false, false, false⟩
deriving DecidableEq, Repr, Inhabited

/-- Storage and start-up (R179, R183, R184); the flash content survives a reset. -/
structure Storage where
  station : StationState := .loading
  storing : Option Store := none
  settling : Bool := true
  flash : Flash := .erased
  fresh : Nat := 0
deriving DecidableEq, Repr, Inhabited

/-- The network table (R1 to R7); keys of the node map are `Node.key`. -/
structure Network where
  segments : Table Segment := []
  sourceCount : Nat := 0
  valves : Table Valve := []
  zones : Table ZoneRec := []
  sensors : Table Sensor := []
  timing : Timing := {}
  nodeMap : Table Occupant := []
deriving DecidableEq, Repr, Inhabited

/-- The planner (R45). -/
structure Planner where
  queue : List Nat := []
  flight : Option Flight := none
deriving DecidableEq, Repr, Inhabited

/-- The incident manager (R81 to R83). -/
structure Incidents where
  slots : Table Slot := []
  freeList : List Nat := [0, 1, 2, 3]
  owner : Table Nat := []
deriving DecidableEq, Repr, Inhabited

/-- The motion dispatcher (R110 to R112). -/
structure Motion where
  counts : Table Nat := []
  strokes : List Stroke := []
  moves : List Move := []
  returns : List Nat := []
deriving DecidableEq, Repr, Inhabited

/-- The pressure watch (R131, R132). -/
structure Watch where
  zones : Table ZoneWatch := []
  sensors : Table SensorWatch := []
deriving DecidableEq, Repr, Inhabited

/-- A field line controller (R151, R157, R159, R184); queued HALT and STROKE calls are held by address. -/
structure FieldLine where
  nodes : Table NodeEntry := []
  rollPointer : Nat := 0
  onLine : Option Call := none
  broadcasts : List Broadcast := []
  halts : List Nat := []
  strokes : List Nat := []
  started : Bool := false
deriving DecidableEq, Repr, Inhabited

/-- Everything but the link. The clock counts tenths of a second modulo 10 × 2^32 (00_scope section 6). The
`outbox` holds the notices the blocks have posted within one command; SL takes them at its end. -/
structure Station where
  clock : Nat := 0
  ss : Storage := {}
  nt : Network := {}
  vs : Table VsRec := []
  ip : Planner := {}
  im : Incidents := {}
  md : Motion := {}
  pw : Watch := {}
  lineA : FieldLine := {}
  lineB : FieldLine := {}
  supplyWarning : Bool := false
  xu : List Exercise := []
  outbox : List Notice := []
deriving DecidableEq, Repr, Inhabited

/-- The state of the model: the commands that wait, the level of NRST, the level of RATE that the last power-on or
release of NRST brought, how often RESET_STATION has sampled RATE (the counter of a free value, log entry 4), the link
and the station. -/
structure State where
  pending : List Instr
  nrstLow : Bool
  ratePin : Bool
  rateSamples : Nat
  sl : Link
  st : Station
deriving DecidableEq, Repr, Inhabited

/-- Faults: the spec describes no halting error, so no command raises one and the type is empty (safe). -/
inductive Fault where
deriving DecidableEq, Repr

/-- Refusals: raised by an arm of `exec` that has no meaning yet, and by nothing else (safe). -/
inductive Refusal where
  /-- Raised by an arm of `exec` whose command has no meaning yet (safe: it claims nothing). -/
  | notModelled (mnemonic : String)
deriving DecidableEq, Repr

/-- Right after a power-on reset has ended (R186, R187): every block at its reset values, STARTED queued, the
settle wait and loading begun. The level of RATE and the flash content are log entries 4 and 6. -/
def State.reset : State where
  pending := []
  nrstLow := false
  ratePin := false
  rateSamples := 0
  sl := { notices := [{ kind := .started, cause := some .powerOn, value := none }] }
  st := {}

end Sys2Proof.Machine
end

