-- ==== Sys2Proof/Machine/Ops.lean ====
section
/-! DEFINITION. The named operations over the station: clock arithmetic, reading and writing each kind of
record, the two directions of the node map, and posting a notice. -/

namespace Sys2Proof.Machine

/-- The clock wraps at 2^32 seconds, counted in tenths (00_scope section 6). -/
def clockSpan : Nat := 42949672960

/-- The clock reading `d` tenths after `t`. -/
def clockAfter (t d : Nat) : Nat := (t + d) % clockSpan

/-- Tenths from the reading `t` to the reading `now`, across a wrap. -/
def clockSince (now t : Nat) : Nat := (now + clockSpan - t) % clockSpan

/-- The due time has been reached: it lies at or behind the clock by less than half the clock's span
(log entry 11). -/
def clockReached (now due : Nat) : Bool := decide (clockSince now due < clockSpan / 2)

/-- Code of a line on the wire (R199). -/
def lineCode : Line → Nat
  | .a => 0
  | .b => 1

/-- The line of a code (R199). -/
def lineOf? : Nat → Option Line
  | 0 => some .a
  | 1 => some .b
  | _ => none

/-- The node-map key of a place: line A 1..60, line B 61..120. -/
def Node.key (n : Node) : Nat := lineCode n.line * 60 + n.address

namespace Station

/-- The clock in whole seconds. -/
def seconds (s : Station) : Nat := s.clock / 10

/-- Carry the clock forward to a due time it has not reached (log entry 11). -/
def advanceTo (s : Station) (due : Nat) : Station :=
  if clockReached s.clock due then s else { s with clock := due }

/-- The station after one tenth. -/
def tick (s : Station) : Station := { s with clock := clockAfter s.clock 1 }

/-- Post a notice: it carries the clock reading of the posting (R193). -/
def post (s : Station) (n : Notice) : Station :=
  { s with outbox := s.outbox ++ [{ n with clock := s.seconds }] }

/-- A present segment record (R1). -/
def segment? (s : Station) (n : Nat) : Option Segment := s.nt.segments.find? n

/-- A present valve record (R2). -/
def valve? (s : Station) (v : Nat) : Option Valve := s.nt.valves.find? v

/-- A present sensor record (R5). -/
def sensor? (s : Station) (n : Nat) : Option Sensor := s.nt.sensors.find? n

/-- A zone record (R4). -/
def zoneRec (s : Station) (z : Nat) : ZoneRec := s.nt.zones.readD {} z

/-- Rewrite a present valve record (R3). -/
def modValve (s : Station) (v : Nat) (f : Valve → Valve) : Station :=
  match s.valve? v with
  | some r => { s with nt := { s.nt with valves := s.nt.valves.put v (f r) } }
  | none => s

/-- A Valve State record (R25). -/
def vsOf (s : Station) (v : Nat) : VsRec := s.vs.readD {} v

/-- Rewrite a Valve State record. -/
def modVs (s : Station) (v : Nat) (f : VsRec → VsRec) : Station :=
  { s with vs := s.vs.writeD {} v (f (s.vsOf v)) }

/-- A slot record (R81). -/
def slot (s : Station) (k : Nat) : Slot := s.im.slots.readD {} k

/-- Rewrite a slot record. -/
def modSlot (s : Station) (k : Nat) (f : Slot → Slot) : Station :=
  { s with im := { s.im with slots := s.im.slots.writeD {} k (f (s.slot k)) } }

/-- The owner of a segment in the region ownership map (R83). -/
def owner? (s : Station) (n : Nat) : Option Nat := s.im.owner.find? n

/-- The segment is owned. -/
def owned (s : Station) (n : Nat) : Bool := (s.owner? n).isSome

/-- A side of the valve is owned (R40, R41). -/
def sideOwned (s : Station) (v : Nat) : Bool :=
  match s.valve? v with
  | some r => s.owned r.sideA || s.owned r.sideB
  | none => false

/-- A zone's motion count (R110). -/
def count (s : Station) (z : Nat) : Nat := s.md.counts.readD 0 z

/-- Write a zone's motion count. -/
def setCount (s : Station) (z n : Nat) : Station :=
  { s with md := { s.md with counts := s.md.counts.writeD 0 z n } }

/-- A zone watch record (R131). -/
def zoneWatch (s : Station) (z : Nat) : ZoneWatch := s.pw.zones.readD {} z

/-- Rewrite a zone watch record. -/
def modZoneWatch (s : Station) (z : Nat) (f : ZoneWatch → ZoneWatch) : Station :=
  { s with pw := { s.pw with zones := s.pw.zones.writeD {} z (f (s.zoneWatch z)) } }

/-- A sensor watch record (R132). -/
def sensorWatch (s : Station) (n : Nat) : SensorWatch := s.pw.sensors.readD {} n

/-- Rewrite a sensor watch record. -/
def modSensorWatch (s : Station) (n : Nat) (f : SensorWatch → SensorWatch) : Station :=
  { s with pw := { s.pw with sensors := s.pw.sensors.writeD {} n (f (s.sensorWatch n)) } }

/-- The field line controller of a line (R151). -/
def line (s : Station) : Line → FieldLine
  | .a => s.lineA
  | .b => s.lineB

/-- Rewrite one field line controller; the other shares no state with it. -/
def modLine (s : Station) (l : Line) (f : FieldLine → FieldLine) : Station :=
  match l with
  | .a => { s with lineA := f s.lineA }
  | .b => { s with lineB := f s.lineB }

/-- A node-table entry (R151). -/
def node (s : Station) (n : Node) : NodeEntry := (s.line n.line).nodes.readD {} n.address

/-- Rewrite a node-table entry. -/
def modNode (s : Station) (n : Node) (f : NodeEntry → NodeEntry) : Station :=
  s.modLine n.line fun l => { l with nodes := l.nodes.writeD {} n.address (f (l.nodes.readD {} n.address)) }

/-- The valve's actuator node, by its valve-map entry (R7). -/
def nodeOf? (s : Station) (v : Nat) : Option Node := (s.valve? v).bind (·.node)

/-- What the node map names for a place (R7). -/
def occupant? (s : Station) (n : Node) : Option Occupant := s.nt.nodeMap.find? n.key

/-- The zone of a segment (R1); an absent segment has none and reads as zone 0. -/
def zoneOfSegment (s : Station) (n : Nat) : Nat := ((s.segment? n).map (·.zone)).getD 0

/-- The zone of a present sensor: that of its segment at the moment (R5). -/
def zoneOfSensor (s : Station) (n : Nat) : Nat :=
  match s.sensor? n with
  | some r => s.zoneOfSegment r.segment
  | none => 0

/-- The present sensors of a zone, by number. -/
def sensorsOfZone (s : Station) (z : Nat) : List Nat :=
  s.nt.sensors.numbers.filter fun n => decide (s.zoneOfSensor n = z)

/-- The stroke in motion of a valve (R112). -/
def stroke? (s : Station) (v : Nat) : Option Stroke := s.md.strokes.find? fun r => decide (r.valve = v)

/-- Rewrite the stroke record of a valve. -/
def modStroke (s : Station) (v : Nat) (f : Stroke → Stroke) : Station :=
  { s with md := { s.md with strokes := s.md.strokes.map fun r => if r.valve = v then f r else r } }

/-- A stroke record is made (R112). -/
def addStroke (s : Station) (r : Stroke) : Station := { s with md := { s.md with strokes := s.md.strokes ++ [r] } }

/-- The stroke record of a valve is removed (R112). -/
def dropStroke (s : Station) (v : Nat) : Station :=
  { s with md := { s.md with strokes := s.md.strokes.filter fun r => decide (r.valve ≠ v) } }

/-- An exercise return begins to wait in class 0 (R111). -/
def addReturn (s : Station) (v : Nat) : Station := { s with md := { s.md with returns := s.md.returns ++ [v] } }

/-- An exercise return waits no longer. -/
def dropReturn (s : Station) (v : Nat) : Station :=
  { s with md := { s.md with returns := s.md.returns.filter fun w => decide (w ≠ v) } }

/-- A MOVE_VALVE request begins to wait (R111). -/
def addMove (s : Station) (m : Move) : Station := { s with md := { s.md with moves := s.md.moves ++ [m] } }

/-- The MOVE_VALVE request of a valve (R40). -/
def move? (s : Station) (v : Nat) : Option Move := s.md.moves.find? fun r => decide (r.valve = v)

/-- Rewrite the MOVE_VALVE request of a valve. -/
def modMove (s : Station) (v : Nat) (f : Move → Move) : Station :=
  { s with md := { s.md with moves := s.md.moves.map fun r => if r.valve = v then f r else r } }

/-- Remove the MOVE_VALVE request of a valve. -/
def dropMove (s : Station) (v : Nat) : Station :=
  { s with md := { s.md with moves := s.md.moves.filter fun r => decide (r.valve ≠ v) } }

/-- The exercise of a valve (R167). -/
def exercise? (s : Station) (v : Nat) : Option Exercise := s.xu.find? fun r => decide (r.valve = v)

/-- Rewrite the exercise of a valve. -/
def modExercise (s : Station) (v : Nat) (f : Exercise → Exercise) : Station :=
  { s with xu := s.xu.map fun r => if r.valve = v then f r else r }

/-- An exercise joins the set (R167). -/
def addExercise (s : Station) (x : Exercise) : Station := { s with xu := s.xu ++ [x] }

/-- An exercise is forgotten (R167). -/
def dropExercise (s : Station) (v : Nat) : Station :=
  { s with xu := s.xu.filter fun r => decide (r.valve ≠ v) }

/-- The slot numbers 0..3 (R81). -/
def slotNumbers : List Nat := [0, 1, 2, 3]

/-- The effective velocity of a valve (R9). -/
def effectiveVelocity (s : Station) (v : Nat) : Nat :=
  match s.valve? v with
  | none => 0
  | some r =>
    match (s.vsOf v).flow with
    | some (q, t) =>
      if (s.seconds + 4294967296 - t) % 4294967296 ≤ s.nt.timing.lifetime then q else r.velocity
    | none => r.velocity

end Station

/-- The end of the zone numbers 0..15 as a list (R4). -/
def zoneNumbers : List Nat := List.range Config.zones

/-- The entry of a valve in a list of entries (R85). -/
def entryOf? (es : List Entry) (v : Nat) : Option Entry := es.find? fun e => decide (e.valve = v)

/-- Rewrite the entry of a valve in a list of entries. -/
def modEntry (es : List Entry) (v : Nat) (f : Entry → Entry) : List Entry :=
  es.map fun e => if e.valve = v then f e else e

/-- An entry put in a state with its residual time and halt causes cleared (R76, R85). -/
def Entry.settle (e : Entry) (st : EntryState) : Entry := { e with state := st, residual := none, halts := {} }

/-- No halt cause is in the set (R85). -/
def HaltSet.isEmpty (h : HaltSet) : Bool := !(h.surge || h.supply || h.clear || h.host)

/-- The set with a cause joined (R126). -/
def HaltSet.join (h : HaltSet) : HaltCause → HaltSet
  | .surge => { h with surge := true }
  | .supply => { h with supply := true }
  | .clear => { h with clear := true }
  | .host => { h with host := true }

/-- The set with a cause ended (R127). -/
def HaltSet.leave (h : HaltSet) : HaltCause → HaltSet
  | .surge => { h with surge := false }
  | .supply => { h with supply := false }
  | .clear => { h with clear := false }
  | .host => { h with host := false }

/-- The cause is in the set. -/
def HaltSet.holds (h : HaltSet) : HaltCause → Bool
  | .surge => h.surge
  | .supply => h.supply
  | .clear => h.clear
  | .host => h.host

/-- The classification of a percent: CLOSED 0..2, PARTIAL 3..97, OPEN 98 and above (section 2.2). -/
def classify (p : Nat) : Position := if p ≤ 2 then .closed else if p < 98 then .partway else .opened

/-- The position state is in the group that passes supply (R58). -/
def Position.passes : Position → Bool
  | .closed | .unknown => false
  | .opened | .partway | .closing | .opening => true

/-- The usability class of a present valve, from the present values (R36). -/
def usability? (s : Station) (v : Nat) : Option Usability :=
  match s.valve? v with
  | none => none
  | some r =>
    let d := s.vsOf v
    if d.position = .closed then some .barrier
    else if r.health = .inoperable then some .passable
    else match r.kind with
      | .crew => some .closable
      | .actuated =>
        match r.node with
        | none => some .passable
        | some n =>
          let e := s.node n
          if e.presence = .present ∧ d.localMark = false ∧ (e.last.map (·.1)) ≠ some .fault
          then some .closable else some .passable

end Sys2Proof.Machine
end

