-- ==== Sys2Proof/Machine/Flags.lean ====
section
/-! DEFINITION. The link's flags and marks: notice classes, class enables, withheld marks, the notice queue
and ATTN (R193, R194, R196). -/

namespace Sys2Proof.Machine

/-- The class of a notice kind (R193). -/
def NoticeKind.classOf : NoticeKind → NoticeClass
  | .planReady | .planExpired | .unisolable | .expanded | .isolated | .merged | .reopened => .incident
  | .valveFailed | .crewRequest | .crewCancel | .surgeLimited | .exerciseDone => .valve
  | .nodeAbsent | .nodePresent | .lineCleared => .field
  | .burstSuspected | .surgeHold | .surgeResumed | .surgePersist => .pressure
  | .started | .loadFailed | .storeDone | .storeFailed | .supplyWarning | .supplyRestored => .station

/-- The mark of a class. -/
def ClassMarks.of (m : ClassMarks) : NoticeClass → Bool
  | .incident => m.incident
  | .valve => m.valve
  | .field => m.field
  | .pressure => m.pressure
  | .station => m.station

/-- The marks with one class's mark set. -/
def ClassMarks.mark (m : ClassMarks) : NoticeClass → ClassMarks
  | .incident => { m with incident := true }
  | .valve => { m with valve := true }
  | .field => { m with field := true }
  | .pressure => { m with pressure := true }
  | .station => { m with station := true }

/-- The five marks of a mask, in the bit order of R196. -/
def ClassMarks.ofMask (m : Nat) : ClassMarks :=
  ⟨m.testBit 0, m.testBit 1, m.testBit 2, m.testBit 3, m.testBit 4⟩

/-- The mask of five marks, in the bit order of R196. -/
def ClassMarks.toMask (m : ClassMarks) : Nat :=
  m.incident.toNat + 2 * m.valve.toNat + 4 * m.field.toNat + 8 * m.pressure.toNat + 16 * m.station.toNat

/-- ATTN: asserted exactly when the queue is non-empty (R194). -/
def Link.attn (l : Link) : Bool := !l.notices.isEmpty

/-- SL takes one posted notice (R194): dropped when its class is disabled, queued when there is room,
discarded with its class's withheld mark set otherwise. -/
def Link.takeNotice (l : Link) (n : Notice) : Link :=
  if l.enables.of n.kind.classOf then
    if l.notices.length < Config.noticeCap then { l with notices := l.notices ++ [n] }
    else { l with withheld := l.withheld.mark n.kind.classOf }
  else l

/-- SL takes the notices the blocks posted within the command, in the order they were posted (R193; log
entry 8). -/
def takePostings (s : State) : State :=
  { s with sl := s.st.outbox.foldl Link.takeNotice s.sl, st := { s.st with outbox := [] } }

end Sys2Proof.Machine
end

