-- ==== Sys2Proof/Machine/Operands.lean ====
section
/-! DEFINITION. Operand forms: clamped quantities (R12), enumeration and mark codes (R199), the little-endian
fields of the wire, the two checks (R188, R180), and the reading of a request's payload by its kind (R191,
R199). -/

namespace Sys2Proof.Machine

/-- A quantity clamped to its range (R12). -/
def clamp (lo hi n : Nat) : Nat := max lo (min n hi)

/-- One clamped field counts when the stored value is not the one given (R12). -/
def clampedOne (given stored : Nat) : Nat := if given = stored then 0 else 1

/-- A mark field holds 0 or 1 (R12). -/
def mark? : Nat → Option Bool
  | 0 => some false
  | 1 => some true
  | _ => none

/-- Normal state codes (R199). -/
def normal? : Nat → Option Normal
  | 0 => some .normallyOpen
  | 1 => some .normallyClosed
  | _ => none

/-- Valve kind codes (R199). -/
def valveKind? : Nat → Option ValveKind
  | 0 => some .actuated
  | 1 => some .crew
  | _ => none

/-- Health codes (R199). -/
def health? : Nat → Option Health
  | 0 => some .sound
  | 1 => some .suspect
  | 2 => some .inoperable
  | _ => none

/-- A node place: line 0 or 1, address 1..60 (R11, R16). -/
def place? (line address : Nat) : Option Node :=
  match lineOf? line with
  | some l => if 1 ≤ address ∧ address ≤ Config.addresses then some ⟨l, address⟩ else none
  | none => none

/-- A name tag: none of length 0, 1..12 printable characters otherwise (R1, R12). The outer option is the
check, the inner one the tag. -/
def nameTag? (cs : List Byte) : Option (Option (List Byte)) :=
  if cs.isEmpty then some none
  else if cs.length ≤ 12 ∧ cs.all (fun c => decide (32 ≤ c.toNat ∧ c.toNat ≤ 126)) then some (some cs)
  else none

/-- One field of one byte. -/
def byte1 (n : Nat) : List Byte := [BitVec.ofNat 8 n]

/-- One field of two bytes, low byte first (section 11.5). -/
def byte2 (n : Nat) : List Byte := [BitVec.ofNat 8 n, BitVec.ofNat 8 (n / 256)]

/-- One field of four bytes, low byte first (section 11.5). -/
def byte4 (n : Nat) : List Byte := byte2 n ++ byte2 (n / 65536)

/-- The number of two bytes, low byte first. -/
def num2 (lo hi : Byte) : Nat := lo.toNat + 256 * hi.toNat

/-- One bit step of a reflected check register. -/
def crcBit {w : Nat} (poly reg : BitVec w) : BitVec w :=
  if reg.getLsbD 0 then (reg >>> 1) ^^^ poly else reg >>> 1

/-- One byte taken into a reflected check register. -/
def crcByte {w : Nat} (poly reg : BitVec w) (b : Byte) : BitVec w :=
  (List.range 8).foldl (fun r _ => crcBit poly r) (reg ^^^ b.zeroExtend w)

/-- The CRC-16 of R188: polynomial 8005h, reflected, initial value 0, no final exclusive-OR. -/
def crc16 (bs : List Byte) : Half := bs.foldl (crcByte 0xA001#16) 0#16

/-- The CRC-32 of R180: polynomial 04C11DB7h, reflected, all ones at first and exclusive-ORed at the end. -/
def crc32 (bs : List Byte) : Word := bs.foldl (crcByte 0xEDB88320#32) 0xFFFFFFFF#32 ^^^ 0xFFFFFFFF#32

/-- The two check bytes of a frame, low byte first (R188). -/
def checkBytes (bs : List Byte) : List Byte := byte2 (crc16 bs).toNat

/-- The kind code of a request (R199). -/
def requestCode : Request → Nat
  | .putSegment .. => 0x10
  | .deleteSegment _ => 0x11
  | .putValve _ => 0x12
  | .deleteValve _ => 0x13
  | .putSensor .. => 0x14
  | .deleteSensor _ => 0x15
  | .putZone _ => 0x16
  | .setTiming .. => 0x17
  | .setFlow .. => 0x18
  | .readSegment _ => 0x19
  | .readValve _ => 0x1A
  | .readZone _ => 0x1B
  | .readSensor _ => 0x1C
  | .readTiming => 0x1D
  | .nextRecord .. => 0x1E
  | .setHealth .. => 0x20
  | .confirmValve .. => 0x21
  | .moveValve .. => 0x22
  | .haltValve .. => 0x23
  | .readValveState _ => 0x24
  | .openIncident _ => 0x30
  | .authorize .. => 0x31
  | .abort _ => 0x32
  | .release _ => 0x33
  | .closeIncident _ => 0x34
  | .readIncident _ => 0x35
  | .readPlan .. => 0x36
  | .readMotion _ => 0x40
  | .resumeZone _ => 0x48
  | .readZoneWatch _ => 0x49
  | .readSensorWatch _ => 0x4A
  | .fieldClear _ => 0x50
  | .readNode .. => 0x51
  | .exerciseValve .. => 0x58
  | .readExercises => 0x59
  | .commitTable => 0x60
  | .resetStation => 0x61
  | .readNotice => 0x70
  | .setNoticeClasses _ => 0x71
  | .status => 0x72
  | .identify => 0x73

/-- The payload bytes of a request, in the order its rule lists the fields (R199). -/
def requestPayload : Request → List Byte
  | .putSegment n z src c p name =>
    byte2 n ++ byte1 z ++ byte1 src ++ byte2 c ++ byte1 p ++ byte1 name.length ++ name
  | .deleteSegment n => byte2 n
  | .putValve f =>
    byte2 f.valve ++ byte2 f.sideA ++ byte2 f.sideB ++ byte1 f.zone ++ byte1 f.normal ++ byte1 f.kind ++
    byte1 f.line ++ byte1 f.address ++ byte2 f.length ++ byte2 f.waveSpeed ++ byte2 f.velocity ++
    byte2 f.tmin ++ byte2 f.tmax ++ byte1 f.stall
  | .deleteValve v => byte2 v
  | .putSensor n l a g => byte1 n ++ byte1 l ++ byte1 a ++ byte2 g
  | .deleteSensor n => byte1 n
  | .putZone f =>
    byte1 f.zone ++ byte2 f.hmax ++ byte1 f.slots ++ byte2 f.ceiling ++ byte2 f.hysteresis ++
    byte2 f.settle ++ byte2 f.drop ++ byte2 f.detect
  | .setTiming p l k w => byte2 p ++ byte2 l ++ byte1 k ++ byte1 w
  | .setFlow v q => byte2 v ++ byte2 q
  | .readSegment n => byte2 n
  | .readValve v => byte2 v
  | .readZone z => byte1 z
  | .readSensor n => byte1 n
  | .readTiming => []
  | .nextRecord k n => byte1 k ++ byte2 n
  | .setHealth v h => byte2 v ++ byte1 h
  | .confirmValve v r => byte2 v ++ byte1 r
  | .moveValve v t d => byte2 v ++ byte1 t ++ byte2 d
  | .haltValve v m => byte2 v ++ byte1 m
  | .readValveState v => byte2 v
  | .openIncident n => byte2 n
  | .authorize k o => byte1 k ++ byte1 o
  | .abort k => byte1 k
  | .release k => byte1 k
  | .closeIncident k => byte1 k
  | .readIncident k => byte1 k
  | .readPlan k p => byte1 k ++ byte1 p
  | .readMotion z => byte1 z
  | .resumeZone z => byte1 z
  | .readZoneWatch z => byte1 z
  | .readSensorWatch n => byte1 n
  | .fieldClear l => byte1 l
  | .readNode l a => byte1 l ++ byte1 a
  | .exerciseValve v t => byte2 v ++ byte1 t
  | .readExercises => []
  | .commitTable => []
  | .resetStation => []
  | .readNotice => []
  | .setNoticeClasses m => byte1 m
  | .status => []
  | .identify => []

/-- A kind code is one of the table of R199 (check 1 of R191). -/
def knownKind (k : Nat) : Bool :=
  [0x10, 0x11, 0x12, 0x13, 0x14, 0x15, 0x16, 0x17, 0x18, 0x19, 0x1A, 0x1B, 0x1C, 0x1D, 0x1E,
   0x20, 0x21, 0x22, 0x23, 0x24, 0x30, 0x31, 0x32, 0x33, 0x34, 0x35, 0x36, 0x40, 0x48, 0x49, 0x4A,
   0x50, 0x51, 0x58, 0x59, 0x60, 0x61, 0x70, 0x71, 0x72, 0x73].contains k

/-- The request of a kind and payload of an admitted length (check 2 of R191; R199). -/
def readRequest? (kind : Nat) (p : List Byte) : Option Request :=
  match kind, p with
  | 0x10, n0 :: n1 :: z :: src :: c0 :: c1 :: pr :: len :: name =>
    if len.toNat = name.length
    then some (.putSegment (num2 n0 n1) z.toNat src.toNat (num2 c0 c1) pr.toNat name) else none
  | 0x11, [n0, n1] => some (.deleteSegment (num2 n0 n1))
  | 0x12, [v0, v1, a0, a1, b0, b1, z, nm, kd, ln, ad, l0, l1, w0, w1, q0, q1, m0, m1, x0, x1, st] =>
    some (.putValve ⟨num2 v0 v1, num2 a0 a1, num2 b0 b1, z.toNat, nm.toNat, kd.toNat, ln.toNat, ad.toNat,
      num2 l0 l1, num2 w0 w1, num2 q0 q1, num2 m0 m1, num2 x0 x1, st.toNat⟩)
  | 0x13, [v0, v1] => some (.deleteValve (num2 v0 v1))
  | 0x14, [n, l, a, g0, g1] => some (.putSensor n.toNat l.toNat a.toNat (num2 g0 g1))
  | 0x15, [n] => some (.deleteSensor n.toNat)
  | 0x16, [z, h0, h1, ms, c0, c1, y0, y1, s0, s1, d0, d1, t0, t1] =>
    some (.putZone ⟨z.toNat, num2 h0 h1, ms.toNat, num2 c0 c1, num2 y0 y1, num2 s0 s1, num2 d0 d1, num2 t0 t1⟩)
  | 0x17, [p0, p1, l0, l1, k, w] => some (.setTiming (num2 p0 p1) (num2 l0 l1) k.toNat w.toNat)
  | 0x18, [v0, v1, q0, q1] => some (.setFlow (num2 v0 v1) (num2 q0 q1))
  | 0x19, [n0, n1] => some (.readSegment (num2 n0 n1))
  | 0x1A, [v0, v1] => some (.readValve (num2 v0 v1))
  | 0x1B, [z] => some (.readZone z.toNat)
  | 0x1C, [n] => some (.readSensor n.toNat)
  | 0x1D, [] => some .readTiming
  | 0x1E, [k, n0, n1] => some (.nextRecord k.toNat (num2 n0 n1))
  | 0x20, [v0, v1, h] => some (.setHealth (num2 v0 v1) h.toNat)
  | 0x21, [v0, v1, r] => some (.confirmValve (num2 v0 v1) r.toNat)
  | 0x22, [v0, v1, t, d0, d1] => some (.moveValve (num2 v0 v1) t.toNat (num2 d0 d1))
  | 0x23, [v0, v1, m] => some (.haltValve (num2 v0 v1) m.toNat)
  | 0x24, [v0, v1] => some (.readValveState (num2 v0 v1))
  | 0x30, [n0, n1] => some (.openIncident (num2 n0 n1))
  | 0x31, [k, o] => some (.authorize k.toNat o.toNat)
  | 0x32, [k] => some (.abort k.toNat)
  | 0x33, [k] => some (.release k.toNat)
  | 0x34, [k] => some (.closeIncident k.toNat)
  | 0x35, [k] => some (.readIncident k.toNat)
  | 0x36, [k, pg] => some (.readPlan k.toNat pg.toNat)
  | 0x40, [z] => some (.readMotion z.toNat)
  | 0x48, [z] => some (.resumeZone z.toNat)
  | 0x49, [z] => some (.readZoneWatch z.toNat)
  | 0x4A, [n] => some (.readSensorWatch n.toNat)
  | 0x50, [l] => some (.fieldClear l.toNat)
  | 0x51, [l, a] => some (.readNode l.toNat a.toNat)
  | 0x58, [v0, v1, t] => some (.exerciseValve (num2 v0 v1) t.toNat)
  | 0x59, [] => some .readExercises
  | 0x60, [] => some .commitTable
  | 0x61, [] => some .resetStation
  | 0x70, [] => some .readNotice
  | 0x71, [m] => some (.setNoticeClasses m.toNat)
  | 0x72, [] => some .status
  | 0x73, [] => some .identify
  | _, _ => none

/-- What checks 1 and 2 of R191 make of a kind and payload. -/
def parseRequest (kind : Byte) (payload : List Byte) : Received :=
  if knownKind kind.toNat then
    match readRequest? kind.toNat payload with
    | some r => .request r
    | none => .badLength
  else .unknownKind

/-- A request frame without its start byte: length, kind, tag, payload, check (R199). -/
def frameBody (kind tag : Byte) (payload : List Byte) : List Byte :=
  BitVec.ofNat 8 payload.length :: kind :: tag :: payload

/-- A whole request frame (R199). -/
def requestFrame (tag : Byte) (r : Request) : List Byte :=
  let body := frameBody (BitVec.ofNat 8 (requestCode r)) tag (requestPayload r)
  0x7E#8 :: (body ++ checkBytes body)

end Sys2Proof.Machine
end

