-- ==== Sys2Proof/Machine/Profile.lean ====
section
/-! DEFINITION. The Profile Calculator (04): stroke times, residual times, timeouts and tolerances. -/

namespace Sys2Proof.Machine

/-- ceil(x / y), formed as the truncated quotient of x + y − 1 by y (R70). -/
def ceilDiv (x y : Nat) : Nat := (x + y - 1) / y

/-- The critical period 2L/a in tenths (R70). -/
def criticalPeriod (length waveSpeed : Nat) : Nat := ceilDiv (20 * length) waveSpeed

/-- The slow-closure time (R70). -/
def slowClosure (length velocity hmax : Nat) : Nat := ceilDiv (20 * length * velocity) (981 * hmax)

/-- The result of a profile computation (R69). -/
structure Profile where
  tcrit : Nat
  treq : Nat
  tcmd : Nat
  limited : Bool
deriving DecidableEq, Repr, Inhabited

/-- The computation of R70 and R71 on its inputs. -/
def profile (length waveSpeed velocity hmax tmin tmax factor : Nat) : Profile :=
  let tcrit := criticalPeriod length waveSpeed
  let treq := max (max tcrit (slowClosure length velocity hmax)) tmin * factor
  { tcrit, treq, tcmd := min treq tmax, limited := decide (tmax < treq) }

/-- The profile of a valve at an effective velocity, with the other inputs as they stand (R69). Opening
strokes use the same arithmetic (R72). -/
def profileAt (s : Station) (r : Valve) (velocity : Nat) : Profile :=
  profile r.length r.waveSpeed velocity (s.zoneRec r.zone).hmax r.tmin r.tmax (s.zoneWatch r.zone).factor

/-- The profile of a present valve, as its inputs stand (R69). -/
def profileOf (s : Station) (v : Nat) (r : Valve) : Profile := profileAt s r (s.effectiveVelocity v)

/-- The remaining time of R76: the share of the time that the remaining travel deserves, raised to Tmin. -/
def residualTime (closes : Bool) (tcmd percent tmin : Nat) : Nat :=
  max (ceilDiv (tcmd * (if closes then percent else 100 - percent)) 100) tmin

/-- The percent is within the tolerance of a close or of an open (R77). -/
def withinTarget (closes : Bool) (percent : Nat) : Bool :=
  if closes then decide (percent ≤ 2) else decide (98 ≤ percent)

/-- A percent within the tolerance of a stroke's target (R115, R170): closed for target 0, open for target
100, within 2 points otherwise. -/
def withinTolerance (target percent : Nat) : Bool :=
  if target = 0 then decide (percent ≤ 2)
  else if target = 100 then decide (98 ≤ percent)
  else decide (target ≤ percent + 2 ∧ percent ≤ target + 2)

/-- The timeout of a stroke in tenths (R79). -/
def strokeTimeout (time : Nat) : Nat := ceilDiv (time * 3) 2 + 100

/-- The time of an exercise's outward stroke (R170). -/
def outwardTime (tcmd target tmin : Nat) : Nat := max (ceilDiv (tcmd * (100 - target)) 100) tmin

/-- The measured full stroke (R174). -/
def measuredStroke (elapsed target : Nat) : Nat := clamp 10 36000 (ceilDiv (elapsed * 100) (100 - target))

end Sys2Proof.Machine
end

