-- ==== Sys2Proof/Machine/Queue.lean ====
section
/-! DEFINITION. The planner's queue and the marks of the computation in flight (03, sections 3.1, 3.2 and
3.9). -/

namespace Sys2Proof.Machine.Station

/-- Rewrite the computation in flight, if there is one. -/
def modFlight (s : Station) (f : Flight → Flight) : Station :=
  { s with ip := { s.ip with flight := s.ip.flight.map f } }

/-- Set the stale mark of the computation in flight (R64). -/
def markStale (s : Station) : Station := s.modFlight fun f => { f with stale := true }

/-- Start the computation of the queue's head when none is in flight (R49). -/
def startNext (s : Station) : Station :=
  match s.ip.flight, s.ip.queue with
  | none, k :: q =>
    { s with ip := { queue := q, flight := some { slot := k, seed := (s.slot k).burst } } }
  | _, _ => s

/-- Enter a slot at the tail of the planner queue, unless it is there (R47). -/
def enqueue (s : Station) (k : Nat) : Station :=
  if s.ip.queue.contains k then s else { s with ip := { s.ip with queue := s.ip.queue ++ [k] } }

/-- A live computation of the slot is in flight: its cancel mark is clear (R46, R47). -/
def computing (s : Station) (k : Nat) : Bool :=
  match s.ip.flight with
  | some f => decide (f.slot = k) && !f.cancel
  | none => false

/-- A trigger for a slot (R47): absorbed by its place in the queue, marking its live computation stale, or
entering the queue, whose head starts at once when the planner is idle (R49). -/
def trigger (s : Station) (k : Nat) : Station :=
  if s.computing k then s.markStale else (s.enqueue k).startNext

/-- Withdraw a slot from planning (R48). -/
def withdraw (s : Station) (k : Nat) : Station :=
  let s := { s with ip := { s.ip with queue := s.ip.queue.filter fun j => decide (j ≠ k) } }
  s.modFlight fun f => if f.slot = k then { f with cancel := true } else f

end Sys2Proof.Machine.Station
end

