-- ==== Sys2Proof/Machine/Failures.lean ====
section
/-! DEFINITION. Failures of an incident's entries, the test for ISOLATED and the test for the end of a
reopening (05: R89, R93, R94, R95, R102). -/

namespace Sys2Proof.Machine.Station

/-- The zone field of a valve, as a notice carries it. -/
def zoneOfValve? (s : Station) (v : Nat) : Option Nat := (s.valve? v).map (·.zone)

/-- The zone field of a valve; an absent valve reads as zone 0. -/
def zoneOfValve (s : Station) (v : Nat) : Nat := (s.zoneOfValve? v).getD 0

/-- Rewrite the work-list entry of a valve in a slot. -/
def modWork (s : Station) (k v : Nat) (f : Entry → Entry) : Station :=
  s.modSlot k fun r => { r with work := modEntry r.work v f }

/-- Rewrite the reopen entry of a valve in a slot. -/
def modReopen (s : Station) (k v : Nat) (f : Entry → Entry) : Station :=
  s.modSlot k fun r => { r with reopen := modEntry r.reopen v f }

/-- A slot becomes UNISOLABLE with a reason and figure (R89): the replan-pending mark clears and the notice is
posted. Ownership and lists stand. -/
def unisolable (s : Station) (k : Nat) (reason : Cause) (figure : Nat) : Station :=
  (s.modSlot k fun r => { r with state := .unisolable, reason := some (reason, figure), replanPending := false }).post
    { kind := .unisolable, slot := some k, cause := some reason, value := some figure }

/-- UNISOLABLE because of the failure caps: the slot is also withdrawn from planning (R89, R48). -/
def tooManyFailures (s : Station) (k figure : Nat) : Station :=
  (s.unisolable k .tooManyFailures figure).withdraw k

/-- The VALVE_FAILED notice of a failure of an incident's entry (R94). -/
def failureNotice (s : Station) (k v : Nat) (c : Cause) : Notice :=
  { kind := .valveFailed, slot := some k, valve := some v, zone := s.zoneOfValve? v, cause := some c }

/-- A work-list entry becomes FAILED (R92). -/
def failEntry (s : Station) (k v : Nat) : Station := s.modWork k v fun e => e.settle .failed

/-- A failure of a valve reaches a slot: R94 in CLOSING and ISOLATED, R95 in UNISOLABLE and ABORTED; in any
other state VALVE_FAILED is posted alone (R129). -/
def recordFailure (s : Station) (k v : Nat) (c : Cause) : Station :=
  let r := s.slot k
  let note := s.failureNotice k v c
  let s := s.failEntry k v
  match r.state with
  | .closing | .isolated =>
    if Config.failedCap ≤ r.failed.length then (s.post note).tooManyFailures k (Config.failedCap + 1)
    else
      let s := s.modSlot k fun r => { r with failed := r.failed ++ [(v, c)] }
      if r.replanPending then (s.trigger k).post note
      else if Config.expansionCap ≤ r.expansions then (s.post note).tooManyFailures k (Config.expansionCap + 1)
      else
        ((s.modSlot k fun r =>
          { r with expansions := r.expansions + 1, replanPending := true, state := .closing }).trigger k).post note
  | .unisolable | .aborted =>
    (s.modSlot k fun r =>
      if r.failed.length < Config.failedCap then { r with failed := r.failed ++ [(v, c)] } else r).post note
  | _ => s.post note

/-- The test of R93: a slot in CLOSING with every entry closed and no replan pending becomes ISOLATED. -/
def testIsolated (s : Station) (k : Nat) : Station :=
  let r := s.slot k
  if r.state = .closing ∧ r.replanPending = false ∧
      r.work.all (fun e => decide (e.state = .closed ∨ e.state = .alreadyClosed)) then
    (s.modSlot k fun r => { r with state := .isolated }).post
      { kind := .isolated, slot := some k, value := some ((r.report.map (·.regionConnections)).getD 0) }
  else s

/-- The entry is in progress (R102). -/
def inProgress (e : Entry) : Bool :=
  match e.state with
  | .pending | .stroking | .halted | .crewWait => true
  | _ => false

/-- The test of R102: a slot in REOPENING with no entry in progress becomes DONE, and REOPENED counts the
failed entries. -/
def testDone (s : Station) (k : Nat) : Station :=
  let r := s.slot k
  if r.state = .reopening ∧ r.reopen.all (fun e => !inProgress e) then
    (s.modSlot k fun r => { r with state := .done }).post
      { kind := .reopened, slot := some k,
        value := some (r.reopen.countP fun e => decide (e.state = .failed)) }
  else s

end Sys2Proof.Machine.Station
end

