-- ==== Sys2Proof/Machine/ValveState.lean ====
section
/-! DEFINITION. Valve State (02): class changes and their report, positions and the watch of a boundary, the
position request, loss of a node, and health. -/

namespace Sys2Proof.Machine.Station

/-- Derive a valve's class again and report a change to the planner (R37, R64). -/
def refreshClass (s : Station) (v : Nat) : Station :=
  match usability? s v with
  | none => s
  | some c =>
    if (s.vsOf v).kept = some c then s
    else (s.modVs v fun d => { d with kept := some c }).markStale

/-- Derive a valve's kept class afresh with no report (R17, R37). -/
def deriveClass (s : Station) (v : Nat) : Station := s.modVs v fun d => { d with kept := usability? s v }

/-- The cause of a failure when a boundary valve is found no longer CLOSED (step 2 of R91, R93): DRIFT when it is
PARTIAL or OPEN. For CLOSING and OPENING, which the step does not name, DRIFT as well (the model's choice, log entry
49). -/
def leftCause (s : Station) (v : Nat) : Cause :=
  match (s.vsOf v).position with
  | .unknown =>
    match s.nodeOf? v with
    | some n => if (s.node n).presence = .absent then .nodeAbsent else .nodeFault
    | none => .nodeFault
  | _ => .drift

/-- The watch of R93 finds the valve in a slot: CLOSING or ISOLATED, an entry CLOSED or ALREADY_CLOSED, and
not one that R29 reports: R29 reports a valve of the closed-by list while no stroke of it is in motion (log entry
49). -/
def watchedBy (s : Station) (k v : Nat) : Bool :=
  let r := s.slot k
  (decide (r.state = .closing ∨ r.state = .isolated)) && (!r.closedBy.contains v || (s.vsOf v).owner.isSome) &&
    (match entryOf? r.work v with
      | some e => decide (e.state = .closed ∨ e.state = .alreadyClosed)
      | none => false)

/-- A valve has left CLOSED: each slot that watches it records a failure (R93). -/
def watchLeft (s : Station) (v : Nat) : Station :=
  slotNumbers.foldl (fun s k => if s.watchedBy k v then s.recordFailure k v (s.leftCause v) else s) s

/-- Change a valve's position record: a change of its supply passage or class is reported to the planner
(R64, R37), and a valve that leaves CLOSED is watched (R93). -/
def reposition (s : Station) (v : Nat) (f : VsRec → VsRec) : Station :=
  let before := (s.vsOf v).position
  let s := s.modVs v f
  let after := (s.vsOf v).position
  let s := if before.passes = after.passes then s else s.markStale
  let s := s.refreshClass v
  if before = .closed ∧ after ≠ .closed then s.watchLeft v else s

/-- Set the position to the classification of the percent held (R77, R115, R28). -/
def positionFromPercent (s : Station) (v : Nat) : Station :=
  s.reposition v fun d =>
    match d.percent with
    | some p => { d with position := classify p }
    | none => d

/-- Set the position request mark and make a DETAIL due, for an actuated valve whose node is PRESENT (R31,
R158). -/
def requestPosition (s : Station) (v : Nat) : Station :=
  match s.nodeOf? v with
  | none => s
  | some n =>
    if (s.node n).presence = .present then
      (s.modVs v fun d => { d with request := true }).modNode n fun e =>
        { e with detailDue := some (e.detailDue.getD s.clock) }
    else s

/-- The node of a valve becomes PRESENT: a valve that is UNKNOWN or stale asks for its position (R31). -/
def nodeFound (s : Station) (v : Nat) : Station :=
  let d := s.vsOf v
  let s := if d.position = .unknown ∨ d.stale then s.requestPosition v else s
  s.refreshClass v

/-- Write a valve's health and report a change of class (R35, R37). -/
def setHealth (s : Station) (v : Nat) (h : Health) : Station :=
  (s.modValve v fun r => { r with health := h }).refreshClass v

/-- The node of a valve is declared ABSENT (R30). -/
def nodeLost (s : Station) (v : Nat) : Station :=
  s.reposition v fun d =>
    let d := { d with request := false }
    if d.holds = 0 then { d with position := .unknown, percent := none, stale := false }
    else
      match d.percent with
      | none => { d with position := .unknown, stale := false }
      | some p =>
        { d with
          stale := true
          position := if d.position = .closing ∨ d.position = .opening then classify p else d.position }

/-- A valve leaves a closed-by list: its hold count falls, and at 0 a stale position is dropped (R33, R30), at once
also while an accepted stroke of the valve is in motion, where R28 would keep CLOSING or OPENING to the stroke's end
(the model's choice, log entry 50). -/
def lowerHold (s : Station) (v : Nat) : Station :=
  let s := s.modVs v fun d => { d with holds := d.holds - 1 }
  let d := s.vsOf v
  if d.holds = 0 ∧ d.stale then
    s.reposition v fun d => { d with position := .unknown, percent := none, stale := false }
  else s

/-- A DETAIL answer as VS takes it: percent, fault set, local mark. A percent above 100 counts as
POSITION_SENSOR (R27). -/
structure DetailAnswer where
  state : AnswerState
  percent : Nat
  torque : Nat
  faults : BitVec 4
  localMark : Bool
deriving DecidableEq, Repr, Inhabited

/-- The fault set VS stores (R27). -/
def storedFaults (a : DetailAnswer) : BitVec 4 := if 100 < a.percent then a.faults ||| 8#4 else a.faults

/-- The answer gives a usable position (R27). -/
def usablePosition (a : DetailAnswer) : Bool := !(storedFaults a).getLsbD 3

/-- A held valve whose CLOSED state the answer contradicts has drifted (R29). -/
def drifted (d : VsRec) (a : DetailAnswer) : Bool :=
  decide (0 < d.holds ∧ d.position = .closed ∧ classify a.percent ≠ .closed)

/-- A drift of a valve: each slot whose closed-by list holds it records a failure (R29). -/
def reportDrift (s : Station) (v : Nat) : Station :=
  slotNumbers.foldl
    (fun s k => if (s.slot k).closedBy.contains v then s.recordFailure k v .drift else s) s

/-- A DETAIL answer for a valve with no stroke in motion (R27, R29). -/
def takeDetailAtRest (s : Station) (v : Nat) (a : DetailAnswer) : Station :=
  let d := s.vsOf v
  let s := s.modVs v fun d =>
    { d with localMark := a.localMark, faults := some (storedFaults a), request := false }
  if usablePosition a then
    let drift := drifted d a
    let s := s.reposition v fun d =>
      { d with percent := some a.percent, position := classify a.percent, stale := false }
    if drift then
      let s := if ((s.valve? v).map (·.health)) = some .sound then s.setHealth v .suspect else s
      s.reportDrift v
    else s
  else
    s.reposition v fun d =>
      if 0 < d.holds then { d with stale := true }
      else { d with position := .unknown, percent := none, stale := false }

/-- A DETAIL answer for a valve whose stroke is in motion (R28). A usable position clears the stale mark
(log entry 21), and sets the percent in SENDING too, also of a valve that is UNKNOWN and stays so (log entry
50). -/
def takeDetailInMotion (s : Station) (v : Nat) (a : DetailAnswer) : Station :=
  let s := s.modVs v fun d =>
    { d with localMark := a.localMark, faults := some (storedFaults a), request := false }
  let s :=
    if usablePosition a then
      (s.modVs v fun d => { d with percent := some a.percent, stale := false }).modStroke v fun r =>
        { r with gotPercent := true }
    else s
  s.refreshClass v

end Sys2Proof.Machine.Station
end

