-- ==== Sys2Proof/Machine/ZoneState.lean ====
section
/-! DEFINITION. Motion counts, zone states and the surge factor's return (06 R110; 07 R133, R139, R145). -/

namespace Sys2Proof.Machine.Station

/-- Every sensor of a zone becomes due in the SAMPLE class, or leaves it (R133, R159). -/
def setSampleDue (s : Station) (z : Nat) (due : Option Nat) : Station :=
  (s.sensorsOfZone z).foldl
    (fun s n =>
      match s.sensor? n with
      | some r => s.modNode r.node fun e => { e with sampleDue := due }
      | none => s) s

/-- A grant raises a zone's motion count; a QUIET zone becomes WATCH (R110, R139). -/
def raiseCount (s : Station) (z : Nat) : Station :=
  let s := s.setCount z (s.count z + 1)
  if (s.zoneWatch z).state = .quiet then
    (s.modZoneWatch z fun w => { w with state := .watch }).setSampleDue z (some s.clock)
  else s

/-- The end of a stroke lowers a zone's motion count; a WATCH zone left with none becomes QUIET (R110,
R139). -/
def lowerCount (s : Station) (z : Nat) : Station :=
  let s := s.setCount z (s.count z - 1)
  if (s.zoneWatch z).state = .watch ∧ s.count z = 0 then
    (s.modZoneWatch z fun w => { w with state := .quiet }).setSampleDue z none
  else s

/-- The entry is PENDING or HALTED and its valve lies in the zone. -/
def waitsIn (s : Station) (z : Nat) (e : Entry) : Bool :=
  decide (e.state = .pending ∨ e.state = .halted) && decide (s.zoneOfValve? e.valve = some z)

/-- A PENDING or HALTED close or reopen entry of any slot has its valve in the zone (R145). -/
def anyWaitingEntry (s : Station) (z : Nat) : Bool :=
  slotNumbers.any fun k => (s.slot k).work.any (s.waitsIn z) || (s.slot k).reopen.any (s.waitsIn z)

/-- A close entry waits in the zone: PENDING or HALTED in a slot in CLOSING (R118). -/
def closeEntryWaits (s : Station) (z : Nat) : Bool :=
  slotNumbers.any fun k => decide ((s.slot k).state = .closing) && (s.slot k).work.any (s.waitsIn z)

/-- The surge factor returns to 1 when the zone is QUIET with no PENDING or HALTED entry in it (R145). -/
def factorReturn (s : Station) (z : Nat) : Station :=
  if (s.zoneWatch z).state = .quiet ∧ s.anyWaitingEntry z = false then
    s.modZoneWatch z fun w => { w with factor := 1 }
  else s

/-- The test for the factor's return in every zone, where entries leave PENDING or HALTED within an event that
then computes a stroke time (R98, R101, R145). -/
def returnFactors (s : Station) : Station := zoneNumbers.foldl factorReturn s

end Sys2Proof.Machine.Station
end

