-- ==== Sys2Proof/Machine/Strokes.lean ====
section
/-! DEFINITION. The end of a stroke (06 R124, R125; 02 R28, R35) and what it does to a MOVE_VALVE request
(R41), an exercise (09) and a reopen entry (R102), and the decision of a halt (R124). -/

namespace Sys2Proof.Machine

/-- The cause lowers health and is preferred by an exercise's result (R35, R174, R175). -/
def Cause.isHard : Cause → Bool
  | .stall | .timeout | .shortStroke | .nodeFault => true
  | _ => false

namespace Station

/-- Withdraw the STROKE and addressed HALT calls queued for a node (R124, R154). -/
def dropQueued (s : Station) (n : Node) : Station :=
  s.modLine n.line fun l =>
    { l with
      strokes := l.strokes.filter fun a => decide (a ≠ n.address)
      halts := l.halts.filter fun a => decide (a ≠ n.address) }

/-- The STROKE call of a valve is on its line (R124). -/
def strokeOnLine (s : Station) (v : Nat) : Bool :=
  match s.nodeOf? v with
  | some n =>
    match (s.line n.line).onLine with
    | some (.addressed a .stroke _) => decide (a = n.address)
    | _ => false
  | none => false

/-- The position when a stroke has ended (R28). When the node is absent VS has set it already (R30). A stroke that
ends unaccepted gives back position and percent alone: a stale mark that a DETAIL answer cleared meanwhile stays
clear, and a position that RELEASE dropped to UNKNOWN meanwhile comes back (R28's letter). An accepted stroke that ends
with no percent received leaves the valve UNKNOWN with the percent absent, as R28's table says, and the stale mark
clear, which it does not name (the model's choices, log entry 50). -/
def endPosition (s : Station) (r : Stroke) (e : StrokeEnd) (absent : Bool) : Station :=
  if absent then s
  else if e = .completed then s.positionFromPercent r.valve
  else
    let s :=
      if r.accepted.isNone then
        s.reposition r.valve fun d => { d with position := r.before.1, percent := r.before.2 }
      else if r.gotPercent then s.reposition r.valve fun d => { d with position := .partway }
      else s.reposition r.valve fun d => { d with position := .unknown, percent := none, stale := false }
    s.requestPosition r.valve

/-- What every end of a stroke does before its owner is told (R124, R28, R35): the record goes, the count
falls, the motion owner and the calls queued for the stroke go, the half-second DETAIL series ends where an acceptance
began one (R158; a due time set otherwise stands), the position is set, and a failed stroke of an entry or a MOVE_VALVE
leaves the valve INOPERABLE. -/
def endCore (s : Station) (r : Stroke) (e : StrokeEnd) (absent : Bool) : Station :=
  let s := (s.dropStroke r.valve).lowerCount r.zone
  let s := s.modVs r.valve fun d => { d with owner := none }
  let s :=
    match s.nodeOf? r.valve with
    | some n =>
      (s.dropQueued n).modNode n fun x => { x with detailDue := if r.accepted.isSome then none else x.detailDue }
    | none => s
  let s := s.endPosition r e absent
  match e with
  | .failed c => if c.isHard ∧ r.owner ≠ .exercise then s.setHealth r.valve .inoperable else s
  | _ => s

/-- The VALVE_FAILED notice of a MOVE_VALVE request (R41): it carries the valve and the cause. -/
def moveFailed (s : Station) (v : Nat) (c : Cause) : Station :=
  (s.dropMove v).post { kind := .valveFailed, valve := some v, cause := some c }

/-- The stroke time of a MOVE_VALVE request as it stands (R76, R78): a given time clamped again, or the
profile. -/
def moveTime (s : Station) (v : Nat) (r : Valve) (m : Move) : Nat :=
  match m.given with
  | some t => clamp r.tmin r.tmax t
  | none => (profileOf s v r).tcmd

/-- A halted MOVE_VALVE request returns to waiting with its residual (R41, R76, R127), completes when the
position is already within tolerance (R77), or is withdrawn when the valve has been taken meanwhile: it is held or
owned at a side, or a close entry has `claimed` it since the halt was decided (log entry 19). The stroke's end may have
left the zone QUIET with nothing waiting, and the residual is formed with the factor then in force (R76, R145). -/
def moveReturns (s : Station) (v : Nat) (m : Move) (claimed : Bool) : Station :=
  let s := s.factorReturn (s.zoneOfValve v)
  if 0 < (s.vsOf v).holds ∨ s.sideOwned v ∨ claimed then s.moveFailed v .withdrawn
  else
    match s.valve? v with
    | none => s.dropMove v
    | some r =>
      match (s.vsOf v).percent with
      | none => s.modMove v fun m => { m with waiting := true, residual := none }
      | some p =>
        if withinTarget m.closes p then (s.positionFromPercent v).dropMove v
        else s.modMove v fun m =>
          { m with waiting := true, residual := some (residualTime m.closes (s.moveTime v r m) p r.tmin) }

/-- A MOVE_VALVE stroke has ended (R41, R125). -/
def handMove (s : Station) (r : Stroke) (e : StrokeEnd) : Station :=
  match s.move? r.valve with
  | none => s
  | some m =>
    match e with
    | .completed => s.dropMove r.valve
    | .failed c => s.moveFailed r.valve c
    | .halted h => if h = .host ∨ r.joined.host then s.dropMove r.valve else s.moveReturns r.valve m r.claimed
    | .taken _ => s.moveFailed r.valve .withdrawn
    | .dropped => s.dropMove r.valve

/-- Offer a cause to an exercise's result (R174): the first STALL, TIMEOUT, SHORT_STROKE or NODE_FAULT, else
the first cause. -/
def offerCause (c : Cause) (x : Exercise) : Exercise :=
  match x.result with
  | none => { x with result := some c }
  | some old => if c.isHard ∧ old.isHard = false then { x with result := some c } else x

/-- An exercise's first hard failure lowers the valve's health (R175). -/
def lowerHealth (s : Station) (v : Nat) : Station :=
  match s.exercise? v, s.valve? v with
  | some x, some r =>
    if x.degraded then s
    else
      (s.modExercise v fun x => { x with degraded := true }).setHealth v
        (match r.health with | .sound => .suspect | _ => .inoperable)
  | _, _ => s

/-- An exercise ends (R174 to R176): on DONE the measured stroke and its time are written and SUSPECT becomes
SOUND; EXERCISE_DONE is posted; the exercise is forgotten. -/
def finishExercise (s : Station) (v : Nat) : Station :=
  match s.exercise? v with
  | none => s
  | some x =>
    let result := x.result.getD .done
    let measured := x.elapsed.map fun t => measuredStroke t x.target
    let s :=
      if result = .done then
        let s := s.modValve v fun r => { r with measured := measured, exercised := some s.seconds }
        if ((s.valve? v).map (·.health)) = some .suspect then s.setHealth v .sound else s
      else s
    ((s.dropExercise v).dropReturn v).post
      { kind := .exerciseDone, valve := some v, zone := some x.zone, cause := some result
        value := if result = .done then measured else x.elapsed }

/-- An exercise ends with a cause offered to its result. -/
def finishWith (s : Station) (v : Nat) (c : Cause) : Station :=
  (s.modExercise v (offerCause c)).finishExercise v

/-- An exercise's return begins to wait in class 0 (R171 to R173), unless the valve has been taken meanwhile as R172
says: it is held or owned at a side, or a close entry has become PENDING or HALTED for it since the stroke's end was
decided (`claimed`; log entry 19). -/
def beginReturn (s : Station) (v : Nat) (claimed : Bool) : Station :=
  let s := s.modExercise v fun x => { x with phase := .returnWait }
  if 0 < (s.vsOf v).holds ∨ s.sideOwned v then s.finishWith v .withdrawn
  else if claimed then s.finishWith v .preempted
  else s.addReturn v

/-- The outward stroke of an exercise has ended (R171). -/
def handOutward (s : Station) (r : Stroke) (e : StrokeEnd) : Station :=
  let v := r.valve
  match e with
  | .completed =>
    (s.modExercise v fun x => { x with elapsed := r.accepted.map (clockSince s.clock) }).beginReturn v r.claimed
  | .failed c =>
    let s := s.modExercise v (offerCause c)
    let s := if c.isHard then s.lowerHealth v else s
    if c = .stall ∨ c = .timeout ∨ c = .shortStroke then s.beginReturn v r.claimed else s.finishExercise v
  | .halted h =>
    if h = .host ∨ r.joined.host then s.finishWith v .host
    else (s.modExercise v (offerCause .interrupted)).beginReturn v r.claimed
  | .taken c =>
    if c = .abandoned then (s.modExercise v (offerCause c)).beginReturn v r.claimed else s.finishWith v c
  | .dropped => s.finishWith v .host

/-- The return stroke of an exercise has ended (R173). A halt by SURGE, SUPPLY or CLEAR puts the return of an abandoned
exercise back in RETURN_WAIT as any other, although R118 says that its end, of whatever kind, ends the exercise (the
model's choice, log entry 57). -/
def handReturn (s : Station) (r : Stroke) (e : StrokeEnd) : Station :=
  let v := r.valve
  match e with
  | .completed => s.finishExercise v
  | .failed c =>
    let s := s.modExercise v (offerCause c)
    (if c.isHard then s.lowerHealth v else s).finishExercise v
  | .halted h => if h = .host ∨ r.joined.host then s.finishWith v .host else s.beginReturn v r.claimed
  | .taken c => s.finishWith v c
  | .dropped => s.finishWith v .host

/-- An exercise stroke has ended: XU acts by its phase (R171, R173). -/
def handExercise (s : Station) (r : Stroke) (e : StrokeEnd) : Station :=
  match s.exercise? r.valve with
  | none => s
  | some x => if x.phase = .outward then s.handOutward r e else s.handReturn r e

/-- A reopen entry's stroke has ended (R102, R125). An entry stopped or removed meanwhile is not changed. -/
def handReopen (s : Station) (k : Nat) (r : Stroke) (e : StrokeEnd) : Station :=
  let v := r.valve
  if r.orphan then
    match e with
    | .failed c => s.post (s.failureNotice k v c)
    | _ => s
  else
    match entryOf? (s.slot k).reopen v with
    | none => s
    | some x =>
      match e with
      | .completed => (s.modReopen k v fun x => x.settle .opened).testDone k
      | .failed c => ((s.modReopen k v fun x => x.settle .failed).post (s.failureNotice k v c)).testDone k
      | .halted h =>
        if x.state = .stroking then s.modReopen k v fun x => { x.settle .halted with halts := r.joined.join h } else s
      | .dropped | .taken _ => s

/-- Hand an end to a reopen entry, a MOVE_VALVE request or an exercise (R125). -/
def handOther (s : Station) (r : Stroke) (e : StrokeEnd) : Station :=
  match r.owner with
  | .closeEntry _ => s
  | .reopenEntry k => s.handReopen k r e
  | .move => s.handMove r e
  | .exercise => s.handExercise r e

/-- The end of a stroke that is no close entry's. -/
def endOther (s : Station) (r : Stroke) (e : StrokeEnd) : Station := (s.endCore r e false).handOther r e

/-- Queue an addressed HALT for a valve's node (R124). -/
def queueHalt (s : Station) (v : Nat) : Station :=
  match s.nodeOf? v with
  | some n => s.modLine n.line fun l => { l with halts := l.halts ++ [n.address] }
  | none => s

/-- A second event that would decide an end (R124): a passing cause joins a pending halt by a passing cause,
anything else is discarded. -/
def joinEnd (s : Station) (v : Nat) (pending e : StrokeEnd) : Station :=
  match pending, e with
  | .halted _, .halted h => s.modStroke v fun r => { r with joined := r.joined.join h }
  | _, _ => s

/-- Decide a halt of the stroke in motion of a valve (R124): at once when its STROKE call is not yet on the
line, after the answer when it is, by a HALT call when it moves. `finish` ends a stroke. -/
def decideHaltWith (finish : Station → Stroke → StrokeEnd → Station) (s : Station) (v : Nat) (e : StrokeEnd) :
    Station :=
  match s.stroke? v with
  | none => s
  | some r =>
    match r.pendingEnd with
    | some p => s.joinEnd v p e
    | none =>
      match r.phase with
      | .sending =>
        if s.strokeOnLine v then s.modStroke v fun r => { r with pendingEnd := some e } else finish s r e
      | .moving => (s.modStroke v fun r => { r with phase := .halting, pendingEnd := some e }).queueHalt v
      | .halting => s

/-- Decide a halt of a stroke that is no close entry's. -/
def haltOther (s : Station) (v : Nat) (e : StrokeEnd) : Station := decideHaltWith endOther s v e

end Station
end Sys2Proof.Machine
end

