-- ==== Sys2Proof/Machine/Claims.lean ====
section
/-! DEFINITION. What a close entry, a hold or an owned region takes from other work on a valve (05 R83, R86,
R103; 06 R117, R118; 07 R138; 09 R169, R172), and the writing of the region ownership map. -/

namespace Sys2Proof.Machine.Station

/-- The CREW_CANCEL notice (R98, R100, R103). -/
def crewCancel (s : Station) (k v : Nat) : Station :=
  s.post { kind := .crewCancel, slot := some k, valve := some v, zone := s.zoneOfValve? v }

/-- Remove a reopen entry in progress from its list (R103): its stroke is halted first, its crew told, and
the test for DONE made again. A failure of the stroke that is already pending still posts VALVE_FAILED at its end
(R102). -/
def removeReopen (s : Station) (k v : Nat) : Station :=
  match entryOf? (s.slot k).reopen v with
  | none => s
  | some e =>
    if inProgress e then
      let s :=
        if e.state = .stroking then
          (s.modStroke v fun r => { r with orphan := true }).haltOther v (.taken .preempted)
        else s
      let s := if e.state = .crewWait then s.crewCancel k v else s
      (s.modSlot k fun r => { r with reopen := r.reopen.filter fun x => decide (x.valve ≠ v) }).testDone k
    else s

/-- Withdraw the waiting MOVE_VALVE request of a valve (R41). -/
def withdrawMove (s : Station) (v : Nat) : Station :=
  match s.move? v with
  | some m => if m.waiting then s.moveFailed v .withdrawn else s
  | none => s

/-- End an exercise of the valve that is queued or whose return waits (R169, R172). -/
def endIdleExercise (s : Station) (v : Nat) (c : Cause) : Station :=
  match s.exercise? v with
  | some x => if x.phase = .queued ∨ x.phase = .returnWait then s.finishWith v c else s
  | none => s

/-- A valve joins a slot's closed-by list (R86): its hold count rises, which withdraws a waiting MOVE_VALVE
(R41) and a waiting exercise (R169, R172) and removes reopen entries (R103). A join of a valve already there
does nothing. -/
def joinClosedBy (s : Station) (k v : Nat) : Station :=
  if (s.slot k).closedBy.contains v then s
  else
    let s := s.modSlot k fun r => { r with closedBy := r.closedBy ++ [v] }
    let s := s.modVs v fun d => { d with holds := d.holds + 1 }
    let s := (s.withdrawMove v).endIdleExercise v .withdrawn
    slotNumbers.foldl (fun s j => s.removeReopen j v) s

/-- Abandon the exercises of a zone whose first stroke is in SENDING or MOVING (R118). -/
def abandonExercises (s : Station) (z : Nat) : Station :=
  s.xu.foldl
    (fun s x => if x.zone = z ∧ x.phase = .outward then s.haltOther x.valve (.taken .abandoned) else s) s

/-- A stroke of the valve whose end is already decided notes that a close entry has become PENDING or HALTED for the
valve (R117, R172; log entry 19). -/
def noteClaim (s : Station) (v : Nat) : Station :=
  s.modStroke v fun r => { r with claimed := r.claimed || r.pendingEnd.isSome }

/-- A close entry of a slot has become PENDING or HALTED for a valve: it takes the valve from other work
(R117, R103, R41, R169, R172), and in a slot in CLOSING it waits in its zone (R118). Where another
slot's close entry strokes the valve nothing is halted and the entry waits: R117's table says so of a retained stroke and
has no row for one that is not retained (the model's choice, log entry 58). -/
def closeWaits (s : Station) (k v : Nat) : Station :=
  let s := slotNumbers.foldl (fun s j => if j = k then s else s.removeReopen j v) s
  let s :=
    match (s.vsOf v).owner with
    | some .move | some .exercise => (s.noteClaim v).haltOther v (.taken .preempted)
    | _ => s
  let s := (s.withdrawMove v).endIdleExercise v .preempted
  if (s.slot k).state = .closing then s.abandonExercises (s.zoneOfValve v) else s

/-- A side of the valve has become owned: waiting work of it is withdrawn, and a MOVE_VALVE or exercise
stroke in motion is halted (R41, R117, R169, R172). -/
def ownedTakes (s : Station) (v : Nat) : Station :=
  let s :=
    match (s.vsOf v).owner with
    | some .move | some .exercise => s.haltOther v (.taken .withdrawn)
    | _ => s
  (s.withdrawMove v).endIdleExercise v .withdrawn

/-- The sensors of newly owned segments drop their low run and suspicion (R138). -/
def silence (s : Station) (gained : List Nat) : Station :=
  s.nt.sensors.foldl
    (fun s p =>
      if gained.contains p.2.segment then
        s.modSensorWatch p.1 fun w => { w with lowRun := none, suspicion := false }
      else s) s

/-- A side of the valve is one of these segments. -/
def sideAmong (s : Station) (v : Nat) (segs : List Nat) : Bool :=
  match s.valve? v with
  | some r => segs.contains r.sideA || segs.contains r.sideB
  | none => false

/-- Write the ownership map for a plan's region (R83): segments the slot owned outside the region lose their
owner, every segment of the region takes the slot, and newly owned segments take their valves from other work
and silence their sensors. -/
def writeOwnership (s : Station) (k : Nat) (region : List Nat) : Station :=
  let kept := s.im.owner.filter fun p => decide (p.2 ≠ k) || region.contains p.1
  let gained := region.filter fun n => decide (s.owner? n ≠ some k)
  let s := { s with im := { s.im with owner := gained.foldl (fun t n => t.put n k) kept } }
  let work := (s.md.moves.map (·.valve)) ++ (s.xu.map (·.valve))
  let s := work.foldl (fun s v => if s.sideAmong v gained then s.ownedTakes v else s) s
  s.silence gained

/-- Take every segment of a slot off the ownership map, with no report (R83). -/
def dropOwnership (s : Station) (k : Nat) : Station :=
  { s with im := { s.im with owner := s.im.owner.filter fun p => decide (p.2 ≠ k) } }

/-- Clear a slot's ownership (R83); the clearing of another slot's ownership is reported to the planner
(R64). -/
def clearOwnership (s : Station) (k : Nat) : Station :=
  let other :=
    match s.ip.flight with
    | some f => decide (f.slot ≠ k)
    | none => false
  let owns := s.im.owner.any fun p => decide (p.2 = k)
  if other && owns then (s.dropOwnership k).markStale else s.dropOwnership k

end Sys2Proof.Machine.Station
end

