-- ==== Sys2Proof/Machine/Motion.lean ====
section
/-! DEFINITION. Motion Dispatch (06): the ends of close entries' strokes, entry times and returns from HALTED,
halt causes, and the zone arbiters. In the entry operations `ro` says which list is meant: false the work
list, true the reopen list. -/

namespace Sys2Proof.Machine.Station

/-- A close entry's stroke has ended (R92, R98, R125, R129). Of a stroke that ABORT or RELEASE halted a failure is
recorded in a slot that R95 names, and posts VALVE_FAILED alone in any other. A retained stroke's failure posts
VALVE_FAILED alone also where ABORT halted the stroke and the slot is ABORTED: R98 records none of a retained stroke,
although R129 has a failure handed to ABORTED recorded by R95 (the model's choice, log entry 27). -/
def handClose (s : Station) (k : Nat) (r : Stroke) (e : StrokeEnd) : Station :=
  let v := r.valve
  if r.retained then
    match e with
    | .failed c => s.post { kind := .valveFailed, slot := some k, valve := some v, cause := some c }
    | _ => s
  else if r.orphan then
    match e with
    | .failed c =>
      match (s.slot k).state with
      | .aborted | .unisolable => s.recordFailure k v c
      | _ => s.post (s.failureNotice k v c)
    | _ => s
  else
    match e with
    | .completed => (s.modWork k v fun x => x.settle .closed).testIsolated k
    | .failed c => s.recordFailure k v c
    | .halted h =>
      if ((entryOf? (s.slot k).work v).map (·.state)) = some .stroking then
        (s.modWork k v fun x => { x.settle .halted with halts := r.joined.join h }).closeWaits k v
      else s
    | .dropped | .taken _ => s

/-- End a stroke and hand the end to its owner (R124, R125). `absent` when the node is declared ABSENT
(R123). -/
def endStroke (absent : Bool) (s : Station) (r : Stroke) (e : StrokeEnd) : Station :=
  let s := s.endCore r e absent
  match r.owner with
  | .closeEntry k => s.handClose k r e
  | _ => s.handOther r e

/-- Decide a halt of the stroke in motion of a valve, of any owner (R124). -/
def decideHalt (s : Station) (v : Nat) (e : StrokeEnd) : Station := decideHaltWith (endStroke false) s v e

/-- The entry of a valve in one of a slot's two lists. -/
def entryIn (s : Station) (k : Nat) (ro : Bool) (v : Nat) : Option Entry :=
  entryOf? (if ro then (s.slot k).reopen else (s.slot k).work) v

/-- Rewrite the entry of a valve in one of a slot's two lists. -/
def modIn (s : Station) (k : Nat) (ro : Bool) (v : Nat) (f : Entry → Entry) : Station :=
  if ro then s.modReopen k v f else s.modWork k v f

/-- The SURGE_LIMITED notice (R75). -/
def surgeLimited (s : Station) (slot : Option Nat) (v treq : Nat) : Station :=
  s.post { kind := .surgeLimited, slot := slot, valve := some v, zone := s.zoneOfValve? v, value := some treq }

/-- Store a computation's Tcmd and mark with an entry; a mark newly set is reported (R73, R75). -/
def setTime (s : Station) (k : Nat) (ro : Bool) (v : Nat) (p : Profile) : Station :=
  match s.entryIn k ro v with
  | none => s
  | some e =>
    let s := s.modIn k ro v fun x => { x with tcmd := p.tcmd, limited := p.limited }
    if p.limited ∧ e.limited = false then s.surgeLimited (some k) v p.treq else s

/-- An entry completes without a stroke (R77, R115). -/
def completeEntry (s : Station) (k : Nat) (ro : Bool) (v : Nat) : Station :=
  if ro then ((s.positionFromPercent v).modReopen k v fun x => x.settle .opened).testDone k
  else ((((s.joinClosedBy k v).positionFromPercent v).modWork k v fun x => x.settle .closed)).testIsolated k

/-- An entry left with no halt cause returns to PENDING with a residual time (R76, R127), or completes at once
(R77). -/
def pendEntry (s : Station) (k : Nat) (ro : Bool) (v : Nat) : Station :=
  match s.valve? v with
  | none => s
  | some r =>
    let p := profileOf s v r
    let s := s.setTime k ro v p
    match (s.vsOf v).percent with
    | none =>
      let s := s.modIn k ro v fun x => { x with state := .pending, residual := none, halts := {} }
      if ro then s else s.closeWaits k v
    | some pc =>
      if withinTarget (!ro) pc then s.completeEntry k ro v
      else
        let s := s.modIn k ro v fun x =>
          { x with state := .pending, residual := some (residualTime (!ro) p.tcmd pc r.tmin), halts := {} }
        if ro then s else s.closeWaits k v

/-- A cause ends for one HALTED entry (R127). -/
def endCauseOf (s : Station) (h : HaltCause) (k : Nat) (ro : Bool) (v : Nat) : Station :=
  match s.entryIn k ro v with
  | none => s
  | some e =>
    if e.state = .halted ∧ e.halts.holds h then
      let left := e.halts.leave h
      if left.isEmpty then s.pendEntry k ro v else s.modIn k ro v fun x => { x with halts := left }
    else s

/-- Do something for every entry of a slot's two lists, work list first. -/
def forEntriesOf (s : Station) (k : Nat) (f : Station → Bool → Nat → Station) : Station :=
  let s := (s.slot k).work.foldl (fun s e => f s false e.valve) s
  (s.slot k).reopen.foldl (fun s e => f s true e.valve) s

/-- Do something for every entry of every slot. -/
def forEntries (s : Station) (f : Station → Nat → Bool → Nat → Station) : Station :=
  slotNumbers.foldl (fun s k => s.forEntriesOf k fun s ro v => f s k ro v) s

/-- A cause ends for the HALTED entries whose valve is meant (R127). -/
def endCause (s : Station) (h : HaltCause) (meant : Station → Nat → Bool) : Station :=
  s.forEntries fun s k ro v => if meant s v then s.endCauseOf h k ro v else s

/-- A cause joins the HALTED entries whose valve is meant (R126). -/
def addCause (s : Station) (h : HaltCause) (meant : Station → Nat → Bool) : Station :=
  s.forEntries fun s k ro v =>
    match s.entryIn k ro v with
    | some e =>
      if e.state = .halted ∧ meant s v then s.modIn k ro v fun x => { x with halts := x.halts.join h } else s
    | none => s

/-- The valve lies in the zone. -/
def inZone (z : Nat) (s : Station) (v : Nat) : Bool := decide (s.zoneOfValve? v = some z)

/-- The valve's node is on the line. -/
def onLineOf (l : Line) (s : Station) (v : Nat) : Bool :=
  match s.nodeOf? v with
  | some n => decide (n.line = l)
  | none => false

/-- Compute again the Tcmd and mark of one PENDING or HALTED entry (R22, R74). With `residual`, a PENDING
entry that holds a residual has it computed again (R74), and may complete (R77). -/
def retimeEntry (residual : Bool) (s : Station) (k : Nat) (ro : Bool) (v : Nat) : Station :=
  match s.entryIn k ro v, s.valve? v with
  | some e, some r =>
    if e.state = .pending ∨ e.state = .halted then
      let p := profileOf s v r
      let s := s.setTime k ro v p
      if residual ∧ e.state = .pending ∧ e.residual.isSome then
        match (s.vsOf v).percent with
        | none => s.modIn k ro v fun x => { x with residual := none }
        | some pc =>
          if withinTarget (!ro) pc then s.completeEntry k ro v
          else s.modIn k ro v fun x => { x with residual := some (residualTime (!ro) p.tcmd pc r.tmin) }
      else s
    else s
  | _, _ => s

/-- R22 for one valve. -/
def retimeValve (s : Station) (v : Nat) : Station :=
  s.forEntries fun s k ro w => if w = v then s.retimeEntry false k ro w else s

/-- R22 for a change of a zone's Hmax; R74 for a change of its factor. -/
def retimeZone (residual : Bool) (s : Station) (z : Nat) : Station :=
  s.forEntries fun s k ro w => if inZone z s w then s.retimeEntry residual k ro w else s

end Sys2Proof.Machine.Station
end

