-- ==== Sys2Proof/Machine/Arbiter.lean ====
section
/-! DEFINITION. The zone arbiters (06 R111 to R116; 09 R170, R172): candidates in class order, eligibility,
the grant computation, the grant, and the decision. -/

namespace Sys2Proof.Machine

/-- A candidate of a zone's arbiter (R111), classes 0 to 4. -/
inductive Candidate where
  | exerciseReturn (v : Nat)
  | closeEntry (k v : Nat)
  | reopenEntry (k v : Nat)
  | move (v : Nat)
  | exercise (v : Nat)
deriving DecidableEq, Repr, Inhabited

/-- The candidate's class (R111). -/
def Candidate.cls : Candidate → Nat
  | .exerciseReturn _ => 0
  | .closeEntry _ _ => 1
  | .reopenEntry _ _ => 2
  | .move _ => 3
  | .exercise _ => 4

/-- The candidate's valve. -/
def Candidate.valve : Candidate → Nat
  | .exerciseReturn v | .closeEntry _ v | .reopenEntry _ v | .move v | .exercise v => v

/-- Insert in an order. -/
def insertBy {α : Type} (before : α → α → Bool) (x : α) : List α → List α
  | [] => [x]
  | y :: ys => if before y x then y :: insertBy before x ys else x :: y :: ys

/-- Sort by insertion; elements neither before the other keep their order. -/
def sortBy {α : Type} (before : α → α → Bool) (xs : List α) : List α :=
  xs.foldl (fun ys x => insertBy (fun a b => !before b a) x ys) []

namespace Station

/-- The slots in a state, oldest time first, equal times by lower number (R111). -/
def slotsByAge (s : Station) (st : SlotState) (time : Slot → Option Nat) : List Nat :=
  let age (k : Nat) : Nat := ((time (s.slot k)).map (clockSince s.clock)).getD 0
  sortBy (fun a b => decide (age b < age a)) (slotNumbers.filter fun k => decide ((s.slot k).state = st))

/-- The candidates of class 0 in a zone. -/
def class0 (s : Station) (z : Nat) : List Candidate :=
  (s.md.returns.filter (inZone z s)).map .exerciseReturn

/-- PENDING entries of a list in a zone, in list order. -/
def pendingIn (s : Station) (z : Nat) (es : List Entry) : List Nat :=
  (es.filter fun e => decide (e.state = .pending) && inZone z s e.valve).map (·.valve)

/-- The candidates of class 1 in a zone. -/
def class1 (s : Station) (z : Nat) : List Candidate :=
  (s.slotsByAge .closing (·.authorized)).flatMap fun k => (s.pendingIn z (s.slot k).work).map (.closeEntry k)

/-- The candidates of class 2 in a zone. -/
def class2 (s : Station) (z : Nat) : List Candidate :=
  (s.slotsByAge .reopening (·.released)).flatMap fun k => (s.pendingIn z (s.slot k).reopen).map (.reopenEntry k)

/-- The candidates of class 3 in a zone. -/
def class3 (s : Station) (z : Nat) : List Candidate :=
  (s.md.moves.filter fun m => m.waiting && inZone z s m.valve).map (.move ·.valve)

/-- The candidates of class 4 in a zone. -/
def class4 (s : Station) (z : Nat) : List Candidate :=
  (s.xu.filter fun x => decide (x.phase = .queued ∧ x.zone = z)).map (.exercise ·.valve)

/-- The candidates of a zone in the order of R111. -/
def candidates (s : Station) (z : Nat) : List Candidate :=
  s.class0 z ++ s.class1 z ++ s.class2 z ++ s.class3 z ++ s.class4 z

/-- A stroke may start in the zone (R113). -/
def mayStart (s : Station) (z : Nat) : Bool :=
  decide (s.count z < (s.zoneRec z).slots) && decide ((s.zoneWatch z).state ≠ .hold) && !s.supplyWarning

/-- The valve's node is ready for a start: PRESENT with its attend-outstanding mark clear (R113). -/
def nodeReady (s : Station) (v : Nat) : Bool :=
  match s.nodeOf? v with
  | some n => decide ((s.node n).presence = .present) && !(s.node n).attend
  | none => false

/-- The candidate is eligible in the zone (R113, R172). -/
def eligible (s : Station) (z : Nat) (c : Candidate) : Bool :=
  s.mayStart z && s.nodeReady c.valve && decide ((s.vsOf c.valve).owner = none) &&
    match c with
    | .closeEntry k _ => !(s.slot k).replanPending
    | .exercise _ => !s.closeEntryWaits z
    | _ => true

/-- The first eligible candidate in the order of R111. -/
def firstEligible (s : Station) (z : Nat) : Option Candidate := (s.candidates z).find? (s.eligible z)

/-- Steps 1 to 3 of a grant (R116): the count rises, the stroke record is made, the motion owner is set. -/
def openStroke (s : Station) (v : Nat) (o : Owner) (target time : Nat) : Station :=
  let z := s.zoneOfValve v
  let d := s.vsOf v
  let s := s.raiseCount z
  let r : Stroke := { valve := v, zone := z, owner := o, target, time, before := (d.position, d.percent) }
  (s.addStroke r).modVs v fun d => { d with owner := some o }

/-- Step 5 of a grant (R116): the STROKE call is queued on the valve's line. -/
def queueStroke (s : Station) (v : Nat) : Station :=
  match s.nodeOf? v with
  | some n => s.modLine n.line fun l => { l with strokes := l.strokes ++ [n.address] }
  | none => s

/-- The percent held is within the tolerance of a target (R115). -/
def alreadyThere (s : Station) (v target : Nat) : Bool :=
  match (s.vsOf v).percent with
  | some p => withinTolerance target p
  | none => false

/-- A residual formed anew at a grant, when one is held (R76, R115). -/
def newResidual (s : Station) (v : Nat) (closes : Bool) (held : Option Nat) (tcmd tmin : Nat) : Option Nat :=
  match held, (s.vsOf v).percent with
  | some _, some p => some (residualTime closes tcmd p tmin)
  | _, _ => none

/-- Select a close or reopen entry (R115, R116). -/
def grantEntry (s : Station) (k : Nat) (ro : Bool) (v : Nat) : Station :=
  match s.entryIn k ro v, s.valve? v with
  | some e, some r =>
    let p := profileOf s v r
    let s := s.setTime k ro v p
    let target := if ro then 100 else 0
    if s.alreadyThere v target then s.completeEntry k ro v
    else
      let residual := s.newResidual v (!ro) e.residual p.tcmd r.tmin
      let o : Owner := if ro then .reopenEntry k else .closeEntry k
      let s := s.openStroke v o target (residual.getD p.tcmd)
      let s := s.modIn k ro v fun x => { x with state := .stroking, residual := residual }
      let s := if ro then s else s.joinClosedBy k v
      s.queueStroke v
  | _, _ => s

/-- Select a waiting MOVE_VALVE request (R78, R115, R116). A request counts as not carrying the surge-limited
mark before its grant computation, so each grant that sets the mark reports it (R75). -/
def grantMove (s : Station) (v : Nat) : Station :=
  match s.move? v, s.valve? v with
  | some m, some r =>
    let p := profileOf s v r
    let limited := m.given.isNone && p.limited
    let s := if limited then s.surgeLimited none v p.treq else s
    let tcmd := s.moveTime v r m
    let target := if m.closes then 0 else 100
    if s.alreadyThere v target then (s.positionFromPercent v).dropMove v
    else
      let residual := s.newResidual v m.closes m.residual tcmd r.tmin
      let s := s.openStroke v .move target (residual.getD tcmd)
      let s := s.modMove v fun m => { m with waiting := false, residual := residual, limited := limited }
      s.queueStroke v
  | _, _ => s

/-- Select a queued exercise (R170). -/
def grantExercise (s : Station) (v : Nat) : Station :=
  match s.exercise? v, s.valve? v with
  | some x, some r =>
    let d := s.vsOf v
    if d.position = .opened ∧ d.stale = false then
      let p := profileOf s v r
      let s := if p.limited then s.surgeLimited none v p.treq else s
      let s := s.openStroke v .exercise x.target (outwardTime p.tcmd x.target r.tmin)
      let s := s.modExercise v fun x => { x with phase := .outward }
      s.queueStroke v
    else s.finishWith v .notOpen
  | _, _ => s

/-- Select a waiting exercise return (R118, R172): it waits no longer. -/
def grantReturn (s : Station) (v : Nat) : Station :=
  let s := s.dropReturn v
  match s.valve? v with
  | some r =>
    let p := profileOf s v r
    let s := if p.limited then s.surgeLimited none v p.treq else s
    if s.alreadyThere v 100 then (s.positionFromPercent v).finishExercise v
    else
      let time := (s.newResidual v false (some 0) p.tcmd r.tmin).getD p.tcmd
      let s := s.openStroke v .exercise 100 time
      let s := s.modExercise v fun x => { x with phase := .returning }
      s.queueStroke v
  | none => s

/-- Select a candidate (R115, R116). -/
def select (s : Station) : Candidate → Station
  | .exerciseReturn v => s.grantReturn v
  | .closeEntry k v => s.grantEntry k false v
  | .reopenEntry k v => s.grantEntry k true v
  | .move v => s.grantMove v
  | .exercise v => s.grantExercise v

/-- A decision of a zone's arbiter (R114), with the test for the factor's return wherever the zone's entries
may have changed (R145). Each turn uses up one candidate, so the number of candidates bounds the turns. -/
def decideZone : Nat → Station → Nat → Station
  | 0, s, z => s.factorReturn z
  | n + 1, s, z =>
    let s := s.factorReturn z
    match s.firstEligible z with
    | some c => decideZone n (s.select c) z
    | none => s

/-- The arbiters decide, zone by zone (R114; log entry 12), and no zone is left with a factor that R145 has
returned to 1. -/
def decideAll (s : Station) : Station :=
  (zoneNumbers.foldl (fun s z => decideZone (s.candidates z).length s z) s).returnFactors

end Station
end Sys2Proof.Machine
end

