-- ==== Sys2Proof/Machine/Pressure.lean ====
section
/-! DEFINITION. The Pressure Watch (07): surge holds, settling, leaving HOLD, baselines, low runs and
suspicion. -/

namespace Sys2Proof.Machine

/-- A baseline moved one sixteenth of the way toward a sample, truncated toward zero (R135). -/
def trackBaseline (b head : Nat) : Nat := if b ≤ head then b + (head - b) / 16 else b - (b - head) / 16

/-- The sample is at or below the low level b − D (R136). -/
def isLow (b drop head : Nat) : Bool := decide (head + drop ≤ b)

/-- The sample is at or above the recovery level b − trunc(D / 2) (R136, R137). -/
def isRecovered (b drop head : Nat) : Bool := decide (b ≤ head + drop / 2)

/-- A head a usable sample may carry (R134). -/
def usableHead (head : Nat) : Bool := decide (head ≤ 4000)

/-- The settling level of a zone record (R131). -/
def settlingLevel (r : ZoneRec) : Nat := r.ceiling - r.hysteresis

namespace Station

/-- A notice of the watch about a sample: zone, segment, node and head (section 7.10). -/
def sampleNotice (s : Station) (kind : NoticeKind) (z n head : Nat) : Station :=
  match s.sensor? n with
  | some r => s.post { kind, zone := some z, segment := some r.segment, node := some r.node, value := some head }
  | none => s

/-- Every stroke in motion in a zone is halted with cause SURGE and the zone's HALTED entries gain it (step 3
of R140, R126). -/
def haltZone (s : Station) (z : Nat) : Station :=
  let vs := (s.md.strokes.filter fun r => decide (r.zone = z)).map (·.valve)
  let s := vs.foldl (fun s v => s.decideHalt v (.halted .surge)) s
  s.addCause .surge (inZone z)

/-- A sample above the ceiling puts a zone in HOLD: doubling F while it is 1, 2 or 4 (R140), in a persistent
hold at 8 (R141). -/
def enterHold (s : Station) (z n head : Nat) : Station :=
  let w := s.zoneWatch z
  let persist := decide (8 ≤ w.factor)
  let s := if w.state = .quiet then s.setSampleDue z (some s.clock) else s
  let s := s.modZoneWatch z fun w =>
    { w with
      state := .hold
      heldAt := some s.clock
      settleAt := if persist then none else some s.clock
      persist := persist
      factor := if persist then w.factor else w.factor * 2 }
  let s := if persist then s else s.retimeZone true z
  let s := s.haltZone z
  s.sampleNotice (if persist then .surgePersist else .surgeHold) z n head

/-- A usable sample judged for surge and settling (R140 to R142). -/
def judgeZone (s : Station) (z n head : Nat) : Station :=
  let w := s.zoneWatch z
  let r := s.zoneRec z
  if w.state = .hold then
    if w.persist = false ∧ settlingLevel r ≤ head then s.modZoneWatch z fun w => { w with settleAt := some s.clock }
    else s
  else if r.ceiling < head then s.enterHold z n head
  else s

/-- A zone leaves HOLD (R143). The arbiter's decision follows at the command's end. -/
def leaveHold (s : Station) (z : Nat) (c : Cause) : Station :=
  let quiet := decide (s.count z = 0)
  let s := s.modZoneWatch z fun w =>
    { w with heldAt := none, settleAt := none, persist := false, state := if quiet then .quiet else .watch }
  let s := if quiet then s.setSampleDue z none else s
  let s := s.endCause .surge (inZone z)
  let s := s.factorReturn z
  s.post { kind := .surgeResumed, zone := some z, cause := some c, value := some (s.zoneWatch z).factor }

/-- The settle timer of a zone: when it expires (R142). -/
def settleExpiry? (s : Station) (z : Nat) : Option Nat :=
  let w := s.zoneWatch z
  if w.state = .hold ∧ w.persist = false then
    w.settleAt.map fun t => clockAfter t (10 * (s.zoneRec z).settle)
  else none

/-- A usable sample judged for low runs, suspicion and the baseline (R135 to R138). -/
def judgeSensor (s : Station) (z n head : Nat) : Station :=
  match s.sensor? n with
  | none => s
  | some r =>
    let w := s.sensorWatch n
    let zr := s.zoneRec z
    let s := s.modSensorWatch n fun w => { w with last := some (head, s.clock) }
    match w.baseline with
    | none => s.modSensorWatch n fun w => { w with baseline := some head }
    | some b =>
      let track (s : Station) : Station := s.modSensorWatch n fun w => { w with baseline := some (trackBaseline b head) }
      if w.suspicion then
        if isRecovered b zr.drop head then track (s.modSensorWatch n fun w => { w with suspicion := false }) else s
      else if s.owned r.segment then track s
      else if isLow b zr.drop head then
        match w.lowRun with
        | none => track (s.modSensorWatch n fun w => { w with lowRun := some s.clock })
        | some t =>
          if 10 * zr.detect ≤ clockSince s.clock t then
            (s.modSensorWatch n fun w => { w with suspicion := true, lowRun := none }).sampleNotice
              .burstSuspected z n head
          else track s
      else track (s.modSensorWatch n fun w => { w with lowRun := none })

/-- A SAMPLE answer delivered to a sensor (R134): the zone is judged before the sensor (log entry 15). -/
def takeSample (s : Station) (n : Nat) (st : AnswerState) (head : Nat) : Station :=
  if (st = .ready ∨ st = .attend) ∧ usableHead head then
    let z := s.zoneOfSensor n
    (s.judgeZone z n head).judgeSensor z n head
  else s

/-- A sensor's node is declared ABSENT: its low run is dropped (R132). -/
def sensorLost (s : Station) (n : Nat) : Station := s.modSensorWatch n fun w => { w with lowRun := none }

end Station
end Sys2Proof.Machine
end

