-- ==== Sys2Proof/Machine/Calls.lean ====
section
/-! DEFINITION. The call arbiter of a field line (08 R157 to R159): which call is started, and the due times
that make calls. -/

namespace Sys2Proof.Machine

/-- The roll period in tenths: 0.5 s × 2^k (R6). -/
def rollPeriod (t : Timing) : Nat := 5 * 2 ^ t.exponent

/-- Of two addresses with due times, the one due earlier comes first, then the lower (R157). -/
def dueFirst (now : Nat) (x y : Nat × Nat) : Bool :=
  decide (clockSince now y.2 < clockSince now x.2 ∨ (clockSince now y.2 = clockSince now x.2 ∧ x.1 ≤ y.1))

/-- The address due first among those whose due time has been reached. -/
def earliest (now : Nat) (xs : List (Nat × Nat)) : Option Nat :=
  ((xs.filter fun x => clockReached now x.2).foldl
    (fun best x =>
      match best with
      | none => some x
      | some y => if dueFirst now y x then some y else some x) none).map (·.1)

/-- A DETAIL due time that has fallen 0.5 s or more behind the clock is brought forward (R158). -/
def broughtForward (now due : Nat) : Nat := if clockReached now due ∧ 5 ≤ clockSince now due then now else due

namespace Station

/-- Bring forward the DETAIL due times of a line (R158). -/
def bringForward (s : Station) (l : Line) : Station :=
  s.modLine l fun x =>
    { x with nodes := x.nodes.map fun p => (p.1, { p.2 with detailDue := p.2.detailDue.map (broughtForward s.clock) }) }

/-- The sensor at a place is sampled in class 5: its zone is in WATCH or HOLD (R133). -/
def sampledFast (s : Station) (n : Node) : Bool :=
  match s.occupant? n with
  | some (.sensor k) => decide ((s.zoneWatch (s.zoneOfSensor k)).state ≠ .quiet)
  | _ => false

/-- Class 2 (R156): the lowest PRESENT address with the mark set, and the call its step asks for. -/
def handshakeCall (s : Station) (l : Line) : Option Call :=
  (List.find? (fun p => decide (p.2.presence = .present) && p.2.attend) (s.line l).nodes).map fun p =>
    .addressed p.1 (match p.2.step with | .needDetail => .detail | .needAcknowledge => .acknowledge) 2

/-- Class 3 (R157): the first queued STROKE whose node is PRESENT with the mark clear. -/
def strokeAddress (s : Station) (l : Line) : Option Nat :=
  if s.supplyWarning then none
  else (s.line l).strokes.find? fun a =>
    let e := (s.line l).nodes.readD {} a
    decide (e.presence = .present) && !e.attend

/-- Class 4 (R158): the PRESENT actuator with the mark clear whose DETAIL is due first. -/
def detailAddress (s : Station) (l : Line) : Option Nat :=
  earliest s.clock ((s.line l).nodes.filterMap fun p =>
    if p.2.kind = .actuator ∧ p.2.presence = .present ∧ p.2.attend = false then p.2.detailDue.map fun d => (p.1, d)
    else none)

/-- Class 5 (R157, R159): among the sensors of zones in WATCH or HOLD, the one whose SAMPLE is due first. Such a
sensor with no SAMPLE due time, placed there by PUT_SENSOR, is due now (log entry 16). -/
def sampleAddress (s : Station) (l : Line) : Option Nat :=
  earliest s.clock ((s.line l).nodes.filterMap fun p =>
    if p.2.kind = .sensor ∧ s.sampledFast ⟨l, p.1⟩ = true then some (p.1, p.2.sampleDue.getD s.clock) else none)

/-- Class 6 (R159): the lowest due address above the roll pointer, else the lowest due one. -/
def rollAddress (s : Station) (l : Line) : Option Nat :=
  let x := s.line l
  let due := (x.nodes.filter fun p =>
    decide (p.2.kind ≠ .none) && !s.sampledFast ⟨l, p.1⟩ &&
      (match p.2.rollDue with | some d => clockReached s.clock d | none => false)).map (·.1)
  match due.find? fun a => decide (x.rollPointer < a) with
  | some a => some a
  | none => due.head?

/-- The line starts the call that comes first in the classes of R157, when it is free. Before its start-up
clear has been queued a line sends nothing (R184). -/
def startCall (s : Station) (l : Line) : Station :=
  let x := s.line l
  if x.started = false ∨ x.onLine.isSome then s
  else
    let s := s.bringForward l
    match x.broadcasts, x.halts with
    | b :: bs, _ => s.modLine l fun x => { x with broadcasts := bs, onLine := some (.broadcast b) }
    | [], a :: as => s.modLine l fun x => { x with halts := as, onLine := some (.addressed a .halt 1) }
    | [], [] =>
      match s.handshakeCall l with
      | some c => s.modLine l fun x => { x with onLine := some c }
      | none =>
        match s.strokeAddress l with
        | some a => s.modLine l fun x =>
            { x with strokes := x.strokes.erase a, onLine := some (.addressed a .stroke 3) }
        | none =>
          match s.detailAddress l with
          | some a => s.modLine l fun x => { x with onLine := some (.addressed a .detail 4) }
          | none =>
            match s.sampleAddress l with
            | some a => s.modLine l fun x => { x with onLine := some (.addressed a .sample 5) }
            | none =>
              match s.rollAddress l with
              | none => s
              | some a =>
                let kind := if (s.node ⟨l, a⟩).kind = .sensor then CallKind.sample else CallKind.poll
                s.modLine l fun x => { x with rollPointer := a, onLine := some (.addressed a kind 6) }

/-- Call kind codes of addressed calls (R200). -/
def callCode : CallKind → Nat
  | .poll => 0x01
  | .detail => 0x02
  | .stroke => 0x03
  | .halt => 0x04
  | .acknowledge => 0x05
  | .sample => 0x06

/-- The payload of an addressed call: the target and the time carried of a STROKE, nothing otherwise (R148,
R200). -/
def callPayload (s : Station) (n : Node) : CallKind → List Byte
  | .stroke =>
    match s.occupant? n with
    | some (.valve v) =>
      match s.stroke? v with
      | some r => byte1 r.target ++ byte2 r.time
      | none => []
    | _ => []
  | _ => []

/-- Address, kind and payload of the call on a line: what its check is formed over (R200). -/
def callBody (s : Station) (l : Line) : Call → List Byte
  | .broadcast (.clear _) => [0#8, 7#8]
  | .broadcast .halt => [0#8, 4#8]
  | .addressed a k _ => byte1 a ++ byte1 (callCode k) ++ s.callPayload ⟨l, a⟩ k

/-- The frame a line sends for the call it carries (R147, R200): computed from the call and its stroke record,
and no state of its own. -/
def callFrame? (s : Station) (l : Line) : Option (List Byte) :=
  (s.line l).onLine.map fun c => s.callBody l c ++ checkBytes (s.callBody l c)

/-- The line's driver enable output, ADE or BDE (R147): asserted while a call is transmitted. A broadcast is being
transmitted until the command that says it has been sent; an addressed call is transmitted within the step of its
CALL_START and its driver is released before the answer's command (log entry 48). -/
def driverEnabled (s : Station) (l : Line) : Bool :=
  match (s.line l).onLine with
  | some (.broadcast _) => true
  | _ => false

/-- Queue the start-up clear of both lines once the settle wait and loading have both ended (R184): each goes
to the head of class 1, and from then on its line serves calls. -/
def startLines (s : Station) : Station :=
  if s.ss.settling ∨ s.ss.station = .loading then s
  else
    let go (x : FieldLine) : FieldLine :=
      if x.started then x else { x with started := true, broadcasts := .clear true :: x.broadcasts }
    { s with lineA := go s.lineA, lineB := go s.lineB }

/-- An edit changes the kind of an address (R152); an edit that leaves the kind leaves the entry. -/
def setKind (s : Station) (n : Node) (k : NodeKind) : Station :=
  if (s.node n).kind = k then s
  else (s.dropQueued n).modNode n fun _ =>
    { kind := k, rollDue := if k = .none then none else some s.clock }

end Station
end Sys2Proof.Machine
end

