-- ==== Sys2Proof/Machine/Answers.lean ====
section
/-! DEFINITION. The ends of calls (08 R147, R153 to R156, R160, R162, R164) and what Motion Dispatch makes of
them (06 R119 to R123). -/

namespace Sys2Proof.Machine

/-- An answer whose frame stands (R200): its state and the bytes of its payload. -/
structure Answer where
  state : AnswerState
  payload : List Byte
deriving DecidableEq, Repr, Inhabited

/-- Answer state codes (R200). -/
def answerState? : Nat → Option AnswerState
  | 0 => some .ready
  | 1 => some .moving
  | 2 => some .fault
  | 3 => some .attend
  | _ => none

/-- The payload is one the kind of call and of node admits (R200). -/
def payloadFits (call : CallKind) (node : NodeKind) (p : List Byte) : Bool :=
  match call with
  | .detail => if node = .actuator then p.length == 4 else p.length == 0
  | .stroke => match p with | [r] => decide (r.toNat ≤ 3) | _ => false
  | .sample => p.length == 2
  | .poll | .halt | .acknowledge => p.length == 0

/-- Read an answer frame to a call (R147, R200); none when the answer counts as missing. -/
def readAnswer? (address : Nat) (call : CallKind) (node : NodeKind) (bytes : List Byte) : Option Answer :=
  let body := bytes.take (bytes.length - 2)
  match body with
  | a :: st :: p =>
    if bytes = body ++ checkBytes body ∧ a.toNat = address ∧ payloadFits call node p then
      (answerState? st.toNat).map fun st => { state := st, payload := p }
    else none
  | _ => none

/-- The DETAIL answer of an actuator (R148, R200). -/
def detailOf (a : Answer) : Station.DetailAnswer :=
  match a.payload with
  | [p, t, f, m] =>
    { state := a.state, percent := p.toNat, torque := t.toNat, faults := f.truncate 4, localMark := decide (m ≠ 0) }
  | _ => { state := a.state, percent := 0, torque := 0, faults := 0, localMark := false }

namespace Station

/-- The valve at a place, when the node map names one (R7). -/
def valveAt? (s : Station) (n : Node) : Option Nat :=
  match s.occupant? n with
  | some (.valve v) => some v
  | _ => none

/-- An addressed call completes (R147): the line is free, the roll due time is reckoned and, after a class 5
call, the SAMPLE due time (R159). Where the sensor's zone has returned to QUIET during the call, the due time stays as
that return left it, absent (the model's choice, log entry 16). -/
def completeCall (s : Station) (n : Node) (cls : Nat) : Station :=
  let s := s.modLine n.line fun x => { x with onLine := none }
  if (s.node n).kind = .none then s
  else s.modNode n fun e =>
    { e with
      rollDue := some (clockAfter s.clock (rollPeriod s.nt.timing))
      sampleDue := if cls = 5 ∧ s.sampledFast n = true then some (clockAfter s.clock 10) else e.sampleDue }

/-- The stroke needs an addressed HALT: its end was not decided by the supply warning, whose broadcast ends it
(R124, R164). -/
def needsHalt (r : Stroke) : Bool := decide (r.pendingEnd ≠ some (.halted .supply) ∨ r.supplyWait = 0)

/-- A stroke whose end was decided while its STROKE call awaited an answer goes to HALTING when the call
completes (R124). -/
def toHalting (s : Station) (r : Stroke) : Station :=
  let s := s.modStroke r.valve fun x => { x with phase := .halting }
  if needsHalt r then s.queueHalt r.valve else s

/-- The node accepts a STROKE, or is taken to have accepted it (R119, R120, R28, R79, R158). -/
def acceptStroke (s : Station) (r : Stroke) : Station :=
  let s := s.modStroke r.valve fun x =>
    { x with
      phase := .moving, accepted := some s.clock, timeout := some (strokeTimeout x.time), overCount := 0
      missedSending := false }
  let s := s.reposition r.valve fun d =>
    { d with
      position :=
        match d.percent with
        | some p => if r.target < p then .closing else .opening
        | none => if r.target = 0 then .closing else .opening }
  let s :=
    match s.nodeOf? r.valve with
    | some n => s.modNode n fun e => { e with detailDue := some (clockAfter s.clock 5) }
    | none => s
  if r.pendingEnd.isSome then s.toHalting r else s

/-- The STROKE call is queued again with sendings 2 (R120). -/
def sendAgain (s : Station) (v : Nat) : Station :=
  (s.modStroke v fun x => { x with sendings := 2, awaitsHandshake := false, awaitsDetail := false }).queueStroke v

/-- The answer to a STROKE call (R119, R120); codes 0 accepted, 1 ATTEND_PENDING, 2 LOCAL, 3 BUSY. BUSY is 'after a
sending that drew no answer' when the sending just before drew none; an ATTEND_PENDING or BUSY refusal in between ends
that (the model's choice, log entry 53). -/
def takeStrokeAnswer (s : Station) (n : Node) (v : Nat) (code : Nat) : Station :=
  match s.stroke? v with
  | none => s
  | some r =>
    if r.phase ≠ .sending then s
    else
      let s := if code = 1 then s.modNode n fun e => { e with attend := true, step := .needDetail } else s
      if code = 0 ∨ (code = 3 ∧ r.missedSending) then s.acceptStroke r
      else if r.pendingEnd.isSome then s.toHalting r
      else if code = 2 then endStroke false s r (.failed .localMode)
      else if r.sendings = 2 then endStroke false s r (.failed .nodeFault)
      else if code = 1 then
        s.modStroke v fun x => { x with awaitsHandshake := true, missedSending := false }
      else
        (s.modStroke v fun x => { x with awaitsDetail := true, missedSending := false }).modNode n fun e =>
          { e with detailDue := some s.clock }

/-- A STROKE call drew no answer (R120): queued again at the head, or on to the HALT that was decided. -/
def missStroke (s : Station) (n : Node) (v : Nat) : Station :=
  match s.stroke? v with
  | none => s
  | some r =>
    if r.phase ≠ .sending then s
    else if r.pendingEnd.isSome then s.toHalting r
    else
      (s.modStroke v fun x => { x with missedSending := true }).modLine n.line fun x =>
        { x with strokes := n.address :: x.strokes }

/-- A HALT call has completed (R124): the stroke ends with the end decided. -/
def haltCompleted (s : Station) (v : Nat) : Station :=
  match s.stroke? v with
  | none => s
  | some r =>
    match r.phase, r.pendingEnd with
    | .halting, some e => endStroke false s r e
    | _, _ => s

/-- Stall detection (R177): the count after an answer in MOVING. -/
def countAfter (count torque threshold : Nat) : Nat := if threshold ≤ torque then min (count + 1) 16 else 0

/-- MD judges a DETAIL answer for a stroke in MOVING (R121). -/
def judgeStroke (s : Station) (v : Nat) (a : DetailAnswer) : Station :=
  match s.stroke? v, s.valve? v with
  | some r, some x =>
    if r.phase ≠ .moving then s
    else if a.state = .fault then endStroke false s r (.failed .nodeFault)
    else if a.localMark then endStroke false s r (.failed .localMode)
    else match a.state with
      | .attend => endStroke false s r (.halted .clear)
      | .ready =>
        if usablePosition a = false then endStroke false s r (.failed .nodeFault)
        else if withinTolerance r.target a.percent then endStroke false s r .completed
        else endStroke false s r (.failed .shortStroke)
      | _ =>
        let n := countAfter r.overCount a.torque x.stall
        let s := s.modStroke v fun x => { x with overCount := n }
        if s.nt.timing.window ≤ n then s.decideHalt v (.failed .stall) else s
  | _, _ => s

/-- A DETAIL call has completed: its due time is set again where R158 says so. `prev` is the due time before
the call. -/
def rearmDetail (s : Station) (n : Node) (v : Nat) (prev : Option Nat) : Station :=
  if (s.node n).detailDue.isSome then s
  else
    let series :=
      match s.stroke? v with
      | some r => r.accepted.isSome
      | none => false
    let waits :=
      match s.stroke? v with
      | some r => r.awaitsDetail
      | none => false
    if series then
      s.modNode n fun e => { e with detailDue := some (broughtForward s.clock (clockAfter (prev.getD s.clock) 5)) }
    else if (s.vsOf v).request ∨ waits then s.modNode n fun e => { e with detailDue := some s.clock }
    else s

/-- A DETAIL answer of an actuator delivered to VS and then to MD (R153, R27, R28, R121, R120). -/
def takeDetail (s : Station) (v : Nat) (a : DetailAnswer) : Station :=
  if (s.vsOf v).owner.isSome then
    let s := (s.takeDetailInMotion v a).judgeStroke v a
    match s.stroke? v with
    | some r => if r.awaitsDetail then s.sendAgain v else s
    | none => s
  else s.takeDetailAtRest v a

/-- The attend-outstanding mark of a place clears (R156): a held STROKE is sent, CLEAR ends for the valve's
entries. -/
def markCleared (s : Station) (n : Node) : Station :=
  let s := s.modNode n fun e => { e with attend := false, step := .needDetail }
  match s.valveAt? n with
  | none => s
  | some v =>
    let s :=
      match s.stroke? v with
      | some r => if r.awaitsHandshake then s.sendAgain v else s
      | none => s
    s.endCause .clear fun _ w => decide (w = v)

/-- Step 2 of R153 on a node-table entry: the last answer state and time; ATTEND sets the mark with step
NEED_DETAIL, or returns the step to it when another call than the handshake's drew it (R156); a FAULT answer
of an actuator to another call than DETAIL makes a DETAIL due (R153, R158). -/
def noteState (now : Nat) (call : CallKind) (cls : Nat) (st : AnswerState) (e : NodeEntry) : NodeEntry :=
  let attends := decide (st = AnswerState.attend)
  let restart := attends && (!e.attend || decide (cls ≠ 2))
  let faulty := decide (st = AnswerState.fault ∧ e.kind = NodeKind.actuator ∧ call ≠ CallKind.detail)
  { e with
    last := some (st, now)
    attend := e.attend || attends
    step := if restart then HandshakeStep.needDetail else e.step
    detailDue := if faulty then some (e.detailDue.getD now) else e.detailDue }

/-- Step 1 of R153: the miss count becomes 0 and the node PRESENT; from ABSENT a notice is posted, and from
ABSENT or UNKNOWN Valve State is told (R31, R37). -/
def takePresence (s : Station) (n : Node) : Station :=
  let before : Presence := (s.node n).presence
  let s := s.modNode n fun e => { e with misses := 0, presence := Presence.present }
  let s := if before = Presence.absent then s.post { kind := .nodePresent, node := some n } else s
  match s.valveAt? n with
  | some v => if before = Presence.present then s else s.nodeFound v
  | none => s

/-- Step 2 of R153, with the class of the mapped valve derived again (R37). -/
def takeState (s : Station) (n : Node) (call : CallKind) (cls : Nat) (st : AnswerState) : Station :=
  let s := s.modNode n (noteState s.clock call cls st)
  match s.valveAt? n with
  | some v => s.refreshClass v
  | none => s

/-- Step 3 of R153: hand the answer to the block that uses it. An answer its record cannot use updates the
node table alone (R152). -/
def deliver (s : Station) (n : Node) (call : CallKind) (a : Answer) : Station :=
  match call, s.occupant? n with
  | .detail, some (.valve v) => s.takeDetail v (detailOf a)
  | .stroke, some (.valve v) =>
    match a.payload with
    | [r] => s.takeStrokeAnswer n v r.toNat
    | _ => s
  | .halt, some (.valve v) => s.haltCompleted v
  | .sample, some (.sensor k) =>
    match a.payload with
    | [lo, hi] => s.takeSample k a.state (num2 lo hi)
    | _ => s
  | _, _ => s

/-- The handshake's own calls (R156). -/
def advanceHandshake (s : Station) (n : Node) (call : CallKind) (st : AnswerState) : Station :=
  if (s.node n).attend = false then s
  else
    match call with
    | .detail => s.modNode n fun e => { e with step := .needAcknowledge }
    | .acknowledge => if st = .attend then s.modNode n fun e => { e with step := .needDetail } else s.markCleared n
    | _ => s

/-- Clear the DETAIL due time when a DETAIL call completes (R158). -/
def clearDetailDue (s : Station) (n : Node) (call : CallKind) : Station :=
  if call = .detail then s.modNode n fun e => { e with detailDue := none } else s

/-- Set the DETAIL due time again after a DETAIL call to an actuator (R158). -/
def rearmAfter (s : Station) (n : Node) (call : CallKind) (prev : Option Nat) : Station :=
  match call, s.valveAt? n with
  | .detail, some v => s.rearmDetail n v prev
  | _, _ => s

/-- An addressed call has drawn an answer that is not missing (R153, R156, R160). -/
def takeAnswer (s : Station) (n : Node) (call : CallKind) (cls : Nat) (a : Answer) : Station :=
  let prev := (s.node n).detailDue
  let s := (s.completeCall n cls).clearDetailDue n call
  let s := ((s.takePresence n).takeState n call cls a.state).deliver n call a
  let s := if cls = 2 then s.advanceHandshake n call a.state else s
  s.rearmAfter n call prev

/-- A node is declared ABSENT (R154): in order NODE_ABSENT, Valve State, the stroke in motion, the sensor's
low run, then the due time, the handshake step and the queued calls. -/
def declareAbsent (s : Station) (n : Node) : Station :=
  let s := s.modNode n fun e => { e with presence := .absent }
  let s := s.post { kind := .nodeAbsent, node := some n }
  let s :=
    match s.occupant? n with
    | some (.valve v) =>
      let s := s.nodeLost v
      match s.stroke? v with
      | some r => endStroke true s r (r.pendingEnd.getD (.failed .nodeAbsent))
      | none => s
    | some (.sensor k) => s.sensorLost k
    | none => s
  (s.dropQueued n).modNode n fun e => { e with detailDue := none, step := .needDetail }

/-- A missed call is treated by its requester (R120, R124, R154, R156). -/
def missedCall (s : Station) (n : Node) (call : CallKind) : Station :=
  match call with
  | .acknowledge => s.modNode n fun e => { e with step := .needDetail }
  | .stroke =>
    match s.valveAt? n with
    | some v => s.missStroke n v
    | none => s
  | .halt =>
    match s.valveAt? n with
    | some v => s.haltCompleted v
    | none => s
  | _ => s

/-- An addressed call has drawn a missing answer (R154). -/
def takeMiss (s : Station) (n : Node) (call : CallKind) (cls : Nat) : Station :=
  let prev := (s.node n).detailDue
  let s := (s.completeCall n cls).clearDetailDue n call
  let e := s.node n
  if e.kind = .none then s
  else
    let misses := min (e.misses + 1) 3
    let s := s.modNode n fun e => { e with misses := misses }
    if misses = 3 ∧ e.presence ≠ .absent then s.declareAbsent n
    else (s.missedCall n call).rearmAfter n call prev

/-- Bytes arrive on a line (R147, R153): they are taken for the addressed call that awaits its answer, as a
missing answer when they do not stand; at other times they are discarded. The node's kind that R200 judges the length
by is the one the address has as the answer arrives (the model's choice, log entry 54). -/
def answerArrives (s : Station) (l : Line) (bytes : List Byte) : Station :=
  match (s.line l).onLine with
  | some (.addressed a call cls) =>
    let n : Node := ⟨l, a⟩
    let kind := (s.node n).kind
    if kind = .none then s.completeCall n cls
    else
      match readAnswer? a call kind bytes with
      | some x => s.takeAnswer n call cls x
      | none => s.takeMiss n call cls
  | _ => s

/-- The answer timeout of the call on a line expires (R154). -/
def answerMissing (s : Station) (l : Line) : Station :=
  match (s.line l).onLine with
  | some (.addressed a call cls) => s.takeMiss ⟨l, a⟩ call cls
  | _ => s

/-- The strokes in motion whose valve's node is on a line. -/
def strokesOn (s : Station) (l : Line) : List Nat := (s.md.strokes.map (·.valve)).filter (onLineOf l s)

/-- A CLEAR ends a stroke at once (step 1 of R162): with the end already decided, CLEAR joining a halt by a
passing cause, or as a halt with cause CLEAR. -/
def clearStroke (s : Station) (v : Nat) : Station :=
  match s.stroke? v with
  | none => s
  | some r =>
    match r.pendingEnd with
    | some (.halted h) => endStroke false s { r with joined := r.joined.join .clear } (.halted h)
    | some e => endStroke false s r e
    | none => endStroke false s r (.halted .clear)

/-- A CLEAR has been sent on a line (R162). -/
def clearIsSent (s : Station) (l : Line) : Station :=
  match (s.line l).onLine with
  | some (.broadcast (.clear startUp)) =>
    let s := s.modLine l fun x => { x with onLine := none }
    let s := (s.strokesOn l).foldl clearStroke s
    let s := s.addCause .clear (onLineOf l)
    let s := s.modLine l fun x =>
      { x with
        nodes := x.nodes.map fun p =>
          if p.2.kind = .none then p
          else (p.1, { p.2 with
            attend := true, step := .needDetail
            rollDue := if startUp then some s.clock else p.2.rollDue }) }
    if startUp then s else s.post { kind := .lineCleared, node := some ⟨l, 0⟩ }
  | _ => s

/-- One broadcast HALT of its line has been sent for a stroke that the supply warning halts (R164). -/
def broadcastStroke (s : Station) (v : Nat) : Station :=
  match s.stroke? v with
  | none => s
  | some r =>
    if r.supplyWait = 1 then
      match r.pendingEnd with
      | some e => endStroke false s r e
      | none => s
    else s.modStroke v fun x => { x with supplyWait := x.supplyWait - 1 }

/-- A broadcast HALT has been sent on a line (R164). -/
def broadcastIsSent (s : Station) (l : Line) : Station :=
  match (s.line l).onLine with
  | some (.broadcast .halt) =>
    let s := s.modLine l fun x => { x with onLine := none }
    (s.strokesOn l).foldl broadcastStroke s
  | _ => s

/-- The broadcast HALTs of a line not yet sent. -/
def broadcastHalts (x : FieldLine) : Nat :=
  x.broadcasts.count .halt + (if x.onLine = some (.broadcast .halt) then 1 else 0)

/-- The supply warning halts one stroke in motion (R163, R164). -/
def supplyHalt (s : Station) (v : Nat) : Station :=
  match s.stroke? v, s.nodeOf? v with
  | some r, some n =>
    let wait := broadcastHalts (s.line n.line)
    let mark (x : Stroke) : Stroke := { x with supplyWait := if x.supplyWait = 0 then wait else x.supplyWait }
    match r.pendingEnd with
    | some p => (s.joinEnd v p (.halted .supply)).modStroke v mark
    | none =>
      match r.phase with
      | .sending =>
        if s.strokeOnLine v then s.modStroke v fun x => mark { x with pendingEnd := some (.halted .supply) }
        else endStroke false s r (.halted .supply)
      | .moving => s.modStroke v fun x => mark { x with phase := .halting, pendingEnd := some (.halted .supply) }
      | .halting => s
  | _, _ => s

/-- The supply warning becomes qualified (R163, R164). -/
def warningQualifies (s : Station) : Station :=
  if s.supplyWarning then s
  else
    let s := { s with supplyWarning := true }
    let s := s.post { kind := .supplyWarning }
    let s := s.modLine .a fun x => { x with broadcasts := x.broadcasts ++ [.halt] }
    let s := s.modLine .b fun x => { x with broadcasts := x.broadcasts ++ [.halt] }
    let s := (s.md.strokes.map (·.valve)).foldl supplyHalt s
    s.addCause .supply fun _ _ => true

/-- The supply warning clears (R163, R127). -/
def warningClears (s : Station) : Station :=
  if s.supplyWarning then
    ({ s with supplyWarning := false }.post { kind := .supplyRestored }).endCause .supply fun _ _ => true
  else s

end Station
end Sys2Proof.Machine
end

