-- ==== Sys2Proof/Machine/Planner.lean ====
section
/-! DEFINITION. A computation round of the Isolation Planner (03 sections 3.3 to 3.8, 3.10): region, boundary,
merge test, source test, caps, closure order, stroke times and the cut-off report. -/

namespace Sys2Proof.Machine

/-- An entry of a plan (R67), with the scaled time its SURGE_LIMITED notice carries (R75). -/
structure PlanEntry where
  valve : Nat
  kind : EntryKind
  tcmd : Nat := 0
  treq : Nat := 0
  limited : Bool := false
  offNormal : Bool := false
deriving DecidableEq, Repr, Inhabited

/-- A plan (R67). -/
structure Plan where
  region : List Nat
  merged : List Nat
  overrideRequired : Bool
  entries : List PlanEntry
  report : Report
deriving DecidableEq, Repr, Inhabited

/-- How a round ends: it merges with a slot (R62), or the computation ends UNISOLABLE (R68) or with a plan
(R67). -/
inductive RoundEnd where
  | merge (slot : Nat)
  | unisolable (reason : Cause) (figure : Nat)
  | plan (p : Plan)
deriving DecidableEq, Repr, Inhabited

/-- Insert a number in an ascending list, once. -/
def insertNumber (n : Nat) : List Nat → List Nat
  | [] => [n]
  | m :: ms => if n = m then m :: ms else if n < m then n :: m :: ms else m :: insertNumber n ms

/-- The numbers of a list, ascending and once each. -/
def ascending (ns : List Nat) : List Nat := ns.foldl (fun xs n => insertNumber n xs) []

/-- The numbers of the first list followed by those of the second not present yet (R84, R55). -/
def unionList (xs ys : List Nat) : List Nat :=
  ys.foldl (fun acc y => if acc.contains y then acc else acc ++ [y]) xs

namespace Station

/-- The valve spreads the set: exactly one side lies in it and the other joins. -/
def spread (r : Valve) (set : List Nat) : List Nat :=
  match set.contains r.sideA, set.contains r.sideB with
  | true, false => insertNumber r.sideB set
  | false, true => insertNumber r.sideA set
  | _, _ => set

/-- One traversal step over every present valve that carries. -/
def spreadOnce (carries : Nat → Bool) (valves : Table Valve) (set : List Nat) : List Nat :=
  valves.foldl (fun set p => if carries p.1 then spread p.2 set else set) set

/-- The set closed under the step, or the first one that is `full` (R50, R51, R58); `n` bounds the steps. -/
def spreadAll (carries : Nat → Bool) (valves : Table Valve) (full : List Nat → Bool) : Nat → List Nat → List Nat
  | 0, set => set
  | n + 1, set =>
    let wider := spreadOnce carries valves set
    if wider.length = set.length ∨ full wider = true then wider else spreadAll carries valves full n wider

/-- The region grown from a seed list across passable valves (R50); longer than 48 when too large (R51). -/
def regionOf (s : Station) (seed : List Nat) : List Nat :=
  spreadAll (fun v => decide (usability? s v = some .passable)) s.nt.valves
    (fun set => decide (Config.regionCap < set.length)) (Config.regionCap + 1) (ascending seed)

/-- The valve has exactly one side in the region (R52). -/
def onBoundary (region : List Nat) (r : Valve) : Bool := region.contains r.sideA != region.contains r.sideB

/-- The boundary of a region, ascending (R52). -/
def boundaryOf (s : Station) (region : List Nat) : List (Nat × Valve) :=
  s.nt.valves.filter fun p => onBoundary region p.2

/-- The closable valves of a boundary (R52). -/
def closableOf (s : Station) (b : List (Nat × Valve)) : List (Nat × Valve) :=
  b.filter fun p => decide (usability? s p.1 = some .closable)

/-- The barrier valves of a boundary (R52). -/
def barriersOf (s : Station) (b : List (Nat × Valve)) : List (Nat × Valve) :=
  b.filter fun p => decide (usability? s p.1 = some .barrier)

/-- The reading a computation uses of a valve: the one it keeps, else the present values (R57). -/
def readingOf (s : Station) (f : Flight) (v : Nat) (r : Valve) : Reading :=
  (f.readings.find? v).getD { velocity := s.effectiveVelocity v, health := r.health }

/-- The readings kept from a round that merges: of every valve its region touches (R57, log entry 17). -/
def keepReadings (s : Station) (f : Flight) (region : List Nat) : Table Reading :=
  s.nt.valves.foldl
    (fun t p =>
      if region.contains p.2.sideA || region.contains p.2.sideB then t.put p.1 (s.readingOf f p.1 p.2) else t)
    f.readings

/-- The slot states the merge test looks at (R61), which also refuse a new report of a burst (R87). -/
def testedState (st : SlotState) : Bool :=
  match st with
  | .planning | .planned | .closing | .isolated | .unisolable | .aborted => true
  | .free | .reopening | .done => false

/-- The lowest slot the merge test finds (R61, R62) among those open when it is made. -/
def mergeSlot? (s : Station) (f : Flight) (unseen region : List Nat) : Option Nat :=
  slotNumbers.find? fun k =>
    decide (k ≠ f.slot) && !unseen.contains k && testedState (s.slot k).state &&
      (region.any (fun n => decide (s.owner? n = some k)) || (s.slot k).burst.any region.contains)

/-- The closure order of two closing entries (R56): SUSPECT before SOUND, then the higher velocity, then the
lower number. -/
def closesBefore (x y : Nat × Reading) : Bool :=
  let sx := decide (x.2.health = .suspect)
  let sy := decide (y.2.health = .suspect)
  if sx ≠ sy then sx
  else if x.2.velocity ≠ y.2.velocity then decide (y.2.velocity < x.2.velocity)
  else decide (x.1 < y.1)

/-- A closing entry of a plan (R56, R57). -/
def closingEntry (s : Station) (x : Nat × Reading) : PlanEntry :=
  match s.valve? x.1 with
  | none => { valve := x.1, kind := .actuated }
  | some r =>
    let p := profileAt s r x.2.velocity
    { valve := x.1, kind := if r.kind = .crew then .crew else .actuated
      tcmd := p.tcmd, treq := p.treq, limited := p.limited }

/-- An ALREADY_CLOSED entry of a plan (R56). -/
def barrierEntry (p : Nat × Valve) : PlanEntry :=
  { valve := p.1, kind := .alreadyClosed, offNormal := decide (p.2.normal = .normallyOpen) }

/-- The entries of a plan: closing entries in closure order, then barriers by number (R56). -/
def planEntries (s : Station) (f : Flight) (b : List (Nat × Valve)) : List PlanEntry :=
  let closing := sortBy closesBefore ((s.closableOf b).map fun p => (p.1, s.readingOf f p.1 p.2))
  closing.map s.closingEntry ++ (s.barriersOf b).map barrierEntry

/-- The starting segments of a supply pass: sources outside all owned regions (R58). -/
def supplyStarts (s : Station) : List Nat :=
  (s.nt.segments.filter fun p => p.2.source && !s.owned p.1).map (·.1)

/-- A supply pass across the valves that pass supply, less those closed in addition (R58). Each step that reaches more
segments takes both sides of another valve in, so that their number bounds the steps. -/
def supplyPass (s : Station) (closed : List Nat) : List Nat :=
  spreadAll (fun v => (s.vsOf v).position.passes && !closed.contains v) s.nt.valves (fun _ => false)
    (s.nt.valves.length + 1) s.supplyStarts

/-- The sum of the service connections of segments (R60). -/
def connectionsOf (s : Station) (ns : List Nat) : Nat :=
  (ns.map fun n => ((s.segment? n).map (·.connections)).getD 0).sum

/-- The cut-off report of a region and its boundary (R58 to R60). -/
def reportOf (s : Station) (region : List Nat) (b : List (Nat × Valve)) : Report :=
  let pass1 := s.supplyPass []
  let pass2 := s.supplyPass ((s.closableOf b).map (·.1))
  let cut := pass1.filter fun n => !pass2.contains n && !region.contains n && !s.owned n
  let marked := cut.filter fun n => ((s.segment? n).map (·.priority)).getD false
  { regionConnections := s.connectionsOf region
    cutOffCount := cut.length
    cutOffConnections := s.connectionsOf cut
    priorityList := marked.take Config.priorityCap
    priorityOverflow := marked.length - Config.priorityCap }

/-- The number of source segments of a region (R53). -/
def sourcesIn (s : Station) (region : List Nat) : Nat :=
  region.countP fun n => ((s.segment? n).map (·.source)).getD false

/-- The projected closed-by set of a slot (R55). -/
def projectedSet (s : Station) (k : Nat) (b : List (Nat × Valve)) : List Nat :=
  unionList (unionList (s.slot k).closedBy ((s.closableOf b).map (·.1)))
    (((s.barriersOf b).filter fun p => decide (p.2.normal = .normallyOpen)).map (·.1))

/-- The steps of a round after the merge test (R53 to R60). -/
def planRound (s : Station) (f : Flight) (region : List Nat) : RoundEnd :=
  let k := f.slot
  let r := s.slot k
  let b := s.boundaryOf region
  let sources := s.sourcesIn region
  let closable := (s.closableOf b).length
  let projected := (s.projectedSet k b).length
  if 0 < sources ∧ r.authorized.isSome ∧ r.overrideMark = false then .unisolable .sourceReached sources
  else if Config.boundaryCap < closable then .unisolable .boundaryTooLarge closable
  else if Config.closedCap < projected then .unisolable .closedSetFull projected
  else .plan
    { region, merged := f.merged
      overrideRequired := decide (0 < sources) && r.authorized.isNone
      entries := s.planEntries f b
      report := s.reportOf region b }

/-- A round of the computation in flight (section 3.3), its merge test made before the slots of `unseen` were
opened (R61). -/
def roundBefore (s : Station) (f : Flight) (unseen : List Nat) : RoundEnd :=
  let region := s.regionOf f.seed
  if Config.regionCap < region.length then .unisolable .regionTooLarge (Config.regionCap + 1)
  else
    match (if f.cancel then none else s.mergeSlot? f unseen region) with
    | some j =>
      let union := (unionList (s.slot (min f.slot j)).burst (s.slot (max f.slot j)).burst).length
      if Config.burstCap < union then .unisolable .burstListFull union else .merge j
    | none => s.planRound f region

/-- A round whose merge test sees every slot. -/
def round (s : Station) (f : Flight) : RoundEnd := s.roundBefore f []

/-- The round that a completion ends (R61, R65; log entry 18): one whose merge test saw every slot, or, where that
would merge, one whose test came before the slots opened since the round began. A burst list grown past 4 by a slot
opened during the round is taken as seen (the model's choice, log entry 18). -/
def endedRound (s : Station) (f : Flight) : RoundEnd :=
  match s.round f with
  | .merge _ => s.roundBefore f f.opened
  | e => e

end Station
end Sys2Proof.Machine
end

