-- ==== Sys2Proof/Machine/Plans.lean ====
section
/-! DEFINITION. What the Incident Manager makes of a computation: first plans (R88), replans (R96 to R99),
UNISOLABLE results (R89), merges (R105, R106), and the planner's completion (R62, R65). -/

namespace Sys2Proof.Machine.Station

/-- The lowest segment of a report's priority list, as PLAN_READY and EXPANDED carry it (R88, R99). -/
def prioritySegment (r : Report) : Option Nat := r.priorityList.head?

/-- Store a computation's Tcmd and mark with a work-list entry without reporting the mark. -/
def setTimeSilently (s : Station) (k v : Nat) (p : Profile) : Station :=
  s.modWork k v fun x => { x with tcmd := p.tcmd, limited := p.limited }

/-- The profile of a valve as its inputs stand; an absent valve has none. -/
def profileFor (s : Station) (v : Nat) : Profile :=
  match s.valve? v with
  | some r => profileOf s v r
  | none => { tcrit := 0, treq := 0, tcmd := 0, limited := false }

/-- The CREW_REQUEST notice (R91, R101). -/
def crewRequest (s : Station) (k v : Nat) (c : Cause) (tcmd : Nat) : Station :=
  s.post { kind := .crewRequest, slot := some k, valve := some v, zone := s.zoneOfValve? v, cause := some c,
           value := some tcmd }

/-- The entry a first plan makes (step 3 of R88). -/
def proposedEntry (p : PlanEntry) : Entry :=
  { valve := p.valve, kind := p.kind
    state := if p.kind = .alreadyClosed then .alreadyClosed else .proposed
    tcmd := p.tcmd, limited := p.limited, offNormal := p.offNormal }

/-- Apply a first plan (R88). -/
def firstPlan (s : Station) (k : Nat) (p : Plan) : Station :=
  let s := s.writeOwnership k p.region
  let deadline := clockAfter s.clock (10 * s.nt.timing.validity)
  let s := s.modSlot k fun r =>
    { r with
      region := p.region, report := some p.report, overrideRequired := p.overrideRequired
      work := p.entries.map proposedEntry, deadline := some deadline, state := .planned }
  let s := p.entries.foldl (fun s e => if e.limited then s.surgeLimited (some k) e.valve e.treq else s) s
  s.post { kind := .planReady, slot := some k, segment := prioritySegment p.report
           value := some p.report.cutOffConnections }

/-- An old entry of a replan is kept when its valve is in the new boundary and its state is not FAILED,
PROPOSED or STOPPED (R97). An ALREADY_CLOSED entry is kept as R97 says even where its valve, not held, left CLOSED while
no watch stood on the slot (PLANNED, UNISOLABLE) and a merge then took the entry into CLOSING, although the plan lists
the valve as closing and R93 says of an ISOLATED slot that its boundary is CLOSED (the model's choice, log entry 56). -/
def keptEntry? (old : List Entry) (v : Nat) : Option Entry :=
  match entryOf? old v with
  | some e =>
    match e.state with
    | .pending | .halted | .stroking | .crewWait | .closed | .alreadyClosed => some e
    | _ => none
  | none => none

/-- The entry is PENDING or HALTED. -/
def waits (e : Entry) : Bool := decide (e.state = .pending ∨ e.state = .halted)

/-- The entry of a valve in a replan's work list (R97, R99): a kept PENDING or HALTED entry takes the new
Tcmd and mark of a closing entry, other kept entries stand, and the rest are new. -/
def replanEntry (old : List Entry) (p : PlanEntry) : Entry :=
  match keptEntry? old p.valve with
  | some e =>
    if waits e ∧ p.kind ≠ .alreadyClosed then { e with tcmd := p.tcmd, limited := p.limited } else e
  | none =>
    { valve := p.valve, kind := p.kind
      state := match p.kind with
        | .actuated => .pending
        | .crew => .crewWait
        | .alreadyClosed => .alreadyClosed
      tcmd := p.tcmd, limited := p.limited, offNormal := p.offNormal }

/-- What a kept entry brings at a replan (R97): a newly gained mark is reported, an off-normal barrier
adopted, and an entry that waits comes to wait in its zone (R118). -/
def keepAtReplan (k : Nat) (old : List Entry) (s : Station) (p : PlanEntry) : Station :=
  match keptEntry? old p.valve with
  | none => s
  | some e =>
    let s :=
      if waits e ∧ p.kind ≠ .alreadyClosed ∧ p.limited ∧ e.limited = false then
        s.surgeLimited (some k) p.valve p.treq
      else s
    let s := if e.state = .alreadyClosed ∧ e.offNormal then s.joinClosedBy k p.valve else s
    if waits e then s.abandonExercises (s.zoneOfValve p.valve) else s

/-- What an old entry outside the new boundary leaves (R98): CREW_CANCEL, or a retained stroke. -/
def dropAtReplan (k : Nat) (p : Plan) (s : Station) (e : Entry) : Station :=
  if p.entries.any fun x => decide (x.valve = e.valve) then s
  else
    match e.state with
    | .crewWait => s.crewCancel k e.valve
    | .stroking => s.modStroke e.valve fun r => { r with retained := true }
    | _ => s

/-- What a new entry brings at a replan (R99): a crew is asked, an off-normal barrier adopted, a PENDING entry
claims its valve. -/
def startAtReplan (k : Nat) (old : List Entry) (s : Station) (p : PlanEntry) : Station :=
  match keptEntry? old p.valve with
  | some _ => s
  | none =>
    match p.kind with
    | .actuated => s.closeWaits k p.valve
    | .crew =>
      let s := s.joinClosedBy k p.valve
      let q := s.profileFor p.valve
      (s.setTimeSilently k p.valve q).crewRequest k p.valve .close q.tcmd
    | .alreadyClosed => if p.offNormal then s.joinClosedBy k p.valve else s

/-- The SURGE_LIMITED notice of a new entry that carries the mark (R99). -/
def reportNewMark (k : Nat) (old : List Entry) (s : Station) (p : PlanEntry) : Station :=
  match keptEntry? old p.valve, entryOf? (s.slot k).work p.valve with
  | none, some e =>
    if e.limited then
      s.surgeLimited (some k) p.valve (if p.kind = .crew then (s.profileFor p.valve).treq else p.treq)
    else s
  | _, _ => s

/-- The entries that a replan keeps, each at the place its plan gives (R97). -/
def keptEntries (old : List Entry) (p : Plan) : List Entry :=
  (p.entries.filter fun x => (keptEntry? old x.valve).isSome).map (replanEntry old)

/-- Apply a replan (R96 to R99). Between the drops of R98 and the new entries of R99 the list holds the kept
entries alone, so that the last waiting entry of a QUIET zone, once dropped, takes the zone's factor back to 1
(R145) before a new entry's time is computed (log entry 25). -/
def replan (s : Station) (k : Nat) (p : Plan) : Station :=
  let old := (s.slot k).work
  let s := s.writeOwnership k p.region
  let s := s.modSlot k fun r =>
    { r with
      region := p.region, report := some p.report, overrideRequired := p.overrideRequired
      replanPending := false, work := keptEntries old p }
  let s := p.entries.foldl (keepAtReplan k old) s
  let s := (old.foldl (dropAtReplan k p) s).returnFactors
  let s := s.modSlot k fun r => { r with work := p.entries.map (replanEntry old) }
  let s := p.entries.foldl (startAtReplan k old) s
  let s := p.entries.foldl (reportNewMark k old) s
  let s := s.post { kind := .expanded, slot := some k, segment := prioritySegment p.report
                    value := some p.report.cutOffConnections }
  s.testIsolated k

/-- A computation serves a slot in PLANNING or in CLOSING (R45, R65). -/
def servedState (st : SlotState) : Bool :=
  match st with
  | .planning | .closing => true
  | _ => false

/-- Hand a result to the slot (R88, R89, R107), which a live computation finds in PLANNING or CLOSING (log
entry 13). -/
def applyResult (s : Station) (k : Nat) (e : RoundEnd) : Station :=
  match e, (s.slot k).state with
  | .unisolable c n, st => if servedState st then s.unisolable k c n else s
  | .plan p, .planning => s.firstPlan k p
  | .plan p, .closing => s.replan k p
  | .plan _, _ => s
  | .merge _, _ => s

/-- The entry stops: PENDING, STROKING, HALTED or CREW_WAIT becomes STOPPED (R100, R101). Its residual time and halt
causes go at once, whether or not a stroke of it is still to end (the model's choice, log entry 55). -/
def stopEntry (e : Entry) : Entry := if inProgress e then e.settle .stopped else e

/-- Halt the strokes in motion of a slot, retained ones included, and stop the entries of one of its lists; a
crew that waited is told (R100, R101, R129). -/
def stopEntries (s : Station) (k : Nat) (ro : Bool) : Station :=
  let o : Owner := if ro then .reopenEntry k else .closeEntry k
  let vs := (s.md.strokes.filter fun r => decide (r.owner = o)).map (·.valve)
  let s := vs.foldl (fun s v => (s.modStroke v fun r => { r with orphan := true }).decideHalt v .dropped) s
  let es := if ro then (s.slot k).reopen else (s.slot k).work
  let s := es.foldl (fun s e => if e.state = .crewWait then s.crewCancel k e.valve else s) s
  s.modSlot k fun r =>
    if ro then { r with reopen := r.reopen.map stopEntry } else { r with work := r.work.map stopEntry }

/-- A slot becomes FREE with its FREE values and joins the tail of the free list (R81, R82). -/
def freeSlot (s : Station) (k : Nat) : Station :=
  let s := s.modSlot k fun _ => {}
  { s with im := { s.im with freeList := s.im.freeList ++ [k] } }

/-- The earlier of two clock readings that may be absent (R105). -/
def earlierOf (now : Nat) : Option Nat → Option Nat → Option Nat
  | some x, some y => if clockSince now y ≤ clockSince now x then some x else some y
  | some x, none => some x
  | none, y => y

/-- The united work lists (step 4 of R105): of two entries of a valve the STROKING one is kept, otherwise the
survivor's. -/
def unitedWork (xs ys : List Entry) : List Entry :=
  (xs.filter fun e =>
    match entryOf? ys e.valve with
    | some y => decide (e.state = .stroking ∨ y.state ≠ .stroking)
    | none => true) ++
  ys.filter fun e =>
    match entryOf? xs e.valve with
    | some x => decide (e.state = .stroking ∧ x.state ≠ .stroking)
    | none => true

/-- An owner that names slot `b` names slot `a` (R105, R129). -/
def renamedOwner (a b : Nat) : Owner → Owner
  | .closeEntry k => .closeEntry (if k = b then a else k)
  | .reopenEntry k => .reopenEntry (if k = b then a else k)
  | o => o

/-- Rename each stroke record and motion owner that names the absorbed slot to the survivor (step 4 of R105,
R129). A record of a reopen entry is one that an ABORT in REOPENING is still halting. -/
def renameStrokes (s : Station) (a b : Nat) : Station :=
  let rs := s.md.strokes.filter fun r => decide (renamedOwner a b r.owner ≠ r.owner)
  rs.foldl
    (fun s r =>
      let o := renamedOwner a b r.owner
      (s.modStroke r.valve fun x => { x with owner := o }).modVs r.valve fun d => { d with owner := some o })
    s

/-- Join slot `b` into slot `a` (R105) and give the survivor its state (R106). A survivor that goes back to PLANNING
holds no plan, and its override-required mark is clear (R81); in another state it keeps the mark of the plan it held,
and a pair that stands twice in the absorbed failed list is appended twice, since the test is made against the
survivor's list as it stood (the model's choices, log entries 51 and 52). The result says whether the survivor was
withdrawn from planning. -/
def joinSlots (s : Station) (a b : Nat) : Station × Bool :=
  let x := s.slot a
  let y := s.slot b
  let both := y.closedBy.filter x.closedBy.contains
  let failed := x.failed ++ y.failed.filter fun p => !x.failed.contains p
  let authorized := earlierOf s.clock x.authorized y.authorized
  let aborted := decide (x.state = .aborted ∨ y.state = .aborted)
  let s := s.modSlot a fun r =>
    { r with
      burst := unionList x.burst y.burst
      closedBy := unionList x.closedBy y.closedBy
      failed := failed.take Config.failedCap
      work := unitedWork x.work y.work
      expansions := max x.expansions y.expansions
      authorized := authorized
      overrideMark := x.overrideMark || y.overrideMark
      deadline := none
      reason := none }
  let s := both.foldl lowerHold s
  let s := s.renameStrokes a b
  let s := (s.dropOwnership b).freeSlot b
  let s := s.post { kind := .merged, slot := some a, value := some b }
  if Config.failedCap < failed.length then (s.unisolable a .tooManyFailures failed.length, true)
  else if aborted then
    ((s.stopEntries a false).modSlot a fun r => { r with state := .aborted, replanPending := false }, true)
  else if authorized.isSome then
    let s := s.modSlot a fun r => { r with state := .closing, replanPending := true }
    ((s.slot a).work.foldl (fun s e => if waits e then s.abandonExercises (s.zoneOfValve e.valve) else s) s, false)
  else (s.modSlot a fun r => { r with state := .planning, replanPending := false, overrideRequired := false }, false)

/-- The computation in flight merges its slot with slot `j` and begins a new round for the survivor (R62). -/
def mergeWith (s : Station) (f : Flight) (j : Nat) : Station :=
  let a := min f.slot j
  let b := max f.slot j
  let readings := s.keepReadings f (s.regionOf f.seed)
  let (s, withdrawn) := s.joinSlots a b
  let stale :=
    match s.ip.flight with
    | some g => g.stale
    | none => f.stale
  { s with ip :=
    { queue := s.ip.queue.filter fun k => decide (k ≠ a ∧ k ≠ b)
      flight := some
        { slot := a, seed := (s.slot a).burst, stale := stale, cancel := withdrawn, readings := readings
          merged := f.merged ++ [b] } } }

/-- PLANNER_MERGE (R62): a round's merge test finds another slot. Of several it takes the lowest, a slot
opened during the round counted among them (log entry 18). -/
def plannerMerges (s : Station) : Station :=
  match s.ip.flight with
  | none => s
  | some f =>
    match s.round f with
    | .merge j => if servedState (s.slot f.slot).state then s.mergeWith f j else s
    | _ => s

/-- A round that makes no merge ends the computation (R65): its result is discarded when the cancel mark is
set, discarded with the slot queued again when the stale mark is, and applied otherwise. -/
def completeWith (s : Station) (f : Flight) (e : RoundEnd) : Station :=
  let s := { s with ip := { s.ip with flight := none } }
  if f.cancel then s
  else if f.stale then s.enqueue f.slot
  else s.applyResult f.slot e

/-- COMPUTATION_COMPLETION (R65): the completion, and then the next computation starts (R49). A round that must
merge ends nothing, stale or not (R61). -/
def computationEnds (s : Station) : Station :=
  match s.ip.flight with
  | none => s
  | some f =>
    match s.endedRound f with
    | .merge _ => s
    | e => (s.completeWith f e).startNext

end Sys2Proof.Machine.Station
end

