-- ==== Sys2Proof/Machine/Edits.lean ====
section
/-! DEFINITION. The edits of the network table (01 sections 1.8 to 1.14; 02 R39). A decision is the reply's
status and data with the station afterwards. -/

namespace Sys2Proof.Machine

/-- What a block makes of a request it takes (R190 to R192): status, reply data, the station afterwards. -/
abbrev Decision := Status × List Byte × Station

/-- A refusal: the status alone, and no state changed (R191, R192). -/
def refuse (st : Status) (s : Station) : Decision := (st, [], s)

/-- A taken edit: OK with its clamped count (R12, R192), a quantity of two bytes (R199; log entry 23). -/
def editTaken (clamped : Nat) (s : Station) : Decision := (.ok, byte2 clamped, s)

namespace Station

/-- Every incident slot is FREE (check 5 of R11). -/
def allFree (s : Station) : Bool := slotNumbers.all fun k => decide ((s.slot k).state = .free)

/-- The valve has motion work (R11, R40). -/
def motionWork (s : Station) (v : Nat) : Bool :=
  (s.vsOf v).owner.isSome || (s.move? v).isSome || (s.exercise? v).isSome

/-- Checks 1 and 2 of R11: the status that refuses an edit, if any. -/
def editBar (s : Station) : Option Status :=
  if s.ss.station = .loading then some .notReady else if s.ss.storing.isSome then some .busy else none

/-- The number of present segments that carry the source mark (R1). -/
def countSources (segments : Table Segment) : Nat := segments.countP fun p => p.2.source

/-- The sampling of a sensor follows the zone that its segment has moved to (R133, R159; log entry 16). -/
def sampleByZone (s : Station) (n : Nat) : Station :=
  match s.sensor? n with
  | none => s
  | some r =>
    let fast := decide ((s.zoneWatch (s.zoneOfSegment r.segment)).state ≠ .quiet)
    s.modNode r.node fun e => { e with sampleDue := if fast then some s.clock else none }

/-- PUT_SEGMENT (R14). -/
def putSegment (s : Station) (n z source connections priority : Nat) (name : List Byte) : Decision :=
  match s.editBar with
  | some st => refuse st s
  | none =>
    match mark? source, mark? priority, nameTag? name with
    | some source, some priority, some tag =>
      if Config.segments ≤ n ∨ Config.zones ≤ z then refuse .outOfRange s
      else
        let old := s.segment? n
        let wasSource := (old.map (·.source)).getD false
        let topology := decide (old.map (·.zone) ≠ some z ∨ wasSource ≠ source)
        let stored : Segment := { zone := z, source, connections := clamp 0 65535 connections, priority, name := tag }
        if topology && !s.allFree then refuse .incidentActive s
        else if source && !wasSource && decide (Config.sources ≤ s.nt.sourceCount) then refuse .tableFull s
        else
          let segments := s.nt.segments.put n stored
          let s := { s with nt := { s.nt with segments := segments, sourceCount := countSources segments } }
          let moved := (old.map (·.zone)).isSome && decide (old.map (·.zone) ≠ some z)
          let s :=
            if moved then
              s.nt.sensors.foldl (fun s p => if p.2.segment = n then s.sampleByZone p.1 else s) s
            else s
          let input (r : Segment) : Nat × Bool := (r.connections, r.priority)
          let s := if old.isSome ∧ old.map input ≠ some (input stored) then s.markStale else s
          editTaken (clampedOne connections stored.connections) s
    | _, _, _ => refuse .outOfRange s

/-- DELETE_SEGMENT (R15). -/
def deleteSegment (s : Station) (n : Nat) : Decision :=
  match s.editBar with
  | some st => refuse st s
  | none =>
    if Config.segments ≤ n then refuse .outOfRange s
    else
      match s.segment? n with
      | none => refuse .notFound s
      | some _ =>
        if s.allFree = false then refuse .incidentActive s
        else if s.nt.valves.any (fun p => decide (p.2.sideA = n ∨ p.2.sideB = n)) ||
            s.nt.sensors.any (fun p => decide (p.2.segment = n)) then refuse .badTopology s
        else
          let segments := s.nt.segments.drop n
          editTaken 0 { s with nt := { s.nt with segments := segments, sourceCount := countSources segments } }

/-- The valve record a PUT_VALVE stores (R12, R16), with its clamped count. Tmin is kept and Tmax raised to
it; a stall threshold of 0 stands for 110. -/
def valveRecord (f : ValveFields) (normal : Normal) (kind : ValveKind) (node : Option Node) (old : Option Valve) :
    Valve × Nat :=
  let length := clamp 1 20000 f.length
  let waveSpeed := clamp 300 1400 f.waveSpeed
  let velocity := clamp 0 5000 f.velocity
  let tmin := clamp 10 36000 f.tmin
  let tmax := max tmin (clamp 10 36000 f.tmax)
  let stall := if f.stall = 0 then 110 else clamp 50 150 f.stall
  let clamped :=
    clampedOne f.length length + clampedOne f.waveSpeed waveSpeed + clampedOne f.velocity velocity +
    clampedOne f.tmin tmin + clampedOne f.tmax tmax + (if f.stall = 0 then 0 else clampedOne f.stall stall)
  ({ sideA := f.sideA, sideB := f.sideB, zone := f.zone, normal, kind, node, length, waveSpeed, velocity, tmin, tmax,
     stall
     health := (old.map (·.health)).getD .sound
     measured := old.bind (·.measured)
     exercised := old.bind (·.exercised) }, clamped)

/-- The Valve State record of a valve at its normal state, as a crew valve has it (R17, R26). -/
def atNormal (r : Valve) (d : VsRec) : VsRec :=
  match r.normal with
  | .normallyOpen => { d with position := .opened, percent := some 100, stale := false }
  | .normallyClosed => { d with position := .closed, percent := some 0, stale := false }

/-- The actuator fields of a Valve State record cleared: what was known of the old node (R17). -/
def forgetNode (d : VsRec) : VsRec := { d with localMark := false, faults := none, request := false }

/-- R17: the Valve State record and exercise fields of a valve after a PUT_VALVE that is a topology edit. -/
def valveStateOnEdit (s : Station) (v : Nat) (old : Option Valve) (new : Valve) : Station :=
  match old with
  | none =>
    let fresh : VsRec := if new.kind = .crew then atNormal new {} else {}
    (s.modVs v fun _ => fresh).deriveClass v
  | some o =>
    if o.kind = new.kind ∧ o.node = new.node then s.refreshClass v
    else
      let s := s.modValve v fun r => { r with measured := none, exercised := none }
      s.reposition v fun d =>
        let d := forgetNode d
        if new.kind = .crew then atNormal new d
        else { d with position := .unknown, percent := none, stale := false }

/-- Move a record's entry in the node map from its old place to its new one and pass the changed kinds to the
lines (R7, R152). -/
def remap (s : Station) (old new : Option Node) (o : Occupant) (kind : NodeKind) : Station :=
  if old = new then s
  else
    let s :=
      match old with
      | some n => ({ s with nt := { s.nt with nodeMap := s.nt.nodeMap.drop n.key } } : Station).setKind n .none
      | none => s
    match new with
    | some n => ({ s with nt := { s.nt with nodeMap := s.nt.nodeMap.put n.key o } } : Station).setKind n kind
    | none => s

/-- The planner inputs of a valve record (R22). -/
def valveInputs (r : Valve) : List Nat := [r.length, r.waveSpeed, r.velocity, r.tmin, r.tmax]

/-- A place is occupied by a record other than `self` (R16, R19). -/
def occupiedByOther (s : Station) (n : Node) (self : Occupant) : Bool :=
  match s.occupant? n with
  | some o => decide (o ≠ self)
  | none => false

/-- The topology of a PUT_VALVE's result is invalid (R16). -/
def badValve (s : Station) (f : ValveFields) (node : Option Node) : Bool :=
  (s.segment? f.sideA).isNone || (s.segment? f.sideB).isNone || decide (f.sideA = f.sideB) ||
  (match node with
    | some n => s.occupiedByOther n (.valve f.valve)
    | none => false)

/-- The PUT_VALVE is a topology edit (R13). -/
def valveTopology (f : ValveFields) (normal : Normal) (kind : ValveKind) (node : Option Node) : Option Valve → Bool
  | none => true
  | some o =>
    decide (o.sideA ≠ f.sideA ∨ o.sideB ≠ f.sideB ∨ o.kind ≠ kind ∨ o.normal ≠ normal ∨ o.zone ≠ f.zone ∨
      o.node ≠ node)

/-- Store a PUT_VALVE that passed its checks (R16, R17, R22). -/
def storeValve (s : Station) (f : ValveFields) (normal : Normal) (kind : ValveKind) (node : Option Node) : Decision :=
  let v := f.valve
  let old := s.valve? v
  let (new, clamped) := valveRecord f normal kind node old
  let topology := valveTopology f normal kind node old
  let s := { s with nt := { s.nt with valves := s.nt.valves.put v new } }
  let s := s.remap (old.bind (·.node)) node (.valve v) .actuator
  let s := if topology then s.valveStateOnEdit v old new else s
  let s := if old.isSome ∧ old.map valveInputs ≠ some (valveInputs new) then s.markStale.retimeValve v else s
  editTaken clamped s

/-- PUT_VALVE (R16). -/
def putValve (s : Station) (f : ValveFields) : Decision :=
  match s.editBar with
  | some st => refuse st s
  | none =>
    match normal? f.normal, valveKind? f.kind with
    | some normal, some kind =>
      let place := place? f.line f.address
      if Config.valves ≤ f.valve ∨ Config.segments ≤ f.sideA ∨ Config.segments ≤ f.sideB ∨ Config.zones ≤ f.zone ∨
          (kind = .actuated ∧ place.isNone) then refuse .outOfRange s
      else
        let node := if kind = .actuated then place else none
        let topology := valveTopology f normal kind node (s.valve? f.valve)
        if topology && !s.allFree then refuse .incidentActive s
        else if topology && s.motionWork f.valve then refuse .wrongState s
        else if s.badValve f node then refuse .badTopology s
        else s.storeValve f normal kind node
    | _, _ => refuse .outOfRange s

/-- DELETE_VALVE (R18). -/
def deleteValve (s : Station) (v : Nat) : Decision :=
  match s.editBar with
  | some st => refuse st s
  | none =>
    if Config.valves ≤ v then refuse .outOfRange s
    else
      match s.valve? v with
      | none => refuse .notFound s
      | some r =>
        if s.allFree = false then refuse .incidentActive s
        else if s.motionWork v then refuse .wrongState s
        else
          let s := { s with nt := { s.nt with valves := s.nt.valves.drop v } }
          let s := s.remap r.node none (.valve v) .none
          editTaken 0 (s.modVs v fun _ => {})

/-- PUT_SENSOR (R19). The entry of its address changes with the address's kind alone (R152): a new kind leaves
SAMPLE due absent, and a kind that stays leaves the entry as it was. In a zone in WATCH or HOLD the sensor is then
sampled at once (R133, log entry 16). -/
def putSensor (s : Station) (n line address segment : Nat) : Decision :=
  match s.editBar with
  | some st => refuse st s
  | none =>
    match place? line address with
    | none => refuse .outOfRange s
    | some node =>
      if Config.sensors ≤ n ∨ Config.segments ≤ segment then refuse .outOfRange s
      else if s.allFree = false then refuse .incidentActive s
      else if (s.segment? segment).isNone || s.occupiedByOther node (.sensor n) then refuse .badTopology s
      else
        let old := s.sensor? n
        let new : Sensor := { node, segment }
        if old = some new then editTaken 0 s
        else
          let s := { s with nt := { s.nt with sensors := s.nt.sensors.put n new } }
          let s := s.remap (old.map (·.node)) (some node) (.sensor n) .sensor
          editTaken 0 (s.modSensorWatch n fun _ => {})

/-- DELETE_SENSOR (R19). -/
def deleteSensor (s : Station) (n : Nat) : Decision :=
  match s.editBar with
  | some st => refuse st s
  | none =>
    if Config.sensors ≤ n then refuse .outOfRange s
    else
      match s.sensor? n with
      | none => refuse .notFound s
      | some r =>
        if s.allFree = false then refuse .incidentActive s
        else
          let s := { s with nt := { s.nt with sensors := s.nt.sensors.drop n } }
          let s := s.remap (some r.node) none (.sensor n) .none
          editTaken 0 (s.modSensorWatch n fun _ => {})

/-- The zone record a PUT_ZONE stores, with its clamped count (R12, R20). -/
def zoneRecord (f : ZoneFields) : ZoneRec × Nat :=
  let hmax := clamp 10 1000 f.hmax
  let slots := clamp 1 4 f.slots
  let hysteresis := clamp 5 200 f.hysteresis
  let ceiling := max (clamp 0 2000 f.ceiling) (hysteresis + 1)
  let settle := clamp 5 300 f.settle
  let drop := clamp 10 500 f.drop
  let detect := clamp 8 120 f.detect
  ({ hmax, slots, ceiling, hysteresis, settle, drop, detect },
   clampedOne f.hmax hmax + clampedOne f.slots slots + clampedOne f.ceiling ceiling +
   clampedOne f.hysteresis hysteresis + clampedOne f.settle settle + clampedOne f.drop drop +
   clampedOne f.detect detect)

/-- PUT_ZONE (R20). A settle time already passed makes the settle timer expire at the edit (R142). -/
def putZone (s : Station) (f : ZoneFields) : Decision :=
  match s.editBar with
  | some st => refuse st s
  | none =>
    if Config.zones ≤ f.zone then refuse .outOfRange s
    else
      let z := f.zone
      let old := s.zoneRec z
      let (new, clamped) := zoneRecord f
      let s := { s with nt := { s.nt with zones := s.nt.zones.writeD {} z new } }
      let s := if old.hmax = new.hmax then s else s.markStale.retimeZone false z
      let s :=
        match s.settleExpiry? z with
        | some due => if clockReached s.clock due then s.leaveHold z .settled else s
        | none => s
      editTaken clamped s.decideAll

/-- SET_TIMING (R21). -/
def setTiming (s : Station) (validity lifetime exponent window : Nat) : Decision :=
  match s.editBar with
  | some st => refuse st s
  | none =>
    let t : Timing :=
      { validity := clamp 60 3600 validity, lifetime := clamp 60 7200 lifetime
        exponent := clamp 0 6 exponent, window := clamp 1 16 window }
    editTaken
      (clampedOne validity t.validity + clampedOne lifetime t.lifetime + clampedOne exponent t.exponent +
        clampedOne window t.window)
      { s with nt := { s.nt with timing := t } }

/-- SET_FLOW (R10). -/
def setFlow (s : Station) (v velocity : Nat) : Decision :=
  match s.editBar with
  | some st => refuse st s
  | none =>
    if Config.valves ≤ v then refuse .outOfRange s
    else if (s.valve? v).isNone then refuse .notFound s
    else
      let q := clamp 0 5000 velocity
      let before := s.effectiveVelocity v
      let s := s.modVs v fun d => { d with flow := some (q, s.seconds) }
      let s := if before = s.effectiveVelocity v then s else s.markStale.retimeValve v
      editTaken (clampedOne velocity q) s

/-- SET_HEALTH (R39). -/
def putHealth (s : Station) (v health : Nat) : Decision :=
  match s.editBar with
  | some st => refuse st s
  | none =>
    match health? health with
    | none => refuse .outOfRange s
    | some h =>
      if Config.valves ≤ v then refuse .outOfRange s
      else if (s.valve? v).isNone then refuse .notFound s
      else editTaken 0 (s.setHealth v h)

end Station
end Sys2Proof.Machine
end

