-- ==== Sys2Proof/Machine/ValveRequests.lean ====
section
/-! DEFINITION. The valve requests (02 R38, R40 to R43), RESUME_ZONE (R144), FIELD_CLEAR (R161) and
EXERCISE_VALVE (R168). -/

namespace Sys2Proof.Machine.Station

/-- The station is READY. -/
def isReady (s : Station) : Bool := decide (s.ss.station = .ready)

/-- A crew reports CLOSED: each CREW_WAIT close entry of the valve completes (R92). -/
def crewClosed (s : Station) (v : Nat) : Station :=
  slotNumbers.foldl
    (fun (s : Station) (k : Nat) =>
      match s.entryIn k false v with
      | some e => if e.state = .crewWait then (s.modWork k v fun x => x.settle .closed).testIsolated k else s
      | none => s) s

/-- A crew reports OPENED: each CREW_WAIT reopen entry of the valve completes (R102). -/
def crewOpened (s : Station) (v : Nat) : Station :=
  slotNumbers.foldl
    (fun (s : Station) (k : Nat) =>
      match s.entryIn k true v with
      | some e => if e.state = .crewWait then (s.modReopen k v fun x => x.settle .opened).testDone k else s
      | none => s) s

/-- A crew report STUCK reaches a slot's close entry: in CREW_WAIT or CLOSED it fails with CREW_STUCK (R92). -/
def stuckClose (v : Nat) (s : Station) (k : Nat) : Station :=
  match s.entryIn k false v with
  | some e =>
    let st : SlotState := (s.slot k).state
    if e.kind = .crew ∧ (e.state = .crewWait ∨ e.state = .closed) ∧
        (st = .closing ∨ st = .isolated ∨ st = .unisolable) then s.recordFailure k v .crewStuck
    else s
  | none => s

/-- A crew report STUCK reaches a slot's reopen entry: in REOPENING it fails a crew entry in CREW_WAIT or OPENED (R102,
which takes the table of R92 with OPENED for CLOSED). -/
def stuckReopen (v : Nat) (s : Station) (k : Nat) : Station :=
  match s.entryIn k true v with
  | some e =>
    if e.kind = .crew ∧ (e.state = .crewWait ∨ e.state = .opened) ∧ (s.slot k).state = .reopening then
      ((s.modReopen k v fun x => x.settle .failed).post (s.failureNotice k v .crewStuck)).testDone k
    else s
  | none => s

/-- A crew reports STUCK: the report reaches every slot (R38). -/
def crewStuck (s : Station) (v : Nat) : Station :=
  slotNumbers.foldl (fun s k => stuckReopen v (stuckClose v s k) k) s

/-- CONFIRM_VALVE (R38); reports 0 CLOSED, 1 OPENED, 2 STUCK. -/
def confirmValve (s : Station) (v report : Nat) : Decision :=
  if s.isReady = false then refuse .notReady s
  else if Config.valves ≤ v ∨ 2 < report then refuse .outOfRange s
  else
    match s.valve? v with
    | none => refuse .notFound s
    | some r =>
      if r.kind ≠ .crew then refuse .wrongState s
      else if report = 1 ∧ 0 < (s.vsOf v).holds then refuse .valveHeld s
      else
        let s :=
          if report = 0 then (s.reposition v fun d => { d with position := .closed, percent := some 0 }).crewClosed v
          else if report = 1 then
            (s.reposition v fun d => { d with position := .opened, percent := some 100 }).crewOpened v
          else (s.setHealth v .inoperable).crewStuck v
        (.ok, [], s.decideAll)

/-- The position already equals a MOVE_VALVE target (R40). -/
def atTarget (d : VsRec) (closes : Bool) : Bool :=
  decide (d.position = if closes then .closed else .opened) && !d.stale

/-- MOVE_VALVE (R40); targets 0 OPEN, 1 CLOSED; a time of 0 means that none is given (R199). -/
def moveValve (s : Station) (v target time : Nat) : Decision :=
  if s.isReady = false then refuse .notReady s
  else if Config.valves ≤ v ∨ 1 < target then refuse .outOfRange s
  else
    match s.valve? v with
    | none => refuse .notFound s
    | some r =>
      if r.kind ≠ .actuated then refuse .notActuated s
      else if 0 < (s.vsOf v).holds then refuse .valveHeld s
      else if s.sideOwned v then refuse .inRegion s
      else if s.motionWork v then refuse .wrongState s
      else
        let closes := decide (target = 1)
        if atTarget (s.vsOf v) closes then (.ok, [], s)
        else
          let given := if time = 0 then none else some (clamp r.tmin r.tmax time)
          let m : Move := { valve := v, closes, given }
          (.accepted, byte2 (given.elim 0 (clampedOne time)), (s.addMove m).decideAll)

/-- The checks of HALT_VALVE before its mode acts (R42, R43): the status that refuses it, if any. -/
def haltBar (s : Station) (v mode : Nat) : Option Status :=
  if s.isReady = false then some .notReady
  else if Config.valves ≤ v ∨ 1 < mode then some .outOfRange
  else
    match s.valve? v with
    | none => some .notFound
    | some r => if r.kind ≠ .actuated then some .notActuated else none

/-- Some entry of the valve, in either list of any slot, is as asked. -/
def anyEntry (s : Station) (v : Nat) (p : Entry → Bool) : Bool :=
  slotNumbers.any fun k =>
    ((s.slot k).work ++ (s.slot k).reopen).any fun e => decide (e.valve = v) && p e

/-- Some work exists for the valve that HALT_VALVE(STOP) acts on (R42). -/
def haltableWork (s : Station) (v : Nat) : Bool :=
  (s.stroke? v).isSome || s.anyEntry v waits || (s.move? v).isSome || (s.exercise? v).isSome

/-- A PENDING entry becomes HALTED with cause HOST, and a HALTED one gains it (R42). A close entry that becomes
HALTED claims its valve (R117); one HALTED already gains the cause alone. -/
def hostHaltEntry (s : Station) (k : Nat) (ro : Bool) (v : Nat) : Station :=
  match s.entryIn k ro v with
  | none => s
  | some e =>
    if waits e then
      let s := s.modIn k ro v fun x => { x with state := .halted, halts := x.halts.join .host }
      if ro = false ∧ e.state = .pending then s.closeWaits k v else s
    else s

/-- HALT_VALVE(STOP) on every piece of work of the valve (R42). R42 gives no order: the entries come first, so that a
PENDING close entry that becomes HALTED ends an idle exercise of the valve as PREEMPTED and not as HOST (R169; the
model's choice, log entry 37). -/
def stopValve (s : Station) (v : Nat) : Station :=
  let s := s.forEntries fun s k ro w => if w = v then s.hostHaltEntry k ro w else s
  let s :=
    match s.move? v with
    | some m => if m.waiting then s.dropMove v else s
    | none => s
  let s := s.endIdleExercise v .host
  s.decideHalt v (.halted .host)

/-- HALT_VALVE (R42 STOP, R43 LIFT). -/
def haltValve (s : Station) (v mode : Nat) : Decision :=
  match s.haltBar v mode with
  | some st => refuse st s
  | none =>
    if mode = 0 then
      if s.haltableWork v then (.ok, [], (s.stopValve v).decideAll) else refuse .wrongState s
    else if s.anyEntry v fun e => decide (e.state = .halted) && e.halts.host then
      (.ok, [], (s.endCause .host fun _ w => decide (w = v)).decideAll)
    else refuse .wrongState s

/-- RESUME_ZONE (R144). -/
def resumeZone (s : Station) (z : Nat) : Decision :=
  if s.isReady = false then refuse .notReady s
  else if Config.zones ≤ z then refuse .outOfRange s
  else if (s.zoneWatch z).state ≠ .hold then refuse .wrongState s
  else (.ok, [], (s.leaveHold z .host).decideAll)

/-- FIELD_CLEAR (R161): absorbed when a CLEAR of the line is queued and not yet sent. -/
def fieldClear (s : Station) (line : Nat) : Decision :=
  if s.isReady = false then refuse .notReady s
  else
    match lineOf? line with
    | none => refuse .outOfRange s
    | some l =>
      let queued := (s.line l).broadcasts.any fun b => decide (b ≠ .halt)
      (.ok, [], if queued then s else s.modLine l fun x => { x with broadcasts := x.broadcasts ++ [.clear false] })

/-- EXERCISE_VALVE (R168). A stroke in motion fails check 7 from its grant on, in SENDING too, where the position
may still be OPEN. -/
def exerciseValve (s : Station) (v target : Nat) : Decision :=
  if s.isReady = false then refuse .notReady s
  else if Config.valves ≤ v then refuse .outOfRange s
  else
    match s.valve? v with
    | none => refuse .notFound s
    | some r =>
      let d := s.vsOf v
      if r.kind ≠ .actuated then refuse .notActuated s
      else if 0 < d.holds then refuse .valveHeld s
      else if s.sideOwned v then refuse .inRegion s
      else if r.normal ≠ .normallyOpen ∨ d.position ≠ .opened ∨ d.stale ∨ (s.move? v).isSome ∨
          d.owner.isSome then
        refuse .wrongState s
      else if Config.exerciseCap ≤ s.xu.length ∨ (s.exercise? v).isSome then refuse .busy s
      else
        let t := clamp 50 95 target
        (.accepted, byte2 (clampedOne target t), (s.addExercise { valve := v, zone := r.zone, target := t }).decideAll)

end Sys2Proof.Machine.Station
end

