-- ==== Sys2Proof/Machine/IncidentRequests.lean ====
section
/-! DEFINITION. The incident requests (05 R87, R91, R100, R101, R104) and plan expiry (R90). -/

namespace Sys2Proof.Machine.Station

/-- The slot that refuses a new report of a segment: its owner, else a slot that lists it as a burst (check 4
of R87). -/
def burstSlot? (s : Station) (n : Nat) : Option Nat :=
  match s.owner? n with
  | some k => some k
  | none => slotNumbers.find? fun k => testedState (s.slot k).state && (s.slot k).burst.contains n

/-- A slot is opened while a computation for another is in flight (R61). -/
def noteOpened (s : Station) (k : Nat) : Station :=
  match s.ip.flight with
  | some f =>
    if f.slot = k then s else { s with ip := { s.ip with flight := some { f with opened := f.opened ++ [k] } } }
  | none => s

/-- OPEN_INCIDENT (R87). -/
def openIncident (s : Station) (n : Nat) : Decision :=
  if s.isReady = false then refuse .notReady s
  else if Config.segments ≤ n then refuse .outOfRange s
  else if (s.segment? n).isNone then refuse .notFound s
  else
    match s.burstSlot? n, s.im.freeList with
    | some k, _ => (.alreadyIsolated, byte1 k, s)
    | none, [] => refuse .noSlot s
    | none, k :: rest =>
      let s := { s with im := { s.im with freeList := rest } }
      let s := s.modSlot k fun _ => { state := .planning, burst := [n] }
      (.accepted, byte1 k, (s.trigger k).noteOpened k)

/-- Steps 1 and 2 of R91 for one ALREADY_CLOSED entry: an off-normal valve still CLOSED is adopted. -/
def adoptEntry (k : Nat) (s : Station) (e : Entry) : Station :=
  if e.state = .alreadyClosed ∧ e.offNormal ∧ (s.vsOf e.valve).position = .closed then s.joinClosedBy k e.valve else s

/-- Step 2 of R91: an ALREADY_CLOSED valve no longer CLOSED is a failure. -/
def failOpened (k : Nat) (s : Station) (e : Entry) : Station :=
  if e.state = .alreadyClosed ∧ (s.vsOf e.valve).position ≠ .closed then
    s.recordFailure k e.valve (s.leftCause e.valve)
  else s

/-- Step 3 of R91: a PROPOSED crew entry becomes CREW_WAIT. -/
def startCrew (k : Nat) (s : Station) (e : Entry) : Station :=
  if e.state = .proposed ∧ e.kind = .crew then
    let s := s.modWork k e.valve fun x => { x with state := .crewWait }
    let s := s.joinClosedBy k e.valve
    let p := s.profileFor e.valve
    (s.setTime k false e.valve p).crewRequest k e.valve .close p.tcmd
  else s

/-- Step 4 of R91: a PROPOSED actuated entry becomes PENDING. -/
def startActuated (k : Nat) (s : Station) (e : Entry) : Station :=
  if e.state = .proposed ∧ e.kind = .actuated then
    (s.modWork k e.valve fun x => { x with state := .pending }).closeWaits k e.valve
  else s

/-- AUTHORIZE (R91). An adoption may remove the last waiting reopen entry of a QUIET zone (R103), which takes the
zone's factor back to 1 (R145) before the crews' times are computed. -/
def authorize (s : Station) (k flag : Nat) : Decision :=
  if s.isReady = false then refuse .notReady s
  else if Config.slots ≤ k ∨ 1 < flag then refuse .outOfRange s
  else if (s.slot k).state ≠ .planned then refuse .wrongState s
  else if (s.slot k).overrideRequired ∧ flag = 0 then refuse .overrideRequired s
  else
    let s := s.modSlot k fun r =>
      { r with authorized := some s.clock, overrideMark := decide (flag = 1), deadline := none, state := .closing }
    let es := (s.slot k).work
    let s := es.foldl (adoptEntry k) s
    let s := (es.foldl (failOpened k) s).returnFactors
    let s := es.foldl (startCrew k) s
    let s := es.foldl (startActuated k) s
    (.ok, [], (s.testIsolated k).decideAll)

/-- ABORT (R100). -/
def abort (s : Station) (k : Nat) : Decision :=
  if s.isReady = false then refuse .notReady s
  else if Config.slots ≤ k then refuse .outOfRange s
  else
    match (s.slot k).state with
    | .planning | .planned => (.ok, [], (((s.withdraw k).clearOwnership k).freeSlot k).decideAll)
    | .closing | .unisolable =>
      let s := s.stopEntries k false
      let s := s.modSlot k fun r => { r with state := .aborted, replanPending := false, reason := none }
      (.ok, [], (s.withdraw k).decideAll)
    | .reopening => (.ok, [], ((s.stopEntries k true).testDone k).decideAll)
    | _ => refuse .wrongState s

/-- No other slot has a close entry for the valve in PENDING, HALTED or CREW_WAIT (step 3 of R101). -/
def unclaimedByOthers (s : Station) (k v : Nat) : Bool :=
  slotNumbers.all fun j =>
    decide (j = k) || !((s.slot j).work.any fun e => decide (e.valve = v) && (waits e || decide (e.state = .crewWait)))

/-- A valve that has left the closed-by list joins the reopen list (step 3 of R101). -/
def joinsReopen (s : Station) (k v : Nat) : Bool :=
  match s.valve? v with
  | some r =>
    decide ((s.vsOf v).holds = 0 ∧ r.normal = .normallyOpen ∧ (s.vsOf v).position ≠ .opened) && s.unclaimedByOthers k v
  | none => false

/-- The reopen entry of a valve (step 4 of R101). -/
def reopenEntry (s : Station) (v : Nat) : Entry :=
  let crew := match s.valve? v with
    | some r => decide (r.kind = ValveKind.crew)
    | none => false
  if crew then { valve := v, kind := .crew, state := .crewWait } else { valve := v, kind := .actuated, state := .pending }

/-- A valve leaves the closed-by list at RELEASE (step 3 of R101). -/
def releaseValve (k : Nat) (s : Station) (v : Nat) : Station :=
  let s := (s.modSlot k fun r => { r with closedBy := r.closedBy.filter fun w => decide (w ≠ v) }).lowerHold v
  if s.joinsReopen k v then s.modSlot k fun r => { r with reopen := s.reopenEntry v :: r.reopen } else s

/-- Step 4 of R101 for one reopen entry: its opening Tcmd, and the request to a crew. -/
def startReopen (k : Nat) (s : Station) (e : Entry) : Station :=
  let p := s.profileFor e.valve
  let s := s.setTime k true e.valve p
  if e.kind = .crew then s.crewRequest k e.valve .reopen p.tcmd else s

/-- RELEASE (R101). The state is REOPENING from the first, so that the watch of R93 ends with the isolation. The slot
still holds the plan last applied, and the override-required mark of it stands until CLOSE_INCIDENT (R81 does not say
when a plan ceases to be held past AUTHORIZE; the model's choice, log entry 51). -/
def release (s : Station) (k : Nat) : Decision :=
  if s.isReady = false then refuse .notReady s
  else if Config.slots ≤ k then refuse .outOfRange s
  else
    match (s.slot k).state with
    | .isolated | .unisolable | .aborted =>
      let s := s.stopEntries k false
      let s := s.modSlot k fun r => { r with released := some s.clock, reason := none, state := .reopening }
      let s := s.returnFactors.clearOwnership k
      let s := (s.slot k).closedBy.foldl (releaseValve k) s
      let s := (s.slot k).reopen.foldl (startReopen k) s
      (.ok, [], (s.testDone k).decideAll)
    | _ => refuse .wrongState s

/-- CLOSE_INCIDENT (R104). -/
def closeIncident (s : Station) (k : Nat) : Decision :=
  if s.isReady = false then refuse .notReady s
  else if Config.slots ≤ k then refuse .outOfRange s
  else
    match (s.slot k).state with
    | .done => (.ok, [], s.freeSlot k)
    | .aborted =>
      if (s.slot k).closedBy.isEmpty then (.ok, [], (s.clearOwnership k).freeSlot k) else refuse .wrongState s
    | _ => refuse .wrongState s

/-- The plan of a slot expires (R90). No plan is held from then on, and the override-required mark is clear (R81). -/
def planExpires (s : Station) (k : Nat) : Station :=
  match (s.slot k).state, (s.slot k).deadline with
  | .planned, some due =>
    let s := s.advanceTo due
    let s := s.modSlot k fun r => { r with state := .planning, deadline := none, overrideRequired := false }
    (s.trigger k).post { kind := .planExpired, slot := some k }
  | _, _ => s

end Sys2Proof.Machine.Station
end

