-- ==== Sys2Proof/Machine/Reads.lean ====
section
/-! DEFINITION. The read requests and their reply data (R23, R24, R44, R108, R109, R130, R146, R165, R178), in
the layouts of R199: items in the order their rule lists them, fields sized as in a request, clock readings and
32-bit sums in four bytes, lists behind a one-byte count, optional fields behind a presence mark. Widths R199
leaves open are log entry 22. -/

namespace Sys2Proof.Machine

/-- A mark of one byte (R199). -/
def markByte (b : Bool) : List Byte := byte1 b.toNat

/-- An optional field of two bytes: presence mark, then the field, zero when absent (R199). -/
def opt2 (x : Option Nat) : List Byte := markByte x.isSome ++ byte2 (x.getD 0)

/-- An optional field of four bytes. -/
def opt4 (x : Option Nat) : List Byte := markByte x.isSome ++ byte4 (x.getD 0)

/-- An optional field of one byte. -/
def opt1 (x : Option Nat) : List Byte := markByte x.isSome ++ byte1 (x.getD 0)

/-- An optional clock reading, held in tenths and sent in seconds (00_scope section 6). -/
def optClock (x : Option Nat) : List Byte := opt4 (x.map (· / 10))

/-- A list behind a one-byte count (R199). -/
def counted {α : Type} (enc : α → List Byte) (xs : List α) : List Byte := byte1 xs.length ++ xs.flatMap enc

/-- Codes of enumerations: the place of the value in the list of its rule (R199). -/
def Normal.code : Normal → Nat
  | .normallyOpen => 0
  | .normallyClosed => 1

/-- Valve kinds (R199). -/
def ValveKind.code : ValveKind → Nat
  | .actuated => 0
  | .crew => 1

/-- Health (R199). -/
def Health.code : Health → Nat
  | .sound => 0
  | .suspect => 1
  | .inoperable => 2

/-- Position states in the order of R25. -/
def Position.code : Position → Nat
  | .opened => 0
  | .closed => 1
  | .partway => 2
  | .closing => 3
  | .opening => 4
  | .unknown => 5

/-- Usability classes in the order of R36. -/
def Usability.code : Usability → Nat
  | .barrier => 0
  | .closable => 1
  | .passable => 2

/-- Motion owners in the order of R25, none first. -/
def ownerCode : Option Owner → Nat
  | none => 0
  | some (.closeEntry _) => 1
  | some (.reopenEntry _) => 2
  | some .move => 3
  | some .exercise => 4

/-- The slot of an owner, 0 where it has none. -/
def ownerSlot : Option Owner → Nat
  | some (.closeEntry k) | some (.reopenEntry k) => k
  | _ => 0

/-- Slot states in the order of R81. -/
def SlotState.code : SlotState → Nat
  | .free => 0
  | .planning => 1
  | .planned => 2
  | .closing => 3
  | .isolated => 4
  | .unisolable => 5
  | .aborted => 6
  | .reopening => 7
  | .done => 8

/-- Entry kinds in the order of R85. -/
def EntryKind.code : EntryKind → Nat
  | .actuated => 0
  | .crew => 1
  | .alreadyClosed => 2

/-- Entry states in the order of R85. -/
def EntryState.code : EntryState → Nat
  | .proposed => 0
  | .pending => 1
  | .stroking => 2
  | .halted => 3
  | .crewWait => 4
  | .closed => 5
  | .opened => 6
  | .alreadyClosed => 7
  | .failed => 8
  | .stopped => 9

/-- The entry states in the order of R85. -/
def entryStates : List EntryState :=
  [.proposed, .pending, .stroking, .halted, .crewWait, .closed, .opened, .alreadyClosed, .failed, .stopped]

/-- Phases of a stroke in the order of R112. -/
def Phase.code : Phase → Nat
  | .sending => 0
  | .moving => 1
  | .halting => 2

/-- Zone states in the order of R131. -/
def ZoneState.code : ZoneState → Nat
  | .quiet => 0
  | .watch => 1
  | .hold => 2

/-- Node kinds in the order of R151. -/
def NodeKind.code : NodeKind → Nat
  | .actuator => 0
  | .sensor => 1
  | .none => 2

/-- Presence in the order of R151. -/
def Presence.code : Presence → Nat
  | .unknown => 0
  | .present => 1
  | .absent => 2

/-- Handshake steps in the order of R151. -/
def HandshakeStep.code : HandshakeStep → Nat
  | .needDetail => 0
  | .needAcknowledge => 1

/-- Answer states (R200). -/
def AnswerState.code : AnswerState → Nat
  | .ready => 0
  | .moving => 1
  | .fault => 2
  | .attend => 3

/-- Phases of an exercise in the order of R167. -/
def ExercisePhase.code : ExercisePhase → Nat
  | .queued => 0
  | .outward => 1
  | .returnWait => 2
  | .returning => 3

/-- Station states in the order of R179. -/
def StationState.code : StationState → Nat
  | .loading => 0
  | .blank => 1
  | .ready => 2

/-- Cause codes (R199). -/
def Cause.code : Cause → Nat
  | .stall => 0x01
  | .timeout => 0x02
  | .shortStroke => 0x03
  | .nodeFault => 0x04
  | .nodeAbsent => 0x05
  | .localMode => 0x06
  | .crewStuck => 0x07
  | .drift => 0x08
  | .withdrawn => 0x09
  | .interrupted => 0x0A
  | .abandoned => 0x0B
  | .preempted => 0x0C
  | .host => 0x0D
  | .notOpen => 0x0E
  | .done => 0x0F
  | .regionTooLarge => 0x20
  | .sourceReached => 0x21
  | .boundaryTooLarge => 0x22
  | .closedSetFull => 0x23
  | .burstListFull => 0x24
  | .tooManyFailures => 0x25
  | .close => 0x30
  | .reopen => 0x31
  | .settled => 0x32
  | .powerOn => 0x40
  | .resetPin => 0x41
  | .resetStation => 0x42
  | .format => 0x48
  | .check => 0x49
  | .content => 0x4A
  | .erase => 0x50
  | .write => 0x51
  | .verify => 0x52

/-- The mask of a halt-cause set: bits SURGE, SUPPLY, CLEAR, HOST in the order of R85. -/
def HaltSet.mask (h : HaltSet) : Nat := h.surge.toNat + 2 * h.supply.toNat + 4 * h.clear.toNat + 8 * h.host.toNat

/-- The number of a signed quantity in two bytes, two's complement. -/
def signed2 (n : Int) : Nat := (n % 65536).toNat

namespace Station

/-- NOT_READY in LOADING, else go on (R11, R23). -/
def unlessLoading (s : Station) (d : Decision) : Decision := if s.ss.station = .loading then refuse .notReady s else d

/-- READ_SEGMENT (R23). -/
def readSegment (s : Station) (n : Nat) : Decision :=
  s.unlessLoading <|
    if Config.segments ≤ n then refuse .outOfRange s
    else
      match s.segment? n with
      | none => refuse .notFound s
      | some r =>
        (.ok, byte1 r.zone ++ markByte r.source ++ byte2 r.connections ++ markByte r.priority ++
          markByte r.name.isSome ++ counted (fun c => [c]) (r.name.getD []), s)

/-- The current velocity is in force (R9). -/
def flowInForce (s : Station) (v : Nat) : Bool :=
  match (s.vsOf v).flow with
  | some (_, t) => decide ((s.seconds + 4294967296 - t) % 4294967296 ≤ s.nt.timing.lifetime)
  | none => false

/-- READ_VALVE (R23); source of the effective velocity 0 CURRENT, 1 DESIGN. The current velocity and its age share one
presence mark, which R23 names once for both (the model's choice, log entry 22). -/
def readValve (s : Station) (v : Nat) : Decision :=
  s.unlessLoading <|
    if Config.valves ≤ v then refuse .outOfRange s
    else
      match s.valve? v with
      | none => refuse .notFound s
      | some r =>
        let flow := (s.vsOf v).flow
        (.ok,
          byte2 r.sideA ++ byte2 r.sideB ++ byte1 r.zone ++ byte1 r.normal.code ++ byte1 r.kind.code ++
          byte1 ((r.node.map fun n => lineCode n.line).getD 0) ++ byte1 ((r.node.map (·.address)).getD 0) ++
          byte2 r.length ++ byte2 r.waveSpeed ++ byte2 r.velocity ++ byte2 r.tmin ++ byte2 r.tmax ++ byte1 r.stall ++
          byte1 r.health.code ++ opt2 r.measured ++ opt4 r.exercised ++ markByte r.node.isSome ++
          byte2 (s.effectiveVelocity v) ++ byte1 (if s.flowInForce v then 0 else 1) ++
          markByte flow.isSome ++ byte2 ((flow.map (·.1)).getD 0) ++
          byte4 ((flow.map fun f => (s.seconds + 4294967296 - f.2) % 4294967296).getD 0), s)

/-- READ_ZONE (R23). -/
def readZone (s : Station) (z : Nat) : Decision :=
  s.unlessLoading <|
    if Config.zones ≤ z then refuse .outOfRange s
    else
      let r := s.zoneRec z
      (.ok, byte2 r.hmax ++ byte1 r.slots ++ byte2 r.ceiling ++ byte2 r.hysteresis ++ byte2 r.settle ++ byte2 r.drop ++
        byte2 r.detect, s)

/-- READ_SENSOR (R23). -/
def readSensor (s : Station) (n : Nat) : Decision :=
  s.unlessLoading <|
    if Config.sensors ≤ n then refuse .outOfRange s
    else
      match s.sensor? n with
      | none => refuse .notFound s
      | some r =>
        (.ok, byte1 (lineCode r.node.line) ++ byte1 r.node.address ++ byte2 r.segment ++
          byte1 (s.zoneOfSegment r.segment), s)

/-- READ_TIMING (R23). -/
def readTiming (s : Station) : Decision :=
  s.unlessLoading
    (.ok, byte2 s.nt.timing.validity ++ byte2 s.nt.timing.lifetime ++ byte1 s.nt.timing.exponent ++
      byte1 s.nt.timing.window, s)

/-- The reply data of a walk over one kind (R24). A record number takes the two bytes it has in the request, for
sensors too (the model's choice, log entry 22). -/
def walkData {α : Type} (t : Table α) (start : Nat) : List Byte := opt2 (t.next? start) ++ byte2 t.length

/-- NEXT_RECORD (R24); kinds 0 SEGMENT, 1 VALVE, 2 SENSOR. -/
def nextRecord (s : Station) (kind start : Nat) : Decision :=
  s.unlessLoading <|
    match kind with
    | 0 =>
      if Config.segments ≤ start then refuse .outOfRange s
      else (.ok, walkData s.nt.segments start ++ byte2 s.nt.sourceCount, s)
    | 1 => if Config.valves ≤ start then refuse .outOfRange s else (.ok, walkData s.nt.valves start, s)
    | 2 => if Config.sensors ≤ start then refuse .outOfRange s else (.ok, walkData s.nt.sensors start, s)
    | _ => refuse .outOfRange s

/-- READ_VALVE_STATE (R44). The percent and the hold count are quantities of two bytes (R199); node presence and last answer state carry a
presence mark for both kinds of valve (the model's choice, log entry 22). -/
def readValveState (s : Station) (v : Nat) : Decision :=
  s.unlessLoading <|
    if Config.valves ≤ v then refuse .outOfRange s
    else
      match s.valve? v with
      | none => refuse .notFound s
      | some r =>
        let d := s.vsOf v
        let e := r.node.map s.node
        (.ok,
          byte1 d.position.code ++ opt2 d.percent ++ markByte d.stale ++ byte2 d.holds ++ markByte d.localMark ++
          opt1 (d.faults.map (·.toNat)) ++ byte1 (ownerCode d.owner) ++ byte1 (ownerSlot d.owner) ++ markByte d.request ++
          byte1 (((usability? s v).map (·.code)).getD 0) ++
          opt1 (e.map (·.presence.code)) ++ opt1 ((e.bind (·.last)).map (·.1.code)) ++ byte1 r.health.code, s)

/-- The planner position of a slot (R46): state NONE 0, QUEUED 1, COMPUTING 2, with its place in the queue. -/
def plannerPosition (s : Station) (k : Nat) : Nat × Nat :=
  if s.computing k then (2, 0)
  else if s.ip.queue.contains k then (1, s.ip.queue.idxOf k + 1)
  else (0, 0)

/-- The number of entries in each state (R108). -/
def stateCounts (es : List Entry) : List Byte :=
  entryStates.flatMap fun st => byte2 (es.countP fun e => decide (e.state = st))

/-- READ_INCIDENT (R108). -/
def readIncident (s : Station) (k : Nat) : Decision :=
  s.unlessLoading <|
    if Config.slots ≤ k then refuse .outOfRange s
    else
      let r := s.slot k
      let place := s.plannerPosition k
      (.ok,
        byte1 r.state.code ++ byte1 place.1 ++ byte2 place.2 ++ counted byte2 r.burst ++ optClock r.authorized ++
        optClock r.deadline ++ optClock r.released ++ markByte r.overrideMark ++ markByte r.overrideRequired ++
        markByte r.replanPending ++ byte2 r.expansions ++ markByte r.reason.isSome ++
        byte1 ((r.reason.map (·.1.code)).getD 0) ++ byte4 ((r.reason.map (·.2)).getD 0) ++ counted byte2 r.region ++
        counted byte2 r.closedBy ++ counted (fun p => byte2 p.1 ++ byte1 p.2.code) r.failed ++ stateCounts r.work ++
        stateCounts r.reopen, s)

/-- One entry of a page (R109). An ALREADY_CLOSED entry carries no stroke time (R56, R85) and only such an entry an
off-normal mark: the Tcmd of the one is sent as 0 and its surge-limited mark as clear, the off-normal mark of the others
as clear, and no presence mark stands before them (the model's choice, log entry 22). -/
def entryData (e : Entry) : List Byte :=
  byte2 e.valve ++ byte1 e.kind.code ++ byte1 e.state.code ++ byte2 e.tcmd ++ markByte e.limited ++ markByte e.offNormal ++
  opt2 e.residual ++ byte1 e.halts.mask

/-- A cut-off report, marked absent when absent (R60, R109). -/
def reportData (r : Option Report) : List Byte :=
  let x := r.getD { regionConnections := 0, cutOffCount := 0, cutOffConnections := 0, priorityList := [],
                    priorityOverflow := 0 }
  markByte r.isSome ++ byte4 x.regionConnections ++ byte2 x.cutOffCount ++ byte4 x.cutOffConnections ++
  counted byte2 x.priorityList ++ byte2 x.priorityOverflow

/-- READ_PLAN (R109). -/
def readPlan (s : Station) (k page : Nat) : Decision :=
  s.unlessLoading <|
    if Config.slots ≤ k then refuse .outOfRange s
    else
      let r := s.slot k
      let es :=
        match r.state with
        | .free | .planning => none
        | .reopening | .done => some r.reopen
        | _ => some r.work
      match es with
      | none => refuse .wrongState s
      | some es =>
        if max 1 (ceilDiv es.length 8) ≤ page then refuse .outOfRange s
        else
          (.ok, counted entryData ((es.drop (8 * page)).take 8) ++
            (if page = 0 then byte2 es.length ++ reportData r.report else []), s)

/-- One stroke of READ_MOTION (R130). The time since acceptance and the timeout share one presence mark, and the target
takes two bytes for every stroke (log entry 22). -/
def strokeData (s : Station) (r : Stroke) : List Byte :=
  let since := if r.phase = .sending then none else r.accepted.map (clockSince s.clock)
  byte2 r.valve ++ byte1 (ownerCode (some r.owner)) ++ byte1 (ownerSlot (some r.owner)) ++ markByte r.retained ++
  byte2 r.target ++ byte2 r.time ++ byte1 r.phase.code ++ byte2 r.sendings ++ opt2 since ++
  byte2 (if since.isSome then r.timeout.getD 0 else 0)

/-- READ_MOTION (R130). The first eligible candidate stands behind a presence mark, 1 when there is one and 0 when there
is none, as the optional fields of R199 do, although R130 names a mark that there is none; without one its valve and class
are zeros (the model's choice, log entry 22). -/
def readMotion (s : Station) (z : Nat) : Decision :=
  s.unlessLoading <|
    if Config.zones ≤ z then refuse .outOfRange s
    else
      let first := s.firstEligible z
      (.ok,
        byte2 (s.count z) ++ byte1 (s.zoneRec z).slots ++
        counted s.strokeData (s.md.strokes.filter fun r => decide (r.zone = z)) ++
        ([s.class0 z, s.class1 z, s.class2 z, s.class3 z, s.class4 z].flatMap fun c => byte2 c.length) ++
        markByte first.isSome ++ byte2 ((first.map (·.valve)).getD 0) ++ byte1 ((first.map (·.cls)).getD 0) ++
        markByte (s.closeEntryWaits z), s)

/-- The seconds left to a zone's settle timer, as READ_ZONE_WATCH reports them (R146): exact when a whole
number of seconds is left, a free value otherwise (log entry 10). -/
def settleLeft (s : Station) (z : Nat) : Nat :=
  match s.settleExpiry? z with
  | none => Config.noTimerSeconds
  | some due =>
    let left := if clockReached s.clock due then 0 else clockSince due s.clock
    if left % 10 = 0 then left / 10 else Config.remainingSeconds left

/-- READ_ZONE_WATCH (R146). -/
def readZoneWatch (s : Station) (z : Nat) : Decision :=
  s.unlessLoading <|
    if Config.zones ≤ z then refuse .outOfRange s
    else
      let w := s.zoneWatch z
      (.ok, byte1 w.state.code ++ byte2 w.factor ++ markByte w.persist ++ optClock w.heldAt ++ optClock w.settleAt ++
        byte2 (s.settleLeft z) ++ byte2 (s.sensorsOfZone z).length, s)

/-- READ_SENSOR_WATCH (R146). -/
def readSensorWatch (s : Station) (n : Nat) : Decision :=
  s.unlessLoading <|
    if Config.sensors ≤ n then refuse .outOfRange s
    else
      match s.sensor? n with
      | none => refuse .notFound s
      | some r =>
        let w := s.sensorWatch n
        let z := s.zoneOfSegment r.segment
        let drop := (s.zoneRec z).drop
        (.ok,
          byte1 z ++ byte2 r.segment ++ opt2 w.baseline ++ opt2 (w.last.map (·.1)) ++ optClock (w.last.map (·.2)) ++
          optClock w.lowRun ++ markByte w.suspicion ++
          opt2 (w.baseline.map fun b => signed2 ((b : Int) - drop)) ++
          opt2 (w.baseline.map fun b => signed2 ((b : Int) - ((drop / 2 : Nat) : Int))) ++
          markByte (s.owned r.segment), s)

/-- The number of the record at a place behind its presence mark (R165): a valve's takes two bytes and a sensor's one
(R199); where there is none two bytes of zero stand (log entry 22). -/
def occupantData : Option Occupant → List Byte
  | some (.valve v) => markByte true ++ byte2 v
  | some (.sensor n) => markByte true ++ byte1 n
  | none => markByte false ++ byte2 0

/-- READ_NODE (R165). Class 2 has no queue: a call of it counts as queued while the node is PRESENT with the mark set,
also while that call is on the line (log entry 22). -/
def readNode (s : Station) (line address : Nat) : Decision :=
  s.unlessLoading <|
    match place? line address with
    | none => refuse .outOfRange s
    | some n =>
      let e := s.node n
      let x := s.line n.line
      let onLine :=
        match x.onLine with
        | some (.addressed a _ _) => decide (a = n.address)
        | _ => false
      (.ok,
        byte1 e.kind.code ++ occupantData (s.occupant? n) ++ byte1 e.presence.code ++ byte2 e.misses ++
        markByte e.attend ++ byte1 e.step.code ++ opt1 (e.last.map (·.1.code)) ++ optClock (e.last.map (·.2)) ++
        optClock e.rollDue ++ optClock e.detailDue ++ optClock e.sampleDue ++
        markByte (x.halts.contains n.address) ++ markByte (decide (e.presence = .present) && e.attend) ++
        markByte (x.strokes.contains n.address) ++ markByte onLine, s)

/-- READ_EXERCISES (R178). -/
def readExercises (s : Station) : Decision :=
  s.unlessLoading
    (.ok, counted (fun x => byte2 x.valve ++ byte1 x.zone ++ byte1 x.target ++ byte1 x.phase.code ++ opt2 x.elapsed ++
      opt1 (x.result.map (·.code)) ++ markByte x.degraded) s.xu, s)

end Station
end Sys2Proof.Machine
end

