-- ==== Sys2Proof/Machine/StartUp.lean ====
section
/-! DEFINITION. Storage and Start-up (10): the load tests and the load, the commit and its store, the settle
wait and the reset of the station. -/

namespace Sys2Proof.Machine

/-- A number lies in a range. -/
def inRange (lo hi n : Nat) : Bool := decide (lo ≤ n ∧ n ≤ hi)

/-- A node place is in range (R2, R5). -/
def nodeOk (n : Node) : Bool := inRange 1 60 n.address

/-- A segment record's fields lie in their ranges (test 4 of R181, R1). -/
def segmentOk (r : Segment) : Bool :=
  decide (r.zone < Config.zones) && decide (r.connections ≤ 65535) &&
    match r.name with
    | none => true
    | some cs => !cs.isEmpty && (nameTag? cs).isSome

/-- A valve record's fields lie in their ranges, with Tmin ≤ Tmax (test 4 of R181, R2). -/
def valveOk (r : Valve) : Bool :=
  decide (r.sideA < Config.segments ∧ r.sideB < Config.segments ∧ r.zone < Config.zones) &&
  (match r.kind, r.node with
    | .actuated, some n => nodeOk n
    | .crew, none => true
    | _, _ => false) &&
  inRange 1 20000 r.length && inRange 300 1400 r.waveSpeed && inRange 0 5000 r.velocity && inRange 10 36000 r.tmin &&
  inRange 10 36000 r.tmax && decide (r.tmin ≤ r.tmax) && inRange 50 150 r.stall &&
  (r.measured.map (inRange 10 36000)).getD true && (r.exercised.map (inRange 0 4294967295)).getD true

/-- A sensor record's fields lie in their ranges (test 4 of R181, R5). -/
def sensorOk (r : Sensor) : Bool := nodeOk r.node && decide (r.segment < Config.segments)

/-- A zone record's fields lie in their ranges, the ceiling above the hysteresis (test 4 of R181, R4). -/
def zoneOk (r : ZoneRec) : Bool :=
  inRange 10 1000 r.hmax && inRange 1 4 r.slots && inRange 0 2000 r.ceiling && inRange 5 200 r.hysteresis &&
  inRange 5 300 r.settle && inRange 10 500 r.drop && inRange 8 120 r.detect && decide (r.hysteresis < r.ceiling)

/-- The station parameters lie in their ranges (test 4 of R181, R6). -/
def timingOk (t : Timing) : Bool :=
  inRange 60 3600 t.validity && inRange 60 7200 t.lifetime && inRange 0 6 t.exponent && inRange 1 16 t.window

/-- The record counts lie within their capacities (test 2 of R181). -/
def countsOk (i : Image) : Bool :=
  decide (i.segments.length ≤ Config.segments ∧ i.valves.length ≤ Config.valves ∧ i.sensors.length ≤ Config.sensors)

/-- Each record number lies in range and appears once, and each record's fields lie within their ranges (test 4 of
R181). -/
def rowsOk {α : Type} (numbers : Nat) (ok : α → Bool) (rows : List (Nat × α)) : Bool :=
  decide (rows.map (·.1)).Nodup && rows.all fun p => decide (p.1 < numbers) && ok p.2

/-- Test 4 of R181 on every part of an image. -/
def fieldsOk (i : Image) : Bool :=
  rowsOk Config.segments segmentOk i.segments && rowsOk Config.valves valveOk i.valves &&
  rowsOk Config.sensors sensorOk i.sensors && rowsOk Config.zones zoneOk i.zones && timingOk i.timing

/-- The node keys an image maps. -/
def nodeKeys (i : Image) : List Nat :=
  (i.valves.filterMap fun p => p.2.node.map Node.key) ++ i.sensors.map fun p => p.2.node.key

/-- The topology of an image (test 5 of R181). -/
def topologyOk (i : Image) : Bool :=
  let present (n : Nat) : Bool := i.segments.any fun p => decide (p.1 = n)
  i.valves.all (fun p => present p.2.sideA && present p.2.sideB && decide (p.2.sideA ≠ p.2.sideB)) &&
  i.sensors.all (fun p => present p.2.segment) && decide (nodeKeys i).Nodup &&
  decide (Station.countSources i.segments ≤ Config.sources)

/-- The CRC-32 over what stands in an image before its check (R180); the bytes are a free value. -/
def contentCheck (c : Content) : Word := crc32 (Config.imageBytes c)

/-- The load tests of R181 in their order: the image that loads, or the cause of the failure. -/
def loadTest : Flash → Except LoadCause Image
  | .erased => .error .format
  | .holds c check =>
    if c.format ≠ Config.imageFormat then .error .format
    else if countsOk c.image = false then .error .format
    else if contentCheck c ≠ check then .error .check
    else if c.codesDefined = false ∨ fieldsOk c.image = false ∨ topologyOk c.image = false then .error .content
    else .ok c.image

/-- The cause LOAD_FAILED carries (R181). -/
def LoadCause.cause : LoadCause → Cause
  | .format => .format
  | .check => .check
  | .content => .content

/-- The table of a loaded image, with its maps rebuilt and its sources recounted (R8). -/
def networkOf (i : Image) : Network :=
  let m := i.valves.foldl
    (fun (t : Table Occupant) p => match p.2.node with | some n => t.put n.key (.valve p.1) | none => t) []
  { segments := Table.gather i.segments, sourceCount := Station.countSources i.segments
    valves := Table.gather i.valves
    zones := i.zones.foldl (fun (t : Table ZoneRec) p => t.writeD {} p.1 p.2) []
    sensors := Table.gather i.sensors, timing := i.timing
    nodeMap := i.sensors.foldl (fun (t : Table Occupant) p => t.put p.2.node.key (.sensor p.1)) m }

namespace Station

/-- The image of the present table (R180, R182). -/
def imageOf (s : Station) : Image :=
  { segments := s.nt.segments, valves := s.nt.valves, sensors := s.nt.sensors, zones := s.nt.zones
    timing := s.nt.timing }

/-- Every block at its reset values (R187 and the chapters' own rules); the flash keeps its content. -/
def atReset (s : Station) : Station := { ss := { flash := s.ss.flash, fresh := s.ss.fresh } }

/-- The table loads (R181): records, Valve State (R26), kept classes without report, node kinds. -/
def loaded (s : Station) (i : Image) : Station :=
  let s := { s with nt := networkOf i, ss := { s.ss with station := .ready } }
  let s := i.valves.foldl
    (fun (s : Station) p =>
      let s := s.modVs p.1 fun _ => if p.2.kind = .crew then atNormal p.2 {} else {}
      match p.2.node with
      | some n => s.modNode n fun e => { e with kind := .actuator }
      | none => s) s
  let s := i.sensors.foldl (fun (s : Station) p => s.modNode p.2.node fun e => { e with kind := .sensor }) s
  i.valves.foldl (fun (s : Station) p => s.deriveClass p.1) s

/-- LOADING_END (R181): a flash that does not answer reads as erased. Once the settle wait has ended too, the
lines start (R184). -/
def loadingEnds (s : Station) (answers : Bool) : Station :=
  if s.ss.station ≠ .loading then s
  else
    let s :=
      match loadTest (if answers then s.ss.flash else .erased) with
      | .ok i => s.loaded i
      | .error c =>
        ({ s with nt := {}, ss := { s.ss with station := .blank } } : Station).post
          { kind := .loadFailed, cause := some c.cause }
    s.startLines

/-- SETTLE_WAIT_END (R184): 2 s after the reset. -/
def settleWaitEnds (s : Station) : Station :=
  if s.ss.settling then
    let s := s.advanceTo 20
    ({ s with ss := { s.ss with settling := false } } : Station).startLines
  else s

/-- COMMIT_TABLE (R182): the image is formed and the store begins. From here to the end of a good store the
flash content is not known (R183, log entry 7). -/
def commitTable (s : Station) : Decision :=
  if s.ss.station = .loading then refuse .notReady s
  else if s.ss.storing.isSome then refuse .busy s
  else if s.ss.station = .blank ∧ s.nt.segments = [] then refuse .wrongState s
  else
    (.accepted, [],
      { s with ss :=
        { s.ss with
          storing := some { image := s.imageOf, step := .erase, blank := decide (s.ss.station = .blank) }
          flash := Config.unknownFlash s.ss.fresh
          fresh := s.ss.fresh + 1 } })

/-- The store ends with STORE_FAILED (R183). -/
def storeFails (s : Station) (c : Cause) : Station :=
  ({ s with ss := { s.ss with storing := none } } : Station).post { kind := .storeFailed, cause := some c }

/-- STORE_ERASE_DONE (R183). -/
def eraseDone (s : Station) (error : Bool) : Station :=
  match s.ss.storing with
  | some st =>
    if st.step ≠ .erase then s
    else if error then s.storeFails .erase
    else { s with ss := { s.ss with storing := some { st with step := .write } } }
  | none => s

/-- STORE_WRITE_DONE (R183). -/
def writeDone (s : Station) (error : Bool) : Station :=
  match s.ss.storing with
  | some st =>
    if st.step ≠ .write then s
    else if error then s.storeFails .write
    else { s with ss := { s.ss with storing := some { st with step := .verify } } }
  | none => s

/-- What the part writes before the check of an image (R180). -/
def contentOf (i : Image) : Content := { format := Config.imageFormat, image := i, codesDefined := true }

/-- The CRC-32 of an image that the part has formed (R180). -/
def imageCheck (i : Image) : Nat := (contentCheck (contentOf i)).toNat

/-- STORE_VERIFY_DONE (R183): without a difference the flash holds the image with its check, STORE_DONE carries the
CRC-32, and a store begun in BLANK makes the station READY. -/
def verifyDone (s : Station) (differs : Bool) : Station :=
  match s.ss.storing with
  | some st =>
    if st.step ≠ .verify then s
    else if differs then s.storeFails .verify
    else
      ({ s with ss :=
        { s.ss with
          storing := none
          flash := .holds (contentOf st.image) (contentCheck (contentOf st.image))
          station := if st.blank then .ready else s.ss.station } } : Station).post
        { kind := .storeDone, value := some (imageCheck st.image) }
  | none => s

/-- FLASH_OPERATION_TIMEOUT (R183): an erase or a write has not reported within 4 s. -/
def flashTimeout (s : Station) : Station :=
  match s.ss.storing with
  | some st =>
    match st.step with
    | .erase => s.storeFails .erase
    | .write => s.storeFails .write
    | .verify => s
  | none => s

end Station
end Sys2Proof.Machine
end

