-- ==== Sys2Proof/Machine/LinkRequests.lean ====
section
/-! DEFINITION. The Station Link (11): the station reset as the link sees it, the requests SL answers itself,
taking a request, replies, and the receiver. -/

namespace Sys2Proof.Machine

/-- Notice kind codes 01h to 19h in the order of R193 (R199). -/
def NoticeKind.code : NoticeKind → Nat
  | .planReady => 0x01
  | .planExpired => 0x02
  | .unisolable => 0x03
  | .expanded => 0x04
  | .isolated => 0x05
  | .merged => 0x06
  | .reopened => 0x07
  | .valveFailed => 0x08
  | .crewRequest => 0x09
  | .crewCancel => 0x0A
  | .surgeLimited => 0x0B
  | .exerciseDone => 0x0C
  | .nodeAbsent => 0x0D
  | .nodePresent => 0x0E
  | .lineCleared => 0x0F
  | .burstSuspected => 0x10
  | .surgeHold => 0x11
  | .surgeResumed => 0x12
  | .surgePersist => 0x13
  | .started => 0x14
  | .loadFailed => 0x15
  | .storeDone => 0x16
  | .storeFailed => 0x17
  | .supplyWarning => 0x18
  | .supplyRestored => 0x19

/-- Notice class codes (R199). -/
def NoticeClass.code : NoticeClass → Nat
  | .incident => 0
  | .valve => 1
  | .field => 2
  | .pressure => 3
  | .station => 4

/-- The presence byte of a notice (R199). -/
def Notice.presence (n : Notice) : Nat :=
  n.slot.isSome.toNat + 2 * n.valve.isSome.toNat + 4 * n.zone.isSome.toNat + 8 * n.segment.isSome.toNat +
  16 * n.node.isSome.toNat + 32 * n.cause.isSome.toNat + 64 * n.value.isSome.toNat

/-- The 20 bytes of a notice (R199). -/
def Notice.bytes (n : Notice) : List Byte :=
  byte1 n.kind.code ++ byte1 n.kind.classOf.code ++ byte1 n.presence ++ byte4 n.clock ++ byte1 (n.slot.getD 0) ++
  byte2 (n.valve.getD 0) ++ byte1 (n.zone.getD 0) ++ byte2 (n.segment.getD 0) ++
  byte1 ((n.node.map fun x => lineCode x.line).getD 0) ++ byte1 ((n.node.map (·.address)).getD 0) ++
  byte1 ((n.cause.map (·.code)).getD 0) ++ byte4 (n.value.getD 0)

/-- Status codes (R199). -/
def Status.code : Status → Nat
  | .ok => 0x00
  | .accepted => 0x01
  | .unknownKind => 0x02
  | .badLength => 0x03
  | .outOfRange => 0x04
  | .notReady => 0x05
  | .busy => 0x06
  | .wrongState => 0x07
  | .noSlot => 0x08
  | .alreadyIsolated => 0x09
  | .incidentActive => 0x0A
  | .valveHeld => 0x0B
  | .notFound => 0x0C
  | .tableFull => 0x0D
  | .badTopology => 0x0E
  | .overrideRequired => 0x0F
  | .notActuated => 0x10
  | .inRegion => 0x11

/-- The bytes of a reply frame (R199): start, two length bytes, kind 81h, tag, payload, check. -/
def Reply.frame (r : Reply) : List Byte :=
  let payload := r.kind :: BitVec.ofNat 8 r.status.code :: r.data
  let body := byte2 payload.length ++ 0x81#8 :: r.tag :: payload
  0x7E#8 :: (body ++ checkBytes body)

/-- The station reset (R187): every block at its reset values, the clock at 0, RATE sampled, the queue emptied
and STARTED posted with the kind of reset (R186). -/
def stationReset (s : State) (cause : Cause) (rate : Bool) : State :=
  { s with
    nrstLow := false
    sl := ({ rateHigh := rate } : Link).takeNotice { kind := .started, cause := some cause }
    st := s.st.atReset }

/-- The five marks of a class set, one byte each (R199). -/
def ClassMarks.bytes (m : ClassMarks) : List Byte :=
  markByte m.incident ++ markByte m.valve ++ markByte m.field ++ markByte m.pressure ++ markByte m.station

/-- How many called addresses of a line have a presence (R151, R197). -/
def presenceCount (l : FieldLine) (p : Presence) : Nat :=
  l.nodes.countP fun x => decide (x.2.kind ≠ .none ∧ x.2.presence = p)

/-- One line's counts in STATUS (R197), two bytes each as R199 sizes a quantity. -/
def lineStatus (l : FieldLine) : List Byte :=
  byte2 (presenceCount l .present) ++ byte2 (presenceCount l .absent) ++ byte2 (presenceCount l .unknown)

/-- The reply data of STATUS (R197). -/
def statusData (s : State) : List Byte :=
  byte1 s.st.ss.station.code ++ markByte s.st.ss.storing.isSome ++ markByte s.st.supplyWarning ++
  (Station.slotNumbers.flatMap fun k => byte1 (s.st.slot k).state.code) ++
  (zoneNumbers.flatMap fun z => byte1 (s.st.zoneWatch z).state.code ++ byte2 (s.st.zoneWatch z).factor) ++
  lineStatus s.st.lineA ++ lineStatus s.st.lineB ++ byte2 s.sl.notices.length ++ s.sl.withheld.bytes ++
  s.sl.enables.bytes

/-- The reply data of IDENTIFY (R198). -/
def identifyData (s : State) : List Byte :=
  byte2 0x0A3D ++ byte2 4120 ++ byte2 1 ++ byte2 Config.segments ++ byte2 Config.valves ++ byte2 Config.zones ++
  byte2 Config.sensors ++ byte2 Config.slots ++ byte2 Config.noticeCap ++ byte2 Config.exerciseCap ++
  byte2 Config.payloadCap ++ byte2 Config.imageFormat ++ byte4 (if s.sl.rateHigh then 115200 else 19200)

/-- Form a reply and begin to send it (R190, R192). -/
def respond (s : State) (w : Waiting) (st : Status) (data : List Byte) : State :=
  { s with sl :=
    { s.sl with sending := true, lastReply := some { tag := w.tag, kind := w.kind, status := st, data := data } } }

/-- READ_NOTICE (R195). -/
def takeReadNotice (s : State) (w : Waiting) : State :=
  match s.sl.notices with
  | [] => respond s w .ok []
  | n :: ns => respond { s with sl := { s.sl with notices := ns } } w .ok (n.bytes ++ byte2 ns.length)

/-- SET_NOTICE_CLASSES (R196). -/
def takeSetClasses (s : State) (w : Waiting) (mask : Nat) : State :=
  if 32 ≤ mask then respond s w .outOfRange []
  else respond { s with sl := { s.sl with enables := ClassMarks.ofMask mask } } w .ok []

/-- STATUS (R197): the withheld marks clear once the reply is formed. -/
def takeStatus (s : State) (w : Waiting) : State :=
  let s' := respond s w .ok (statusData s)
  { s' with sl := { s'.sl with withheld := ⟨false, false, false, false, false⟩ } }

/-- IDENTIFY (R198). -/
def takeIdentify (s : State) (w : Waiting) : State := respond s w .ok (identifyData s)

/-- RESET_STATION (R187): its OK reply is sent in full, then the station resets. RATE is sampled afresh, and the
request does not bring its level: a free value (log entry 4). The reply stays readable (log entry 5). -/
def takeReset (s : State) (w : Waiting) : State :=
  let reply : Reply := { tag := w.tag, kind := w.kind, status := .ok, data := [] }
  let s := stationReset s .resetStation (Config.rateLevel s.rateSamples)
  { s with rateSamples := s.rateSamples + 1, sl := { s.sl with lastReply := some reply } }

/-- The decision of the block that owns a request (R190). The requests SL answers itself are not decided
here. -/
def decideRequest (s : Station) : Request → Decision
  | .putSegment n z src c p name => s.putSegment n z src c p name
  | .deleteSegment n => s.deleteSegment n
  | .putValve f => s.putValve f
  | .deleteValve v => s.deleteValve v
  | .putSensor n l a g => s.putSensor n l a g
  | .deleteSensor n => s.deleteSensor n
  | .putZone f => s.putZone f
  | .setTiming p l k w => s.setTiming p l k w
  | .setFlow v q => s.setFlow v q
  | .readSegment n => s.readSegment n
  | .readValve v => s.readValve v
  | .readZone z => s.readZone z
  | .readSensor n => s.readSensor n
  | .readTiming => s.readTiming
  | .nextRecord k n => s.nextRecord k n
  | .setHealth v h => s.putHealth v h
  | .confirmValve v r => s.confirmValve v r
  | .moveValve v t d => s.moveValve v t d
  | .haltValve v m => s.haltValve v m
  | .readValveState v => s.readValveState v
  | .openIncident n => s.openIncident n
  | .authorize k o => s.authorize k o
  | .abort k => s.abort k
  | .release k => s.release k
  | .closeIncident k => s.closeIncident k
  | .readIncident k => s.readIncident k
  | .readPlan k p => s.readPlan k p
  | .readMotion z => s.readMotion z
  | .resumeZone z => s.resumeZone z
  | .readZoneWatch z => s.readZoneWatch z
  | .readSensorWatch n => s.readSensorWatch n
  | .fieldClear l => s.fieldClear l
  | .readNode l a => s.readNode l a
  | .exerciseValve v t => s.exerciseValve v t
  | .readExercises => s.readExercises
  | .commitTable => s.commitTable
  | .resetStation | .readNotice | .setNoticeClasses _ | .status | .identify => (.ok, [], s)

/-- The requests taken in LOADING (check 3 of R191). -/
def takenLoading : Request → Bool
  | .identify | .status | .readNotice | .setNoticeClasses _ => true
  | _ => false

/-- SL takes a request (R190): the general checks of R191, then the owner's decision, and the reply. -/
def takeRequest (s : State) (w : Waiting) : State :=
  match w.content with
  | .unknownKind => respond s w .unknownKind []
  | .badLength => respond s w .badLength []
  | .request r =>
    if s.st.ss.station = .loading ∧ takenLoading r = false then respond s w .notReady []
    else
      match r with
      | .readNotice => takeReadNotice s w
      | .setNoticeClasses m => takeSetClasses s w m
      | .status => takeStatus s w
      | .identify => takeIdentify s w
      | .resetStation => takeReset s w
      | r =>
        let d := decideRequest s.st r
        respond { s with st := d.2.2 } w d.1 d.2.1

/-- SL takes the oldest waiting request when no reply is being sent (R190), and then the notices its decision
posted. -/
def takeNext (s : State) : State :=
  if s.sl.sending then s
  else
    match s.sl.buffer with
    | [] => s
    | w :: ws => takePostings (takeRequest { s with sl := { s.sl with buffer := ws } } w)

/-- A received request passes to the receive buffer, or is discarded when two wait (R190); it is taken at once
when the link is free. -/
def deliver (s : State) (w : Waiting) : State :=
  if s.sl.buffer.length < Config.bufferCap then takeNext { s with sl := { s.sl with buffer := s.sl.buffer ++ [w] } }
  else s

/-- The arrival of a whole request (the request rows of the table; log entry 3). -/
def arrive (s : State) (tag : Byte) (r : Request) : State :=
  deliver s { tag, kind := BitVec.ofNat 8 (requestCode r), content := .request r }

/-- The receiver takes a byte (R188, R189): its next state, and the request a complete frame carries. -/
def receiveByte (r : Receiver) (b : Byte) : Receiver × Option Waiting :=
  match r with
  | .hunting => (if b = 0x7E#8 then .assembling [] else .hunting, none)
  | .assembling taken =>
    match taken ++ [b] with
    | [n] => (if Config.payloadCap < n.toNat then .hunting else .assembling [n], none)
    | n :: rest =>
      if rest.length = n.toNat + 4 then
        let body := n :: rest.take (n.toNat + 2)
        (.hunting,
          match rest with
          | kind :: tag :: tail =>
            if tail.drop n.toNat = checkBytes body then
              some { tag, kind, content := parseRequest kind (tail.take n.toNat) }
            else none
          | _ => none)
      else (.assembling (n :: rest), none)
    | [] => (.hunting, none)

/-- Taking the request resets the station (R187), and what arrives after it is lost with the receiver
(R190). -/
def resetsNow (s : State) (w : Waiting) : Bool :=
  !s.sl.sending && s.sl.buffer.isEmpty && decide (w.content = .request .resetStation) &&
    decide (s.st.ss.station ≠ .loading)

/-- Bytes arrive on LRX back to back (R188). -/
def receiveBytes : List Byte → State → State
  | [], s => s
  | b :: bs, s =>
    let (r, frame) := receiveByte s.sl.receiver b
    let s := { s with sl := { s.sl with receiver := r } }
    match frame with
    | none => receiveBytes bs s
    | some w => if resetsNow s w then deliver s w else receiveBytes bs (deliver s w)

/-- A frame in ASSEMBLING is abandoned (R189). -/
def abandonFrame (s : State) : State := { s with sl := { s.sl with receiver := .hunting } }

/-- The last byte of a reply has been sent (R190): the next request is taken. -/
def replyIsSent (s : State) : State :=
  if s.sl.sending then takeNext { s with sl := { s.sl with sending := false } } else s

end Sys2Proof.Machine
end

