-- ==== Sys2Proof/Machine/Commands.lean ====
section
/-! DEFINITION. What every command shares: nothing but a power-on or the release of NRST acts while NRST is low
(R187), SL takes the notices posted within a command (R193), and the arbiters decide at its end (R114). -/

namespace Sys2Proof.Machine

/-- A command's effect on a part that is not held in reset (R187; log entry 13). -/
def whileUp (s : State) (f : State → State) : Host.Outcome State Fault Refusal := .next (if s.nrstLow then s else f s)

/-- An event inside the station: SL then takes the notices it posted (R193). -/
def onStation (f : Station → Station) (s : State) : State := takePostings { s with st := f s.st }

/-- An event after which strokes may start: the arbiters decide at its end (R114; log entry 12). -/
def onMotion (f : Station → Station) (s : State) : State := onStation (fun x => (f x).decideAll) s

/-- NRST goes low (R187): every block takes its reset values and nothing is posted before the release. -/
def holdInReset (s : State) : State :=
  { s with nrstLow := true, sl := { rateHigh := s.sl.rateHigh }, st := s.st.atReset }

namespace Station

/-- A due time of an address is reached: the clock is carried to it (log entry 11). The call that becomes due is
chosen by CALL_START. -/
def reachDue (s : Station) (due : Option Nat) : Station :=
  match due with
  | some t => s.advanceTo t
  | none => s

/-- The stroke timeout of a valve expires in MOVING (R122): a halt with TIMEOUT is decided. -/
def timesOut (s : Station) (v : Nat) : Station :=
  match s.stroke? v with
  | some r =>
    match r.phase, r.accepted, r.timeout with
    | .moving, some a, some t => (s.advanceTo (clockAfter a t)).decideHalt v (.failed .timeout)
    | _, _, _ => s
  | none => s

/-- The settle timer of a zone expires (R142): the zone leaves HOLD, SETTLED. -/
def settles (s : Station) (z : Nat) : Station :=
  match s.settleExpiry? z with
  | some due => (s.advanceTo due).leaveHold z .settled
  | none => s

end Station
end Sys2Proof.Machine
end

