-- ==== Sys2Proof/Machine/FieldCommands.lean ====
section
/-! DEFINITION. The commands of the field lines, the timers and the planner (08, 06, 05, 07, 03): one meaning for
each row. An event that cannot occur in the state has no effect (log entry 13). -/

namespace Sys2Proof.Machine

/-- SUPPLY_WARNING_QUALIFIED (R163). -/
def execSupplyWarningQualified (s : State) : Host.Outcome State Fault Refusal :=
  whileUp s (onMotion Station.warningQualifies)

/-- SUPPLY_WARNING_CLEARS (R163). -/
def execSupplyWarningClears (s : State) : Host.Outcome State Fault Refusal :=
  whileUp s (onMotion Station.warningClears)

/-- CALL_START (R157). -/
def execCallStart (line : Line) (s : State) : Host.Outcome State Fault Refusal :=
  whileUp s (onStation fun x => x.startCall line)

/-- DETAIL_DUE (R158). -/
def execDetailDue (line : Line) (address : Nat) (s : State) : Host.Outcome State Fault Refusal :=
  whileUp s (onStation fun x => x.reachDue (x.node ⟨line, address⟩).detailDue)

/-- SAMPLE_DUE (R159). -/
def execSampleDue (line : Line) (address : Nat) (s : State) : Host.Outcome State Fault Refusal :=
  whileUp s (onStation fun x => x.reachDue (x.node ⟨line, address⟩).sampleDue)

/-- ROLL_DUE (R159). -/
def execRollDue (line : Line) (address : Nat) (s : State) : Host.Outcome State Fault Refusal :=
  whileUp s (onStation fun x => x.reachDue (x.node ⟨line, address⟩).rollDue)

/-- ANSWER_RECEIVED (R153). -/
def execAnswerReceived (line : Line) (bytes : List Byte) (s : State) : Host.Outcome State Fault Refusal :=
  whileUp s (onMotion fun x => x.answerArrives line bytes)

/-- ANSWER_TIMEOUT (R154). -/
def execAnswerTimeout (line : Line) (s : State) : Host.Outcome State Fault Refusal :=
  whileUp s (onMotion fun x => x.answerMissing line)

/-- CLEAR_SENT (R162). -/
def execClearSent (line : Line) (s : State) : Host.Outcome State Fault Refusal :=
  whileUp s (onMotion fun x => x.clearIsSent line)

/-- BROADCAST_HALT_SENT (R164). -/
def execBroadcastHaltSent (line : Line) (s : State) : Host.Outcome State Fault Refusal :=
  whileUp s (onMotion fun x => x.broadcastIsSent line)

/-- STROKE_TIMEOUT (R122). -/
def execStrokeTimeout (valve : Nat) (s : State) : Host.Outcome State Fault Refusal :=
  whileUp s (onStation fun x => x.timesOut valve)

/-- PLAN_EXPIRY (R90). -/
def execPlanExpiry (slot : Nat) (s : State) : Host.Outcome State Fault Refusal :=
  whileUp s (onStation fun x => x.planExpires slot)

/-- SETTLE_TIMER_EXPIRY (R142). -/
def execSettleTimerExpiry (zone : Nat) (s : State) : Host.Outcome State Fault Refusal :=
  whileUp s (onMotion fun x => x.settles zone)

/-- PLANNER_MERGE (R62). -/
def execPlannerMerge (s : State) : Host.Outcome State Fault Refusal := whileUp s (onMotion Station.plannerMerges)

/-- COMPUTATION_COMPLETION (R65). -/
def execComputationCompletion (s : State) : Host.Outcome State Fault Refusal :=
  whileUp s (onMotion Station.computationEnds)

end Sys2Proof.Machine
end

