-- ==== Sys2Proof/Machine/IncidentCommands.lean ====
section
/-! DEFINITION. The commands of the incident manager (05): one meaning for each row. -/

namespace Sys2Proof.Machine

/-- OPEN_INCIDENT (R87). -/
def execOpenIncident (tag : Byte) (segment : Nat) (s : State) : Host.Outcome State Fault Refusal :=
  whileUp s fun s => arrive s tag (.openIncident segment)

/-- AUTHORIZE (R91). -/
def execAuthorize (tag : Byte) (slot override : Nat) (s : State) : Host.Outcome State Fault Refusal :=
  whileUp s fun s => arrive s tag (.authorize slot override)

/-- ABORT (R100). -/
def execAbort (tag : Byte) (slot : Nat) (s : State) : Host.Outcome State Fault Refusal :=
  whileUp s fun s => arrive s tag (.abort slot)

/-- RELEASE (R101). -/
def execRelease (tag : Byte) (slot : Nat) (s : State) : Host.Outcome State Fault Refusal :=
  whileUp s fun s => arrive s tag (.release slot)

/-- CLOSE_INCIDENT (R104). -/
def execCloseIncident (tag : Byte) (slot : Nat) (s : State) : Host.Outcome State Fault Refusal :=
  whileUp s fun s => arrive s tag (.closeIncident slot)

/-- READ_INCIDENT (R108). -/
def execReadIncident (tag : Byte) (slot : Nat) (s : State) : Host.Outcome State Fault Refusal :=
  whileUp s fun s => arrive s tag (.readIncident slot)

/-- READ_PLAN (R109). -/
def execReadPlan (tag : Byte) (slot page : Nat) (s : State) : Host.Outcome State Fault Refusal :=
  whileUp s fun s => arrive s tag (.readPlan slot page)

end Sys2Proof.Machine
end

