-- ==== Sys2Proof/Machine/LinkCommands.lean ====
section
/-! DEFINITION. The commands of the link's receiver and transmitter (11): one meaning for each row. -/

namespace Sys2Proof.Machine

/-- REQUEST_FRAME_RECEIVED (R188). -/
def execRequestFrameReceived (bytes : List Byte) (s : State) : Host.Outcome State Fault Refusal :=
  whileUp s (receiveBytes bytes)

/-- FRAME_GAP_TIMEOUT (R189). -/
def execFrameGapTimeout (s : State) : Host.Outcome State Fault Refusal := whileUp s abandonFrame

/-- BREAK_RECEIVED (R189). -/
def execBreakReceived (s : State) : Host.Outcome State Fault Refusal := whileUp s abandonFrame

/-- FRAMING_ERROR (R189). -/
def execFramingError (s : State) : Host.Outcome State Fault Refusal := whileUp s abandonFrame

/-- REPLY_SENT (R190). -/
def execReplySent (s : State) : Host.Outcome State Fault Refusal := whileUp s replyIsSent

end Sys2Proof.Machine
end

