-- ==== Sys2Proof/Machine/ResetCommands.lean ====
section
/-! DEFINITION. The commands of start-up and storage (10): one meaning for each row. -/

namespace Sys2Proof.Machine

/-- POWER_ON (R187): also while NRST is held low, since the supervisor releases it. -/
def execPowerOn (rate : Bool) (s : State) : Host.Outcome State Fault Refusal :=
  .next (stationReset { s with ratePin := rate } .powerOn rate)

/-- RESET_PIN_ASSERT (R187). -/
def execResetPinAssert (s : State) : Host.Outcome State Fault Refusal := whileUp s holdInReset

/-- RESET_PIN_RELEASE (R187): NRST returns high when it was low. -/
def execResetPinRelease (rate : Bool) (s : State) : Host.Outcome State Fault Refusal :=
  .next (if s.nrstLow then stationReset { s with ratePin := rate } .resetPin rate else s)

/-- LOADING_END (R181). -/
def execLoadingEnd (flashAnswers : Bool) (s : State) : Host.Outcome State Fault Refusal :=
  whileUp s (onStation fun x => x.loadingEnds flashAnswers)

/-- SETTLE_WAIT_END (R184). -/
def execSettleWaitEnd (s : State) : Host.Outcome State Fault Refusal := whileUp s (onStation Station.settleWaitEnds)

/-- STORE_ERASE_DONE (R183). -/
def execStoreEraseDone (error : Bool) (s : State) : Host.Outcome State Fault Refusal :=
  whileUp s (onStation fun x => x.eraseDone error)

/-- STORE_WRITE_DONE (R183). -/
def execStoreWriteDone (error : Bool) (s : State) : Host.Outcome State Fault Refusal :=
  whileUp s (onStation fun x => x.writeDone error)

/-- STORE_VERIFY_DONE (R183). -/
def execStoreVerifyDone (differs : Bool) (s : State) : Host.Outcome State Fault Refusal :=
  whileUp s (onStation fun x => x.verifyDone differs)

/-- FLASH_OPERATION_TIMEOUT (R183). -/
def execFlashOperationTimeout (s : State) : Host.Outcome State Fault Refusal :=
  whileUp s (onStation Station.flashTimeout)

end Sys2Proof.Machine
end

