-- ==== Sys2Proof/Machine/StationCommands.lean ====
section
/-! DEFINITION. The requests of storage and of the station link (10, 11): one meaning for each row. -/

namespace Sys2Proof.Machine

/-- COMMIT_TABLE (R182). -/
def execCommitTable (tag : Byte) (s : State) : Host.Outcome State Fault Refusal :=
  whileUp s fun s => arrive s tag .commitTable

/-- RESET_STATION (R187). -/
def execResetStation (tag : Byte) (s : State) : Host.Outcome State Fault Refusal :=
  whileUp s fun s => arrive s tag .resetStation

/-- READ_NOTICE (R195). -/
def execReadNotice (tag : Byte) (s : State) : Host.Outcome State Fault Refusal :=
  whileUp s fun s => arrive s tag .readNotice

/-- SET_NOTICE_CLASSES (R196). -/
def execSetNoticeClasses (tag : Byte) (mask : Nat) (s : State) : Host.Outcome State Fault Refusal :=
  whileUp s fun s => arrive s tag (.setNoticeClasses mask)

/-- STATUS (R197). -/
def execStatus (tag : Byte) (s : State) : Host.Outcome State Fault Refusal :=
  whileUp s fun s => arrive s tag .status

/-- IDENTIFY (R198). -/
def execIdentify (tag : Byte) (s : State) : Host.Outcome State Fault Refusal :=
  whileUp s fun s => arrive s tag .identify

end Sys2Proof.Machine
end

