-- ==== Sys2Proof/Machine/TableCommands.lean ====
section
/-! DEFINITION. The commands of the network table (01): one meaning for each row. -/

namespace Sys2Proof.Machine

/-- PUT_SEGMENT (R14). -/
def execPutSegment (tag : Byte) (segment zone source connections priority : Nat) (name : List Byte)
    (s : State) : Host.Outcome State Fault Refusal :=
  whileUp s fun s => arrive s tag (.putSegment segment zone source connections priority name)

/-- DELETE_SEGMENT (R15). -/
def execDeleteSegment (tag : Byte) (segment : Nat) (s : State) : Host.Outcome State Fault Refusal :=
  whileUp s fun s => arrive s tag (.deleteSegment segment)

/-- PUT_VALVE (R16). -/
def execPutValve (tag : Byte) (f : ValveFields) (s : State) : Host.Outcome State Fault Refusal :=
  whileUp s fun s => arrive s tag (.putValve f)

/-- DELETE_VALVE (R18). -/
def execDeleteValve (tag : Byte) (valve : Nat) (s : State) : Host.Outcome State Fault Refusal :=
  whileUp s fun s => arrive s tag (.deleteValve valve)

/-- PUT_SENSOR (R19). -/
def execPutSensor (tag : Byte) (sensor line address segment : Nat) (s : State) : Host.Outcome State Fault Refusal :=
  whileUp s fun s => arrive s tag (.putSensor sensor line address segment)

/-- DELETE_SENSOR (R19). -/
def execDeleteSensor (tag : Byte) (sensor : Nat) (s : State) : Host.Outcome State Fault Refusal :=
  whileUp s fun s => arrive s tag (.deleteSensor sensor)

/-- PUT_ZONE (R20). -/
def execPutZone (tag : Byte) (f : ZoneFields) (s : State) : Host.Outcome State Fault Refusal :=
  whileUp s fun s => arrive s tag (.putZone f)

/-- SET_TIMING (R21). -/
def execSetTiming (tag : Byte) (validity lifetime exponent window : Nat) (s : State) :
    Host.Outcome State Fault Refusal :=
  whileUp s fun s => arrive s tag (.setTiming validity lifetime exponent window)

/-- SET_FLOW (R10). -/
def execSetFlow (tag : Byte) (valve velocity : Nat) (s : State) : Host.Outcome State Fault Refusal :=
  whileUp s fun s => arrive s tag (.setFlow valve velocity)

/-- READ_SEGMENT (R23). -/
def execReadSegment (tag : Byte) (segment : Nat) (s : State) : Host.Outcome State Fault Refusal :=
  whileUp s fun s => arrive s tag (.readSegment segment)

/-- READ_VALVE (R23). -/
def execReadValve (tag : Byte) (valve : Nat) (s : State) : Host.Outcome State Fault Refusal :=
  whileUp s fun s => arrive s tag (.readValve valve)

/-- READ_ZONE (R23). -/
def execReadZone (tag : Byte) (zone : Nat) (s : State) : Host.Outcome State Fault Refusal :=
  whileUp s fun s => arrive s tag (.readZone zone)

/-- READ_SENSOR (R23). -/
def execReadSensor (tag : Byte) (sensor : Nat) (s : State) : Host.Outcome State Fault Refusal :=
  whileUp s fun s => arrive s tag (.readSensor sensor)

/-- READ_TIMING (R23). -/
def execReadTiming (tag : Byte) (s : State) : Host.Outcome State Fault Refusal :=
  whileUp s fun s => arrive s tag .readTiming

/-- NEXT_RECORD (R24). -/
def execNextRecord (tag : Byte) (kind start : Nat) (s : State) : Host.Outcome State Fault Refusal :=
  whileUp s fun s => arrive s tag (.nextRecord kind start)

end Sys2Proof.Machine
end

