-- ==== Sys2Proof/Machine/ValveCommands.lean ====
section
/-! DEFINITION. The commands of Valve State, motion, the pressure watch, the field lines and the exercises that arrive as
requests (02, 06, 07, 08, 09): one meaning for each row. -/

namespace Sys2Proof.Machine

/-- SET_HEALTH (R39). -/
def execSetHealth (tag : Byte) (valve health : Nat) (s : State) : Host.Outcome State Fault Refusal :=
  whileUp s fun s => arrive s tag (.setHealth valve health)

/-- CONFIRM_VALVE (R38). -/
def execConfirmValve (tag : Byte) (valve report : Nat) (s : State) : Host.Outcome State Fault Refusal :=
  whileUp s fun s => arrive s tag (.confirmValve valve report)

/-- MOVE_VALVE (R40); a time of 0 means that none is given. -/
def execMoveValve (tag : Byte) (valve target time : Nat) (s : State) : Host.Outcome State Fault Refusal :=
  whileUp s fun s => arrive s tag (.moveValve valve target time)

/-- HALT_VALVE_STOP (R42). -/
def execHaltValveStop (tag : Byte) (valve : Nat) (s : State) : Host.Outcome State Fault Refusal :=
  whileUp s fun s => arrive s tag (.haltValve valve 0)

/-- HALT_VALVE_LIFT (R43). -/
def execHaltValveLift (tag : Byte) (valve : Nat) (s : State) : Host.Outcome State Fault Refusal :=
  whileUp s fun s => arrive s tag (.haltValve valve 1)

/-- READ_VALVE_STATE (R44). -/
def execReadValveState (tag : Byte) (valve : Nat) (s : State) : Host.Outcome State Fault Refusal :=
  whileUp s fun s => arrive s tag (.readValveState valve)

/-- READ_MOTION (R130). -/
def execReadMotion (tag : Byte) (zone : Nat) (s : State) : Host.Outcome State Fault Refusal :=
  whileUp s fun s => arrive s tag (.readMotion zone)

/-- RESUME_ZONE (R144). -/
def execResumeZone (tag : Byte) (zone : Nat) (s : State) : Host.Outcome State Fault Refusal :=
  whileUp s fun s => arrive s tag (.resumeZone zone)

/-- READ_ZONE_WATCH (R146). -/
def execReadZoneWatch (tag : Byte) (zone : Nat) (s : State) : Host.Outcome State Fault Refusal :=
  whileUp s fun s => arrive s tag (.readZoneWatch zone)

/-- READ_SENSOR_WATCH (R146). -/
def execReadSensorWatch (tag : Byte) (sensor : Nat) (s : State) : Host.Outcome State Fault Refusal :=
  whileUp s fun s => arrive s tag (.readSensorWatch sensor)

/-- FIELD_CLEAR (R161). -/
def execFieldClear (tag : Byte) (line : Nat) (s : State) : Host.Outcome State Fault Refusal :=
  whileUp s fun s => arrive s tag (.fieldClear line)

/-- READ_NODE (R165). -/
def execReadNode (tag : Byte) (line address : Nat) (s : State) : Host.Outcome State Fault Refusal :=
  whileUp s fun s => arrive s tag (.readNode line address)

/-- EXERCISE_VALVE (R168). -/
def execExerciseValve (tag : Byte) (valve target : Nat) (s : State) : Host.Outcome State Fault Refusal :=
  whileUp s fun s => arrive s tag (.exerciseValve valve target)

/-- READ_EXERCISES (R178). -/
def execReadExercises (tag : Byte) (s : State) : Host.Outcome State Fault Refusal :=
  whileUp s fun s => arrive s tag .readExercises

end Sys2Proof.Machine
end

