-- ==== Sys2Proof/Machine/Dispatch.lean ====
section
/-! DEFINITION. Dispatch: one arm per constructor of `Instr`, each a direct call of its meaning. -/

namespace Sys2Proof.Machine

/-- The effect of a command on everything but the queue. -/
def exec (i : Instr) (s : State) : Host.Outcome State Fault Refusal :=
  match i with
  | .powerOn rate => Sys2Proof.Machine.execPowerOn rate s
  | .resetPinAssert => Sys2Proof.Machine.execResetPinAssert s
  | .resetPinRelease rate => Sys2Proof.Machine.execResetPinRelease rate s
  | .loadingEnd flashAnswers => Sys2Proof.Machine.execLoadingEnd flashAnswers s
  | .settleWaitEnd => Sys2Proof.Machine.execSettleWaitEnd s
  | .storeEraseDone error => Sys2Proof.Machine.execStoreEraseDone error s
  | .storeWriteDone error => Sys2Proof.Machine.execStoreWriteDone error s
  | .storeVerifyDone differs => Sys2Proof.Machine.execStoreVerifyDone differs s
  | .flashOperationTimeout => Sys2Proof.Machine.execFlashOperationTimeout s
  | .requestFrameReceived bytes => Sys2Proof.Machine.execRequestFrameReceived bytes s
  | .frameGapTimeout => Sys2Proof.Machine.execFrameGapTimeout s
  | .breakReceived => Sys2Proof.Machine.execBreakReceived s
  | .framingError => Sys2Proof.Machine.execFramingError s
  | .replySent => Sys2Proof.Machine.execReplySent s
  | .putSegment tag segment zone source connections priority name => Sys2Proof.Machine.execPutSegment tag segment zone source connections priority name s
  | .deleteSegment tag segment => Sys2Proof.Machine.execDeleteSegment tag segment s
  | .putValve tag f => Sys2Proof.Machine.execPutValve tag f s
  | .deleteValve tag valve => Sys2Proof.Machine.execDeleteValve tag valve s
  | .putSensor tag sensor line address segment => Sys2Proof.Machine.execPutSensor tag sensor line address segment s
  | .deleteSensor tag sensor => Sys2Proof.Machine.execDeleteSensor tag sensor s
  | .putZone tag f => Sys2Proof.Machine.execPutZone tag f s
  | .setTiming tag validity lifetime exponent window => Sys2Proof.Machine.execSetTiming tag validity lifetime exponent window s
  | .setFlow tag valve velocity => Sys2Proof.Machine.execSetFlow tag valve velocity s
  | .readSegment tag segment => Sys2Proof.Machine.execReadSegment tag segment s
  | .readValve tag valve => Sys2Proof.Machine.execReadValve tag valve s
  | .readZone tag zone => Sys2Proof.Machine.execReadZone tag zone s
  | .readSensor tag sensor => Sys2Proof.Machine.execReadSensor tag sensor s
  | .readTiming tag => Sys2Proof.Machine.execReadTiming tag s
  | .nextRecord tag kind start => Sys2Proof.Machine.execNextRecord tag kind start s
  | .setHealth tag valve health => Sys2Proof.Machine.execSetHealth tag valve health s
  | .confirmValve tag valve report => Sys2Proof.Machine.execConfirmValve tag valve report s
  | .moveValve tag valve target time => Sys2Proof.Machine.execMoveValve tag valve target time s
  | .haltValveStop tag valve => Sys2Proof.Machine.execHaltValveStop tag valve s
  | .haltValveLift tag valve => Sys2Proof.Machine.execHaltValveLift tag valve s
  | .readValveState tag valve => Sys2Proof.Machine.execReadValveState tag valve s
  | .openIncident tag segment => Sys2Proof.Machine.execOpenIncident tag segment s
  | .authorize tag slot flag => Sys2Proof.Machine.execAuthorize tag slot flag s
  | .abort tag slot => Sys2Proof.Machine.execAbort tag slot s
  | .release tag slot => Sys2Proof.Machine.execRelease tag slot s
  | .closeIncident tag slot => Sys2Proof.Machine.execCloseIncident tag slot s
  | .readIncident tag slot => Sys2Proof.Machine.execReadIncident tag slot s
  | .readPlan tag slot page => Sys2Proof.Machine.execReadPlan tag slot page s
  | .readMotion tag zone => Sys2Proof.Machine.execReadMotion tag zone s
  | .resumeZone tag zone => Sys2Proof.Machine.execResumeZone tag zone s
  | .readZoneWatch tag zone => Sys2Proof.Machine.execReadZoneWatch tag zone s
  | .readSensorWatch tag sensor => Sys2Proof.Machine.execReadSensorWatch tag sensor s
  | .fieldClear tag line => Sys2Proof.Machine.execFieldClear tag line s
  | .readNode tag line address => Sys2Proof.Machine.execReadNode tag line address s
  | .exerciseValve tag valve target => Sys2Proof.Machine.execExerciseValve tag valve target s
  | .readExercises tag => Sys2Proof.Machine.execReadExercises tag s
  | .commitTable tag => Sys2Proof.Machine.execCommitTable tag s
  | .resetStation tag => Sys2Proof.Machine.execResetStation tag s
  | .readNotice tag => Sys2Proof.Machine.execReadNotice tag s
  | .setNoticeClasses tag mask => Sys2Proof.Machine.execSetNoticeClasses tag mask s
  | .status tag => Sys2Proof.Machine.execStatus tag s
  | .identify tag => Sys2Proof.Machine.execIdentify tag s
  | .supplyWarningQualified => Sys2Proof.Machine.execSupplyWarningQualified s
  | .supplyWarningClears => Sys2Proof.Machine.execSupplyWarningClears s
  | .callStart line => Sys2Proof.Machine.execCallStart line s
  | .detailDue line address => Sys2Proof.Machine.execDetailDue line address s
  | .sampleDue line address => Sys2Proof.Machine.execSampleDue line address s
  | .rollDue line address => Sys2Proof.Machine.execRollDue line address s
  | .answerReceived line bytes => Sys2Proof.Machine.execAnswerReceived line bytes s
  | .answerTimeout line => Sys2Proof.Machine.execAnswerTimeout line s
  | .clearSent line => Sys2Proof.Machine.execClearSent line s
  | .broadcastHaltSent line => Sys2Proof.Machine.execBroadcastHaltSent line s
  | .strokeTimeout valve => Sys2Proof.Machine.execStrokeTimeout valve s
  | .planExpiry slot => Sys2Proof.Machine.execPlanExpiry slot s
  | .settleTimerExpiry zone => Sys2Proof.Machine.execSettleTimerExpiry zone s
  | .plannerMerge => Sys2Proof.Machine.execPlannerMerge s
  | .computationCompletion => Sys2Proof.Machine.execComputationCompletion s

end Sys2Proof.Machine
end

