-- ==== Sys2Proof/Machine/Step.lean ====
section
/-! DEFINITION. One step: the command at the front of the queue, or a tenth of a second when none waits. -/

namespace Sys2Proof.Machine

/-- With no command waiting one tenth of a second passes (log entry 14); the clock does not run while the part is
held in reset (R187). -/
def idle (s : State) : State := if s.nrstLow then s else { s with st := s.st.tick }

/-- One step: take the command at the front of the queue and run it on the queue's rest. -/
def step (s : State) : Host.Outcome State Fault Refusal :=
  match s.pending with
  | [] => .next (idle s)
  | c :: cs => exec c { s with pending := cs }

/-- The command a word spells, put at the front of the queue. No row of the table has bits, so none is spelled. -/
def State.withFetchWord (s : State) (nbits w : Nat) : State :=
  match decodeTableWord nbits w with
  | some c => { s with pending := c :: s.pending }
  | none => s

end Sys2Proof.Machine
end

