-- ==== Sys2Proof/Safety.lean ====
section
/-! DEFINITION. What the statements speak of beyond the machine itself: the canonical form of the tables, the range and
the return of the surge factors, the agreement of slots, hold counts and node map with the records they stand for, the
bounds of the link, the frames that motion keeps, the return of a halted entry, the new times of an edit and of a
doubled factor, the strokes that ABORT and RELEASE halt, a link that is free for a request, and the lengths that R199 admits. -/

namespace Sys2Proof

/-- The edits (R13). -/
def Request.isEdit : Request → Bool
  | .putSegment .. | .deleteSegment _ | .putValve _ | .deleteValve _ | .putSensor .. | .deleteSensor _ | .putZone _
  | .setTiming .. | .setFlow .. | .setHealth .. => true
  | _ => false

end Sys2Proof

namespace Sys2Proof.Machine

/-- Numbers strictly rising, and no record listed that is the unlisted one. -/
def Table.tidy {α : Type} [DecidableEq α] (d : α) (t : Table α) : Bool := Table.wf t && Table.lean d t

/-- A valve record without the three fields that the part itself writes (R3). -/
def Valve.fixed (r : Valve) : Valve := { r with health := .sound, measured := none, exercised := none }

/-- The network table without the valve fields that the part itself writes (R3). -/
def Network.fixed (n : Network) : Network := { n with valves := n.valves.map fun p => (p.1, p.2.fixed) }

/-- The fields of a slot that an entry's progress leaves alone: burst list, authorization time, override mark,
override-required mark, region, cut-off report, plan deadline and release time (R81). -/
def Slot.settled (r : Slot) : List Nat × Option Nat × Bool × Bool × List Nat × Option Report × Option Nat × Option Nat :=
  (r.burst, r.authorized, r.overrideMark, r.overrideRequired, r.region, r.report, r.deadline, r.released)

/-- The hold of a zone: whether it is in HOLD, the hold entry time, the settle start and the persist mark (R131). -/
def ZoneWatch.hold (w : ZoneWatch) : Bool × Option Nat × Option Nat × Bool :=
  (decide (w.state = .hold), w.heldAt, w.settleAt, w.persist)

/-- The fields of a line that only its calls change: roll pointer, call on the line, broadcasts queued, and whether it
serves calls (R147, R157, R159, R184). -/
def FieldLine.calls (x : FieldLine) : Nat × Option Call × List Broadcast × Bool :=
  (x.rollPointer, x.onLine, x.broadcasts, x.started)

/-- The fields of a node-table entry that only answers and edits change: kind, presence, miss count and last answer
(R151). -/
def NodeEntry.seen (e : NodeEntry) : NodeKind × Presence × Nat × Option (AnswerState × Nat) :=
  (e.kind, e.presence, e.misses, e.last)

/-- The attend-outstanding mark with the handshake step (R151). -/
def NodeEntry.mark (e : NodeEntry) : Bool × HandshakeStep := (e.attend, e.step)

/-- A surge factor is 1, 2, 4 or 8 (R145). -/
def factorOk (n : Nat) : Bool := decide (n = 1 ∨ n = 2 ∨ n = 4 ∨ n = 8)

namespace Station

/-- Every table of the station is in its canonical form. -/
def canonical (s : Station) : Bool :=
  s.nt.segments.wf && s.nt.valves.wf && Table.tidy {} s.nt.zones && s.nt.sensors.wf && s.nt.nodeMap.wf &&
  Table.tidy {} s.vs && Table.tidy {} s.im.slots && s.im.owner.wf && Table.tidy 0 s.md.counts &&
  Table.tidy {} s.pw.zones && Table.tidy {} s.pw.sensors && Table.tidy {} s.lineA.nodes && Table.tidy {} s.lineB.nodes

/-- Every surge factor is 1, 2, 4 or 8 (R145). -/
def factorsOk (s : Station) : Bool := s.pw.zones.all fun p => factorOk p.2.factor

/-- What every event but a reset, a load and an edit leaves alone: the clock, storage, the supply warning, the network
table but for the fields the part itself writes, and the free list; notices are only added to those posted. -/
structure Keeps (s t : Station) : Prop where
  clock : t.clock = s.clock
  storage : t.ss = s.ss
  warning : t.supplyWarning = s.supplyWarning
  network : t.nt.fixed = s.nt.fixed
  freeList : t.im.freeList = s.im.freeList
  posted : ∃ ns, t.outbox = s.outbox ++ ns
  canonical : s.canonical = true → t.canonical = true
  factors : s.factorsOk = true → t.factorsOk = true

/-- What every event but the ends of calls leaves alone as well: the calls of the lines and what the part has seen of
the nodes. -/
structure Listens (s t : Station) : Prop extends Keeps s t where
  lines : ∀ l, (t.line l).calls = (s.line l).calls
  nodes : s.canonical = true → ∀ n, (t.node n).seen = (s.node n).seen

/-- What the progress of strokes and entries leaves alone as well: the ownership map, the sensor watch records, the
settled fields of each slot, the hold of each zone, the current velocity of each valve and the marks of each node; and a
surge factor either stands or returns to 1 (R145). -/
structure Moves (s t : Station) : Prop extends Listens s t where
  owner : t.im.owner = s.im.owner
  sensors : t.pw.sensors = s.pw.sensors
  slots : s.canonical = true → ∀ k, (t.slot k).settled = (s.slot k).settled
  holds : s.canonical = true → ∀ z, (t.zoneWatch z).hold = (s.zoneWatch z).hold
  returns : s.canonical = true → ∀ z, (t.zoneWatch z).factor = (s.zoneWatch z).factor ∨ (t.zoneWatch z).factor = 1
  flows : s.canonical = true → ∀ v, (t.vsOf v).flow = (s.vsOf v).flow
  marks : s.canonical = true → ∀ n, (t.node n).mark = (s.node n).mark

end Station

/-- What a slot's state says of its other fields (R81, R85, R86, R91, R93, R101, R102, R104): a FREE slot has the FREE
values; work in progress and closed-by valves belong to an authorized slot in the states that can have them; reopen
entries to a slot that reopens or is DONE; and neither list names a valve twice. -/
structure Slot.Agrees (r : Slot) : Prop where
  free : r.state = .free → r = {}
  authorized : r.state = .closing ∨ r.state = .isolated → r.authorized.isSome = true
  working : r.work.any Station.inProgress = true →
    r.authorized.isSome = true ∧ (r.state = .closing ∨ r.state = .unisolable)
  closed : r.closedBy ≠ [] → r.authorized.isSome = true ∧
    (r.state = .closing ∨ r.state = .isolated ∨ r.state = .unisolable ∨ r.state = .aborted)
  reopening : r.reopen.any Station.inProgress = true → r.state = .reopening
  reopens : r.reopen ≠ [] → r.state = .reopening ∨ r.state = .done
  entries : (r.work.map (·.valve)).Nodup
  once : r.closedBy.Nodup

namespace Station

/-- The slots agree with their states, numbers above 3 are no slots, no slot is in use in LOADING (R81, R184), and the
free list names exactly the FREE slots, each once (R82). -/
structure SlotsOk (s : Station) : Prop where
  agrees : ∀ k, (s.slot k).Agrees
  beyond : ∀ k, 4 ≤ k → s.slot k = {}
  loading : s.ss.station = .loading → ∀ k, s.slot k = {}
  free : ∀ k, k ∈ s.im.freeList ↔ k < 4 ∧ (s.slot k).state = .free
  once : s.im.freeList.Nodup

/-- A valve's hold count is the number of slots whose closed-by list contains it (R33). -/
def HoldsCounted (s : Station) : Prop :=
  ∀ v, (s.vsOf v).holds = ([0, 1, 2, 3] : List Nat).countP fun k => (s.slot k).closedBy.contains v

/-- A QUIET zone with no PENDING or HALTED entry in it has the surge factor 1 (R145). -/
def FactorsReturned (s : Station) : Prop :=
  ∀ z, z < 16 → (s.zoneWatch z).state = .quiet → s.anyWaitingEntry z = false → (s.zoneWatch z).factor = 1

/-- Every place that a record names lies on a line at an address 1..60, and the node map names a record at a place
exactly when the record names the place (R2, R5, R7). -/
structure MapAgrees (s : Station) : Prop where
  valves : ∀ v r n, s.valve? v = some r → r.node = some n → 1 ≤ n.address ∧ n.address ≤ 60
  sensors : ∀ k r, s.sensor? k = some r → 1 ≤ r.node.address ∧ r.node.address ≤ 60
  valve : ∀ n : Node, 1 ≤ n.address → n.address ≤ 60 →
    ∀ v, s.occupant? n = some (.valve v) ↔ ∃ r, s.valve? v = some r ∧ r.node = some n
  sensor : ∀ n : Node, 1 ≤ n.address → n.address ≤ 60 →
    ∀ k, s.occupant? n = some (.sensor k) ↔ ∃ r, s.sensor? k = some r ∧ r.node = n

end Station

/-- What R127 makes of a HALTED entry `e` of a list that closes or opens its valve when one of its causes has ended and
the causes `left` remain: with one left it stays HALTED; with none it waits again, with the share of its time that the
percent held leaves as its residual (R76) and none where no percent is held, or completes where the percent lies within
tolerance of its target (R77). -/
structure Entry.Resumes (closes : Bool) (percent : Option Nat) (tmin : Nat) (left : HaltSet) (e t : Entry) : Prop where
  same : (t.valve, t.kind, t.offNormal) = (e.valve, e.kind, e.offNormal)
  held : left ≠ {} → t = { e with halts := left }
  free : left = {} → t.halts = {}
  whole : left = {} → percent = none → t.state = .pending ∧ t.residual = none
  share : left = {} → ∀ p, percent = some p → (if closes = true then 2 < p else p < 98) →
    t.state = .pending ∧
    t.residual = some (max ((t.tcmd * (if closes = true then p else 100 - p) + 99) / 100) tmin)
  done : left = {} → ∀ p, percent = some p → (if closes = true then p ≤ 2 else 98 ≤ p) →
    t.state = (if closes = true then .closed else .opened) ∧ t.residual = none

/-- What R74 makes of a PENDING or HALTED entry `e` of a list that closes or opens its valve when its zone's factor
changes: Tcmd and mark are those of the profile `p`; a PENDING entry that holds a residual takes the share of the new Tcmd
that the percent held leaves (R76), none where no percent is held, or completes where the percent lies within tolerance of
its target (R77). -/
structure Entry.Rescales (closes : Bool) (percent : Option Nat) (tmin : Nat) (p : Profile) (e t : Entry) : Prop where
  same : (t.valve, t.kind, t.offNormal) = (e.valve, e.kind, e.offNormal)
  time : (t.tcmd, t.limited) = (p.tcmd, p.limited)
  held : e.state = .halted ∨ e.residual = none → (t.state, t.residual, t.halts) = (e.state, e.residual, e.halts)
  whole : e.state = .pending → e.residual ≠ none → percent = none →
    (t.state, t.residual, t.halts) = (.pending, none, e.halts)
  share : e.state = .pending → e.residual ≠ none → ∀ q, percent = some q →
    (if closes = true then 2 < q else q < 98) →
    (t.state, t.halts) = (.pending, e.halts) ∧
    t.residual = some (max ((p.tcmd * (if closes = true then q else 100 - q) + 99) / 100) tmin)
  done : e.state = .pending → e.residual ≠ none → ∀ q, percent = some q →
    (if closes = true then q ≤ 2 else 98 ≤ q) →
    (t.state, t.residual, t.halts) = (if closes = true then .closed else .opened, none, {})

/-- The list holds exactly the numbers of which `p` is true, ascending and once each. -/
def Listed (p : Nat → Prop) (ns : List Nat) : Prop := ns.Pairwise (· < ·) ∧ ∀ n, n ∈ ns ↔ p n

namespace Station

/-- A segment is reached from the starting ones across present valves that carry, in either direction (R50, R58). -/
inductive Reaches (s : Station) (carries starts : Nat → Prop) : Nat → Prop
  | start {n : Nat} (h : starts n) : Reaches s carries starts n
  | across {v a b : Nat} {r : Valve} (h : Reaches s carries starts a) (present : s.valve? v = some r) (open_ : carries v)
      (sides : (r.sideA = a ∧ r.sideB = b) ∨ (r.sideB = a ∧ r.sideA = b)) : Reaches s carries starts b

/-- No stroke that other work takes in SENDING leaves a CLOSED valve in another position: it has not been accepted and
was granted at CLOSED, the position it gives back (R28), or it is a close entry's and no other work strokes the valve. -/
def SendingsKeepClosed (s : Station) : Prop :=
  ∀ r ∈ s.md.strokes, r.phase = .sending → r.pendingEnd = none → (s.vsOf r.valve).position = .closed →
    (r.accepted = none ∧ r.before.1 = .closed) ∨
    ((∃ k, r.owner = .closeEntry k) ∧ (s.vsOf r.valve).owner = some r.owner ∧
      (∀ y, s.exercise? r.valve = some y → y.phase ≠ .outward) ∧
      ∀ k e, k < 4 → e ∈ (s.slot k).reopen → e.valve = r.valve → e.state ≠ .stroking)

/-- From `s` to `x` ABORT or RELEASE has halted every stroke of an owner (R100, R101, R129), retained or not, and no other:
it is no longer its entry's; a moving one is sent a HALT and one whose call is on the line waits for the answer, each to
end as dropped; one whose call is not yet on the line has ended; and an end decided before stands (R124). -/
def Drops (s x : Station) (o : Owner) : Prop :=
  ∀ v r, s.stroke? v = some r →
    ((∀ q ∈ s.md.strokes, q.valve = v → q.owner ≠ o) → x.stroke? v = some r) ∧
    ∀ n, r.owner = o → s.nodeOf? v = some n →
      (r.pendingEnd ≠ none → x.stroke? v = some { r with orphan := true }) ∧
      (r.pendingEnd = none → r.phase = .moving →
        x.stroke? v = some { r with orphan := true, phase := .halting, pendingEnd := some .dropped } ∧
        (s.MapAgrees → n.address ∈ (x.line n.line).halts)) ∧
      (r.pendingEnd = none → r.phase = .sending → s.strokeOnLine v = true →
        x.stroke? v = some { r with orphan := true, pendingEnd := some .dropped }) ∧
      (r.pendingEnd = none → r.phase = .sending → s.strokeOnLine v = false →
        x.stroke? v = none ∧ (x.vsOf v).owner = none)

/-- The entries of a valve are the same before and after, in both lists of every slot. -/
def EntriesStand (s x : Station) (v : Nat) : Prop := ∀ k ro, k < 4 → x.entryIn k ro v = s.entryIn k ro v

/-- From `s` to `x` the Tcmd and surge-limited mark of every PENDING or HALTED close or reopen entry of a valve become
those of the profile `p`, and a mark newly gained is reported; its other entries stand (R22). -/
def Retimed (s x : Station) (v : Nat) (p : Profile) : Prop :=
  ∀ k ro e, k < 4 → s.entryIn k ro v = some e →
    x.entryIn k ro v = some (if waits e then { e with tcmd := p.tcmd, limited := p.limited } else e) ∧
    (waits e = true → p.limited = true → e.limited = false →
      { kind := .surgeLimited, clock := x.clock / 10, slot := some k, valve := some v, zone := x.zoneOfValve? v
        value := some p.treq } ∈ x.outbox)

end Station

/-- A request that arrives is taken at once: the part is not held in reset, no reply is being sent, no request and no
posted notice waits (R190). -/
def State.taking (s : State) : Prop :=
  s.nrstLow = false ∧ s.sl.sending = false ∧ s.sl.buffer = [] ∧ s.st.outbox = []

/-- The state when a reply has been formed and begins to be sent, the station being `x` (R190, R192). -/
def State.replied (s : State) (tag : Byte) (kind : Nat) (st : Status) (data : List Byte) (x : Station) : State :=
  { s with
    sl := { s.sl with sending := true, lastReply := some { tag, kind := BitVec.ofNat 8 kind, status := st, data } }
    st := x }

/-- The state when an event has changed the station to `x` and posted the notice: SL takes it with the clock reading
of the posting (R193, R194). -/
def State.told (s : State) (n : Notice) (x : Station) : State :=
  { s with sl := s.sl.takeNotice { n with clock := x.clock / 10 }, st := x }

/-- The part is not held in reset and no posted notice is left over. -/
def State.up (s : State) : Prop := s.nrstLow = false ∧ s.st.outbox = []

/-- Edits are taken (R11): the state is BLANK or READY and no store runs. -/
def Station.editable (s : Station) : Prop := s.ss.station ≠ .loading ∧ s.ss.storing = none

/-- Whether a kind of the table of R199 admits a payload of this length; none for a kind that is not in the table. A
PUT_SEGMENT has 8 bytes and its name tag (R191). -/
def kindAdmits (kind : Nat) (p : List Byte) : Option Bool :=
  match kind with
  | 0x10 => some (decide (8 ≤ p.length ∧ p.length = 8 + (p.getD 7 0).toNat))
  | 0x11 | 0x13 | 0x19 | 0x1A | 0x24 | 0x30 | 0x31 | 0x36 | 0x51 => some (p.length == 2)
  | 0x12 => some (p.length == 22)
  | 0x14 | 0x22 => some (p.length == 5)
  | 0x15 | 0x1B | 0x1C | 0x32 | 0x33 | 0x34 | 0x35 | 0x40 | 0x48 | 0x49 | 0x4A | 0x50 | 0x71 => some (p.length == 1)
  | 0x16 => some (p.length == 14)
  | 0x17 => some (p.length == 6)
  | 0x18 => some (p.length == 4)
  | 0x1D | 0x59 | 0x60 | 0x61 | 0x70 | 0x72 | 0x73 => some (p.length == 0)
  | 0x1E | 0x20 | 0x21 | 0x23 | 0x58 => some (p.length == 3)
  | _ => none

/-- The frame of a request with these bytes (R199). -/
def frameOf (kind tag : Byte) (payload : List Byte) : List Byte :=
  0x7E#8 :: (frameBody kind tag payload ++ checkBytes (frameBody kind tag payload))

/-- The link is within its bounds (R188, R190, R194): at most 32 notices and 2 waiting requests, a frame in assembly
within the longest frame, requests waiting only while a reply is being sent, and no posted notice left over. -/
def State.linkOk (s : State) : Bool :=
  decide (s.sl.notices.length ≤ Config.noticeCap ∧ s.sl.buffer.length ≤ Config.bufferCap) &&
  (s.sl.sending || s.sl.buffer.isEmpty) && s.st.outbox.isEmpty &&
  match s.sl.receiver with
  | .hunting => true
  | .assembling [] => true
  | .assembling (n :: rest) => decide (n.toNat ≤ Config.payloadCap ∧ rest.length < n.toNat + 4)

end Sys2Proof.Machine
end

