-- ==== Sys2Proof/Certificates/Slice0/Obligations.lean ====
section
/-! DEFINITION. The statements: what the rules of spec/ say of the commands, each over every state and operand. -/

section

open Sys2Proof Sys2Proof.Machine

/-! The queue, resets and start-up. -/

/-- A step takes the command at the front of the queue and runs it on the queue's rest. With no command waiting a
tenth of a second passes, unless the part is held in reset (the model's choice, log entry 14). -/
def Obligations.StepRunsTheFrontCommand : Prop :=
  (∀ (s : State) (c : Instr) (cs : List Instr), s.pending = c :: cs → step s = exec c { s with pending := cs }) ∧
  (∀ s : State, s.pending = [] →
      (s.nrstLow = false → step s = .next { s with st := { s.st with clock := (s.st.clock + 1) % 42949672960 } }) ∧
      (s.nrstLow = true → step s = .next s))

/-- Every command answers a next state and leaves the queue; NRST and the level of RATE change at a reset alone. -/
def Obligations.EveryCommandCompletesAndLeavesTheQueue : Prop :=
  ∀ (s : State) (c : Instr), ∃ t, exec c s = .next t ∧ t.pending = s.pending ∧
    ((∀ r, c ≠ .powerOn r) → c ≠ .resetPinAssert → (∀ r, c ≠ .resetPinRelease r) →
      t.nrstLow = s.nrstLow ∧ t.ratePin = s.ratePin)

/-- STARTED is the one notice right after a reset, with clock 0 and the kind of reset; ATTN is asserted with it, every
class is enabled and loading is still to come. -/
def Obligations.EachResetPostsStarted : Prop :=
  ∀ (s : State) (rate : Bool) (tag : Byte) (kind : Byte) (ws : List Waiting),
    let started (cause : Cause) (t : State) : Prop :=
      t.sl.notices = [{ kind := .started, clock := 0, cause := some cause }] ∧ t.sl.attn = true ∧
      t.sl.enables = ⟨true, true, true, true, true⟩ ∧ NoticeKind.started.classOf = .station ∧ t.st.clock = 0 ∧
      t.st.ss.station = .loading
    (∃ t, exec (.powerOn rate) s = .next t ∧ started .powerOn t) ∧
    (s.nrstLow = true → ∃ t, exec (.resetPinRelease rate) s = .next t ∧ started .resetPin t) ∧
    (s.taking → s.st.ss.station ≠ .loading →
      ∃ t, exec (.resetStation tag) s = .next t ∧ started .resetStation t) ∧
    (s.up → s.sl.sending = true → s.sl.buffer = ⟨tag, kind, .request .resetStation⟩ :: ws →
      s.st.ss.station ≠ .loading → ∃ t, exec .replySent s = .next t ∧ started .resetStation t)

/-- What each of the three resets leaves, field by field; the flash keeps its content. After RESET_STATION its OK
reply stays readable (log entry 5), and the rate is some level of RATE, sampled afresh (log entry 4); a release of
NRST that is high has no effect (log entry 13). And in State.reset, with the RATE of log entry 4 and the flash of log
entry 6, every segment, valve, zone, slot, sensor watch and node reads as its chapter gives it, and every invariant
holds. -/
def Obligations.AResetGivesTheResetValues : Prop :=
  (∀ (s : State) (rate : Bool) (tag : Byte),
    let line : FieldLine :=
      { nodes := [], rollPointer := 0, onLine := none, broadcasts := [], halts := [], strokes := [], started := false }
    let after (cause : Cause) (pin rate : Bool) (samples : Nat) (reply : Option Reply) : State :=
      { pending := s.pending, nrstLow := false, ratePin := pin, rateSamples := samples
        sl := { receiver := .hunting, buffer := [], sending := false, lastReply := reply, rateHigh := rate
                notices := [{ kind := .started, clock := 0, cause := some cause }]
                enables := ⟨true, true, true, true, true⟩, withheld := ⟨false, false, false, false, false⟩ }
        st := { clock := 0
                ss := { station := .loading, storing := none, settling := true, flash := s.st.ss.flash
                        fresh := s.st.ss.fresh }
                nt := { segments := [], sourceCount := 0, valves := [], zones := [], sensors := []
                        timing := { validity := 600, lifetime := 900, exponent := 3, window := 4 }, nodeMap := [] }
                vs := [], ip := { queue := [], flight := none }
                im := { slots := [], freeList := [0, 1, 2, 3], owner := [] }
                md := { counts := [], strokes := [], moves := [], returns := [] }
                pw := { zones := [], sensors := [] }, lineA := line, lineB := line, supplyWarning := false, xu := []
                outbox := [] } }
    exec (.powerOn rate) s = .next (after .powerOn rate rate s.rateSamples none) ∧
    (s.nrstLow = true → exec (.resetPinRelease rate) s = .next (after .resetPin rate rate s.rateSamples none)) ∧
    (s.nrstLow = false → exec (.resetPinRelease rate) s = .next s) ∧
    (s.taking → s.st.ss.station ≠ .loading → ∃ sampled : Bool, exec (.resetStation tag) s =
      .next (after .resetStation s.ratePin sampled (s.rateSamples + 1)
        (some { tag, kind := 0x61#8, status := .ok, data := [] })))) ∧
  (let r := State.reset
   r.pending = [] ∧ r.st.canonical = true ∧ r.st.factorsOk = true ∧ r.linkOk = true ∧ r.st.SlotsOk ∧
   r.st.HoldsCounted ∧ r.st.FactorsReturned ∧ r.st.MapAgrees ∧ r.sl.attn = true ∧
   (∀ n, r.st.segment? n = none) ∧ (∀ v, r.st.valve? v = none) ∧
   (∀ z, r.st.zoneRec z =
     { hmax := 200, slots := 2, ceiling := 900, hysteresis := 30, settle := 30, drop := 80, detect := 20 }) ∧
   (∀ k, (r.st.slot k).state = .free ∧ (r.st.slot k).burst = [] ∧ (r.st.slot k).region = [] ∧
     (r.st.slot k).work = [] ∧ (r.st.slot k).closedBy = [] ∧ (r.st.slot k).failed = [] ∧
     (r.st.slot k).expansions = 0) ∧
   (∀ n, r.st.owner? n = none) ∧ (∀ z, r.st.count z = 0) ∧
   (∀ z, r.st.zoneWatch z = { state := .quiet, factor := 1, heldAt := none, settleAt := none, persist := false }) ∧
   (∀ n, r.st.sensorWatch n = { baseline := none, lowRun := none, suspicion := false, last := none }) ∧
   (∀ n, r.st.node n =
     { kind := .none, presence := .unknown, misses := 0, attend := false, step := .needDetail, last := none
       rollDue := none, detailDue := none, sampleDue := none }))

/-- While NRST is low every block has its reset values, which it takes at once with nothing posted (log entry 46), and
nothing acts but a power-on or the pin's release (log entry 13). -/
def Obligations.TheResetPinHoldsThePart : Prop :=
  ∀ s : State,
    (s.nrstLow = false → ∃ t, exec .resetPinAssert s = .next t ∧ t.nrstLow = true ∧
      t.sl = { rateHigh := s.sl.rateHigh } ∧ t.st = s.st.atReset ∧ t.pending = s.pending ∧ t.ratePin = s.ratePin) ∧
    (s.nrstLow = true → ∀ c : Instr, (∀ r, c ≠ .powerOn r) → (∀ r, c ≠ .resetPinRelease r) → exec c s = .next s)

/-- The load tests of R181 in their order, and LOADING_END. A good image becomes the table: its segments, valves,
sensors, zones and timing, the source count, the node map and the node kinds of the lines; its valves take their first
Valve State and the state is READY. Any other content leaves the empty table, BLANK, and LOAD_FAILED with the cause of
the first test that fails. In either case each line queues its start-up clear when the settle wait has ended. The
image's bytes are a free value (log entry 9); LOADING_END outside LOADING has no effect (log entry 13). -/
def Obligations.LoadingTakesTheImageOrFails : Prop :=
  (loadTest .erased = .error .format ∧
    ∀ (c : Content) (check : Word),
      let i := c.image
      let verdict := loadTest (.holds c check)
      let counts := i.segments.length ≤ 512 ∧ i.valves.length ≤ 768 ∧ i.sensors.length ≤ 48
      let sound := crc32 (Config.imageBytes c) = check
      let once (ns : List Nat) (n : Nat) : Prop := ns.Nodup ∧ ∀ m ∈ ns, m < n
      let fields := once (i.segments.map (·.1)) 512 ∧ once (i.valves.map (·.1)) 768 ∧ once (i.sensors.map (·.1)) 48 ∧
        once (i.zones.map (·.1)) 16 ∧ (∀ p ∈ i.segments, segmentOk p.2 = true) ∧ (∀ p ∈ i.valves, valveOk p.2 = true) ∧
        (∀ p ∈ i.sensors, sensorOk p.2 = true) ∧ (∀ p ∈ i.zones, zoneOk p.2 = true) ∧ timingOk i.timing = true
      let present (n : Nat) : Prop := ∃ p ∈ i.segments, p.1 = n
      let topology := (∀ p ∈ i.valves, present p.2.sideA ∧ present p.2.sideB ∧ p.2.sideA ≠ p.2.sideB) ∧
        (∀ p ∈ i.sensors, present p.2.segment) ∧ (nodeKeys i).Nodup ∧ i.segments.countP (fun p => p.2.source) ≤ 24
      (c.format ≠ 2 ∨ ¬ counts → verdict = .error .format) ∧
      (c.format = 2 → counts → ¬ sound → verdict = .error .check) ∧
      (c.format = 2 → counts → sound → ¬ (c.codesDefined = true ∧ fields ∧ topology) → verdict = .error .content) ∧
      (c.format = 2 → counts → sound → c.codesDefined = true ∧ fields ∧ topology → verdict = .ok i)) ∧
  (∀ (s : State) (answers : Bool), s.up →
      (s.st.ss.station ≠ .loading → exec (.loadingEnd answers) s = .next s) ∧
      (s.st.ss.station = .loading →
        let flash := if answers then s.st.ss.flash else .erased
        let start (x : FieldLine) : FieldLine :=
          if s.st.ss.settling = true ∨ x.started = true then x
          else { x with started := true, broadcasts := .clear true :: x.broadcasts }
        (∀ c, loadTest flash = .error c → exec (.loadingEnd answers) s = .next
          (s.told { kind := .loadFailed, cause := some c.cause }
            { s.st with
              nt := { segments := [], sourceCount := 0, valves := [], zones := [], sensors := []
                      timing := { validity := 600, lifetime := 900, exponent := 3, window := 4 }, nodeMap := [] }
              ss := { s.st.ss with station := .blank }
              lineA := start s.st.lineA
              lineB := start s.st.lineB })) ∧
        (∀ i, loadTest flash = .ok i → s.st.canonical = true →
          ∃ x : Station, exec (.loadingEnd answers) s = .next { s with st := x } ∧
            (∀ n r, x.segment? n = some r ↔ (n, r) ∈ i.segments) ∧ (∀ v r, x.valve? v = some r ↔ (v, r) ∈ i.valves) ∧
            (∀ n r, x.sensor? n = some r ↔ (n, r) ∈ i.sensors) ∧ (∀ z r, (z, r) ∈ i.zones → x.zoneRec z = r) ∧
            (∀ z, (∀ r, (z, r) ∉ i.zones) → x.zoneRec z =
              { hmax := 200, slots := 2, ceiling := 900, hysteresis := 30, settle := 30, drop := 80, detect := 20 }) ∧
            x.nt.timing = i.timing ∧ x.nt.sourceCount = i.segments.countP (fun p => p.2.source) ∧
            (∀ n : Node, 1 ≤ n.address → n.address ≤ 60 →
              (∀ v, x.occupant? n = some (.valve v) ↔ ∃ r, (v, r) ∈ i.valves ∧ r.node = some n) ∧
              (∀ k, x.occupant? n = some (.sensor k) ↔ ∃ r, (k, r) ∈ i.sensors ∧ r.node = n) ∧
              x.node n =
                { s.st.node n with
                  kind := match x.occupant? n with
                    | some (.valve _) => .actuator
                    | some (.sensor _) => .sensor
                    | none => (s.st.node n).kind }) ∧
            (∀ v r, (v, r) ∈ i.valves →
              let position : Position :=
                if r.kind = .actuated then .unknown else if r.normal = .normallyOpen then .opened else .closed
              let percent : Option Nat :=
                if r.kind = .actuated then none else if r.normal = .normallyOpen then some 100 else some 0
              x.vsOf v = { position, percent, kept := usability? x v }) ∧
            (∀ v, (∀ r, (v, r) ∉ i.valves) → x.vsOf v = s.st.vsOf v) ∧
            (∀ l, ({ x.line l with nodes := [] } : FieldLine) = { start (s.st.line l) with nodes := [] }) ∧
            x.ss = { s.st.ss with station := .ready } ∧
            { x with nt := s.st.nt, vs := s.st.vs, lineA := s.st.lineA, lineB := s.st.lineB, ss := s.st.ss } = s.st)))

/-- SETTLE_WAIT_END: the clock stands at 2 s (log entry 11); once loading has ended as well each line puts the
start-up clear at the head of class 1 and serves calls from then on. With no settle wait it has no effect (log entry
13). -/
def Obligations.TheSettleWaitEndsAtTwoSeconds : Prop :=
  ∀ s : State, s.up →
    (s.st.ss.settling = false → exec .settleWaitEnd s = .next s) ∧
    (s.st.ss.settling = true →
      let start (x : FieldLine) : FieldLine :=
        if s.st.ss.station = .loading ∨ x.started = true then x
        else { x with started := true, broadcasts := .clear true :: x.broadcasts }
      exec .settleWaitEnd s = .next
        { s with st :=
          { s.st with
            clock := if clockReached s.st.clock 20 then s.st.clock else 20
            ss := { s.st.ss with settling := false }
            lineA := start s.st.lineA
            lineB := start s.st.lineB } })

/-- COMMIT_TABLE: its three checks in order; taken, the image is that of the table at this moment and the store is at
its first step. What the flash then reads as is left open. The store's steps: erase, write, verify, then STORE_DONE
with the image and its CRC-32 in the flash (its bytes are a free value, log entry 9), READY when the store was begun
in BLANK; an error, a difference or a timeout ends it with STORE_FAILED and the cause of the step. An event of another
step changes nothing (log entry 13). -/
def Obligations.AStorePassesItsThreeSteps : Prop :=
  (∀ (s : State) (tag : Byte), s.taking →
    let refused (st : Status) : Prop := exec (.commitTable tag) s = .next (s.replied tag 0x60 st [] s.st)
    (s.st.ss.station = .loading → refused .notReady) ∧
    (s.st.ss.station ≠ .loading → s.st.ss.storing.isSome → refused .busy) ∧
    (s.st.ss.station = .blank → s.st.ss.storing = none → s.st.nt.segments = [] → refused .wrongState) ∧
    (s.st.ss.storing = none → (s.st.ss.station = .ready ∨ (s.st.ss.station = .blank ∧ s.st.nt.segments ≠ [])) →
      ∃ flash fresh, exec (.commitTable tag) s = .next (s.replied tag 0x60 .accepted []
        { s.st with ss :=
          { s.st.ss with
            storing := some
              { image := { segments := s.st.nt.segments, valves := s.st.nt.valves, sensors := s.st.nt.sensors
                           zones := s.st.nt.zones, timing := s.st.nt.timing }
                step := .erase, blank := decide (s.st.ss.station = .blank) }
            flash := flash
            fresh := fresh } }))) ∧
  (∀ (s : State) (w : Store), s.up → s.st.ss.storing = some w →
    let next (step : StoreStep) : State :=
      { s with st := { s.st with ss := { s.st.ss with storing := some { w with step := step } } } }
    let fails (c : Cause) : State :=
      s.told { kind := .storeFailed, cause := some c } { s.st with ss := { s.st.ss with storing := none } }
    let content : Content := { format := 2, image := w.image, codesDefined := true }
    let check := crc32 (Config.imageBytes content)
    (w.step = .erase →
      exec (.storeEraseDone false) s = .next (next .write) ∧ exec (.storeEraseDone true) s = .next (fails .erase) ∧
      exec .flashOperationTimeout s = .next (fails .erase)) ∧
    (w.step = .write →
      exec (.storeWriteDone false) s = .next (next .verify) ∧ exec (.storeWriteDone true) s = .next (fails .write) ∧
      exec .flashOperationTimeout s = .next (fails .write)) ∧
    (w.step = .verify →
      exec (.storeVerifyDone true) s = .next (fails .verify) ∧
      exec (.storeVerifyDone false) s = .next (s.told { kind := .storeDone, value := some check.toNat }
        { s.st with ss :=
          { s.st.ss with
            storing := none, flash := .holds content check
            station := if w.blank then .ready else s.st.ss.station } }) ∧
      exec .flashOperationTimeout s = .next s) ∧
    (w.step ≠ .erase → ∀ e, exec (.storeEraseDone e) s = .next s) ∧
    (w.step ≠ .write → ∀ e, exec (.storeWriteDone e) s = .next s) ∧
    (w.step ≠ .verify → ∀ e, exec (.storeVerifyDone e) s = .next s))

/-! The link: receiver, buffer, checks, notices. -/

/-- A gap, a BREAK or a framing error abandons the frame in assembly at once (log entry 44) and touches nothing else;
so do a length above 240 and a check that does not match; in HUNTING every byte but 7Eh is discarded. -/
def Obligations.AnAbandonedFrameChangesNothingElse : Prop :=
  ∀ s : State, s.nrstLow = false →
    let hunting : State := { s with sl := { s.sl with receiver := .hunting } }
    exec .frameGapTimeout s = .next hunting ∧ exec .breakReceived s = .next hunting ∧
    exec .framingError s = .next hunting ∧
    (s.sl.receiver = .assembling [] → ∀ b : Byte, 240 < b.toNat →
      exec (.requestFrameReceived [b]) s = .next hunting) ∧
    (s.sl.receiver = .hunting →
      (∀ bytes : List Byte, 0x7E#8 ∉ bytes → exec (.requestFrameReceived bytes) s = .next s) ∧
      (∀ (kind tag c0 c1 : Byte) (p : List Byte), p.length ≤ 240 → [c0, c1] ≠ checkBytes (frameBody kind tag p) →
        exec (.requestFrameReceived (0x7E#8 :: (frameBody kind tag p ++ [c0, c1]))) s = .next s))

/-- The frame of a request is the request: for every request row and every operand that its frame can carry, receiving
the bytes of R199 in HUNTING (receivers in assembly are left out) does what the row does, which is the arrival of the
request (log entry 3): it is taken and answered when the link is free, waits while a reply is sent and fewer than two
wait, and is lost otherwise. The general checks of R191 come first: an unknown kind, a length the kind does not admit,
and in LOADING any kind but READ_NOTICE, SET_NOTICE_CLASSES, STATUS and IDENTIFY. Such a reply carries the status
alone. -/
def Obligations.AFrameIsItsRequest : Prop :=
  (∀ (i : Instr) (tag : Byte) (r : Request) (s : State), i.request? = some (tag, r) → i.wf = true →
    s.sl.receiver = .hunting →
    let frame : Instr := .requestFrameReceived (requestFrame tag r)
    let w : Waiting := { tag, kind := BitVec.ofNat 8 (requestCode r), content := .request r }
    exec frame s = exec i s ∧
    (s.taking → ∃ (t : State) (st : Status) (data : List Byte), exec frame s = .next t ∧
      t.sl.lastReply = some { tag, kind := w.kind, status := st, data } ∧
      (r ≠ .resetStation → t.sl.sending = true ∧ t.sl.buffer = [] ∧ t.sl.receiver = .hunting)) ∧
    (s.up → s.sl.sending = true → s.sl.buffer.length < 2 →
      exec frame s = .next { s with sl := { s.sl with buffer := s.sl.buffer ++ [w] } }) ∧
    (s.up → s.sl.sending = true → 2 ≤ s.sl.buffer.length → exec frame s = .next s)) ∧
  (∀ (s : State) (kind tag : Byte) (p : List Byte), s.taking → s.sl.receiver = .hunting → p.length ≤ 240 →
    let refused (st : Status) : Prop :=
      exec (.requestFrameReceived (frameOf kind tag p)) s = .next (s.replied tag kind.toNat st [] s.st)
    (kindAdmits kind.toNat p = none → refused .unknownKind) ∧
    (kindAdmits kind.toNat p = some false → refused .badLength) ∧
    (kindAdmits kind.toNat p = some true → s.st.ss.station = .loading →
      (kind.toNat < 0x70 ∨ 0x73 < kind.toNat) → refused .notReady))

/-- While a reply is being sent a request that arrives (log entry 3) waits, at most two at a time, and the next one is
lost; the end of the reply takes the oldest. With no reply being sent REPLY_SENT has no effect (log entry 13). -/
def Obligations.RequestsWaitWhileAReplyIsSent : Prop :=
  ∀ (s : State) (i : Instr) (tag : Byte) (r : Request), s.up → i.request? = some (tag, r) →
    let w : Waiting := { tag, kind := BitVec.ofNat 8 (requestCode r), content := .request r }
    (s.sl.sending = true → s.sl.buffer.length < 2 →
      exec i s = .next { s with sl := { s.sl with buffer := s.sl.buffer ++ [w] } }) ∧
    (s.sl.sending = true → 2 ≤ s.sl.buffer.length → exec i s = .next s) ∧
    (s.sl.sending = false → exec .replySent s = .next s) ∧
    (s.sl.sending = true → s.sl.buffer = [] →
      exec .replySent s = .next { s with sl := { s.sl with sending := false } }) ∧
    (s.sl.sending = true → s.sl.buffer = [w] →
      exec .replySent s = exec i { s with sl := { s.sl with sending := false, buffer := [] } }) ∧
    (∀ v vs, s.sl.sending = true → s.sl.buffer = v :: vs →
      exec .replySent s = .next
        (takePostings (takeRequest { s with sl := { s.sl with sending := false, buffer := vs } } v)))

/-- What SL makes of a posted notice: dropped when its class is disabled, at the tail while fewer than 32 are queued,
discarded with its class's withheld mark set otherwise; ATTN is asserted exactly when the queue is non-empty.
READ_NOTICE, in every station state, removes the oldest notice and returns it with the number left; of an empty queue
it returns nothing. A posting before or after it leaves the same notices, each read once. -/
def Obligations.NoticesAreQueuedAndReadInOrder : Prop :=
  (∀ (l : Link) (n : Notice),
    (l.enables.of n.kind.classOf = false → l.takeNotice n = l) ∧
    (l.enables.of n.kind.classOf = true → l.notices.length < 32 →
      l.takeNotice n = { l with notices := l.notices ++ [n] }) ∧
    (l.enables.of n.kind.classOf = true → 32 ≤ l.notices.length →
      l.takeNotice n = { l with withheld := l.withheld.mark n.kind.classOf } ∧
      (l.takeNotice n).withheld.of n.kind.classOf = true ∧
      (∀ c, c ≠ n.kind.classOf → (l.takeNotice n).withheld.of c = l.withheld.of c)) ∧
    (l.attn = true ↔ l.notices ≠ [])) ∧
  (∀ (s : State) (tag : Byte), s.taking →
    (s.sl.notices = [] → exec (.readNotice tag) s = .next (s.replied tag 0x70 .ok [] s.st)) ∧
    (∀ n ns, s.sl.notices = n :: ns →
      exec (.readNotice tag) s = .next
        (({ s with sl := { s.sl with notices := ns } } : State).replied tag 0x70 .ok (n.bytes ++ byte2 ns.length) s.st) ∧
      (∀ x : Notice, s.sl.enables.of x.kind.classOf = true → (n :: ns).length < 32 →
        (({ s.sl with notices := ns } : Link).takeNotice x).notices = ns ++ [x] ∧
        (s.sl.takeNotice x).notices = n :: (ns ++ [x]))))

/-- SET_NOTICE_CLASSES, in every station state: bits 0 to 4 become the enables of the five classes; a mask of 32 or
more is refused; the queue and the withheld marks stand, and a disabled class drops its later notices. -/
def Obligations.SetNoticeClassesSetsTheEnables : Prop :=
  ∀ (s : State) (tag : Byte) (mask : Nat), s.taking →
    (32 ≤ mask → exec (.setNoticeClasses tag mask) s = .next (s.replied tag 0x71 .outOfRange [] s.st)) ∧
    (mask < 32 →
      let e : ClassMarks :=
        { incident := mask.testBit 0, valve := mask.testBit 1, field := mask.testBit 2, pressure := mask.testBit 3
          station := mask.testBit 4 }
      exec (.setNoticeClasses tag mask) s = .next
        (({ s with sl := { s.sl with enables := e } } : State).replied tag 0x71 .ok [] s.st) ∧
      ∀ n : Notice, e.of n.kind.classOf = false →
        ({ s.sl with enables := e } : Link).takeNotice n = { s.sl with enables := e })

/-- STATUS and IDENTIFY, in every station state. STATUS reports the withheld marks as they stood and clears them.
(Widths that R199 leaves open are the model's, log entry 22.) -/
def Obligations.StatusAndIdentifyReport : Prop :=
  ∀ (s : State) (tag : Byte), s.taking →
    let none5 : ClassMarks := ⟨false, false, false, false, false⟩
    let marks (m : ClassMarks) : List Byte :=
      [m.incident, m.valve, m.field, m.pressure, m.station].flatMap fun b => byte1 b.toNat
    let counts (l : FieldLine) : List Byte :=
      [Presence.present, .absent, .unknown].flatMap fun p =>
        byte2 (l.nodes.countP fun x => decide (x.2.kind ≠ .none ∧ x.2.presence = p))
    exec (.status tag) s = .next
      (({ s with sl := { s.sl with withheld := none5 } } : State).replied tag 0x72 .ok
        (byte1 s.st.ss.station.code ++ byte1 s.st.ss.storing.isSome.toNat ++ byte1 s.st.supplyWarning.toNat ++
          ([0, 1, 2, 3].flatMap fun k => byte1 (s.st.slot k).state.code) ++
          ((List.range 16).flatMap fun z => byte1 (s.st.zoneWatch z).state.code ++ byte2 (s.st.zoneWatch z).factor) ++
          counts s.st.lineA ++ counts s.st.lineB ++ byte2 s.sl.notices.length ++ marks s.sl.withheld ++
          marks s.sl.enables) s.st) ∧
    exec (.identify tag) s = .next (s.replied tag 0x73 .ok
      (byte2 0x0A3D ++ byte2 4120 ++ byte2 1 ++ byte2 512 ++ byte2 768 ++ byte2 16 ++ byte2 48 ++ byte2 4 ++ byte2 32 ++
        byte2 8 ++ byte2 240 ++ byte2 2 ++ byte4 (if s.sl.rateHigh then 115200 else 19200)) s.st)

/-! The network table. -/

/-- While a store runs every edit is refused with BUSY, and in LOADING with NOT_READY; outside READY the requests that
open, move and stop work are refused with NOT_READY; an edit that names a number out of range or an undefined code is
refused with OUT_OF_RANGE. Nothing changes. -/
def Obligations.TheStationStateAndTheRangesBarRequests : Prop :=
  (∀ (s : State) (i : Instr) (tag : Byte) (r : Request), s.taking → i.request? = some (tag, r) → r.isEdit = true →
    (s.st.ss.station = .loading → exec i s = .next (s.replied tag (requestCode r) .notReady [] s.st)) ∧
    (s.st.ss.station ≠ .loading → s.st.ss.storing.isSome = true →
      exec i s = .next (s.replied tag (requestCode r) .busy [] s.st))) ∧
  (∀ (s : State) (i : Instr) (tag : Byte) (r : Request) (n a b : Nat), s.taking → s.st.ss.station ≠ .ready →
    i.request? = some (tag, r) →
    i ∈ ([.confirmValve tag n a, .moveValve tag n a b, .haltValveStop tag n, .haltValveLift tag n, .openIncident tag n,
      .authorize tag n a, .abort tag n, .release tag n, .closeIncident tag n, .resumeZone tag n, .fieldClear tag n,
      .exerciseValve tag n a] : List Instr) →
    exec i s = .next (s.replied tag (requestCode r) .notReady [] s.st)) ∧
  (∀ (s : State) (tag : Byte), s.taking → s.st.editable →
    let refused (i : Instr) (kind : Nat) : Prop := exec i s = .next (s.replied tag kind .outOfRange [] s.st)
    (∀ (n z source connections priority : Nat) (name : List Byte),
      (512 ≤ n ∨ 16 ≤ z ∨ 1 < source ∨ 1 < priority ∨ nameTag? name = none) →
      refused (.putSegment tag n z source connections priority name) 0x10) ∧
    (∀ f : ValveFields,
      (768 ≤ f.valve ∨ 512 ≤ f.sideA ∨ 512 ≤ f.sideB ∨ 16 ≤ f.zone ∨ 1 < f.normal ∨ 1 < f.kind ∨
        (f.kind = 0 ∧ (1 < f.line ∨ f.address = 0 ∨ 60 < f.address))) →
      refused (.putValve tag f) 0x12) ∧
    (∀ n line address segment : Nat, (48 ≤ n ∨ 1 < line ∨ address = 0 ∨ 60 < address ∨ 512 ≤ segment) →
      refused (.putSensor tag n line address segment) 0x14) ∧
    (∀ n : Nat, 48 ≤ n → refused (.deleteSensor tag n) 0x15))

/-- PUT_SEGMENT stores the record, clamps the connections and recounts the sources; a topology edit needs every slot
FREE and a 25th source is refused. Where the edit changes the segment's zone, each sensor of the segment is due at
once for a SAMPLE when the new zone is in WATCH or HOLD and has no SAMPLE due time when it is QUIET (log entry 16).
Every other record, and all of the station but the planner's stale mark, stands. DELETE_SEGMENT removes a present
segment that nothing names, with every slot FREE, and nothing else changes; the checks in their order. (The clamped
count is log entry 23.) -/
def Obligations.SegmentEditsStoreAndRemoveTheRecord : Prop :=
  (∀ (s : State) (tag : Byte) (n z src c pri : Nat) (name : List Byte), s.taking → s.st.editable →
    512 ≤ n ∨ 16 ≤ z ∨ 2 ≤ src ∨ 2 ≤ pri ∨ nameTag? name = none →
      exec (.putSegment tag n z src c pri name) s = .next (s.replied tag 0x10 .outOfRange [] s.st)) ∧
  (∀ (s : State) (tag : Byte) (n z c : Nat) (src pri : Bool) (name : List Byte) (tg : Option (List Byte)),
    s.taking → s.st.editable → s.st.canonical = true → n < 512 → z < 16 → nameTag? name = some tg →
    let i : Instr := .putSegment tag n z src.toNat c pri.toNat name
    let old := s.st.segment? n
    let stored : Segment := { zone := z, source := src, connections := min c 65535, priority := pri, name := tg }
    let moved := ∃ r, old = some r ∧ r.zone ≠ z
    let carried := (old.map (·.source)).getD false
    let topology := old.map (·.zone) ≠ some z ∨ carried ≠ src
    let refused (st : Status) : Prop := exec i s = .next (s.replied tag 0x10 st [] s.st)
    (topology → s.st.allFree = false → refused .incidentActive) ∧
    ((topology → s.st.allFree = true) → src = true → carried = false → 24 ≤ s.st.nt.sourceCount →
      refused .tableFull) ∧
    ((topology → s.st.allFree = true) → (src = true → carried = false → s.st.nt.sourceCount < 24) →
      ∃ x : Station, exec i s = .next (s.replied tag 0x10 .ok (byte2 (if c ≤ 65535 then 0 else 1)) x) ∧
        x.segment? n = some stored ∧ (∀ m, m ≠ n → x.segment? m = s.st.segment? m) ∧
        x.nt.sourceCount = x.nt.segments.countP (fun p => p.2.source) ∧
        { x.nt with segments := s.st.nt.segments, sourceCount := s.st.nt.sourceCount } = s.st.nt ∧
        x.clock = s.st.clock ∧ x.ss = s.st.ss ∧ x.vs = s.st.vs ∧ x.im = s.st.im ∧ x.md = s.st.md ∧ x.pw = s.st.pw ∧
        x.xu = s.st.xu ∧ x.outbox = [] ∧ x.supplyWarning = s.st.supplyWarning ∧
        (∀ l, ({ x.line l with nodes := [] } : FieldLine) = { s.st.line l with nodes := [] }) ∧
        (moved → ∀ p ∈ s.st.nt.sensors, p.2.segment = n →
          x.node p.2.node =
            { s.st.node p.2.node with
              sampleDue := if (s.st.zoneWatch z).state = .quiet then none else some s.st.clock }) ∧
        (∀ m, (moved → ∀ p ∈ s.st.nt.sensors, p.2.segment = n → p.2.node ≠ m) → x.node m = s.st.node m) ∧
        x.ip = if old.isSome ∧ old.map (fun r => (r.connections, r.priority)) ≠ some (min c 65535, pri)
          then s.st.markStale.ip else s.st.ip)) ∧
  (∀ (s : State) (tag : Byte) (n : Nat), s.taking → s.st.editable → s.st.canonical = true →
    let refused (st : Status) : Prop := exec (.deleteSegment tag n) s = .next (s.replied tag 0x11 st [] s.st)
    let named := (∃ p ∈ s.st.nt.valves, p.2.sideA = n ∨ p.2.sideB = n) ∨ (∃ p ∈ s.st.nt.sensors, p.2.segment = n)
    (512 ≤ n → refused .outOfRange) ∧
    (n < 512 → s.st.segment? n = none → refused .notFound) ∧
    (n < 512 → (s.st.segment? n).isSome → s.st.allFree = false → refused .incidentActive) ∧
    (n < 512 → (s.st.segment? n).isSome → s.st.allFree = true → named → refused .badTopology) ∧
    (n < 512 → (s.st.segment? n).isSome → s.st.allFree = true → ¬ named →
      ∃ x : Station, exec (.deleteSegment tag n) s = .next (s.replied tag 0x11 .ok (byte2 0) x) ∧
        x.segment? n = none ∧ (∀ m, m ≠ n → x.segment? m = s.st.segment? m) ∧
        x.nt.sourceCount = x.nt.segments.countP (fun p => p.2.source) ∧
        { x with nt := s.st.nt } = s.st ∧
        { x.nt with segments := s.st.nt.segments, sourceCount := s.st.nt.sourceCount } = s.st.nt))

/-- PUT_VALVE creates a valve: the quantities clamped, Tmin and Tmax in order, the stall threshold defaulted, health
SOUND, the whole Valve State record of a new valve. An actuated valve occupies its place in the node map, and an
address that was no ACTUATOR gets a fresh node-table entry, its roll due time the present clock, the calls queued to
it withdrawn; nothing else changes. The checks in their order. (What the clamped count counts is log entry 23.) -/
def Obligations.PutValveCreatesAValve : Prop :=
  ∀ (s : State) (tag : Byte) (f : ValveFields) (normal : Normal) (kind : ValveKind),
    s.taking → s.st.editable → s.st.canonical = true → s.st.valve? f.valve = none →
    normal? f.normal = some normal → valveKind? f.kind = some kind →
    f.valve < 768 → f.sideA < 512 → f.sideB < 512 → f.zone < 16 →
    (kind = .actuated → f.line ≤ 1 ∧ 1 ≤ f.address ∧ f.address ≤ 60) →
    let place : Node := ⟨if f.line = 0 then .a else .b, f.address⟩
    let node : Option Node := if kind = .actuated then some place else none
    let refused (st : Status) : Prop := exec (.putValve tag f) s = .next (s.replied tag 0x12 st [] s.st)
    let bad := s.st.segment? f.sideA = none ∨ s.st.segment? f.sideB = none ∨ f.sideA = f.sideB ∨
      (kind = .actuated ∧ ∃ o, s.st.occupant? place = some o ∧ o ≠ .valve f.valve)
    (s.st.allFree = false → refused .incidentActive) ∧
    (s.st.allFree = true → s.st.motionWork f.valve = true → refused .wrongState) ∧
    (s.st.allFree = true → s.st.motionWork f.valve = false → bad → refused .badTopology) ∧
    (s.st.allFree = true → s.st.motionWork f.valve = false → ¬ bad →
      let clampTo (lo hi n : Nat) : Nat := max lo (min n hi)
      let tmin := clampTo 10 36000 f.tmin
      let tmax := max tmin (clampTo 10 36000 f.tmax)
      let stall := if f.stall = 0 then 110 else clampTo 50 150 f.stall
      let stored : Valve :=
        { sideA := f.sideA, sideB := f.sideB, zone := f.zone, normal, kind, node, length := clampTo 1 20000 f.length
          waveSpeed := clampTo 300 1400 f.waveSpeed, velocity := min f.velocity 5000, tmin, tmax, stall
          health := .sound, measured := none, exercised := none }
      let differs (given kept : Nat) : Nat := if given = kept then 0 else 1
      let clamped := differs f.length stored.length + differs f.waveSpeed stored.waveSpeed +
        differs f.velocity stored.velocity + differs f.tmin tmin + differs f.tmax tmax +
        (if f.stall = 0 then 0 else differs f.stall stall)
      ∃ x : Station, exec (.putValve tag f) s = .next (s.replied tag 0x12 .ok (byte2 clamped) x) ∧
        x.valve? f.valve = some stored ∧ (∀ w, w ≠ f.valve → x.valve? w = s.st.valve? w) ∧
        x.nt.segments = s.st.nt.segments ∧ x.nt.sensors = s.st.nt.sensors ∧ x.nt.zones = s.st.nt.zones ∧
        x.nt.timing = s.st.nt.timing ∧
        (kind = .crew → x.nt.nodeMap = s.st.nt.nodeMap ∧ (∀ l, x.line l = s.st.line l)) ∧
        (kind = .actuated →
          x.occupant? place = some (.valve f.valve) ∧
          (∀ m : Node, m ≠ place → 1 ≤ m.address → m.address ≤ 60 → x.occupant? m = s.st.occupant? m) ∧
          ((s.st.node place).kind = .actuator → ∀ l, x.line l = s.st.line l) ∧
          ((s.st.node place).kind ≠ .actuator →
            x.node place =
              { kind := .actuator, presence := .unknown, misses := 0, attend := false, step := .needDetail, last := none
                rollDue := some s.st.clock, detailDue := none, sampleDue := none } ∧
            (∀ m, m ≠ place → x.node m = s.st.node m) ∧
            (∀ l, ({ x.line l with nodes := [] } : FieldLine) =
              { s.st.line l with
                nodes := []
                strokes := (s.st.line l).strokes.filter fun a => decide (l ≠ place.line ∨ a ≠ place.address)
                halts := (s.st.line l).halts.filter fun a => decide (l ≠ place.line ∨ a ≠ place.address) }))) ∧
        x.vsOf f.valve =
          { position := if kind = .actuated then .unknown else if normal = .normallyOpen then .opened else .closed
            percent := if kind = .actuated then none else if normal = .normallyOpen then some 100 else some 0
            stale := false, holds := 0, localMark := false, faults := none, owner := none, request := false
            flow := none, kept := usability? x f.valve } ∧
        (∀ w, w ≠ f.valve → x.vsOf w = s.st.vsOf w) ∧
        x.clock = s.st.clock ∧ x.ss = s.st.ss ∧ x.ip = s.st.ip ∧ x.im = s.st.im ∧ x.md = s.st.md ∧ x.pw = s.st.pw ∧
        x.xu = s.st.xu ∧ x.outbox = [] ∧ x.supplyWarning = s.st.supplyWarning)

/-- PUT_VALVE on a present valve. The checks: a topology edit, which changes a side, the kind, the mapping, the zone
or the normal state, needs every slot FREE and a valve without motion work, and an attribute edit is taken whatever
the slots hold. Taken, the record holds the clamped fields of the request and keeps its health; a change of kind or
mapping makes the measured stroke and the exercise time absent and sets the valve's state afresh, holds and velocity
kept (R17), and moves the node map and the lines' entries (R7, R152); other topology edits derive the class again and
leave the position. A change of a planner input marks a computation stale, and every PENDING or HALTED entry of the
valve takes the Tcmd and mark of the new profile, with SURGE_LIMITED where it gains the mark (R22). (The clamped
count is log entry 23.) -/
def Obligations.PutValveRewritesAValve : Prop :=
  ∀ (s : State) (tag : Byte) (f : ValveFields) (old : Valve) (normal : Normal) (kind : ValveKind),
    s.taking → s.st.editable → s.st.canonical = true → s.st.valve? f.valve = some old →
    normal? f.normal = some normal → valveKind? f.kind = some kind →
    f.valve < 768 → f.sideA < 512 → f.sideB < 512 → f.zone < 16 →
    (kind = .actuated → f.line ≤ 1 ∧ 1 ≤ f.address ∧ f.address ≤ 60) →
    let place : Node := ⟨if f.line = 0 then .a else .b, f.address⟩
    let node : Option Node := if kind = .actuated then some place else none
    let topology := old.sideA ≠ f.sideA ∨ old.sideB ≠ f.sideB ∨ old.kind ≠ kind ∨ old.normal ≠ normal ∨
      old.zone ≠ f.zone ∨ old.node ≠ node
    let refused (st : Status) : Prop := exec (.putValve tag f) s = .next (s.replied tag 0x12 st [] s.st)
    let bad := s.st.segment? f.sideA = none ∨ s.st.segment? f.sideB = none ∨ f.sideA = f.sideB ∨
      (kind = .actuated ∧ ∃ o, s.st.occupant? place = some o ∧ o ≠ .valve f.valve)
    let admitted := topology → s.st.allFree = true ∧ s.st.motionWork f.valve = false
    (topology → s.st.allFree = false → refused .incidentActive) ∧
    (topology → s.st.allFree = true → s.st.motionWork f.valve = true → refused .wrongState) ∧
    (admitted → bad → refused .badTopology) ∧
    (admitted → ¬ bad →
      let clampTo (lo hi n : Nat) : Nat := max lo (min n hi)
      let tmin := clampTo 10 36000 f.tmin
      let tmax := max tmin (clampTo 10 36000 f.tmax)
      let stall := if f.stall = 0 then 110 else clampTo 50 150 f.stall
      let moved := old.kind ≠ kind ∨ old.node ≠ node
      let stored : Valve :=
        { sideA := f.sideA, sideB := f.sideB, zone := f.zone, normal, kind, node, length := clampTo 1 20000 f.length
          waveSpeed := clampTo 300 1400 f.waveSpeed, velocity := min f.velocity 5000, tmin, tmax, stall
          health := old.health, measured := if moved then none else old.measured
          exercised := if moved then none else old.exercised }
      let differs (given kept : Nat) : Nat := if given = kept then 0 else 1
      let clamped := differs f.length stored.length + differs f.waveSpeed stored.waveSpeed +
        differs f.velocity stored.velocity + differs f.tmin tmin + differs f.tmax tmax +
        (if f.stall = 0 then 0 else differs f.stall stall)
      let d := s.st.vsOf f.valve
      let inputs := old.length ≠ stored.length ∨ old.waveSpeed ≠ stored.waveSpeed ∨ old.velocity ≠ stored.velocity ∨
        old.tmin ≠ tmin ∨ old.tmax ≠ tmax
      ∃ x : Station, exec (.putValve tag f) s = .next (takePostings (s.replied tag 0x12 .ok (byte2 clamped) x)) ∧
        x.valve? f.valve = some stored ∧ (∀ w, w ≠ f.valve → x.valve? w = s.st.valve? w) ∧
        x.nt.segments = s.st.nt.segments ∧ x.nt.sensors = s.st.nt.sensors ∧ x.nt.zones = s.st.nt.zones ∧
        x.nt.timing = s.st.nt.timing ∧ x.nt.sourceCount = s.st.nt.sourceCount ∧
        (moved → x.vsOf f.valve =
          { d with
            position :=
              if kind = .actuated then .unknown else if normal = .normallyOpen then .opened else .closed
            percent := if kind = .actuated then none else if normal = .normallyOpen then some 100 else some 0
            stale := false, localMark := false, faults := none, request := false, kept := usability? x f.valve }) ∧
        (topology → ¬ moved → x.vsOf f.valve = { d with kept := usability? x f.valve }) ∧
        (¬ topology → x.vsOf f.valve = d) ∧ (∀ w, w ≠ f.valve → x.vsOf w = s.st.vsOf w) ∧
        (old.node = node → x.nt.nodeMap = s.st.nt.nodeMap ∧ ∀ n, x.node n = s.st.node n) ∧
        (old.node ≠ node → s.st.MapAgrees →
          (∀ n, old.node = some n → x.occupant? n = none ∧
            x.node n = if (s.st.node n).kind = .none then s.st.node n else {}) ∧
          (∀ n, node = some n → x.occupant? n = some (.valve f.valve) ∧
            x.node n = if (s.st.node n).kind = .actuator then s.st.node n
              else { kind := .actuator, rollDue := some s.st.clock })) ∧
        (∀ l, (x.line l).calls = (s.st.line l).calls) ∧ x.ip.queue = s.st.ip.queue ∧
        (inputs → x.ip = s.st.markStale.ip ∧ s.st.Retimed x f.valve (profileOf x f.valve stored)) ∧
        (∀ w, (inputs → w ≠ f.valve) → s.st.EntriesStand x w) ∧
        (∀ k, ({ x.slot k with work := [], reopen := [] } : Slot) = { s.st.slot k with work := [], reopen := [] }) ∧
        x.clock = s.st.clock ∧ x.ss = s.st.ss ∧
        x.im.freeList = s.st.im.freeList ∧ x.im.owner = s.st.im.owner ∧ x.md = s.st.md ∧ x.pw = s.st.pw ∧
        x.xu = s.st.xu)

/-- DELETE_VALVE removes a present valve without motion work, with every slot FREE: its record, its place in the node
map, its Valve State. (The reply's clamped count, 0, is log entry 23.) -/
def Obligations.DeleteValveRemovesTheRecord : Prop :=
  ∀ (s : State) (tag : Byte) (v : Nat), s.taking → s.st.editable → s.st.canonical = true →
    let refused (st : Status) : Prop := exec (.deleteValve tag v) s = .next (s.replied tag 0x13 st [] s.st)
    (768 ≤ v → refused .outOfRange) ∧
    (v < 768 → s.st.valve? v = none → refused .notFound) ∧
    (v < 768 → (s.st.valve? v).isSome → s.st.allFree = false → refused .incidentActive) ∧
    (v < 768 → (s.st.valve? v).isSome → s.st.allFree = true → s.st.motionWork v = true → refused .wrongState) ∧
    (∀ r, v < 768 → s.st.valve? v = some r → s.st.allFree = true → s.st.motionWork v = false →
      ∃ x : Station, exec (.deleteValve tag v) s = .next (s.replied tag 0x13 .ok (byte2 0) x) ∧
        x.valve? v = none ∧ (∀ w, w ≠ v → x.valve? w = s.st.valve? w) ∧
        x.vsOf v = { position := .unknown, percent := none, stale := false, holds := 0, localMark := false, faults := none
                     owner := none, request := false, flow := none, kept := none } ∧
        (∀ w, w ≠ v → x.vsOf w = s.st.vsOf w) ∧
        (∀ n, r.node = some n → x.occupant? n = none ∧ (x.node n).kind = .none) ∧
        x.nt.segments = s.st.nt.segments ∧ x.nt.sensors = s.st.nt.sensors ∧ x.nt.zones = s.st.nt.zones ∧
        x.clock = s.st.clock ∧ x.ss = s.st.ss ∧ x.ip = s.st.ip ∧ x.im = s.st.im ∧ x.md = s.st.md ∧ x.pw = s.st.pw ∧
        x.xu = s.st.xu ∧ x.outbox = [])

/-- PUT_SENSOR and DELETE_SENSOR: the record, its place in the node map and its watch record at their initial values;
a remap makes the old place NONE and the new place's entry afresh where its kind changes (R152), and leaves the entry
of a place that stays; a rewrite that changes neither mapping nor segment changes nothing. (The reply's clamped count,
0, is log entry 23.) -/
def Obligations.SensorEditsPlaceAndRemoveTheRecord : Prop :=
  ∀ (s : State) (tag : Byte) (n line address g : Nat), s.taking → s.st.editable → s.st.canonical = true → n < 48 →
    (∀ place : Node, place? line address = some place → g < 512 →
      let refused (st : Status) : Prop :=
        exec (.putSensor tag n line address g) s = .next (s.replied tag 0x14 st [] s.st)
      let bad := s.st.segment? g = none ∨ ∃ o, s.st.occupant? place = some o ∧ o ≠ .sensor n
      let old := (s.st.sensor? n).map (·.node)
      (s.st.allFree = false → refused .incidentActive) ∧
      (s.st.allFree = true → bad → refused .badTopology) ∧
      (s.st.allFree = true → ¬ bad → s.st.sensor? n = some ⟨place, g⟩ →
        exec (.putSensor tag n line address g) s = .next (s.replied tag 0x14 .ok (byte2 0) s.st)) ∧
      (s.st.allFree = true → ¬ bad → s.st.sensor? n ≠ some ⟨place, g⟩ →
        ∃ x : Station, exec (.putSensor tag n line address g) s = .next (s.replied tag 0x14 .ok (byte2 0) x) ∧
          x.sensor? n = some ⟨place, g⟩ ∧ (∀ m, m ≠ n → x.sensor? m = s.st.sensor? m) ∧
          x.sensorWatch n = { baseline := none, lowRun := none, suspicion := false, last := none } ∧
          (∀ m, m ≠ n → x.sensorWatch m = s.st.sensorWatch m) ∧
          (old ≠ some place → x.occupant? place = some (.sensor n) ∧
            x.node place = if (s.st.node place).kind = .sensor then s.st.node place
              else { kind := .sensor, rollDue := some s.st.clock }) ∧
          (∀ m, old = some m → m ≠ place → s.st.MapAgrees → x.occupant? m = none ∧ (x.node m).kind = .none) ∧
          (old = some place → x.nt.nodeMap = s.st.nt.nodeMap ∧ ∀ l, x.line l = s.st.line l) ∧
          x.nt.segments = s.st.nt.segments ∧ x.nt.valves = s.st.nt.valves ∧ x.nt.zones = s.st.nt.zones ∧
          x.clock = s.st.clock ∧ x.ss = s.st.ss ∧ x.vs = s.st.vs ∧ x.ip = s.st.ip ∧ x.im = s.st.im ∧ x.md = s.st.md ∧
          x.xu = s.st.xu ∧ x.outbox = [])) ∧
    (∀ r, s.st.sensor? n = some r → s.st.allFree = true →
      ∃ x : Station, exec (.deleteSensor tag n) s = .next (s.replied tag 0x15 .ok (byte2 0) x) ∧
        x.sensor? n = none ∧ (∀ m, m ≠ n → x.sensor? m = s.st.sensor? m) ∧
        x.sensorWatch n = { baseline := none, lowRun := none, suspicion := false, last := none } ∧
        (∀ m, m ≠ n → x.sensorWatch m = s.st.sensorWatch m) ∧ x.occupant? r.node = none ∧ (x.node r.node).kind = .none ∧
        x.nt.segments = s.st.nt.segments ∧ x.nt.valves = s.st.nt.valves ∧ x.clock = s.st.clock ∧ x.ss = s.st.ss ∧
        x.vs = s.st.vs ∧ x.ip = s.st.ip ∧ x.im = s.st.im ∧ x.md = s.st.md ∧ x.xu = s.st.xu ∧ x.outbox = []) ∧
    (s.st.sensor? n = none → exec (.deleteSensor tag n) s = .next (s.replied tag 0x15 .notFound [] s.st))

/-- PUT_ZONE rewrites the seven fields of one zone record, each clamped, the ceiling raised above the hysteresis, in
BLANK and READY whatever the incidents. A change of Hmax marks a computation stale, and every PENDING or HALTED entry
of a valve of the zone takes the Tcmd and mark of the new profile, with SURGE_LIMITED where it gains the mark (R22). A
zone whose settle time has then passed leaves its hold (log entry 39). Every surge factor stands or returns to 1, and
it is 1 in every QUIET zone with nothing waiting; the other records stand, the valves' up to the fields that the part
itself writes. The arbiters then decide (log entry 12). SET_TIMING stores the four station parameters, each clamped,
and changes nothing else: deadlines, due times and waiting times already reckoned stand (log entry 41). (The clamped
counts are log entry 23.) -/
def Obligations.ZoneAndTimingEditsStoreTheClampedFields : Prop :=
  (∀ (s : State) (tag : Byte) (f : ZoneFields), s.taking → s.st.editable → s.st.canonical = true →
    (16 ≤ f.zone → exec (.putZone tag f) s = .next (s.replied tag 0x16 .outOfRange [] s.st)) ∧
    (f.zone < 16 →
      let clampTo (lo hi n : Nat) : Nat := max lo (min n hi)
      let hysteresis := clampTo 5 200 f.hysteresis
      let ceiling := if min f.ceiling 2000 ≤ hysteresis then hysteresis + 1 else min f.ceiling 2000
      let stored : ZoneRec :=
        { hmax := clampTo 10 1000 f.hmax, slots := clampTo 1 4 f.slots, ceiling, hysteresis
          settle := clampTo 5 300 f.settle, drop := clampTo 10 500 f.drop, detect := clampTo 8 120 f.detect }
      let differs (given kept : Nat) : Nat := if given = kept then 0 else 1
      let clamped := differs f.hmax stored.hmax + differs f.slots stored.slots + differs f.ceiling ceiling +
        differs f.hysteresis hysteresis + differs f.settle stored.settle + differs f.drop stored.drop +
        differs f.detect stored.detect
      let w := s.st.zoneWatch f.zone
      let settled := ∃ start, w.state = .hold ∧ w.persist = false ∧ w.settleAt = some start ∧
        clockReached s.st.clock ((start + 10 * stored.settle) % 42949672960) = true
      let hmaxChanges := (s.st.zoneRec f.zone).hmax ≠ stored.hmax
      ∃ y x : Station, exec (.putZone tag f) s = .next (takePostings (s.replied tag 0x16 .ok (byte2 clamped) x)) ∧
        (settled → x = (y.leaveHold f.zone .settled).decideAll) ∧ (¬ settled → x = y.decideAll) ∧
        y.ip = (if hmaxChanges then s.st.markStale.ip else s.st.ip) ∧
        (hmaxChanges → ∀ v r, s.st.valve? v = some r → r.zone = f.zone → s.st.Retimed y v (profileOf y v r)) ∧
        (∀ v, (hmaxChanges → s.st.zoneOfValve? v ≠ some f.zone) → s.st.EntriesStand y v) ∧
        (∀ k, ({ y.slot k with work := [], reopen := [] } : Slot) = { s.st.slot k with work := [], reopen := [] }) ∧
        x.zoneRec f.zone = stored ∧ (∀ z, z ≠ f.zone → x.zoneRec z = s.st.zoneRec z) ∧
        x.nt.fixed = { s.st.nt.fixed with zones := x.nt.zones } ∧
        (settled → (x.zoneWatch f.zone).hold = (false, none, none, false)) ∧
        (¬ settled → (x.zoneWatch f.zone).hold = w.hold) ∧
        (∀ z, z ≠ f.zone → (x.zoneWatch z).hold = (s.st.zoneWatch z).hold) ∧
        (∀ z, (x.zoneWatch z).factor = (s.st.zoneWatch z).factor ∨ (x.zoneWatch z).factor = 1) ∧ x.FactorsReturned ∧
        x.clock = s.st.clock ∧ x.ss = s.st.ss ∧ x.im.freeList = s.st.im.freeList ∧ x.im.owner = s.st.im.owner ∧
        x.pw.sensors = s.st.pw.sensors ∧ (∀ l, (x.line l).calls = (s.st.line l).calls))) ∧
  (∀ (s : State) (tag : Byte) (p l k w : Nat), s.taking → s.st.editable →
    let clampTo (lo hi n : Nat) : Nat := max lo (min n hi)
    let t : Timing :=
      { validity := clampTo 60 3600 p, lifetime := clampTo 60 7200 l, exponent := min k 6, window := clampTo 1 16 w }
    let differs (given kept : Nat) : Nat := if given = kept then 0 else 1
    exec (.setTiming tag p l k w) s = .next (s.replied tag 0x17 .ok
      (byte2 (differs p t.validity + differs l t.lifetime + differs k t.exponent + differs w t.window))
      { s.st with nt := { s.st.nt with timing := t } }))

/-- SET_FLOW sets a present valve's current velocity to the clamped value with the present clock reading; where that
changes the effective velocity, a computation becomes stale and every PENDING or HALTED entry of the valve takes the
Tcmd and mark of the new profile, with SURGE_LIMITED where it gains the mark (R22). SET_HEALTH gives a present valve's
record the health of the request, in BLANK and READY whatever the incidents; its class is derived again, and a change
of class alone makes a computation in flight stale. (The clamped count of each reply is log entry 23.) -/
def Obligations.SetFlowAndSetHealthWriteTheirField : Prop :=
  (∀ (s : State) (tag : Byte) (v q : Nat), s.taking → s.st.editable → s.st.canonical = true →
    let refused (st : Status) : Prop := exec (.setFlow tag v q) s = .next (s.replied tag 0x18 st [] s.st)
    (768 ≤ v → refused .outOfRange) ∧
    (v < 768 → s.st.valve? v = none → refused .notFound) ∧
    (∀ r, v < 768 → s.st.valve? v = some r →
      ∃ x : Station, exec (.setFlow tag v q) s =
          .next (takePostings (s.replied tag 0x18 .ok (byte2 (if q ≤ 5000 then 0 else 1)) x)) ∧
        (x.vsOf v).flow = some (min q 5000, s.st.clock / 10) ∧ (∀ w, w ≠ v → (x.vsOf w).flow = (s.st.vsOf w).flow) ∧
        x.nt.fixed = s.st.nt.fixed ∧ x.clock = s.st.clock ∧ x.ss = s.st.ss ∧ x.im.freeList = s.st.im.freeList ∧
        x.im.owner = s.st.im.owner ∧ x.pw.sensors = s.st.pw.sensors ∧
        (∀ z, (x.zoneWatch z).hold = (s.st.zoneWatch z).hold) ∧ (∀ l, (x.line l).calls = (s.st.line l).calls) ∧
        (s.st.effectiveVelocity v ≠ min q 5000 →
          x.ip = s.st.markStale.ip ∧ s.st.Retimed x v (profileOf x v r)) ∧
        (∀ w, w ≠ v → s.st.EntriesStand x w) ∧
        (∀ k, ({ x.slot k with work := [], reopen := [] } : Slot) = { s.st.slot k with work := [], reopen := [] }) ∧
        (s.st.effectiveVelocity v = min q 5000 →
          exec (.setFlow tag v q) s = .next (s.replied tag 0x18 .ok (byte2 (if q ≤ 5000 then 0 else 1))
            (s.st.modVs v fun d => { d with flow := some (min q 5000, s.st.clock / 10) }))))) ∧
  (∀ (s : State) (tag : Byte) (v h : Nat), s.taking → s.st.editable → s.st.canonical = true →
    let refused (st : Status) : Prop := exec (.setHealth tag v h) s = .next (s.replied tag 0x20 st [] s.st)
    ((768 ≤ v ∨ 3 ≤ h) → refused .outOfRange) ∧
    (v < 768 → h < 3 → s.st.valve? v = none → refused .notFound) ∧
    (∀ r new, v < 768 → health? h = some new → s.st.valve? v = some r →
      ∃ x : Station, exec (.setHealth tag v h) s = .next (s.replied tag 0x20 .ok (byte2 0) x) ∧
        x.valve? v = some { r with health := new } ∧ (∀ w, w ≠ v → x.valve? w = s.st.valve? w) ∧
        (x.vsOf v).kept = usability? x v ∧
        ({ x.vsOf v with kept := none } : VsRec) = { s.st.vsOf v with kept := none } ∧
        (∀ w, w ≠ v → x.vsOf w = s.st.vsOf w) ∧
        x.ip = (if (s.st.vsOf v).kept = usability? x v then s.st.ip else s.st.markStale.ip) ∧
        x.nt = { s.st.nt with valves := x.nt.valves } ∧
        { x with nt := s.st.nt, vs := s.st.vs, ip := s.st.ip } = s.st))

/-! Reads. -/

/-- Every read answers without changing the state: OK with its data, or a refusal of its own. Reads of what exists
complete with OK: READ_VALVE, READ_VALVE_STATE and READ_SENSOR_WATCH of present records, READ_INCIDENT of every slot,
page 0 of READ_PLAN of every slot with a list, READ_MOTION and READ_ZONE_WATCH of every zone, READ_NODE of every place
and READ_EXERCISES. -/
def Obligations.ReadsChangeNothing : Prop :=
  (∀ (s : State) (tag : Byte) (i : Instr), s.taking → s.st.ss.station ≠ .loading →
      i ∈ ([.readTiming tag, .readExercises tag] : List Instr) ∨
        (∃ n, i ∈ ([.readSegment tag n, .readValve tag n, .readZone tag n, .readSensor tag n, .readValveState tag n,
          .readIncident tag n, .readMotion tag n, .readZoneWatch tag n, .readSensorWatch tag n] : List Instr)) ∨
        (∃ n m, i ∈ ([.nextRecord tag n m, .readPlan tag n m, .readNode tag n m] : List Instr)) →
      ∃ kind status data, exec i s = .next (s.replied tag kind status data s.st)) ∧
  (∀ (s : State) (tag : Byte), s.taking → s.st.ss.station ≠ .loading →
      let ok (i : Instr) (kind : Nat) : Prop := ∃ data, exec i s = .next (s.replied tag kind .ok data s.st)
      (∀ v, v < 768 → (s.st.valve? v).isSome → ok (.readValve tag v) 0x1A ∧ ok (.readValveState tag v) 0x24) ∧
      (∀ n, n < 48 → (s.st.sensor? n).isSome → ok (.readSensorWatch tag n) 0x4A) ∧
      (∀ k, k < 4 → ok (.readIncident tag k) 0x35 ∧
        ((s.st.slot k).state ≠ .free → (s.st.slot k).state ≠ .planning → ok (.readPlan tag k 0) 0x36)) ∧
      (∀ z, z < 16 → ok (.readMotion tag z) 0x40 ∧ ok (.readZoneWatch tag z) 0x49) ∧
      (∀ l a, l ≤ 1 → 1 ≤ a → a ≤ 60 → ok (.readNode tag l a) 0x51) ∧
      ok (.readExercises tag) 0x59)

/-- READ_SEGMENT, READ_ZONE, READ_SENSOR and READ_TIMING return the record as stored, field by field. NEXT_RECORD
returns the lowest present number at or above the starting number, or a mark that there is none, with the count of the
kind, and for segments the source count; the number takes two bytes for every kind (log entry 22). -/
def Obligations.TableReadsReturnTheRecord : Prop :=
  (∀ (s : State) (tag : Byte), s.taking → s.st.ss.station ≠ .loading →
     (∀ n, 512 ≤ n → exec (.readSegment tag n) s = .next (s.replied tag 0x19 .outOfRange [] s.st)) ∧
     (∀ n, n < 512 → s.st.segment? n = none →
       exec (.readSegment tag n) s = .next (s.replied tag 0x19 .notFound [] s.st)) ∧
     (∀ n r, n < 512 → s.st.segment? n = some r →
       exec (.readSegment tag n) s = .next (s.replied tag 0x19 .ok
         (byte1 r.zone ++ byte1 r.source.toNat ++ byte2 r.connections ++ byte1 r.priority.toNat ++
           byte1 r.name.isSome.toNat ++ byte1 (r.name.getD []).length ++ r.name.getD []) s.st)) ∧
     (∀ z, z < 16 →
       let r := s.st.zoneRec z
       exec (.readZone tag z) s = .next (s.replied tag 0x1B .ok
         (byte2 r.hmax ++ byte1 r.slots ++ byte2 r.ceiling ++ byte2 r.hysteresis ++ byte2 r.settle ++ byte2 r.drop ++
           byte2 r.detect) s.st)) ∧
     (∀ n r, n < 48 → s.st.sensor? n = some r →
       exec (.readSensor tag n) s = .next (s.replied tag 0x1C .ok
         (byte1 (if r.node.line = .a then 0 else 1) ++ byte1 r.node.address ++ byte2 r.segment ++
           byte1 (s.st.zoneOfSegment r.segment)) s.st)) ∧
     (let t := s.st.nt.timing;
       exec (.readTiming tag) s = .next (s.replied tag 0x1D .ok
         (byte2 t.validity ++ byte2 t.lifetime ++ byte1 t.exponent ++ byte1 t.window) s.st))) ∧
  (∀ (s : State) (tag : Byte) (kind start : Nat), s.taking → s.st.canonical = true →
     let refused (st : Status) : Prop := exec (.nextRecord tag kind start) s = .next (s.replied tag 0x1E st [] s.st)
     let answers (present : Nat → Bool) (count : Nat) (rest : List Byte) : Prop :=
       (∀ m, start ≤ m → present m = true → (∀ j, start ≤ j → j < m → present j = false) →
         exec (.nextRecord tag kind start) s =
           .next (s.replied tag 0x1E .ok (byte1 1 ++ byte2 m ++ byte2 count ++ rest) s.st)) ∧
       ((∀ m, start ≤ m → present m = false) →
         exec (.nextRecord tag kind start) s =
           .next (s.replied tag 0x1E .ok (byte1 0 ++ byte2 0 ++ byte2 count ++ rest) s.st))
     (s.st.ss.station = .loading → refused .notReady) ∧
     (s.st.ss.station ≠ .loading → 3 ≤ kind → refused .outOfRange) ∧
     (s.st.ss.station ≠ .loading → kind = 0 → (512 ≤ start → refused .outOfRange) ∧
       (start < 512 → answers (fun n => (s.st.segment? n).isSome) s.st.nt.segments.length (byte2 s.st.nt.sourceCount))) ∧
     (s.st.ss.station ≠ .loading → kind = 1 → (768 ≤ start → refused .outOfRange) ∧
       (start < 768 → answers (fun n => (s.st.valve? n).isSome) s.st.nt.valves.length [])) ∧
     (s.st.ss.station ≠ .loading → kind = 2 → (48 ≤ start → refused .outOfRange) ∧
       (start < 48 → answers (fun n => (s.st.sensor? n).isSome) s.st.nt.sensors.length [])))

/-- READ_VALVE, READ_VALVE_STATE, READ_NODE, READ_EXERCISES, READ_ZONE_WATCH and READ_SENSOR_WATCH return what is
held, field by field, in the layouts of R199; a number out of range and a number that names no record are refused.
(What R199 leaves open of the layouts is log entry 22; the seconds left to a settle timer are exact where whole
seconds are left, log entry 10.) -/
def Obligations.ValveNodeAndWatchReadsReturnTheirFields : Prop :=
  ∀ (s : State) (tag : Byte), s.taking → s.st.ss.station ≠ .loading →
    let replies (i : Instr) (kind : Nat) (st : Status) (data : List Byte) : Prop :=
      exec i s = .next (s.replied tag kind st data s.st)
    let mark (b : Bool) : List Byte := byte1 b.toNat
    let opt1 (x : Option Nat) : List Byte := mark x.isSome ++ byte1 (x.getD 0)
    let opt2 (x : Option Nat) : List Byte := mark x.isSome ++ byte2 (x.getD 0)
    let opt4 (x : Option Nat) : List Byte := mark x.isSome ++ byte4 (x.getD 0)
    let clock (x : Option Nat) : List Byte := opt4 (x.map (· / 10))
    let age (t : Nat) : Nat := (s.st.clock / 10 + 4294967296 - t) % 4294967296
    let answer (a : AnswerState) : Nat := ([.ready, .moving, .fault, .attend] : List AnswerState).idxOf a
    let presence (p : Presence) : Nat := ([.unknown, .present, .absent] : List Presence).idxOf p
    let health (h : Health) : Nat := ([.sound, .suspect, .inoperable] : List Health).idxOf h
    (∀ v, 768 ≤ v → replies (.readValve tag v) 0x1A .outOfRange [] ∧
      replies (.readValveState tag v) 0x24 .outOfRange []) ∧
    (∀ v, v < 768 → s.st.valve? v = none → replies (.readValve tag v) 0x1A .notFound [] ∧
      replies (.readValveState tag v) 0x24 .notFound []) ∧
    (∀ v r, v < 768 → s.st.valve? v = some r →
      let d := s.st.vsOf v
      let place : Nat × Nat :=
        match r.node with
        | some n => (if n.line = .a then 0 else 1, n.address)
        | none => (0, 0)
      let current : Option Nat :=
        match d.flow with
        | some (q, t) => if age t ≤ s.st.nt.timing.lifetime then some q else none
        | none => none
      let owner : Nat × Nat :=
        match d.owner with
        | none => (0, 0)
        | some (.closeEntry k) => (1, k)
        | some (.reopenEntry k) => (2, k)
        | some .move => (3, 0)
        | some .exercise => (4, 0)
      let e := r.node.map s.st.node
      let closable := r.health ≠ .inoperable ∧
        (r.kind = .crew ∨ ∃ n, r.node = some n ∧ (s.st.node n).presence = .present ∧ d.localMark = false ∧
          ∀ a t, (s.st.node n).last = some (a, t) → a ≠ .fault)
      replies (.readValve tag v) 0x1A .ok
        (byte2 r.sideA ++ byte2 r.sideB ++ byte1 r.zone ++ byte1 (if r.normal = .normallyOpen then 0 else 1) ++
          byte1 (if r.kind = .actuated then 0 else 1) ++ byte1 place.1 ++ byte1 place.2 ++ byte2 r.length ++
          byte2 r.waveSpeed ++ byte2 r.velocity ++ byte2 r.tmin ++ byte2 r.tmax ++ byte1 r.stall ++
          byte1 (health r.health) ++ opt2 r.measured ++ opt4 r.exercised ++ mark r.node.isSome ++
          byte2 (current.getD r.velocity) ++ byte1 (if current.isSome then 0 else 1) ++ mark d.flow.isSome ++
          byte2 ((d.flow.map (·.1)).getD 0) ++ byte4 ((d.flow.map fun f => age f.2).getD 0)) ∧
      ∃ cls : Nat, replies (.readValveState tag v) 0x24 .ok
          (byte1 (([.opened, .closed, .partway, .closing, .opening, .unknown] : List Position).idxOf d.position) ++
            opt2 d.percent ++ mark d.stale ++ byte2 d.holds ++ mark d.localMark ++ opt1 (d.faults.map (·.toNat)) ++
            byte1 owner.1 ++ byte1 owner.2 ++ mark d.request ++ byte1 cls ++ opt1 (e.map fun x => presence x.presence) ++
            opt1 ((e.bind (·.last)).map fun a => answer a.1) ++ byte1 (health r.health)) ∧
        (d.position = .closed → cls = 0) ∧ (d.position ≠ .closed → closable → cls = 1) ∧
        (d.position ≠ .closed → ¬ closable → cls = 2)) ∧
    (∀ l a, (1 < l ∨ a = 0 ∨ 60 < a) → replies (.readNode tag l a) 0x51 .outOfRange []) ∧
    (∀ l a, l ≤ 1 → 1 ≤ a → a ≤ 60 →
      let n : Node := ⟨if l = 0 then .a else .b, a⟩
      let x := s.st.line n.line
      let e := s.st.node n
      replies (.readNode tag l a) 0x51 .ok
        (byte1 (([.actuator, .sensor, .none] : List NodeKind).idxOf e.kind) ++
          (match s.st.occupant? n with
            | some (.valve v) => mark true ++ byte2 v
            | some (.sensor k) => mark true ++ byte1 k
            | none => mark false ++ byte2 0) ++
          byte1 (presence e.presence) ++ byte2 e.misses ++ mark e.attend ++
          byte1 (if e.step = .needDetail then 0 else 1) ++ opt1 (e.last.map fun p => answer p.1) ++
          clock (e.last.map (·.2)) ++ clock e.rollDue ++ clock e.detailDue ++ clock e.sampleDue ++
          mark (x.halts.contains a) ++ mark (decide (e.presence = .present ∧ e.attend = true)) ++
          mark (x.strokes.contains a) ++
          mark (match x.onLine with
            | some (.addressed b _ _) => decide (b = a)
            | _ => false))) ∧
    replies (.readExercises tag) 0x59 .ok (byte1 s.st.xu.length ++ s.st.xu.flatMap fun x =>
      byte2 x.valve ++ byte1 x.zone ++ byte1 x.target ++
        byte1 (([.queued, .outward, .returnWait, .returning] : List ExercisePhase).idxOf x.phase) ++ opt2 x.elapsed ++
        opt1 (x.result.map (·.code)) ++ mark x.degraded) ∧
    (∀ z, 16 ≤ z → replies (.readZoneWatch tag z) 0x49 .outOfRange []) ∧
    (∀ z, z < 16 → s.st.canonical = true →
      let w := s.st.zoneWatch z
      ∃ seconds : Nat, replies (.readZoneWatch tag z) 0x49 .ok
          (byte1 (([.quiet, .watch, .hold] : List ZoneState).idxOf w.state) ++ byte2 w.factor ++ mark w.persist ++
            clock w.heldAt ++ clock w.settleAt ++ byte2 seconds ++
            byte2 (s.st.nt.sensors.countP fun p => decide (s.st.zoneOfSegment p.2.segment = z))) ∧
        ∀ start, w.state = .hold → w.persist = false → w.settleAt = some start →
          let due := (start + 10 * (s.st.zoneRec z).settle) % 42949672960
          let left := (due + 42949672960 - s.st.clock) % 42949672960
          (clockReached s.st.clock due = true → seconds = 0) ∧
          (clockReached s.st.clock due = false → left % 10 = 0 → seconds = left / 10)) ∧
    (∀ n, 48 ≤ n → replies (.readSensorWatch tag n) 0x4A .outOfRange []) ∧
    (∀ n, n < 48 → s.st.sensor? n = none → replies (.readSensorWatch tag n) 0x4A .notFound []) ∧
    (∀ n r, n < 48 → s.st.sensor? n = some r →
      let w := s.st.sensorWatch n
      let z := s.st.zoneOfSegment r.segment
      let drop := (s.st.zoneRec z).drop
      let signed (x : Int) : Nat := (x % 65536).toNat
      replies (.readSensorWatch tag n) 0x4A .ok
        (byte1 z ++ byte2 r.segment ++ opt2 w.baseline ++ opt2 (w.last.map (·.1)) ++ clock (w.last.map (·.2)) ++
          clock w.lowRun ++ mark w.suspicion ++ opt2 (w.baseline.map fun b => signed ((b : Int) - (drop : Int))) ++
          opt2 (w.baseline.map fun b => signed ((b : Int) - ((drop / 2 : Nat) : Int))) ++
          mark (s.st.owned r.segment)))

/-- READ_INCIDENT, READ_PLAN and READ_MOTION return what is held, field by field, in the layouts of R199, with its
cause codes; READ_PLAN returns eight entries to a page, with the total and the cut-off report on page 0, and is
refused for a slot without a list and past the last page. (What R199 leaves open of the layouts is log entry 22.) -/
def Obligations.IncidentPlanAndMotionReadsReturnTheirFields : Prop :=
  (∀ c n, (c, n) ∈ ([(.stall, 0x01), (.timeout, 0x02), (.shortStroke, 0x03), (.nodeFault, 0x04), (.nodeAbsent, 0x05),
      (.localMode, 0x06), (.crewStuck, 0x07), (.drift, 0x08), (.withdrawn, 0x09), (.interrupted, 0x0A),
      (.abandoned, 0x0B), (.preempted, 0x0C), (.host, 0x0D), (.notOpen, 0x0E), (.done, 0x0F), (.regionTooLarge, 0x20),
      (.sourceReached, 0x21), (.boundaryTooLarge, 0x22), (.closedSetFull, 0x23), (.burstListFull, 0x24),
      (.tooManyFailures, 0x25), (.close, 0x30), (.reopen, 0x31), (.settled, 0x32), (.powerOn, 0x40), (.resetPin, 0x41),
      (.resetStation, 0x42), (.format, 0x48), (.check, 0x49), (.content, 0x4A), (.erase, 0x50), (.write, 0x51),
      (.verify, 0x52)] : List (Cause × Nat)) → c.code = n) ∧
  (∀ (s : State) (tag : Byte), s.taking → s.st.ss.station ≠ .loading →
    let replies (i : Instr) (kind : Nat) (st : Status) (data : List Byte) : Prop :=
      exec i s = .next (s.replied tag kind st data s.st)
    let mark (b : Bool) : List Byte := byte1 b.toNat
    let opt2 (x : Option Nat) : List Byte := mark x.isSome ++ byte2 (x.getD 0)
    let clock (x : Option Nat) : List Byte := mark x.isSome ++ byte4 ((x.map (· / 10)).getD 0)
    let numbers (ns : List Nat) : List Byte := byte1 ns.length ++ ns.flatMap byte2
    let states : List EntryState :=
      [.proposed, .pending, .stroking, .halted, .crewWait, .closed, .opened, .alreadyClosed, .failed, .stopped]
    let counts (es : List Entry) : List Byte := states.flatMap fun st => byte2 (es.countP fun e => decide (e.state = st))
    (∀ k, 4 ≤ k → replies (.readIncident tag k) 0x35 .outOfRange []) ∧
    (∀ k, k < 4 →
      let r := s.st.slot k
      let live := ∃ f, s.st.ip.flight = some f ∧ f.slot = k ∧ f.cancel = false
      ∃ planner place : Nat, replies (.readIncident tag k) 0x35 .ok
          (byte1 (([.free, .planning, .planned, .closing, .isolated, .unisolable, .aborted, .reopening, .done] :
              List SlotState).idxOf r.state) ++
            byte1 planner ++ byte2 place ++ numbers r.burst ++ clock r.authorized ++ clock r.deadline ++
            clock r.released ++ mark r.overrideMark ++ mark r.overrideRequired ++ mark r.replanPending ++
            byte2 r.expansions ++ mark r.reason.isSome ++ byte1 ((r.reason.map (·.1.code)).getD 0) ++
            byte4 ((r.reason.map (·.2)).getD 0) ++ numbers r.region ++ numbers r.closedBy ++
            (byte1 r.failed.length ++ r.failed.flatMap fun p => byte2 p.1 ++ byte1 p.2.code) ++ counts r.work ++
            counts r.reopen) ∧
        (live → planner = 2 ∧ place = 0) ∧ (¬ live → k ∉ s.st.ip.queue → planner = 0 ∧ place = 0) ∧
        (¬ live → k ∈ s.st.ip.queue → planner = 1 ∧ place = s.st.ip.queue.idxOf k + 1)) ∧
    (∀ k page, 4 ≤ k → replies (.readPlan tag k page) 0x36 .outOfRange []) ∧
    (∀ k page, k < 4 →
      let r := s.st.slot k
      let entry (e : Entry) : List Byte :=
        byte2 e.valve ++ byte1 (([.actuated, .crew, .alreadyClosed] : List EntryKind).idxOf e.kind) ++
          byte1 (states.idxOf e.state) ++ byte2 e.tcmd ++ mark e.limited ++ mark e.offNormal ++ opt2 e.residual ++
          byte1 (e.halts.surge.toNat + 2 * e.halts.supply.toNat + 4 * e.halts.clear.toNat + 8 * e.halts.host.toNat)
      let report : List Byte :=
        match r.report with
        | some x => mark true ++ byte4 x.regionConnections ++ byte2 x.cutOffCount ++ byte4 x.cutOffConnections ++
            numbers x.priorityList ++ byte2 x.priorityOverflow
        | none => mark false ++ byte4 0 ++ byte2 0 ++ byte4 0 ++ numbers [] ++ byte2 0
      let pages (es : List Entry) : Prop :=
        (max 1 ((es.length + 7) / 8) ≤ page → replies (.readPlan tag k page) 0x36 .outOfRange []) ∧
        (page < max 1 ((es.length + 7) / 8) →
          let shown := (es.drop (8 * page)).take 8
          replies (.readPlan tag k page) 0x36 .ok (byte1 shown.length ++ shown.flatMap entry ++
            if page = 0 then byte2 es.length ++ report else []))
      (r.state ∈ ([.free, .planning] : List SlotState) → replies (.readPlan tag k page) 0x36 .wrongState []) ∧
      (r.state ∈ ([.reopening, .done] : List SlotState) → pages r.reopen) ∧
      (r.state ∈ ([.planned, .closing, .isolated, .unisolable, .aborted] : List SlotState) → pages r.work)) ∧
    (∀ z, 16 ≤ z → replies (.readMotion tag z) 0x40 .outOfRange []) ∧
    (∀ z, z < 16 →
      let inside (v : Nat) : Bool := decide ((s.st.valve? v).map (·.zone) = some z)
      let pending (es : List Entry) : Nat := es.countP fun e => decide (e.state = .pending) && inside e.valve
      let among (st : SlotState) (es : Slot → List Entry) : Nat :=
        ((([0, 1, 2, 3] : List Nat).filter fun k => decide ((s.st.slot k).state = st)).map fun k =>
          pending (es (s.st.slot k))).sum
      let owner : Owner → Nat × Nat
        | .closeEntry k => (1, k)
        | .reopenEntry k => (2, k)
        | .move => (3, 0)
        | .exercise => (4, 0)
      let stroke (r : Stroke) : List Byte :=
        let since : Option Nat :=
          if r.phase = .sending then none
          else r.accepted.map fun a => (s.st.clock + 42949672960 - a) % 42949672960
        byte2 r.valve ++ byte1 (owner r.owner).1 ++ byte1 (owner r.owner).2 ++ mark r.retained ++ byte2 r.target ++
          byte2 r.time ++ byte1 (([.sending, .moving, .halting] : List Phase).idxOf r.phase) ++ byte2 r.sendings ++
          opt2 since ++ byte2 (if since.isSome then r.timeout.getD 0 else 0)
      let strokes := s.st.md.strokes.filter fun r => decide (r.zone = z)
      let first := s.st.firstEligible z
      replies (.readMotion tag z) 0x40 .ok
        (byte2 (s.st.count z) ++ byte1 (s.st.zoneRec z).slots ++ (byte1 strokes.length ++ strokes.flatMap stroke) ++
          byte2 (s.st.md.returns.countP inside) ++ byte2 (among .closing (·.work)) ++
          byte2 (among .reopening (·.reopen)) ++ byte2 (s.st.md.moves.countP fun m => m.waiting && inside m.valve) ++
          byte2 (s.st.xu.countP fun x => decide (x.phase = .queued ∧ x.zone = z)) ++ mark first.isSome ++
          byte2 ((first.map (·.valve)).getD 0) ++ byte1 ((first.map (·.cls)).getD 0) ++
          mark (([0, 1, 2, 3] : List Nat).any fun k => decide ((s.st.slot k).state = .closing) &&
            (s.st.slot k).work.any fun e => decide (e.state = .pending ∨ e.state = .halted) && inside e.valve))))

/-! Valve work. -/

/-- CONFIRM_VALVE: its checks in order. A CLOSED or OPENED report sets the crew valve's position and percent, a STUCK
report sets its health INOPERABLE, and the class is derived again. Then each slot's entries of the valve take the
report: in CREW_WAIT a close entry becomes CLOSED and a reopen entry OPENED, which may leave the slot ISOLATED or
DONE; STUCK makes a crew entry FAILED with VALVE_FAILED, a close entry also when CLOSED (also when the failed list is
full, log entry 24), a reopen entry of a slot in REOPENING also when OPENED; a slot with no such entry stands. The arbiters then decide (log entry 12 and section 6.4). -/
def Obligations.ConfirmValveTakesTheReport : Prop :=
  ∀ (s : State) (tag : Byte) (v report : Nat), s.taking → s.st.ss.station = .ready → s.st.canonical = true →
    let refused (st : Status) : Prop := exec (.confirmValve tag v report) s = .next (s.replied tag 0x21 st [] s.st)
    ((768 ≤ v ∨ 2 < report) → refused .outOfRange) ∧
    (v < 768 → report ≤ 2 → s.st.valve? v = none → refused .notFound) ∧
    (∀ r, v < 768 → report ≤ 2 → s.st.valve? v = some r → r.kind = .actuated → refused .wrongState) ∧
    (∀ r, v < 768 → report = 1 → s.st.valve? v = some r → r.kind = .crew → 0 < (s.st.vsOf v).holds →
      refused .valveHeld) ∧
    (∀ r, v < 768 → report ≤ 2 → s.st.valve? v = some r → r.kind = .crew →
      (report = 1 → (s.st.vsOf v).holds = 0) →
      let x : Station :=
        if report = 2 then s.st.setHealth v .inoperable
        else s.st.reposition v fun d =>
          { d with
            position := if report = 0 then .closed else .opened
            percent := some (if report = 0 then 0 else 100) }
      ∃ y : Station, exec (.confirmValve tag v report) s =
          .next (takePostings (s.replied tag 0x21 .ok [] y.decideAll)) ∧
        s.st.Moves x ∧ s.st.Moves y.decideAll ∧ (y.vsOf v).kept = usability? y v ∧
        (report ≤ 1 →
          ({ y.vsOf v with kept := none } : VsRec) =
            { s.st.vsOf v with
              position := if report = 0 then .closed else .opened
              percent := some (if report = 0 then 0 else 100)
              kept := none } ∧
          y.valve? v = some r) ∧
        (report = 2 → y.valve? v = some { r with health := .inoperable } ∧
          ({ y.vsOf v with kept := none } : VsRec) = { s.st.vsOf v with kept := none }) ∧
        (∀ w, w ≠ v → y.valve? w = s.st.valve? w) ∧
        (∀ k, report ≠ 1 ∨ ¬ (s.st.slot k).state ∈ ([.closing, .isolated] : List SlotState) → x.slot k = s.st.slot k) ∧
        (∀ k, k < 4 →
          let q := x.slot k
          let close := entryOf? q.work v
          let reopen := entryOf? q.reopen v
          let put (st : EntryState) (e : Entry) : Entry :=
            if e.valve = v then { e with state := st, residual := none, halts := {} } else e
          let waiting (e : Option Entry) : Prop := e.map (·.state) = some .crewWait
          let stuckClose := ∃ e, close = some e ∧ e.kind = .crew ∧ (e.state = .crewWait ∨ e.state = .closed) ∧
            (q.state = .closing ∨ q.state = .isolated ∨ q.state = .unisolable)
          let stuckReopen := ∃ e, reopen = some e ∧ e.kind = .crew ∧ (e.state = .crewWait ∨ e.state = .opened) ∧
            q.state = .reopening
          let closed := q.work.map (put .closed)
          let isolates := q.state = .closing ∧ q.replanPending = false ∧
            ∀ e ∈ closed, e.state = .closed ∨ e.state = .alreadyClosed
          let opened := q.reopen.map (put .opened)
          let ends := q.state = .reopening ∧
            ∀ e ∈ opened, e.state ∉ ([.pending, .stroking, .halted, .crewWait] : List EntryState)
          let failed : Notice :=
            { kind := .valveFailed, clock := s.st.clock / 10, slot := some k, valve := some v, zone := some r.zone
              cause := some .crewStuck }
          (report = 0 → waiting close → ¬ isolates → y.slot k = { q with work := closed }) ∧
          (report = 0 → waiting close → isolates → y.slot k = { q with work := closed, state := .isolated } ∧
            { kind := .isolated, clock := s.st.clock / 10, slot := some k
              value := some ((q.report.map (·.regionConnections)).getD 0) } ∈ y.outbox) ∧
          (report = 1 → waiting reopen → ¬ ends → y.slot k = { q with reopen := opened }) ∧
          (report = 1 → waiting reopen → ends → y.slot k = { q with reopen := opened, state := .done } ∧
            { kind := .reopened, clock := s.st.clock / 10, slot := some k
              value := some (q.reopen.countP fun e => decide (e.state = .failed ∧ e.valve ≠ v)) } ∈ y.outbox) ∧
          (report = 2 → stuckClose →
            (∀ e ∈ (y.slot k).work, e.valve = v → e.state = .failed) ∧ failed ∈ y.outbox) ∧
          (report = 2 → stuckReopen →
            (∀ e ∈ (y.slot k).reopen, e.valve = v → e.state = .failed) ∧ failed ∈ y.outbox) ∧
          ((report = 0 ∧ ¬ waiting close) ∨ (report = 1 ∧ ¬ waiting reopen) ∨
              (report = 2 ∧ ¬ stuckClose ∧ ¬ stuckReopen) → y.slot k = q)))

/-- MOVE_VALVE: its checks in order; a valve already at the target needs no stroke; otherwise the request waits at the
tail with its given time clamped (the clamped count is log entry 23), and the arbiters decide (log entry 12
and section 6.4). -/
def Obligations.MoveValveWaitsItsTurn : Prop :=
  ∀ (s : State) (tag : Byte) (v target time : Nat), s.taking → s.st.ss.station = .ready →
    let i : Instr := .moveValve tag v target time
    let refused (st : Status) : Prop := exec i s = .next (s.replied tag 0x22 st [] s.st)
    let d := s.st.vsOf v
    ((768 ≤ v ∨ 1 < target) → refused .outOfRange) ∧
    (v < 768 → target ≤ 1 → s.st.valve? v = none → refused .notFound) ∧
    (∀ r, v < 768 → target ≤ 1 → s.st.valve? v = some r →
      (r.kind = .crew → refused .notActuated) ∧
      (r.kind = .actuated → 0 < d.holds → refused .valveHeld) ∧
      (r.kind = .actuated → d.holds = 0 → (s.st.owned r.sideA ∨ s.st.owned r.sideB) → refused .inRegion) ∧
      (r.kind = .actuated → d.holds = 0 → s.st.owned r.sideA = false → s.st.owned r.sideB = false →
        (s.st.motionWork v = true → refused .wrongState) ∧
        (s.st.motionWork v = false → d.stale = false → d.position = (if target = 1 then .closed else .opened) →
          exec i s = .next (s.replied tag 0x22 .ok [] s.st)) ∧
        (s.st.motionWork v = false → (d.stale = true ∨ d.position ≠ (if target = 1 then .closed else .opened)) →
          let given : Option Nat := if time = 0 then none else some (max r.tmin (min time r.tmax))
          let m : Move := { valve := v, closes := decide (target = 1), given, residual := none, limited := false
                            waiting := true }
          let waiting : Station := { s.st with md := { s.st.md with moves := s.st.md.moves ++ [m] } }
          exec i s = .next (takePostings (s.replied tag 0x22 .accepted
            (byte2 (if time = 0 ∨ time = max r.tmin (min time r.tmax) then 0 else 1)) waiting.decideAll)) ∧
          s.st.Moves waiting.decideAll)))

/-- HALT_VALVE(STOP) and HALT_VALVE(LIFT): the checks in order, each refused with WRONG_STATE when there is nothing to
stop or to lift. STOP (R42): a PENDING or HALTED entry of the valve is HALTED with HOST among its causes, a waiting
MOVE_VALVE, a queued exercise and a waiting return are gone, and a stroke in motion has its end decided as a halt by
the host: sent a HALT when it moves, ended at once when its call is not yet on the line, after the answer when it is.
LIFT (R43): HOST leaves every HALTED entry of the valve, close or reopen, which with no other cause left is PENDING
with its residual formed anew, or CLOSED or OPENED when its percent is within tolerance already. The arbiters then
decide (log entry 12 and section 6.4). -/
def Obligations.HaltValveStopsAndLifts : Prop :=
  ∀ (s : State) (tag : Byte) (v : Nat), s.taking → s.st.ss.station = .ready →
    let refused (st : Status) : Prop :=
      exec (.haltValveStop tag v) s = .next (s.replied tag 0x23 st [] s.st) ∧
      exec (.haltValveLift tag v) s = .next (s.replied tag 0x23 st [] s.st)
    let entries : List Entry := [0, 1, 2, 3].flatMap fun k => (s.st.slot k).work ++ (s.st.slot k).reopen
    let waiting (e : Entry) : Prop := e.state = .pending ∨ e.state = .halted
    let work := (s.st.stroke? v).isSome ∨ (s.st.move? v).isSome ∨ (s.st.exercise? v).isSome ∨
      ∃ e ∈ entries, e.valve = v ∧ waiting e
    let held := ∃ e ∈ entries, e.valve = v ∧ e.state = .halted ∧ e.halts.host = true
    let claimed := ∃ k e, k < 4 ∧ e ∈ (s.st.slot k).work ∧ e.valve = v ∧ waiting e
    (768 ≤ v → refused .outOfRange) ∧
    (v < 768 → s.st.valve? v = none → refused .notFound) ∧
    (∀ r, v < 768 → s.st.valve? v = some r → r.kind = .crew → refused .notActuated) ∧
    (∀ r, v < 768 → s.st.valve? v = some r → r.kind = .actuated →
      (¬ work → exec (.haltValveStop tag v) s = .next (s.replied tag 0x23 .wrongState [] s.st)) ∧
      (¬ held → exec (.haltValveLift tag v) s = .next (s.replied tag 0x23 .wrongState [] s.st)) ∧
      (work → ∃ x : Station,
        exec (.haltValveStop tag v) s = .next (takePostings (s.replied tag 0x23 .ok [] x.decideAll)) ∧
        s.st.Moves x.decideAll ∧
        (s.st.canonical = true →
          (∀ k e, k < 4 → entryOf? (s.st.slot k).work v = some e → waiting e →
            entryOf? (x.slot k).work v = some { e with state := .halted, halts := { e.halts with host := true } }) ∧
          (¬ claimed → (∀ y j, s.st.stroke? v = some y → y.owner ≠ .closeEntry j) →
            ∀ k e, k < 4 → entryOf? (s.st.slot k).reopen v = some e → waiting e →
            entryOf? (x.slot k).reopen v = some { e with state := .halted, halts := { e.halts with host := true } }) ∧
          (∀ m, s.st.move? v = some m → m.waiting = true → x.move? v = none) ∧
          (∀ y, s.st.exercise? v = some y → y.phase = .queued ∨ y.phase = .returnWait → x.exercise? v = none) ∧
          (∀ y n, ¬ claimed → s.st.stroke? v = some y → y.pendingEnd = none → r.node = some n →
            let onLine := ∃ c, (s.st.line n.line).onLine = some (.addressed n.address .stroke c)
            (y.phase = .moving →
              x.stroke? v = some { y with phase := .halting, pendingEnd := some (.halted .host) } ∧
              (x.line n.line).halts = (s.st.line n.line).halts ++ [n.address]) ∧
            (y.phase = .sending → onLine → x.stroke? v = some { y with pendingEnd := some (.halted .host) }) ∧
            (y.phase = .sending → ¬ onLine → x.stroke? v = none ∧ (x.vsOf v).owner = none)))) ∧
      (held → ∃ x : Station,
        exec (.haltValveLift tag v) s = .next (takePostings (s.replied tag 0x23 .ok [] x.decideAll)) ∧
        s.st.Moves x.decideAll ∧
        (s.st.canonical = true → s.st.stroke? v = none → ∀ k e, k < 4 → e.state = .halted → e.halts.host = true →
          let resumes (closes : Bool) : Entry → Prop :=
            Entry.Resumes closes (s.st.vsOf v).percent r.tmin { e.halts with host := false } e
          (entryOf? (s.st.slot k).work v = some e → ∃ t, entryOf? (x.slot k).work v = some t ∧ resumes true t) ∧
          (¬ claimed → entryOf? (s.st.slot k).reopen v = some e →
            ∃ t, entryOf? (x.slot k).reopen v = some t ∧ resumes false t))))

/-- How a halt of a stroke in motion is decided: a call not yet on the line is withdrawn and the stroke ends at once;
a call that awaits its answer lets the end wait; a moving valve is sent a HALT; and the first end decided stands, a
second passing cause joining the first. STROKE_TIMEOUT: in MOVING the clock stands at acceptance plus the timeout (log
entry 11) and a halt with TIMEOUT is decided; in SENDING and HALTING no timeout runs. A close entry that becomes PENDING
or HALTED for a valve in a MOVE_VALVE or exercise stroke has it halted in the same way with PREEMPTED (R117), and a stroke
whose end is already decided notes the entry (the model's choice, log entry 19, DEDUCED). -/
def Obligations.AHaltIsDecidedByThePhase : Prop :=
  (∀ (s : Station) (v : Nat) (r : Stroke) (n : Node) (e : StrokeEnd),
      s.stroke? v = some r → s.nodeOf? v = some n →
      (r.pendingEnd = none → r.phase = .sending → s.strokeOnLine v = false →
        s.decideHalt v e = Station.endStroke false s r e) ∧
      (r.pendingEnd = none → r.phase = .sending → s.strokeOnLine v = true →
        s.decideHalt v e = s.modStroke v fun x => { x with pendingEnd := some e }) ∧
      (r.pendingEnd = none → r.phase = .moving →
        s.decideHalt v e = (s.modStroke v fun x => { x with phase := .halting, pendingEnd := some e }).modLine n.line
          fun x => { x with halts := x.halts ++ [n.address] }) ∧
      (∀ p, r.pendingEnd = some p →
        (∀ h g, p = .halted h → e = .halted g →
          s.decideHalt v e = s.modStroke v fun x => { x with joined := x.joined.join g }) ∧
        ((∀ h, p ≠ .halted h) ∨ (∀ g, e ≠ .halted g) → s.decideHalt v e = s))) ∧
  (∀ (s : State) (v : Nat) (r : Stroke), s.up → s.st.stroke? v = some r →
      (r.phase ≠ .moving → exec (.strokeTimeout v) s = .next s) ∧
      (∀ a t n, r.phase = .moving → r.accepted = some a → r.timeout = some t → r.pendingEnd = none →
        s.st.nodeOf? v = some n →
        let due := (a + t) % 42949672960
        let x : Station := { s.st with clock := if clockReached s.st.clock due then s.st.clock else due }
        exec (.strokeTimeout v) s = .next
          { s with st :=
            ((x.modStroke v fun y => { y with phase := .halting, pendingEnd := some (.failed .timeout) }).modLine n.line
              (fun y => { y with halts := y.halts ++ [n.address] })) })) ∧
  (∀ (s : Station) (k v : Nat) (r : Stroke) (n : Node), s.canonical = true → s.stroke? v = some r →
      s.nodeOf? v = some n → ((s.vsOf v).owner = some .move ∨ (s.vsOf v).owner = some .exercise) →
      (∀ j e, j < 4 → e ∈ (s.slot j).reopen → e.valve = v → e.state ≠ .stroking) →
      let x := s.closeWaits k v
      let taken : StrokeEnd := .taken .preempted
      (r.pendingEnd ≠ none → x.stroke? v = some { r with claimed := true }) ∧
      (r.pendingEnd = none → r.phase = .moving →
        x.stroke? v = some { r with phase := .halting, pendingEnd := some taken } ∧
        (s.MapAgrees → n.address ∈ (x.line n.line).halts)) ∧
      (r.pendingEnd = none → r.phase = .sending → s.strokeOnLine v = true →
        x.stroke? v = some { r with pendingEnd := some taken }) ∧
      (r.pendingEnd = none → r.phase = .sending → s.strokeOnLine v = false →
        x.stroke? v = none ∧ (x.vsOf v).owner = none))

/-- EXERCISE_VALVE: its checks in order; taken, a new exercise joins the tail of the set, QUEUED, its target clamped
to 50..95 (the clamped count is log entry 23), and the arbiters decide (log entry 12 and section 6.4). -/
def Obligations.ExerciseValveJoinsTheSet : Prop :=
  ∀ (s : State) (tag : Byte) (v target : Nat), s.taking → s.st.ss.station = .ready →
    let i : Instr := .exerciseValve tag v target
    let refused (st : Status) : Prop := exec i s = .next (s.replied tag 0x58 st [] s.st)
    let d := s.st.vsOf v
    (768 ≤ v → refused .outOfRange) ∧ (v < 768 → s.st.valve? v = none → refused .notFound) ∧
    (∀ r, v < 768 → s.st.valve? v = some r →
      let free := s.st.owned r.sideA = false ∧ s.st.owned r.sideB = false
      let fit := r.normal = .normallyOpen ∧ d.position = .opened ∧ d.stale = false ∧ s.st.move? v = none ∧
        d.owner = none
      (r.kind = .crew → refused .notActuated) ∧
      (r.kind = .actuated → 0 < d.holds → refused .valveHeld) ∧
      (r.kind = .actuated → d.holds = 0 → ¬ free → refused .inRegion) ∧
      (r.kind = .actuated → d.holds = 0 → free → ¬ fit → refused .wrongState) ∧
      (r.kind = .actuated → d.holds = 0 → free → fit → (8 ≤ s.st.xu.length ∨ (s.st.exercise? v).isSome) →
        refused .busy) ∧
      (r.kind = .actuated → d.holds = 0 → free → fit → s.st.xu.length < 8 → s.st.exercise? v = none →
        let t := max 50 (min target 95)
        let queued : Station :=
          { s.st with xu := s.st.xu ++
            [{ valve := v, zone := r.zone, target := t, phase := .queued, elapsed := none, result := none
               degraded := false }] }
        exec i s = .next
          (takePostings (s.replied tag 0x58 .accepted (byte2 (if target = t then 0 else 1)) queued.decideAll)) ∧
        s.st.Moves queued.decideAll))

/-- A zone in HOLD leaves it by RESUME_ZONE and by the expiry of its settle timer, to which the clock is carried (log
entry 11); an expiry with no timer running changes nothing (log entry 13). The five steps of R143: the hold entry
time, the settle start and the persist mark go; the zone is in WATCH with a motion count above 0, its SAMPLE due times
standing, and QUIET with a count of 0, its sensors without one; SURGE leaves the zone's HALTED entries, which with no
other cause left are PENDING with Tcmd and residual formed anew, or CLOSED or OPENED when the percent is within
tolerance already, while other entries in progress stand; SURGE_RESUMED carries the factor, which is 1 when no stroke
is in motion and no entry waits in the zone and stands otherwise; the arbiters decide. -/
def Obligations.AZoneLeavesItsHold : Prop :=
  ∀ (s : State) (tag : Byte) (z : Nat), s.st.canonical = true →
    let lifted (b : Station) : Station :=
      let m := b.modZoneWatch z fun w =>
        { w with
          heldAt := none, settleAt := none, persist := false, state := if b.count z = 0 then .quiet else .watch }
      (if b.count z = 0 then m.setSampleDue z none else m).endCause .surge (Station.inZone z)
    let resumed (y : Station) (c : Cause) (f : Nat) : Station :=
      (y.modZoneWatch z fun w => { w with factor := f }).post
        { kind := .surgeResumed, zone := some z, cause := some c, value := some f }
    let left (b y : Station) (f : Nat) : Prop :=
      let w := b.zoneWatch z
      let sampled (n : Node) := ∃ p ∈ b.nt.sensors, p.2.node = n ∧ b.zoneOfSegment p.2.segment = z
      f = (if y.count z = 0 ∧ y.anyWaitingEntry z = false then 1 else w.factor) ∧
      y.zoneWatch z =
        { w with
          heldAt := none, settleAt := none, persist := false, state := if y.count z = 0 then .quiet else .watch } ∧
      (∀ u, u ≠ z → (y.zoneWatch u).hold = (b.zoneWatch u).hold) ∧
      ((∀ r ∈ b.md.strokes, r.zone = z → r.pendingEnd.isSome) → y.count z = b.count z) ∧
      (y.count z = 0 → ∀ n, sampled n → (y.node n).sampleDue = none) ∧
      (0 < y.count z → b.MapAgrees → ∀ n, sampled n → (y.node n).sampleDue = (b.node n).sampleDue) ∧
      (∀ v a k ro e, b.valve? v = some a → (∀ r, b.stroke? v = some r → r.pendingEnd.isSome) → k < 4 →
        b.entryIn k ro v = some e →
        (ro = true → ¬ ∃ j c, j < 4 ∧ c ∈ (b.slot j).work ∧ c.valve = v ∧ (c.state = .pending ∨ c.state = .halted)) →
        let p := profileOf b v a
        let rest : HaltSet := { e.halts with surge := false }
        (a.zone = z → e.state = .halted → e.halts.surge = true →
          ∃ u, y.entryIn k ro v = some u ∧ Entry.Resumes (!ro) (b.vsOf v).percent a.tmin rest e u ∧
            (rest = {} → (u.tcmd, u.limited) = (p.tcmd, p.limited))) ∧
        (Station.inProgress e = true → a.zone ≠ z ∨ e.state ≠ .halted ∨ e.halts.surge = false →
          y.entryIn k ro v = some e)) ∧
      y.clock = b.clock ∧ y.ss = b.ss ∧ y.nt.fixed = b.nt.fixed ∧ y.im.owner = b.im.owner ∧
      y.im.freeList = b.im.freeList ∧ y.pw.sensors = b.pw.sensors ∧ (∀ l, (y.line l).calls = (b.line l).calls)
    (s.taking → s.st.ss.station = .ready →
      (16 ≤ z → exec (.resumeZone tag z) s = .next (s.replied tag 0x48 .outOfRange [] s.st)) ∧
      (z < 16 → (s.st.zoneWatch z).state ≠ .hold →
        exec (.resumeZone tag z) s = .next (s.replied tag 0x48 .wrongState [] s.st)) ∧
      (z < 16 → (s.st.zoneWatch z).state = .hold →
        ∃ f, left s.st (lifted s.st) f ∧
          exec (.resumeZone tag z) s =
            .next (takePostings (s.replied tag 0x48 .ok [] (resumed (lifted s.st) .host f).decideAll)))) ∧
    (s.up →
      ((s.st.zoneWatch z).state ≠ .hold ∨ (s.st.zoneWatch z).persist = true ∨ (s.st.zoneWatch z).settleAt = none →
        exec (.settleTimerExpiry z) s = .next (takePostings { s with st := s.st.decideAll })) ∧
      (∀ start, (s.st.zoneWatch z).state = .hold → (s.st.zoneWatch z).persist = false →
        (s.st.zoneWatch z).settleAt = some start →
        let due := (start + 10 * (s.st.zoneRec z).settle) % 42949672960
        let b : Station := { s.st with clock := if clockReached s.st.clock due then s.st.clock else due }
        ∃ f, left b (lifted b) f ∧
          exec (.settleTimerExpiry z) s =
            .next (takePostings { s with st := (resumed (lifted b) .settled f).decideAll })))

/-- FIELD_CLEAR queues a CLEAR of the line in class 1 behind the broadcasts queued, unless one is queued and not yet
sent, be it the start-up clear (log entry 35). CLEAR_SENT (R162): the line is free; every stroke whose node is on it
ends, in the order of the grants (log entry 37), as a halt with CLEAR, or with the end already decided, which CLEAR
joins where that is a halt by a passing cause; every HALTED entry of a valve on the line gains CLEAR; every node of
kind ACTUATOR or SENSOR on it has its mark set with step NEED_DETAIL, and presence, miss counts and last answers
stand; LINE_CLEARED is posted last, but for the start-up clear (its address field is 0). BROADCAST_HALT_SENT (R164):
the line is free, each stroke that the warning halted ends with its decided end when the broadcast is its own, and
waits for one less otherwise (log entry 31); marks and nodes stand. With no such call on the line neither has an
effect (log entry 13). The arbiters then decide (log entry 12 and section 6.4). -/
def Obligations.BroadcastsAreQueuedAndActOnTheirLine : Prop :=
  (∀ (s : State) (tag : Byte) (line : Nat), s.taking → s.st.ss.station = .ready →
     let replies (x : Station) : Prop := exec (.fieldClear tag line) s = .next (s.replied tag 0x50 .ok [] x)
     (1 < line → exec (.fieldClear tag line) s = .next (s.replied tag 0x50 .outOfRange [] s.st)) ∧
     (line = 0 → (∃ u, .clear u ∈ s.st.lineA.broadcasts) → replies s.st) ∧
     (line = 0 → (∀ u, .clear u ∉ s.st.lineA.broadcasts) →
       replies { s.st with lineA := { s.st.lineA with broadcasts := s.st.lineA.broadcasts ++ [.clear false] } }) ∧
     (line = 1 → (∃ u, .clear u ∈ s.st.lineB.broadcasts) → replies s.st) ∧
     (line = 1 → (∀ u, .clear u ∉ s.st.lineB.broadcasts) →
       replies { s.st with lineB := { s.st.lineB with broadcasts := s.st.lineB.broadcasts ++ [.clear false] } })) ∧
  (∀ (t : Station) (v : Nat) (r : Stroke), t.stroke? v = some r →
     (r.pendingEnd = none → t.clearStroke v = Station.endStroke false t r (.halted .clear)) ∧
     (∀ h, r.pendingEnd = some (.halted h) →
       t.clearStroke v =
         Station.endStroke false t { r with joined := { r.joined with clear := true } } (.halted h)) ∧
     (∀ e, r.pendingEnd = some e → (∀ h, e ≠ .halted h) → t.clearStroke v = Station.endStroke false t r e) ∧
     (∀ e, r.supplyWait = 1 → r.pendingEnd = some e → t.broadcastStroke v = Station.endStroke false t r e) ∧
     (r.supplyWait ≠ 1 →
       t.broadcastStroke v = t.modStroke v fun z => { z with supplyWait := z.supplyWait - 1 })) ∧
  (∀ (s : State) (l : Line), s.up → s.st.canonical = true →
     let onLine (v : Nat) : Prop := (s.st.nodeOf? v).map (·.line) = some l
     let moving := (s.st.md.strokes.map (·.valve)).filter fun v => decide (onLine v)
     let idle := s.st.modLine l fun z => { z with onLine := none }
     let gone (x : Station) (v : Nat) : Prop := x.stroke? v = none ∧ (x.vsOf v).owner = none
     let ends (c : Instr) (x : Station) : Prop := exec c s = .next (takePostings { s with st := x.decideAll })
     let freed (x : Station) : Prop :=
       (x.line l).calls = ((s.st.line l).rollPointer, none, (s.st.line l).broadcasts, (s.st.line l).started) ∧
       (∀ k, k ≠ l → (x.line k).calls = (s.st.line k).calls) ∧ (∀ n, (x.node n).seen = (s.st.node n).seen) ∧
       s.st.Keeps x ∧ x.im.owner = s.st.im.owner
     (∀ startUp, (s.st.line l).onLine = some (.broadcast (.clear startUp)) →
       ∃ x : Station, ends (.clearSent l) x ∧ freed x ∧ (∀ v ∈ moving, gone x v) ∧
         (let y := moving.foldl Station.clearStroke idle
          x.md = y.md ∧ x.vs = y.vs ∧ x.xu = y.xu ∧
          ∀ k ro v e, k < 4 → y.entryIn k ro v = some e →
            (e.state = .halted → onLine v →
              x.entryIn k ro v = some { e with halts := { e.halts with clear := true } }) ∧
            (e.state ≠ .halted ∨ ¬ onLine v → x.entryIn k ro v = some e)) ∧
         (∀ m, (s.st.node ⟨l, m⟩).kind ≠ .none → (x.node ⟨l, m⟩).mark = (true, .needDetail) ∧
           (startUp = true → (x.node ⟨l, m⟩).rollDue = some s.st.clock)) ∧
         (∀ n : Node, n.line ≠ l → (x.node n).mark = (s.st.node n).mark) ∧
         (startUp = false → ∃ before,
           x.outbox = before ++ [{ kind := .lineCleared, clock := s.st.clock / 10, node := some ⟨l, 0⟩ }])) ∧
     ((s.st.line l).onLine = some (.broadcast .halt) →
       let x := moving.foldl Station.broadcastStroke idle
       ends (.broadcastHaltSent l) x ∧ freed x ∧ (∀ n, (x.node n).mark = (s.st.node n).mark) ∧
       ∀ v ∈ moving, ∀ r e, s.st.stroke? v = some r → r.supplyWait = 1 → r.pendingEnd = some e → gone x v) ∧
     ((∀ u, (s.st.line l).onLine ≠ some (.broadcast (.clear u))) → ends (.clearSent l) s.st) ∧
     ((s.st.line l).onLine ≠ some (.broadcast .halt) → ends (.broadcastHaltSent l) s.st))

/-! Strokes: the grant, the answers, the end and its outcome; what samples and details do. -/

/-- The arbiter's rule and the grant. The candidates of a zone are the waiting exercise returns in the order in which
they began to wait, the PENDING close entries of slots in CLOSING, the PENDING reopen entries of slots in REOPENING,
oldest authorization or release first, then the lower slot number, then list order, the waiting MOVE_VALVE requests
and the queued exercises in order of arrival. A candidate is eligible exactly when its zone has a stroke slot free, is
not in HOLD and no supply warning stands, its node is PRESENT without the attend mark, its valve has no stroke in
motion, a close entry's slot has no replan pending, and no close entry waits before an exercise; the first eligible
one is selected, again and again until none is left. The arbiters decide so for zone 0 to zone 15 in turn (log entry
12). A grant raises the zone's motion count and a QUIET zone to WATCH, makes the stroke
record in SENDING, sets the motion owner, queues the STROKE call on the valve's line and, for a close entry, joins the
closed-by list; its time is the profile as its inputs stand, or the share of the travel that is left where a residual
is held. A valve within tolerance already completes without a stroke, and an exercise whose valve is no longer OPEN
ends. (Each decision of a zone is made with the factor returned to 1 where the zone is QUIET with nothing waiting, log
entry 25 and section 7.8. A notice at each grant of a MOVE_VALVE or exercise whose computation sets the mark is log
entry 38.) -/
def Obligations.AGrantStartsAStroke : Prop :=
  (∀ (s : Station) (z : Nat) (c : Candidate),
    let zoneOf (v : Nat) : Option Nat := (s.valve? v).map (·.zone)
    let fit := s.count z < (s.zoneRec z).slots ∧ (s.zoneWatch z).state ≠ .hold ∧ s.supplyWarning = false ∧
      (∃ r n, s.valve? c.valve = some r ∧ r.node = some n ∧ (s.node n).presence = .present ∧
        (s.node n).attend = false) ∧
      (s.vsOf c.valve).owner = none ∧ (∀ k v, c = .closeEntry k v → (s.slot k).replanPending = false) ∧
      (∀ v, c = .exercise v → ∀ k e, k < 4 → (s.slot k).state = .closing → e ∈ (s.slot k).work →
        e.state = .pending ∨ e.state = .halted → zoneOf e.valve ≠ some z)
    (s.eligible z c = true ↔ fit) ∧
    let age (time : Slot → Option Nat) (k : Nat) : Nat :=
      ((time (s.slot k)).map fun t => (s.clock + 42949672960 - t) % 42949672960).getD 0
    let oldest (st : SlotState) (time : Slot → Option Nat) (ks : List Nat) : Prop :=
      (∀ k, k ∈ ks ↔ k < 4 ∧ (s.slot k).state = st) ∧
      ks.Pairwise fun i j => age time j < age time i ∨ age time i = age time j ∧ i < j
    let pending (es : List Entry) : List Nat :=
      (es.filter fun e => decide (e.state = .pending ∧ zoneOf e.valve = some z)).map (·.valve)
    (∃ closing reopening : List Nat, oldest .closing (·.authorized) closing ∧
      oldest .reopening (·.released) reopening ∧
      s.candidates z =
        (s.md.returns.filter fun v => decide (zoneOf v = some z)).map .exerciseReturn ++
        (closing.flatMap fun k => (pending (s.slot k).work).map (.closeEntry k)) ++
        (reopening.flatMap fun k => (pending (s.slot k).reopen).map (.reopenEntry k)) ++
        (s.md.moves.filter fun m => decide (m.waiting = true ∧ zoneOf m.valve = some z)).map (fun m => .move m.valve) ++
        (s.xu.filter fun x => decide (x.phase = .queued ∧ x.zone = z)).map fun x => .exercise x.valve) ∧
    (s.firstEligible z = some c → fit ∧
      (∃ before after, s.candidates z = before ++ c :: after ∧ ∀ d ∈ before, s.eligible z d = false) ∧
      ∀ d ∈ s.candidates z, s.eligible z d = true → c.cls ≤ d.cls) ∧
    (s.firstEligible z = none → ∀ d ∈ s.candidates z, s.eligible z d = false) ∧
    (∀ n, (s.factorReturn z).firstEligible z = some c →
      Station.decideZone (n + 1) s z = Station.decideZone n ((s.factorReturn z).select c) z) ∧
    (∀ n, (s.factorReturn z).firstEligible z = none → Station.decideZone (n + 1) s z = s.factorReturn z) ∧
    (s.canonical = true → (Station.decideZone (s.candidates z).length s z).firstEligible z = none) ∧
    s.decideAll = ((List.range 16).foldl (fun x y => Station.decideZone (x.candidates y).length x y) s).returnFactors) ∧
  (∀ (s : Station) (v : Nat) (r : Valve) (n : Node), s.canonical = true → s.valve? v = some r → r.node = some n →
    let d := s.vsOf v
    let z := r.zone
    let p := profile r.length r.waveSpeed (s.effectiveVelocity v) (s.zoneRec z).hmax r.tmin r.tmax (s.zoneWatch z).factor
    let share (closes : Bool) (t q : Nat) : Nat := max ((t * (if closes then q else 100 - q) + 99) / 100) r.tmin
    let residual (closes : Bool) (t : Nat) (held : Option Nat) : Option Nat :=
      if held.isSome then d.percent.map (share closes t) else none
    let limited (slot : Option Nat) (x : Station) : Prop := ∃ rest, x.outbox = s.outbox ++
      { kind := .surgeLimited, clock := s.clock / 10, slot, valve := some v, zone := some z, value := some p.treq } :: rest
    let granted (o : Owner) (target time : Nat) (x : Station) : Prop :=
      x.md.strokes = s.md.strokes ++ [{ valve := v, zone := z, owner := o, target, time, phase := .sending, sendings := 1
                                        before := (d.position, d.percent) }] ∧
      x.count z = s.count z + 1 ∧ (∀ w, w ≠ z → x.count w = s.count w) ∧
      (x.zoneWatch z).state = (if (s.zoneWatch z).state = .quiet then .watch else (s.zoneWatch z).state) ∧
      (∀ w, w ≠ z → x.zoneWatch w = s.zoneWatch w) ∧ (x.vsOf v).owner = some o ∧
      (∀ w, w ≠ v → (x.vsOf w).owner = (s.vsOf w).owner) ∧
      (x.line n.line).strokes = (s.line n.line).strokes ++ [n.address] ∧
      (∀ l, l ≠ n.line → (x.line l).strokes = (s.line l).strokes) ∧ s.Moves x
    (∀ k e, k < 4 → entryOf? (s.slot k).work v = some e →
      (∀ j f, j < 4 → f ∈ (s.slot j).reopen → f.valve = v → f.state ≠ .stroking) →
      let x := s.select (.closeEntry k v)
      let left := residual true p.tcmd e.residual
      (p.limited = true → e.limited = false → limited (some k) x) ∧ v ∈ (x.slot k).closedBy ∧
      (x.vsOf v).holds = d.holds + (if v ∈ (s.slot k).closedBy then 0 else 1) ∧
      ((∀ q, d.percent = some q → 2 < q) → granted (.closeEntry k) 0 (left.getD p.tcmd) x ∧
        entryOf? (x.slot k).work v = some { e with state := .stroking, tcmd := p.tcmd, limited := p.limited
                                                   residual := left }) ∧
      (∀ q, d.percent = some q → q ≤ 2 → x.md.strokes = s.md.strokes ∧ (x.vsOf v).position = .closed ∧
        ∃ f, entryOf? (x.slot k).work v = some f ∧ f.state = .closed ∧ f.residual = none ∧ f.tcmd = p.tcmd)) ∧
    (∀ k e, entryOf? (s.slot k).reopen v = some e →
      let x := s.select (.reopenEntry k v)
      let left := residual false p.tcmd e.residual
      (p.limited = true → e.limited = false → limited (some k) x) ∧
      ((∀ q, d.percent = some q → q < 98) → granted (.reopenEntry k) 100 (left.getD p.tcmd) x ∧
        entryOf? (x.slot k).reopen v = some { e with state := .stroking, tcmd := p.tcmd, limited := p.limited
                                                     residual := left }) ∧
      (∀ q, d.percent = some q → 98 ≤ q → x.md.strokes = s.md.strokes ∧ (x.vsOf v).position = .opened ∧
        ∃ f, entryOf? (x.slot k).reopen v = some f ∧ f.state = .opened ∧ f.residual = none ∧ f.tcmd = p.tcmd)) ∧
    (∀ m, s.move? v = some m →
      let x := s.select (.move v)
      let time := match m.given with
        | some t => max r.tmin (min t r.tmax)
        | none => p.tcmd
      let left := residual m.closes time m.residual
      let there := ∃ q, d.percent = some q ∧ if m.closes then q ≤ 2 else 98 ≤ q
      (m.given = none → p.limited = true → limited none x) ∧
      (¬ there → granted .move (if m.closes then 0 else 100) (left.getD time) x ∧
        x.move? v = some { m with waiting := false, residual := left, limited := m.given.isNone && p.limited }) ∧
      (there → x.md.strokes = s.md.strokes ∧ x.move? v = none ∧
        (x.vsOf v).position = if m.closes then .closed else .opened)) ∧
    (∀ e, s.exercise? v = some e →
      let x := s.select (.exercise v)
      let y := s.select (.exerciseReturn v)
      let isOpen := d.position = .opened ∧ d.stale = false
      (isOpen → granted .exercise e.target (max ((p.tcmd * (100 - e.target) + 99) / 100) r.tmin) x ∧
        x.exercise? v = some { e with phase := .outward } ∧ (p.limited = true → limited none x)) ∧
      (¬ isOpen → x.md.strokes = s.md.strokes ∧ x.exercise? v = none) ∧
      (p.limited = true → limited none y) ∧
      ((∀ q, d.percent = some q → q < 98) →
        granted .exercise 100 ((d.percent.map (share false p.tcmd)).getD p.tcmd) y ∧
        y.exercise? v = some { e with phase := .returning } ∧ v ∉ y.md.returns) ∧
      (∀ q, d.percent = some q → 98 ≤ q → y.md.strokes = s.md.strokes ∧ y.exercise? v = none ∧ v ∉ y.md.returns)))

/-- The answers to a STROKE call and what a DETAIL answer makes of a stroke in MOVING. Accepted, or BUSY after a
sending that drew no answer (the last sending alone counts, log entry 53): MOVING, with the time of acceptance, the
timeout, and CLOSING or OPENING by target and percent, and a DETAIL 0.5 s later. LOCAL, and any refusal of a second
sending: the stroke ends as a failure. ATTEND_PENDING and BUSY of a first sending wait for the handshake or for a
DETAIL. No answer: queued again at the head. A stroke whose end was decided goes to HALTING whatever the answer or its
absence (log entry 32), with no addressed HALT where the supply warning's broadcast ends it (log entry 31 and section
8.7). The answer reaches the stroke after the node is taken as PRESENT, and the arbiters then decide (log entry 12).
In MOVING, by a DETAIL answer: FAULT, LOCAL, ATTEND, READY within tolerance or short of it, and a stall counted over
the window. -/
def Obligations.AnswersMoveAndJudgeAStroke : Prop :=
  (∀ (s : State) (l : Line) (a cls v : Nat) (bytes : List Byte) (ans : Answer) (code : Byte),
    s.up → s.st.canonical = true → (s.st.line l).onLine = some (.addressed a .stroke cls) → cls ≠ 2 →
    s.st.occupant? ⟨l, a⟩ = some (.valve v) → (s.st.node ⟨l, a⟩).kind = .actuator →
    readAnswer? a .stroke .actuator bytes = some ans → ans.payload = [code] →
    ∃ y : Station, s.st.Keeps y ∧ y.md = s.st.md ∧ y.im = s.st.im ∧ y.xu = s.st.xu ∧
      exec (.answerReceived l bytes) s =
        .next (takePostings { s with st := (y.takeStrokeAnswer ⟨l, a⟩ v code.toNat).decideAll })) ∧
  (∀ (s : Station) (v : Nat) (n : Node) (r : Stroke), s.canonical = true → s.stroke? v = some r → r.valve = v →
    s.nodeOf? v = some n → r.phase = .sending →
    let marked : Station := s.modNode n fun e => { e with attend := true, step := .needDetail }
    let halting (e : StrokeEnd) (y x : Station) : Prop :=
      x = if e = .halted .supply ∧ r.supplyWait ≠ 0 then y.modStroke v fun q => { q with phase := .halting }
        else (y.modStroke v fun q => { q with phase := .halting }).modLine n.line
          fun q => { q with halts := q.halts ++ [n.address] }
    (∀ code, code = 0 ∨ (code = 3 ∧ r.missedSending = true) → r.pendingEnd = none →
      let x := s.takeStrokeAnswer n v code
      x.stroke? v = some { r with phase := .moving, accepted := some s.clock, timeout := some ((r.time * 3 + 1) / 2 + 100)
                                  overCount := 0, missedSending := false } ∧
      (x.vsOf v).position = (match (s.vsOf v).percent with
        | some q => if r.target < q then .closing else .opening
        | none => if r.target = 0 then .closing else .opening) ∧
      (x.vsOf v).percent = (s.vsOf v).percent ∧ (x.node n).detailDue = some ((s.clock + 5) % 42949672960) ∧
      (∀ w, w ≠ v → x.vsOf w = s.vsOf w ∧ x.stroke? w = s.stroke? w) ∧ s.Moves x) ∧
    (r.pendingEnd = none →
      s.takeStrokeAnswer n v 2 = Station.endStroke false s r (.failed .localMode) ∧
      (r.sendings = 2 → s.takeStrokeAnswer n v 1 = Station.endStroke false marked r (.failed .nodeFault)) ∧
      (r.sendings = 2 → r.missedSending = false →
        s.takeStrokeAnswer n v 3 = Station.endStroke false s r (.failed .nodeFault)) ∧
      (r.sendings ≠ 2 → s.takeStrokeAnswer n v 1 =
        marked.modStroke v fun q => { q with awaitsHandshake := true, missedSending := false }) ∧
      (r.sendings ≠ 2 → r.missedSending = false → s.takeStrokeAnswer n v 3 =
        (s.modStroke v fun q => { q with awaitsDetail := true, missedSending := false }).modNode n
          fun e => { e with detailDue := some s.clock }) ∧
      s.missStroke n v = (s.modStroke v fun q => { q with missedSending := true }).modLine n.line
        fun q => { q with strokes := n.address :: q.strokes }) ∧
    (∀ e, r.pendingEnd = some e → halting e s (s.takeStrokeAnswer n v 2) ∧ halting e marked (s.takeStrokeAnswer n v 1) ∧
      (r.missedSending = false → halting e s (s.takeStrokeAnswer n v 3)) ∧ halting e s (s.missStroke n v) ∧
      ∃ y : Station, halting e y (s.takeStrokeAnswer n v 0) ∧
        y.stroke? v = some { r with phase := .moving, accepted := some s.clock
                                    timeout := some ((r.time * 3 + 1) / 2 + 100), overCount := 0
                                    missedSending := false })) ∧
  (∀ (s : Station) (v : Nat) (r : Stroke) (x : Valve) (a : Station.DetailAnswer), s.stroke? v = some r →
    s.valve? v = some x →
    let ends (e : StrokeEnd) : Prop := s.judgeStroke v a = Station.endStroke false s r e
    let there := if r.target = 0 then a.percent ≤ 2 else if r.target = 100 then 98 ≤ a.percent
      else r.target ≤ a.percent + 2 ∧ a.percent ≤ r.target + 2
    let usable := a.faults.getLsbD 3 = false ∧ a.percent ≤ 100
    let count := if x.stall ≤ a.torque then min (r.overCount + 1) 16 else 0
    let counted := s.modStroke v fun q => { q with overCount := count }
    (r.phase ≠ .moving → s.judgeStroke v a = s) ∧
    (r.phase = .moving →
      (a.state = .fault → ends (.failed .nodeFault)) ∧
      (a.state ≠ .fault → a.localMark = true → ends (.failed .localMode)) ∧
      (a.state = .attend → a.localMark = false → ends (.halted .clear)) ∧
      (a.state = .ready → a.localMark = false → ¬ usable → ends (.failed .nodeFault)) ∧
      (a.state = .ready → a.localMark = false → usable → there → ends .completed) ∧
      (a.state = .ready → a.localMark = false → usable → ¬ there → ends (.failed .shortStroke)) ∧
      (a.state = .moving → a.localMark = false → count < s.nt.timing.window → s.judgeStroke v a = counted) ∧
      (a.state = .moving → a.localMark = false → s.nt.timing.window ≤ count →
        s.judgeStroke v a = counted.decideHalt v (.failed .stall))))

/-- What every end of a stroke does before its owner is told: the record goes, the zone's motion count falls and a
WATCH zone left with none is QUIET, the motion owner and the valve's queued STROKE and HALT calls go, the position
follows the end (as before a grant that was never accepted, PARTIAL or UNKNOWN after an accepted stroke that did not
complete, by the percent after one that did, untouched when the node is absent), the half-second DETAIL series of an
accepted stroke ends, an end short of completion asks a PRESENT node for its position at once where no DETAIL is due
already, and a hard failure of an entry or a MOVE_VALVE leaves the valve INOPERABLE. (The stale mark after an
unaccepted end, and after an accepted one with no percent received, is log entry 50.) -/
def Obligations.AStrokeEndsByItsRules : Prop :=
  ∀ (s : Station) (r : Stroke) (e : StrokeEnd) (absent : Bool) (old : Valve) (n : Node),
    s.canonical = true → s.valve? r.valve = some old → old.node = some n →
    let v := r.valve
    let x := s.endCore r e absent
    let d := s.vsOf v
    let q := x.vsOf v
    let ended := s.count r.zone ≤ 1 ∧ (s.zoneWatch r.zone).state = .watch
    let line := s.line n.line
    let due := if r.accepted.isSome then none else (s.node n).detailDue
    let hard := ∃ c, e = .failed c ∧ c ∈ ([.stall, .timeout, .shortStroke, .nodeFault] : List Cause)
    x.md.strokes = s.md.strokes.filter (fun y => decide (y.valve ≠ v)) ∧ x.md.moves = s.md.moves ∧
    x.md.returns = s.md.returns ∧ x.xu = s.xu ∧ x.count r.zone = s.count r.zone - 1 ∧
    (∀ z, z ≠ r.zone → x.count z = s.count z ∧ x.zoneWatch z = s.zoneWatch z) ∧
    (ended → (x.zoneWatch r.zone).state = .quiet) ∧ (¬ ended → x.zoneWatch r.zone = s.zoneWatch r.zone) ∧
    q.owner = none ∧ q.holds = d.holds ∧
    (x.line n.line).strokes = line.strokes.filter (fun a => decide (a ≠ n.address)) ∧
    (x.line n.line).halts = line.halts.filter (fun a => decide (a ≠ n.address)) ∧
    (∀ l, l ≠ n.line → (x.line l).strokes = (s.line l).strokes ∧ (x.line l).halts = (s.line l).halts) ∧
    (absent = true → (q.position, q.percent, q.stale) = (d.position, d.percent, d.stale)) ∧
    (absent = false → e = .completed →
      (q.position, q.percent, q.stale) = ((d.percent.map classify).getD d.position, d.percent, d.stale)) ∧
    (absent = false → e ≠ .completed →
      (r.accepted = none → (q.position, q.percent, q.stale) = (r.before.1, r.before.2, d.stale)) ∧
      (r.accepted ≠ none → r.gotPercent = true → (q.position, q.percent, q.stale) = (.partway, d.percent, d.stale)) ∧
      (r.accepted ≠ none → r.gotPercent = false → (q.position, q.percent, q.stale) = (.unknown, none, false)) ∧
      ((s.node n).presence = .present →
        q.request = true ∧ (x.node n).detailDue = some (due.getD s.clock))) ∧
    (absent = true ∨ e = .completed ∨ (s.node n).presence ≠ .present →
      q.request = d.request ∧ (x.node n).detailDue = due) ∧
    (hard → r.owner ≠ .exercise → x.valve? v = some { old with health := .inoperable }) ∧
    (¬ hard ∨ r.owner = .exercise → x.valve? v = some old) ∧ (absent = false → q.kept = usability? x v) ∧
    (∀ w, w ≠ v → x.vsOf w = s.vsOf w ∧ x.valve? w = s.valve? w) ∧ s.Moves x

/-- The outcome of a stroke reaches its owner after the end's own effects. A close entry becomes CLOSED, HALTED with
the causes, or FAILED, and a failure is recorded: VALVE_FAILED, the failed list up to 16 pairs, and a replan until 6
have been made, past which the slot is UNISOLABLE with TOO_MANY_FAILURES; in UNISOLABLE and ABORTED the list alone
grows. A retained stroke, and one whose entry was stopped or removed, change no entry and post VALVE_FAILED for a
failure. A reopen entry becomes OPENED, HALTED or FAILED; a MOVE_VALVE completes, fails, is withdrawn, or waits again
with its residual; an exercise waits for its return, or ends with EXERCISE_DONE and the first cause. (The entry of a
failure past the 16th is FAILED by log entry 24. The residual of a halted MOVE_VALVE takes the factor 1 in a QUIET
zone with nothing waiting, log entry 25 and section 7.8. A valve taken meanwhile is log entry 19, the zone left out of
a retained stroke's or MOVE_VALVE's notice 26, a stopped entry 27, a removed one 29, a HOST halt that joined 30. Two more
outcomes are the model's choice: that the return of an abandoned exercise that SURGE, SUPPLY or CLEAR halts waits again is
log entry 57, a DESIGN CHOICE between R118 and R173, and that an entry goes HALTED with its cause even if that cause ended
while the halt was pending is log entry 42, DEDUCED.) -/
def Obligations.TheOutcomeReachesTheOwner : Prop :=
  let progresses (e : Entry) : Prop := e.state ∈ ([.pending, .stroking, .halted, .crewWait] : List EntryState)
  let put (v : Nat) (st : EntryState) (h : HaltSet) (e : Entry) : Entry :=
    if e.valve = v then { e with state := st, residual := none, halts := h } else e
  let failedNote (s : Station) (k v : Nat) (c : Cause) : Notice :=
    { kind := .valveFailed, clock := s.clock / 10, slot := some k, valve := some v, zone := (s.valve? v).map (·.zone)
      cause := some c }
  (∀ (s : Station) (r : Stroke) (e : StrokeEnd),
    (∀ k, r.owner = .closeEntry k → Station.endStroke false s r e = (s.endCore r e false).handClose k r e) ∧
    ((∀ k, r.owner ≠ .closeEntry k) → Station.endStroke false s r e = (s.endCore r e false).handOther r e)) ∧
  (∀ (s : Station) (r : Stroke) (k : Nat) (old : Entry), s.canonical = true →
    entryOf? (s.slot k).work r.valve = some old →
    let v := r.valve
    let q := s.slot k
    let closed := q.work.map (put v .closed {})
    let isolates := q.state = .closing ∧ q.replanPending = false ∧
      ∀ e ∈ closed, e.state = .closed ∨ e.state = .alreadyClosed
    let serving := q.state = .closing ∨ q.state = .isolated
    let spent := q.state = .unisolable ∨ q.state = .aborted
    let quiet (c : Cause) : Station := { s with outbox := s.outbox ++ [failedNote s k v c] }
    (r.retained = true → ∀ e,
      (∀ c, e = .failed c → s.handClose k r e =
        { s with outbox := s.outbox ++ [{ kind := .valveFailed, clock := s.clock / 10, slot := some k, valve := some v
                                          cause := some c }] }) ∧
      ((∀ c, e ≠ .failed c) → s.handClose k r e = s)) ∧
    (r.retained = false → r.orphan = true → (∀ c, ¬ spent → s.handClose k r (.failed c) = quiet c) ∧
      ∀ e, (∀ c, e ≠ .failed c) → s.handClose k r e = s) ∧
    (r.retained = false → r.orphan = false →
      s.handClose k r .dropped = s ∧ (∀ c, s.handClose k r (.taken c) = s) ∧
      (¬ isolates → (s.handClose k r .completed).slot k = { q with work := closed }) ∧
      (isolates → (s.handClose k r .completed).slot k = { q with work := closed, state := .isolated } ∧
        (s.handClose k r .completed).outbox = s.outbox ++ [{ kind := .isolated, clock := s.clock / 10, slot := some k
                                                             value := some ((q.report.map (·.regionConnections)).getD 0) }]) ∧
      (∀ h, old.state ≠ .stroking → s.handClose k r (.halted h) = s) ∧
      (∀ h, old.state = .stroking → entryOf? ((s.handClose k r (.halted h)).slot k).work v =
        some { old with state := .halted, residual := none, halts := r.joined.join h })) ∧
    (r.retained = false → r.orphan = false ∨ spent → ∀ c,
      let y := s.handClose k r (.failed c)
      let work := q.work.map (put v .failed {})
      let failed := q.failed ++ [(v, c)]
      let capped (list : List (Nat × Cause)) (n : Nat) : Prop :=
        y.slot k = { q with work, failed := list, state := .unisolable, reason := some (.tooManyFailures, n)
                            replanPending := false } ∧ k ∉ y.ip.queue ∧ y.computing k = false
      let triggered := k ∈ y.ip.queue ∨ ∃ f, y.ip.flight = some f ∧ f.slot = k
      failedNote s k v c ∈ y.outbox ∧ (∀ j, j ≠ k → y.slot j = s.slot j) ∧ (∀ w, y.vsOf w = s.vsOf w) ∧
      (serving → 16 ≤ q.failed.length → capped q.failed 17) ∧
      (serving → q.failed.length < 16 → q.replanPending = true → y.slot k = { q with work, failed } ∧ triggered) ∧
      (serving → q.failed.length < 16 → q.replanPending = false → 6 ≤ q.expansions → capped failed 7) ∧
      (serving → q.failed.length < 16 → q.replanPending = false → q.expansions < 6 →
        y.slot k = { q with work, failed, expansions := q.expansions + 1, replanPending := true, state := .closing } ∧
        triggered) ∧
      (spent → y.slot k = { q with work, failed := if q.failed.length < 16 then failed else q.failed }) ∧
      (¬ serving → ¬ spent → y.slot k = { q with work }))) ∧
  (∀ (s : Station) (r : Stroke) (k : Nat) (old : Entry), s.canonical = true → r.owner = .reopenEntry k →
    entryOf? (s.slot k).reopen r.valve = some old →
    let v := r.valve
    let q := s.slot k
    let y (e : StrokeEnd) : Station := s.handOther r e
    let becomes (st : EntryState) (x : Station) : Prop :=
      let reopen := q.reopen.map (put v st {})
      let ends := q.state = .reopening ∧ ∀ e ∈ reopen, ¬ progresses e
      (¬ ends → x.slot k = { q with reopen }) ∧
      (ends → x.slot k = { q with reopen, state := .done } ∧
        { kind := .reopened, clock := s.clock / 10, slot := some k
          value := some (reopen.countP fun e => decide (e.state = .failed)) } ∈ x.outbox)
    (r.orphan = true →
      (∀ c, y (.failed c) = { s with outbox := s.outbox ++ [failedNote s k v c] }) ∧
      ∀ e, (∀ c, e ≠ .failed c) → y e = s) ∧
    (r.orphan = false →
      becomes .opened (y .completed) ∧ (∀ c, becomes .failed (y (.failed c)) ∧ failedNote s k v c ∈ (y (.failed c)).outbox) ∧
      (∀ h, old.state = .stroking →
        (y (.halted h)).slot k = { q with reopen := q.reopen.map (put v .halted (r.joined.join h)) }) ∧
      (∀ h, old.state ≠ .stroking → y (.halted h) = s) ∧ y .dropped = s ∧ ∀ c, y (.taken c) = s)) ∧
  (∀ (s : Station) (r : Stroke) (m : Move) (old : Valve), s.canonical = true → r.owner = .move →
    s.move? r.valve = some m → s.valve? r.valve = some old →
    let v := r.valve
    let d := s.vsOf v
    let y (e : StrokeEnd) : Station := s.handOther r e
    let note (c : Cause) : Notice := { kind := .valveFailed, clock := s.clock / 10, valve := some v, cause := some c }
    let gone : Motion := { s.md with moves := s.md.moves.filter fun x => decide (x.valve ≠ v) }
    let taken := 0 < d.holds ∨ s.owned old.sideA = true ∨ s.owned old.sideB = true ∨ r.claimed = true
    let w := s.zoneWatch old.zone
    let factor := if w.state = .quiet ∧ s.anyWaitingEntry old.zone = false then 1 else w.factor
    let time := match m.given with
      | some t => max old.tmin (min t old.tmax)
      | none => (profile old.length old.waveSpeed (s.effectiveVelocity v) (s.zoneRec old.zone).hmax old.tmin old.tmax
          factor).tcmd
    let there (p : Nat) : Prop := if m.closes then p ≤ 2 else 98 ≤ p
    y .completed = { s with md := gone } ∧ y .dropped = { s with md := gone } ∧
    (∀ c, y (.failed c) = { s with md := gone, outbox := s.outbox ++ [note c] }) ∧
    (∀ c, y (.taken c) = { s with md := gone, outbox := s.outbox ++ [note .withdrawn] }) ∧
    (∀ h, h = .host ∨ r.joined.host = true → y (.halted h) = { s with md := gone }) ∧
    (∀ h, h ≠ .host → r.joined.host = false →
      let x := y (.halted h)
      (taken → x.md = gone ∧ x.outbox = s.outbox ++ [note .withdrawn]) ∧
      (¬ taken → d.percent = none → x.move? v = some { m with waiting := true, residual := none }) ∧
      (∀ p, ¬ taken → d.percent = some p → there p → x.md = gone ∧
        (x.vsOf v).position = if m.closes then .closed else .opened) ∧
      (∀ p, ¬ taken → d.percent = some p → ¬ there p → x.move? v =
        some { m with waiting := true
                      residual := some (max ((time * (if m.closes then p else 100 - p) + 99) / 100) old.tmin) }))) ∧
  (∀ (s : Station) (r : Stroke) (m : Exercise) (old : Valve), s.canonical = true → r.owner = .exercise →
    s.exercise? r.valve = some m → s.valve? r.valve = some old →
    let v := r.valve
    let y (e : StrokeEnd) : Station := s.handOther r e
    let hard (c : Cause) : Prop := c ∈ ([.stall, .timeout, .shortStroke, .nodeFault] : List Cause)
    let offered (c d : Cause) : Prop := (m.result = none → d = c) ∧
      (∀ b, m.result = some b → (hard c → ¬ hard b → d = c) ∧ (¬ hard c ∨ hard b → d = b))
    let shut := 0 < (s.vsOf v).holds ∨ s.owned old.sideA = true ∨ s.owned old.sideB = true
    let free := ¬ shut ∧ r.claimed = false
    let gone (c : Cause) (x : Station) : Prop := x.exercise? v = none ∧ ∃ d value, offered c d ∧
      { kind := .exerciseDone, clock := s.clock / 10, valve := some v, zone := some m.zone, cause := some d, value } ∈ x.outbox
    let returns (t : Exercise) (x : Station) : Prop :=
      x.exercise? v = some { t with phase := .returnWait } ∧ v ∈ x.md.returns
    let interrupted (c : Cause) (x : Station) : Prop := ∃ d, offered c d ∧ returns { m with result := some d } x
    let lowered : Valve := { old with health := if old.health = .sound then .suspect else .inoperable }
    let ended := m.phase ≠ .outward
    (m.phase = .outward →
      (free → returns { m with elapsed := r.accepted.map fun t => (s.clock + 42949672960 - t) % 42949672960 } (y .completed)) ∧
      (shut → gone .withdrawn (y .completed)) ∧ (¬ shut → r.claimed = true → gone .preempted (y .completed)) ∧
      (∀ h, h ≠ .host → r.joined.host = false → free → interrupted .interrupted (y (.halted h))) ∧
      (free → interrupted .abandoned (y (.taken .abandoned))) ∧
      (∀ c, c ≠ .abandoned → gone c (y (.taken c))) ∧
      (∀ c, c ∈ ([.stall, .timeout, .shortStroke] : List Cause) → free → ∃ d, offered c d ∧
        returns { m with result := some d, degraded := true } (y (.failed c))) ∧
      (∀ c, c ∈ ([.nodeFault, .nodeAbsent, .localMode] : List Cause) → gone c (y (.failed c)))) ∧
    (ended →
      (m.result = none →
        let measured := m.elapsed.map fun t => max 10 (min ((t * 100 + (100 - m.target) - 1) / (100 - m.target)) 36000)
        (y .completed).exercise? v = none ∧
        (y .completed).valve? v =
          some { old with measured, exercised := some (s.clock / 10)
                          health := if old.health = .suspect then .sound else old.health } ∧
        (y .completed).outbox = s.outbox ++ [{ kind := .exerciseDone, clock := s.clock / 10, valve := some v
                                               zone := some m.zone, cause := some .done, value := measured }]) ∧
      (∀ c, m.result = some c → c ≠ .done → (y .completed).exercise? v = none ∧ (y .completed).valve? v = some old ∧
        (y .completed).outbox = s.outbox ++ [{ kind := .exerciseDone, clock := s.clock / 10, valve := some v
                                               zone := some m.zone, cause := some c, value := m.elapsed }]) ∧
      (∀ c, gone c (y (.failed c))) ∧ (∀ c, gone c (y (.taken c))) ∧
      (∀ h, h ≠ .host → r.joined.host = false → free → returns m (y (.halted h)))) ∧
    (∀ h, h = .host ∨ r.joined.host = true → gone .host (y (.halted h))) ∧
    (∀ c, hard c → m.result ≠ some .done → m.degraded = false → (y (.failed c)).valve? v = some lowered) ∧
    (∀ c, ¬ hard c ∨ m.degraded = true → m.result ≠ some .done → c ≠ .done → (y (.failed c)).valve? v = some old))

/-- A usable sample, of answer state READY or ATTEND and a head up to 4000, is judged for its zone and then for its
sensor; any other changes nothing. A head above the ceiling puts a zone that is not in HOLD into HOLD: the factor
doubles to at most 8, at 8 the hold is persistent without a settle start, the sensors of a zone that was QUIET are due
at once, and SURGE_HOLD or SURGE_PERSIST is posted. At a doubling the zone's PENDING and HALTED entries take the Tcmd,
mark and, where they hold one, residual of the new factor, a mark gained being reported. Each stroke in motion of the
zone, in the order of the grants (log entry 37), is halted with SURGE: sent a HALT when it moves, ended at once when
its call is not yet on the line, after the answer when it is, SURGE joining a halt already decided and another end
standing (an outward exercise may be abandoned first, for an entry that comes to wait, R118); and every HALTED entry
of the zone gains SURGE. In HOLD a head at the settling level or above restarts the settle time of a hold that is not
persistent. The first sample is the baseline; later ones move it a sixteenth of the way; a sample at or below the low
level starts a low run, which after the detection time becomes a suspicion with BURST_SUSPECTED, and a recovered
sample ends both; over an owned segment the baseline alone follows. The sample reaches the watch after the node is
taken as PRESENT, and the arbiters then decide (log entries 12 and 15). -/
def Obligations.ASampleIsJudged : Prop :=
  (∀ (s : State) (l : Line) (a cls n : Nat) (bytes : List Byte) (ans : Answer) (lo hi : Byte),
    s.up → s.st.canonical = true → (s.st.line l).onLine = some (.addressed a .sample cls) → cls ≠ 2 →
    s.st.occupant? ⟨l, a⟩ = some (.sensor n) → (s.st.node ⟨l, a⟩).kind = .sensor →
    readAnswer? a .sample .sensor bytes = some ans → ans.payload = [lo, hi] →
    ∃ y : Station, s.st.Keeps y ∧ y.nt = s.st.nt ∧ y.pw = s.st.pw ∧ y.md = s.st.md ∧ y.im = s.st.im ∧
      exec (.answerReceived l bytes) s =
        .next (takePostings { s with st := (y.takeSample n ans.state (lo.toNat + 256 * hi.toNat)).decideAll })) ∧
  (∀ (s : Station) (n : Nat) (old : Sensor) (st : AnswerState) (head : Nat), s.canonical = true →
    s.sensor? n = some old →
    let z := s.zoneOfSegment old.segment
    let zr := s.zoneRec z
    let w := s.zoneWatch z
    let d : SensorWatch := { s.sensorWatch n with last := some (head, s.clock) }
    let x := s.takeSample n st head
    let note (kind : NoticeKind) : Notice :=
      { kind, clock := s.clock / 10, zone := some z, segment := some old.segment, node := some old.node, value := some head }
    let usable := (st = .ready ∨ st = .attend) ∧ head ≤ 4000
    (¬ usable → x = s) ∧
    (usable →
      (w.state ≠ .hold → head ≤ zr.ceiling → x.pw.zones = s.pw.zones) ∧
      (w.state ≠ .hold → zr.ceiling < head →
        let last := decide (8 ≤ w.factor)
        let held : ZoneWatch :=
          { state := .hold, factor := if last then w.factor else w.factor * 2, heldAt := some s.clock
            settleAt := if last then none else some s.clock, persist := last }
        let a := (if w.state = .quiet then s.setSampleDue z (some s.clock) else s).modZoneWatch z fun _ => held
        let b := if last then a else a.retimeZone true z
        let vs := (b.md.strokes.filter fun r => decide (r.zone = z)).map (·.valve)
        let u := vs.foldl (fun t v => t.decideHalt v (.halted .surge)) b
        let joined (e : Entry) : Entry := if e.state = .halted then { e with halts := { e.halts with surge := true } } else e
        let closing (v : Nat) (p : Entry → Prop) : Prop := ∃ k e, k < 4 ∧ e ∈ (s.slot k).work ∧ e.valve = v ∧ p e
        let alone (v : Nat) : Prop := closing v (fun e => e.state = .pending) →
          ∀ k e, k < 4 → e ∈ (s.slot k).reopen → e.valve = v → e.state ≠ .stroking
        x.zoneWatch z = held ∧ note (if last then .surgePersist else .surgeHold) ∈ x.outbox ∧
        (w.state = .quiet → s.MapAgrees → ∀ p ∈ s.nt.sensors, s.zoneOfSegment p.2.segment = z →
          (x.node p.2.node).sampleDue = some s.clock) ∧
        x.md = u.md ∧ x.vs = u.vs ∧ x.xu = u.xu ∧ (∀ l, x.line l = u.line l) ∧ x.nt = u.nt ∧ x.ip = u.ip ∧
        (∀ k ro v e, k < 4 → u.entryIn k ro v = some e →
          x.entryIn k ro v = some (if s.zoneOfValve? v = some z then joined e else e)) ∧
        (∀ v r m, s.stroke? v = some r → s.nodeOf? v = some m → r.zone = z → alone v →
          let gone := x.stroke? v = none ∧ (x.vsOf v).owner = none
          let becomes (t : Stroke) : Prop :=
            ∃ y, x.stroke? v = some y ∧ ({ y with joined := {} } : Stroke) = { t with joined := {} }
          let outward := ∃ y, s.exercise? v = some y ∧ y.phase = .outward
          (r.pendingEnd = none → r.phase = .moving → ¬ outward →
            becomes { r with phase := .halting, pendingEnd := some (.halted .surge) } ∧
            (s.MapAgrees → m.address ∈ (x.line m.line).halts)) ∧
          (r.pendingEnd = none → r.phase = .moving →
            ∃ y, x.stroke? v = some y ∧ y.phase = .halting ∧
              (y.pendingEnd = some (.halted .surge) ∨ y.pendingEnd = some (.taken .abandoned))) ∧
          (r.pendingEnd = none → r.phase = .sending → s.strokeOnLine v = true → ¬ outward →
            becomes { r with pendingEnd := some (.halted .surge) }) ∧
          (r.pendingEnd = none → r.phase = .sending → s.strokeOnLine v = false → gone) ∧
          (∀ h, r.pendingEnd = some (.halted h) →
            x.stroke? v = some { r with joined := { r.joined with surge := true } }) ∧
          (∀ e, r.pendingEnd = some e → (∀ h, e ≠ .halted h) → x.stroke? v = some r)) ∧
        (∀ v c k ro e, s.valve? v = some c → c.zone = z → alone v → k < 4 → s.entryIn k ro v = some e →
          e.state = .pending ∨ e.state = .halted →
          (ro = true → ¬ closing v fun f => f.state = .pending ∨ f.state = .halted ∨ f.state = .stroking) →
          let p := profileOf a v c
          (last = true → x.entryIn k ro v = some (joined e)) ∧
          (last = false →
            (∃ t, x.entryIn k ro v = some t ∧ Entry.Rescales (!ro) (s.vsOf v).percent c.tmin p (joined e) t) ∧
            (p.limited = true → e.limited = false →
              { kind := .surgeLimited, clock := s.clock / 10, slot := some k, valve := some v, zone := some z
                value := some p.treq } ∈ x.outbox)))) ∧
      (w.state = .hold → w.persist = false → zr.ceiling - zr.hysteresis ≤ head →
        x.zoneWatch z = { w with settleAt := some s.clock }) ∧
      (w.state = .hold → w.persist = true ∨ head < zr.ceiling - zr.hysteresis → x.pw.zones = s.pw.zones) ∧
      (∀ u, u ≠ z → (x.zoneWatch u).hold = (s.zoneWatch u).hold) ∧ (∀ m, m ≠ n → x.sensorWatch m = s.sensorWatch m) ∧
      (d.baseline = none → x.sensorWatch n = { d with baseline := some head }) ∧
      (∀ b, d.baseline = some b →
        let tracked : Option Nat := some (if b ≤ head then b + (head - b) / 16 else b - (b - head) / 16)
        let low := head + zr.drop ≤ b
        let owned := s.owned old.segment
        let run (t : Nat) : Nat := (s.clock + 42949672960 - t) % 42949672960
        (d.suspicion = true → b ≤ head + zr.drop / 2 →
          x.sensorWatch n = { d with suspicion := false, baseline := tracked }) ∧
        (d.suspicion = true → head + zr.drop / 2 < b → x.sensorWatch n = d) ∧
        (d.suspicion = false → owned = true → x.sensorWatch n = { d with baseline := tracked }) ∧
        (d.suspicion = false → owned = false → ¬ low →
          x.sensorWatch n = { d with lowRun := none, baseline := tracked }) ∧
        (d.suspicion = false → owned = false → low → d.lowRun = none →
          x.sensorWatch n = { d with lowRun := some s.clock, baseline := tracked }) ∧
        (∀ t, d.suspicion = false → owned = false → low → d.lowRun = some t → run t < 10 * zr.detect →
          x.sensorWatch n = { d with baseline := tracked }) ∧
        (∀ t, d.suspicion = false → owned = false → low → d.lowRun = some t → 10 * zr.detect ≤ run t →
          x.sensorWatch n = { d with suspicion := true, lowRun := none } ∧ note .burstSuspected ∈ x.outbox))))

/-- The handshake. In class 2 a marked node's DETAIL, drawn or not, is followed by the ACKNOWLEDGE, which clears the
mark unless it draws ATTEND again; a missed ACKNOWLEDGE goes back to the DETAIL, as does a node declared ABSENT. In
any other class an ATTEND answer sets the mark with step NEED_DETAIL, as does ATTEND_PENDING to a STROKE; no other
answer changes mark or step, and no answer those of another node. When an ACKNOWLEDGE clears the mark, the STROKE that
was held for the handshake is queued again with its sendings at 2 (R120), and CLEAR leaves the HALTED entries of the
node's valve: one left with no cause waits again with its residual or is complete (R127). The arbiters then decide (log
entry 12). -/
def Obligations.TheHandshakeFollowsTheMark : Prop :=
  ∀ (s : State) (l : Line) (a : Nat) (call : CallKind) (cls : Nat), s.up → s.st.canonical = true →
    (s.st.line l).onLine = some (.addressed a call cls) →
    let n : Node := ⟨l, a⟩
    let e := s.st.node n
    e.kind ≠ .none →
    let unmoved (x : Station) : Prop := ∀ m, m ≠ n → (x.node m).mark = (s.st.node m).mark
    (∀ bytes ans, readAnswer? a call e.kind bytes = some ans →
      ∃ x : Station, exec (.answerReceived l bytes) s = .next (takePostings { s with st := x.decideAll }) ∧ unmoved x ∧
        let attends := ans.state = .attend
        let marked := e.attend = true ∨ attends
        let pending := call = .stroke ∧ ans.payload = [1#8] ∧
          ∃ v r, s.st.occupant? n = some (.valve v) ∧ s.st.stroke? v = some r ∧ r.phase = .sending
        (cls = 2 → call = .detail → marked → (x.node n).mark = (true, .needAcknowledge)) ∧
        (cls = 2 → call = .acknowledge → attends → (x.node n).mark = (true, .needDetail)) ∧
        (cls = 2 → call = .acknowledge → e.attend = true → ¬ attends → (x.node n).mark = (false, .needDetail)) ∧
        (cls ≠ 2 → attends ∨ pending → (x.node n).mark = (true, .needDetail)) ∧
        (cls ≠ 2 → ¬ attends → ¬ pending → (x.node n).mark = e.mark) ∧
        (∀ v r, cls = 2 → call = .acknowledge → e.attend = true → ¬ attends → s.st.occupant? n = some (.valve v) →
          s.st.valve? v = some r → r.node = some n →
          let cleared (t : Entry) : Prop := t.state = .halted ∧ t.halts.clear = true
          let resumes (closes : Bool) (t : Entry) : Entry → Prop :=
            Entry.Resumes closes (s.st.vsOf v).percent r.tmin { t.halts with clear := false } t
          (∀ q, s.st.stroke? v = some q → q.awaitsHandshake = true →
            (∀ k ro t, k < 4 → s.st.entryIn k ro v = some t → ¬ cleared t) →
            x.stroke? v = some { q with sendings := 2, awaitsHandshake := false, awaitsDetail := false } ∧
            (x.line l).strokes = (s.st.line l).strokes ++ [a]) ∧
          (s.st.stroke? v = none → ∀ k t, k < 4 → cleared t →
            (s.st.entryIn k false v = some t → ∃ u, x.entryIn k false v = some u ∧ resumes true t u) ∧
            (s.st.entryIn k true v = some t →
              (∀ j f, j < 4 → f ∈ (s.st.slot j).work → f.valve = v → f.state ≠ .pending ∧ f.state ≠ .halted) →
              ∃ u, x.entryIn k true v = some u ∧ resumes false t u)))) ∧
    ∃ x : Station, exec (.answerTimeout l) s = .next (takePostings { s with st := x.decideAll }) ∧ unmoved x ∧
      (let lost := 2 ≤ e.misses ∧ e.presence ≠ .absent
       (call = .acknowledge ∨ lost → (x.node n).mark = (e.attend, .needDetail)) ∧
       (call ≠ .acknowledge → ¬ lost → (x.node n).mark = e.mark))

/-- What a DETAIL answer, the loss of a node and a fallen hold make of a Valve State record. At rest a usable answer
sets percent, position and stale mark, and a held valve found to have left CLOSED has drifted: SOUND becomes SUSPECT
and each slot that holds it posts VALVE_FAILED with DRIFT; an unusable answer makes a held valve stale and any other
UNKNOWN. In motion the percent alone follows, the stale mark clears (log entries 21 and 50) and the stroke notes the
percent. A lost node, and a hold that falls to 0 over a stale position, drop the position or, while the valve is held,
make it stale. Local mark and fault set follow every answer, the request mark clears, and the class is derived again.
The arbiters then decide (log entry 12 and section 6.4). The DETAIL due time: a DETAIL answered or missed, short of the
loss of the node, makes the next of an accepted stroke due 0.5 s after the due time it had, brought forward to the clock
where that lies 0.5 s behind it (R158; that this is done as the call completes is the model's choice, log entry 40); of no
such stroke an answered one leaves none due but what the end of a stroke asks for, and a missed one is due again at once
where the request mark stands or a BUSY refusal asked for it. The answer to a DETAIL asked after BUSY queues the STROKE
again with its sendings at 2 (R120). A FAULT answer to a POLL makes a DETAIL due at once where none is (R160). -/
def Obligations.PositionsFollowTheDetails : Prop :=
  let nextDue (now : Nat) (due : Option Nat) : Nat :=
    let next := (due.getD now + 5) % 42949672960
    if clockReached now next = true ∧ 5 ≤ (now + 42949672960 - next) % 42949672960 then now else next
  (∀ (s : State) (l : Line) (a cls v : Nat) (bytes : List Byte) (ans : Answer) (p t f m : Byte),
    s.up → s.st.canonical = true → (s.st.line l).onLine = some (.addressed a .detail cls) →
    s.st.occupant? ⟨l, a⟩ = some (.valve v) → (s.st.node ⟨l, a⟩).kind = .actuator →
    readAnswer? a .detail .actuator bytes = some ans → ans.payload = [p, t, f, m] →
    let answer : Station.DetailAnswer :=
      { state := ans.state, percent := p.toNat, torque := t.toNat, faults := f.truncate 4, localMark := decide (m ≠ 0) }
    ∃ y x : Station, exec (.answerReceived l bytes) s = .next (takePostings { s with st := x.decideAll }) ∧
      s.st.Keeps y ∧ y.md = s.st.md ∧ y.im = s.st.im ∧ y.nt = s.st.nt ∧
      ({ y.vsOf v with request := false, kept := none } : VsRec) =
        { s.st.vsOf v with request := false, kept := none } ∧
      let z := (y.takeDetailInMotion v answer).judgeStroke v answer
      ((s.st.vsOf v).owner = none →
        { x with lineA := s.st.lineA, lineB := s.st.lineB } =
          { y.takeDetailAtRest v answer with lineA := s.st.lineA, lineB := s.st.lineB }) ∧
      ((s.st.vsOf v).owner ≠ none → (∀ r, z.stroke? v = some r → r.awaitsDetail = false) →
        { x with lineA := s.st.lineA, lineB := s.st.lineB } = { z with lineA := s.st.lineA, lineB := s.st.lineB }) ∧
      (∀ old, s.st.MapAgrees → s.st.valve? v = some old → old.node = some ⟨l, a⟩ →
        (s.st.node ⟨l, a⟩).presence = .present →
        let due := (x.node ⟨l, a⟩).detailDue
        (y.node ⟨l, a⟩).detailDue = none ∧
        ((s.st.vsOf v).owner = none → s.st.stroke? v = none → due = none) ∧
        ((s.st.vsOf v).owner ≠ none → z.stroke? v = none → due = (z.node ⟨l, a⟩).detailDue) ∧
        (∀ r, (s.st.vsOf v).owner ≠ none → z.stroke? v = some r →
          (r.accepted ≠ none → due = some (nextDue s.st.clock (s.st.node ⟨l, a⟩).detailDue)) ∧
          (r.accepted = none → due = none) ∧
          (r.awaitsDetail = true →
            x.stroke? v = some { r with sendings := 2, awaitsHandshake := false, awaitsDetail := false } ∧
            (x.line l).strokes = (s.st.line l).strokes ++ [a])))) ∧
  (∀ (s : State) (l : Line) (a cls v : Nat), s.up → s.st.canonical = true →
    (s.st.line l).onLine = some (.addressed a .detail cls) → s.st.occupant? ⟨l, a⟩ = some (.valve v) →
    (s.st.node ⟨l, a⟩).kind = .actuator → (s.st.node ⟨l, a⟩).misses < 2 ∨ (s.st.node ⟨l, a⟩).presence = .absent →
    ∃ x : Station, exec (.answerTimeout l) s = .next (takePostings { s with st := x.decideAll }) ∧
      let due := (x.node ⟨l, a⟩).detailDue
      let moves := ∃ r, s.st.stroke? v = some r ∧ r.accepted ≠ none
      let asked := (s.st.vsOf v).request = true ∨ ∃ r, s.st.stroke? v = some r ∧ r.awaitsDetail = true
      (moves → due = some (nextDue s.st.clock (s.st.node ⟨l, a⟩).detailDue)) ∧
      (¬ moves → asked → due = some s.st.clock) ∧ (¬ moves → ¬ asked → due = none)) ∧
  (∀ (s : State) (l : Line) (a cls : Nat) (bytes : List Byte) (ans : Answer), s.up → s.st.canonical = true →
    (s.st.line l).onLine = some (.addressed a .poll cls) → (s.st.node ⟨l, a⟩).kind = .actuator →
    readAnswer? a .poll .actuator bytes = some ans →
    ∃ x : Station, exec (.answerReceived l bytes) s = .next (takePostings { s with st := x.decideAll }) ∧
      let due := (s.st.node ⟨l, a⟩).detailDue
      (ans.state = .fault → (x.node ⟨l, a⟩).detailDue = some (due.getD s.st.clock)) ∧
      (ans.state ≠ .fault → (s.st.node ⟨l, a⟩).presence = .present → (x.node ⟨l, a⟩).detailDue = due)) ∧
  (∀ (s : Station) (v : Nat) (old : Valve), s.canonical = true → s.valve? v = some old →
    let d := s.vsOf v
    let others (x : Station) : Prop := ∀ w, w ≠ v → x.vsOf w = s.vsOf w ∧ x.valve? w = s.valve? w
    let lost (d : VsRec) : VsRec := { d with position := .unknown, percent := none, stale := false }
    (∀ a : Station.DetailAnswer,
      let usable := a.faults.getLsbD 3 = false ∧ a.percent ≤ 100
      let told : VsRec :=
        { d with localMark := a.localMark, request := false
                 faults := some (if 100 < a.percent then a.faults ||| 8#4 else a.faults) }
      let found : Position := if a.percent ≤ 2 then .closed else if a.percent < 98 then .partway else .opened
      let rest := s.takeDetailAtRest v a
      let motion := s.takeDetailInMotion v a
      let drift := usable ∧ 0 < d.holds ∧ d.position = .closed ∧ 2 < a.percent
      others rest ∧ others motion ∧ motion.valve? v = some old ∧
      (usable → rest.vsOf v =
        { told with position := found, percent := some a.percent, stale := false, kept := usability? rest v }) ∧
      (¬ usable → 0 < d.holds → rest.vsOf v = { told with stale := true, kept := usability? rest v }) ∧
      (¬ usable → d.holds = 0 → rest.vsOf v = { lost told with kept := usability? rest v }) ∧
      (drift → rest.valve? v = some { old with health := if old.health = .sound then .suspect else old.health } ∧
        ∀ k, k < 4 → v ∈ (s.slot k).closedBy →
          { kind := .valveFailed, clock := s.clock / 10, slot := some k, valve := some v, zone := some old.zone
            cause := some .drift } ∈ rest.outbox) ∧
      (¬ drift → rest.valve? v = some old) ∧
      (usable → motion.vsOf v =
          { told with percent := some a.percent, stale := false, kept := usability? motion v } ∧
        motion.stroke? v = (s.stroke? v).map fun r => { r with gotPercent := true }) ∧
      (¬ usable → motion.vsOf v = { told with kept := usability? motion v } ∧ motion.stroke? v = s.stroke? v)) ∧
    (let x := s.nodeLost v
     others x ∧ x.valve? v = some old ∧
     (d.holds = 0 → x.vsOf v = { lost d with request := false, kept := usability? x v }) ∧
     (0 < d.holds → d.percent = none →
       x.vsOf v = { d with position := .unknown, stale := false, request := false, kept := usability? x v }) ∧
     (∀ p, 0 < d.holds → d.percent = some p → x.vsOf v =
       { d with stale := true, request := false, kept := usability? x v
                position := if d.position = .closing ∨ d.position = .opening then classify p else d.position })) ∧
    (let x := s.lowerHold v
     let left : VsRec := { d with holds := d.holds - 1 }
     others x ∧ x.valve? v = some old ∧
     (d.holds ≤ 1 → d.stale = true → x.vsOf v = { lost left with kept := usability? x v }) ∧
     (1 < d.holds ∨ d.stale = false → x.vsOf v = left)))

/-! Incidents and planning. -/

/-- OPEN_INCIDENT: its checks in order; taken, the head of the free list becomes a slot in PLANNING with the one burst
segment, and the planner takes it at once or queues it (R47, R49); a computation in flight notes the slot as opened
during it (log entry 18). -/
def Obligations.OpenIncidentTakesTheHeadOfTheFreeList : Prop :=
  ∀ (s : State) (tag : Byte) (n : Nat), s.taking → s.st.ss.station = .ready → s.st.canonical = true →
    let i : Instr := .openIncident tag n
    let refused (st : Status) : Prop := exec i s = .next (s.replied tag 0x30 st [] s.st)
    let listed (k : Nat) : Prop :=
      n ∈ (s.st.slot k).burst ∧
        (s.st.slot k).state ∈ ([.planning, .planned, .closing, .isolated, .unisolable, .aborted] : List SlotState)
    (512 ≤ n → refused .outOfRange) ∧ (n < 512 → s.st.segment? n = none → refused .notFound) ∧
    (n < 512 → (s.st.segment? n).isSome →
      (∀ k, s.st.owner? n = some k → exec i s = .next (s.replied tag 0x30 .alreadyIsolated (byte1 k) s.st)) ∧
      (∀ k, s.st.owner? n = none → k < 4 → listed k → (∀ j, j < k → ¬ listed j) →
        exec i s = .next (s.replied tag 0x30 .alreadyIsolated (byte1 k) s.st)) ∧
      (s.st.owner? n = none → (∀ k, k < 4 → ¬ listed k) →
        (s.st.im.freeList = [] → refused .noSlot) ∧
        (∀ k rest, s.st.im.freeList = k :: rest →
          ∃ x : Station, exec i s = .next (s.replied tag 0x30 .accepted (byte1 k) x) ∧
            x.slot k = { state := .planning, burst := [n] } ∧ (∀ j, j ≠ k → x.slot j = s.st.slot j) ∧
            x.im.freeList = rest ∧ x.im.owner = s.st.im.owner ∧
            (s.st.ip.flight = none → s.st.ip.queue = [] →
              x.ip = { queue := [], flight := some { slot := k, seed := [n] } }) ∧
            (∀ f, s.st.ip.flight = some f → f.slot ≠ k → k ∉ s.st.ip.queue →
              x.ip.queue = s.st.ip.queue ++ [k] ∧
              x.ip.flight = some { f with opened := f.opened ++ [k] }) ∧
            { x with im := s.st.im, ip := s.st.ip } = s.st)))

/-- AUTHORIZE: its checks in order; taken, the slot has the authorization time, the override mark and no deadline, and
the other slots keep their settled fields. Its entries go to work: an off-normal barrier is adopted into the closed-by
list, one found no longer CLOSED is FAILED with VALVE_FAILED and its cause (for CLOSING and OPENING log entry 49), a
crew entry is in CREW_WAIT with CREW_REQUEST and its closed-by place, an actuated entry is PENDING. With no entry
failed the slot is CLOSING, or ISOLATED when every entry is ALREADY_CLOSED, which posts ISOLATED with the region's
connections. The arbiters then decide (log entry 12 and section 6.4). -/
def Obligations.AuthorizeSetsThePlanToWork : Prop :=
  (∀ (s : State) (tag : Byte) (k o : Nat), s.taking → s.st.ss.station = .ready → s.st.canonical = true →
      let refused (st : Status) : Prop := exec (.authorize tag k o) s = .next (s.replied tag 0x31 st [] s.st)
      let q := s.st.slot k
      ((4 ≤ k ∨ 1 < o) → refused .outOfRange) ∧
      (k < 4 → o ≤ 1 → q.state ≠ .planned → refused .wrongState) ∧
      (k < 4 → o = 0 → q.state = .planned → q.overrideRequired = true → refused .overrideRequired) ∧
      (k < 4 → o ≤ 1 → q.state = .planned → (q.overrideRequired = true → o = 1) →
        ∃ x : Station, exec (.authorize tag k o) s = .next (takePostings (s.replied tag 0x31 .ok [] x.decideAll)) ∧
          x.Moves x.decideAll ∧
          (x.slot k).settled = ({ q with authorized := some s.st.clock, overrideMark := decide (o = 1)
                                         deadline := none } : Slot).settled ∧
          (∀ j, j ≠ k → (x.slot j).settled = (s.st.slot j).settled) ∧
          x.clock = s.st.clock ∧ x.ss = s.st.ss ∧ x.nt.fixed = s.st.nt.fixed ∧ x.im.freeList = s.st.im.freeList ∧
          x.im.owner = s.st.im.owner ∧ x.pw.sensors = s.st.pw.sensors ∧
          (∀ l, (x.line l).calls = (s.st.line l).calls) ∧ (∀ v, (x.vsOf v).flow = (s.st.vsOf v).flow) ∧
          (q.Agrees →
            (∀ e ∈ q.work, ∀ r, s.st.valve? e.valve = some r →
              let v := e.valve
              let d := s.st.vsOf v
              let now := entryOf? (x.slot k).work v
              let joined := v ∈ (x.slot k).closedBy ∧ (x.vsOf v).holds = d.holds + 1
              let note (kind : NoticeKind) (c : Cause) (value : Option Nat) : Notice :=
                { kind, clock := s.st.clock / 10, slot := some k, valve := some v, zone := some r.zone, cause := some c
                  value }
              let absent := ∃ n, r.node = some n ∧ (s.st.node n).presence = .absent
              let fails (c : Cause) : Prop :=
                now = some { e with state := .failed, residual := none, halts := {} } ∧ note .valveFailed c none ∈ x.outbox
              (e.state = .alreadyClosed → d.position = .closed → s.st.stroke? v = none →
                now = some e ∧ (e.offNormal = true → joined)) ∧
              (e.state = .alreadyClosed → d.position ≠ .closed → d.position ≠ .unknown → fails .drift) ∧
              (e.state = .alreadyClosed → d.position = .unknown → absent → fails .nodeAbsent) ∧
              (e.state = .alreadyClosed → d.position = .unknown → ¬ absent → fails .nodeFault) ∧
              (e.state = .proposed → e.kind = .crew → joined ∧
                ∃ f, (f = (s.st.zoneWatch r.zone).factor ∨ f = 1) ∧
                  let p := profile r.length r.waveSpeed (s.st.effectiveVelocity v) (s.st.zoneRec r.zone).hmax r.tmin
                    r.tmax f
                  now = some { e with state := .crewWait, tcmd := p.tcmd, limited := p.limited } ∧
                  note .crewRequest .close (some p.tcmd) ∈ x.outbox) ∧
              (e.state = .proposed → e.kind = .actuated → now = some { e with state := .pending })) ∧
            (q.replanPending = false →
              (∀ e ∈ q.work, (e.state = .proposed ∧ e.kind ≠ .alreadyClosed) ∨ (e.state = .alreadyClosed ∧
                (s.st.vsOf e.valve).position = .closed ∧ s.st.stroke? e.valve = none)) →
              ((∀ e ∈ q.work, e.state = .alreadyClosed) → (x.slot k).state = .isolated) ∧
              ((∃ e ∈ q.work, e.state = .proposed) → (x.slot k).state = .closing))))) ∧
  (∀ (s : State) (tag : Byte) (k : Nat), s.taking → s.st.ss.station = .ready → s.st.canonical = true → k < 4 →
      (s.st.slot k).state = .planned → (s.st.slot k).overrideRequired = false →
      (s.st.slot k).replanPending = false →
      (∀ e ∈ (s.st.slot k).work, e.state = .alreadyClosed ∧ e.offNormal = false ∧
        (s.st.vsOf e.valve).position = .closed) →
      s.st.FactorsReturned →
      ∃ x : Station, exec (.authorize tag k 0) s = .next (takePostings (s.replied tag 0x31 .ok [] x.decideAll)) ∧
        x.slot k = { s.st.slot k with authorized := some s.st.clock, overrideMark := false, deadline := none
                                      state := .isolated } ∧
        (∀ j, j ≠ k → x.slot j = s.st.slot j) ∧
        x.outbox = [{ kind := .isolated, clock := s.st.clock / 10, slot := some k
                      value := some (((s.st.slot k).report.map (·.regionConnections)).getD 0) }] ∧
        { x with im := s.st.im, pw := s.st.pw, outbox := [] } = s.st ∧ x.pw.sensors = s.st.pw.sensors ∧
        ∀ z, z < 16 → x.zoneWatch z = s.st.zoneWatch z)

/-- ABORT: from PLANNING or PLANNED the slot is FREE at the tail of the free list and owns nothing; from CLOSING or
UNISOLABLE it is ABORTED, its work in progress STOPPED with CREW_CANCEL to the crews that waited, and it keeps its
ownership, its closed-by list and every hold; from REOPENING its reopen entries in progress are STOPPED and it is DONE
with REOPENED and the number of failed entries; a STOPPED entry keeps no residual time and no halt cause (log entry
55); in FREE, ISOLATED, ABORTED and DONE it is refused. From CLOSING, UNISOLABLE and REOPENING each stroke of the slot,
retained ones included, is halted, its end to change no entry: a HALT is queued where it moves, the end waits for the
answer where its call is on the line, it ends at once where its call is not yet there, and an end decided before stands
(R124, R129). In each case that is taken the arbiters then decide (log entry 12 and section 6.4). -/
def Obligations.AbortStopsAnIncident : Prop :=
  ∀ (s : State) (tag : Byte) (k : Nat), s.taking → s.st.ss.station = .ready → s.st.canonical = true →
    let q := s.st.slot k
    let refused (st : Status) : Prop := exec (.abort tag k) s = .next (s.replied tag 0x32 st [] s.st)
    let taken (x : Station) : Prop :=
      exec (.abort tag k) s = .next (takePostings (s.replied tag 0x32 .ok [] x.decideAll))
    let stops (es : List Entry) (x : Station) (after : List Entry) : Prop :=
      (∀ v e, entryOf? es v = some e → Station.inProgress e = true →
        entryOf? after v = some { e with state := .stopped, residual := none, halts := {} }) ∧
      (∀ e ∈ es, e.state = .crewWait →
        { kind := .crewCancel, clock := s.st.clock / 10, slot := some k, valve := some e.valve
          zone := (s.st.valve? e.valve).map (·.zone) } ∈ x.outbox) ∧
      (∀ e ∈ after, Station.inProgress e = false) ∧ (x.slot k).closedBy = q.closedBy ∧
      (∀ v, (x.vsOf v).holds = (s.st.vsOf v).holds) ∧ (x.slot k).settled = q.settled ∧ x.im.owner = s.st.im.owner ∧
      x.im.freeList = s.st.im.freeList ∧ x.clock = s.st.clock ∧ x.ss = s.st.ss ∧ x.nt.fixed = s.st.nt.fixed
    (4 ≤ k → refused .outOfRange) ∧
    (k < 4 → q.state ∈ ([.free, .isolated, .aborted, .done] : List SlotState) → refused .wrongState) ∧
    (k < 4 → q.state ∈ ([.planning, .planned] : List SlotState) →
      ∃ x, taken x ∧ x.slot k = {} ∧ (∀ j, j ≠ k → x.slot j = s.st.slot j) ∧
        x.im.freeList = s.st.im.freeList ++ [k] ∧
        (∀ m, x.owner? m = if s.st.owner? m = some k then none else s.st.owner? m) ∧ k ∉ x.ip.queue ∧
        x.computing k = false ∧ { x with im := s.st.im, ip := s.st.ip } = s.st) ∧
    (k < 4 → q.state ∈ ([.closing, .unisolable] : List SlotState) →
      ∃ x, taken x ∧ (x.slot k).state = .aborted ∧ (x.slot k).replanPending = false ∧ (x.slot k).reason = none ∧
        stops q.work x (x.slot k).work ∧ k ∉ x.ip.queue ∧ x.computing k = false ∧ s.st.Drops x (.closeEntry k)) ∧
    (k < 4 → q.state = .reopening →
      ∃ x, taken x ∧ (x.slot k).state = .done ∧ stops q.reopen x (x.slot k).reopen ∧ s.st.Drops x (.reopenEntry k) ∧
        ∃ before, x.outbox = before ++ [{ kind := .reopened, clock := s.st.clock / 10, slot := some k
                                          value := some (q.reopen.countP fun e => decide (e.state = .failed)) }])

/-- RELEASE: taken in ISOLATED, UNISOLABLE and ABORTED alone; the release time is set, the slot owns nothing and has
no UNISOLABLE reason (log entry 28). Its work in progress, PENDING and HALTED entries too, is STOPPED (log entry 28)
with no residual time and no halt cause (log entry 55); its closed-by list empties and each hold falls by one; the
valves that are then unheld, NORMALLY_OPEN, not OPEN and claimed by no other slot are its reopen list, in the reverse
of the closed-by order, crews in CREW_WAIT with CREW_REQUEST and the rest PENDING with their opening time. Each stroke of
the slot, retained ones included, is halted as ABORT halts it (R101, R129). It is DONE with REOPENED of value 0 when that list is empty, and REOPENING otherwise. A QUIET zone in which no entry waits any
more has the surge factor 1 before the opening times are formed (log entry 25 and section 7.8). The arbiters then
decide (log entry 12 and section 6.4). -/
def Obligations.ReleaseBeginsTheReopening : Prop :=
  (∀ (s : State) (tag : Byte) (k : Nat), s.taking → s.st.ss.station = .ready → s.st.canonical = true →
      let q := s.st.slot k
      let refused (st : Status) : Prop := exec (.release tag k) s = .next (s.replied tag 0x33 st [] s.st)
      let fit := q.state ∈ ([.isolated, .unisolable, .aborted] : List SlotState)
      (4 ≤ k → refused .outOfRange) ∧ (k < 4 → ¬ fit → refused .wrongState) ∧
      (k < 4 → fit →
        ∃ x : Station, exec (.release tag k) s = .next (takePostings (s.replied tag 0x33 .ok [] x.decideAll)) ∧
          x.Moves x.decideAll ∧ (x.slot k).released = some s.st.clock ∧ (x.slot k).reason = none ∧
          (∀ m, x.owner? m = if s.st.owner? m = some k then none else s.st.owner? m) ∧
          (∀ j, j ≠ k → (x.slot j).settled = (s.st.slot j).settled) ∧
          x.im.freeList = s.st.im.freeList ∧ x.clock = s.st.clock ∧ x.ss = s.st.ss ∧ x.nt.fixed = s.st.nt.fixed ∧
          x.pw.sensors = s.st.pw.sensors ∧ (∀ l, (x.line l).calls = (s.st.line l).calls) ∧
          s.st.Drops x (.closeEntry k) ∧
          (q.Agrees → (∀ v ∈ q.closedBy, (s.st.valve? v).isSome = true) →
            (∀ e ∈ q.work, Station.inProgress e = true →
              entryOf? (x.slot k).work e.valve = some { e with state := .stopped, residual := none, halts := {} } ∧
              (e.state = .crewWait →
                { kind := .crewCancel, clock := s.st.clock / 10, slot := some k, valve := some e.valve
                  zone := (s.st.valve? e.valve).map (·.zone) } ∈ x.outbox)) ∧
            (x.slot k).closedBy = [] ∧
            (∀ v, (x.vsOf v).holds = (s.st.vsOf v).holds - if v ∈ q.closedBy then 1 else 0) ∧
            (∃ joins : Nat → Bool,
              (∀ v, joins v = true ↔ (x.vsOf v).holds = 0 ∧ (x.vsOf v).position ≠ .opened ∧
                (s.st.valve? v).map (·.normal) = some .normallyOpen ∧ ∀ j e, j < 4 → j ≠ k → e ∈ (x.slot j).work →
                  e.valve = v → e.state ∉ ([.pending, .halted, .crewWait] : List EntryState)) ∧
              (x.slot k).reopen.map (·.valve) = (q.closedBy.filter joins).reverse) ∧
            (∀ e ∈ (x.slot k).reopen, ∀ r, s.st.valve? e.valve = some r →
              let p := profile r.length r.waveSpeed (s.st.effectiveVelocity e.valve) (s.st.zoneRec r.zone).hmax r.tmin
                r.tmax (x.zoneWatch r.zone).factor
              e.tcmd = p.tcmd ∧ e.limited = p.limited ∧ e.residual = none ∧
              (r.kind = .actuated → e.kind = .actuated ∧ e.state = .pending) ∧
              (r.kind = .crew → e.kind = .crew ∧ e.state = .crewWait ∧
                { kind := .crewRequest, clock := s.st.clock / 10, slot := some k, valve := some e.valve
                  zone := some r.zone, cause := some .reopen, value := some p.tcmd } ∈ x.outbox)) ∧
            ((x.slot k).reopen ≠ [] → (x.slot k).state = .reopening) ∧
            ((x.slot k).reopen = [] → (x.slot k).state = .done ∧
              ∃ before, x.outbox =
                before ++ [{ kind := .reopened, clock := s.st.clock / 10, slot := some k, value := some 0 }])))) ∧
  (∀ (s : State) (tag : Byte) (k : Nat), s.taking → s.st.ss.station = .ready → s.st.canonical = true → k < 4 →
      (s.st.slot k).state = .unisolable → (s.st.slot k).closedBy = [] → (s.st.slot k).work = [] →
      (s.st.slot k).reopen = [] → s.st.md.strokes = [] → s.st.ip.flight = none →
      ∃ x : Station, exec (.release tag k) s = .next (takePostings (s.replied tag 0x33 .ok [] x.decideAll)) ∧
        x.slot k = { s.st.slot k with released := some s.st.clock, reason := none, state := .done } ∧
        (∀ j, j ≠ k → x.slot j = s.st.slot j) ∧
        x.outbox = [{ kind := .reopened, clock := s.st.clock / 10, slot := some k, value := some 0 }] ∧
        { x with im := s.st.im, pw := s.st.pw, outbox := [] } = s.st ∧ x.pw.sensors = s.st.pw.sensors ∧
        (∀ z, z < Config.zones →
          x.zoneWatch z = { s.st.zoneWatch z with
            factor :=
              if (s.st.zoneWatch z).state = .quiet ∧ s.st.anyWaitingEntry z = false then 1
              else (s.st.zoneWatch z).factor }))

/-- CLOSE_INCIDENT: taken in DONE, and in ABORTED with an empty closed-by list; the slot takes every FREE value, its
number joins the tail of the free list, and from ABORTED its ownership goes. -/
def Obligations.CloseIncidentFreesTheSlot : Prop :=
  ∀ (s : State) (tag : Byte) (k : Nat), s.taking → s.st.canonical = true →
    let refused (st : Status) : Prop := exec (.closeIncident tag k) s = .next (s.replied tag 0x34 st [] s.st)
    let st := (s.st.slot k).state
    let fit := st = .done ∨ (st = .aborted ∧ (s.st.slot k).closedBy = [])
    (s.st.ss.station ≠ .ready → refused .notReady) ∧
    (s.st.ss.station = .ready → 4 ≤ k → refused .outOfRange) ∧
    (s.st.ss.station = .ready → k < 4 → ¬ fit → refused .wrongState) ∧
    (s.st.ss.station = .ready → k < 4 → fit →
      ∃ x : Station, exec (.closeIncident tag k) s = .next (s.replied tag 0x34 .ok [] x) ∧
        x.slot k =
          { state := .free, burst := [], authorized := none, overrideMark := false, overrideRequired := false
            region := [], work := [], closedBy := [], failed := [], expansions := 0, replanPending := false
            report := none, deadline := none, reason := none, released := none, reopen := [] } ∧
        (∀ j, j ≠ k → x.slot j = s.st.slot j) ∧ x.im.freeList = s.st.im.freeList ++ [k] ∧
        (∀ m, x.owner? m = if st = .aborted ∧ s.st.owner? m = some k then none else s.st.owner? m) ∧
        x.ip.queue = s.st.ip.queue ∧ { x with im := s.st.im, ip := s.st.ip } = s.st)

/-- PLAN_EXPIRY: the clock stands at the deadline (log entry 11); the slot is PLANNING with no deadline, its region
and work list kept and its override-required mark clear, no plan being held, PLAN_EXPIRED is posted, and the slot is
triggered on the planner: an idle planner starts its computation, a live computation of the slot becomes stale, and
otherwise the slot stands in the queue, at its tail unless it was there. A slot that is not PLANNED is left (log entry
13). -/
def Obligations.APlanExpiresAtItsDeadline : Prop :=
  ∀ (s : State) (k : Nat), s.up → s.st.canonical = true →
    ((s.st.slot k).state ≠ .planned → exec (.planExpiry k) s = .next s) ∧
    (∀ due, (s.st.slot k).state = .planned → (s.st.slot k).deadline = some due →
      let clock := if clockReached s.st.clock due then s.st.clock else due
      let ip := s.st.ip
      ∃ x : Station,
        exec (.planExpiry k) s = .next (s.told { kind := .planExpired, slot := some k } x) ∧ x.clock = clock ∧
        x.slot k = { s.st.slot k with state := .planning, deadline := none, overrideRequired := false } ∧
        (∀ j, j ≠ k → x.slot j = s.st.slot j) ∧ x.im.owner = s.st.im.owner ∧ x.im.freeList = s.st.im.freeList ∧
        (ip.flight = none → ip.queue = [] →
          x.ip = { queue := [], flight := some { slot := k, seed := (s.st.slot k).burst } }) ∧
        (∀ f, ip.flight = some f → f.slot = k → f.cancel = false →
          x.ip = { ip with flight := some { f with stale := true } }) ∧
        (∀ f, ip.flight = some f → f.slot ≠ k ∨ f.cancel = true →
          x.ip = { ip with queue := if k ∈ ip.queue then ip.queue else ip.queue ++ [k] }) ∧
        { x with im := s.st.im, ip := s.st.ip, clock := s.st.clock } = s.st)

/-- COMPUTATION_COMPLETION, of the round that ends (log entries 17 and 18): one that must merge ends nothing; a
cancelled computation's result is discarded; a stale one's slot is queued again; otherwise the result is applied to a
slot in PLANNING or CLOSING. Then the queue's head starts and the arbiters decide (log entry 12 and section 6.4). A
round (R50 to R62): the region is what passable valves reach from the seed list; past 48 segments, or 4 burst segments
of a union, a source under an authorization without override, 40 closable valves, or 96 projected closed-by valves it
ends UNISOLABLE; the lowest slot whose segments it meets is merged; otherwise it gives the plan, its closing entries
in closure order with their stroke times, the barriers in ascending order, and the report of what two supply passes
tell apart. A first plan gives the slot its region, report, mark, entries and a deadline one plan validity ahead, and
the region's segments; SURGE_LIMITED for each marked entry, then PLAN_READY, come last. UNISOLABLE (R89) sets state,
reason and figure, clears the replan-pending mark and is posted; lists and ownership stand. A replan (R96 to R99) works
in CLOSING: entries of valves still on the boundary are kept, waiting ones with the new time and mark, but one kept as a
barrier with its own; FAILED ones and new valves get fresh entries, a crew's with its time computed again (factor: log
entry 25), CREW_REQUEST and one SURGE_LIMITED for a mark, of the last computation; what the boundary no longer holds is
dropped, with CREW_CANCEL or as a retained stroke; off-normal barriers and crew valves join the closed-by list; EXPANDED
is posted and the slot may be ISOLATED (the last said where no stroke taken in SENDING gives a CLOSED valve another
position back, R28). (The model's choice: the time and mark of an entry kept as a barrier and the one SURGE_LIMITED of a
crew entry, log entry 34, DEDUCED; which ALREADY_CLOSED entries are kept, log entry 56.) -/
def Obligations.ACompletionDiscardsRequeuesOrApplies : Prop :=
  (∀ (s : State) (f : Flight), s.up → s.st.ip.flight = some f →
    let idle : Station := { s.st with ip := { s.st.ip with flight := none } }
    let ends (x : Station) : Prop := exec .computationCompletion s = .next (takePostings { s with st := x.decideAll })
    let q := s.st.slot f.slot
    s.st.round f = s.st.roundBefore f [] ∧ ((∀ j, s.st.round f ≠ .merge j) → s.st.endedRound f = s.st.round f) ∧
    (∀ j, s.st.round f = .merge j → s.st.endedRound f = s.st.roundBefore f f.opened) ∧
    (∀ j, s.st.endedRound f = .merge j → f.cancel = false ∧ ends s.st) ∧
    (f.cancel = true → ends idle.startNext) ∧
    (f.cancel = false → f.stale = true → f.slot ∉ s.st.ip.queue → (∀ j, s.st.endedRound f ≠ .merge j) →
      ends (Station.startNext { s.st with ip := { queue := s.st.ip.queue ++ [f.slot], flight := none } })) ∧
    (f.cancel = false → f.stale = false →
      (∀ c n, s.st.endedRound f = .unisolable c n → q.state = .planning ∨ q.state = .closing →
        ends (idle.unisolable f.slot c n).startNext) ∧
      (∀ p, s.st.endedRound f = .plan p → q.state = .planning → ends (idle.firstPlan f.slot p).startNext) ∧
      (∀ p, s.st.endedRound f = .plan p → q.state = .closing → ends (idle.replan f.slot p).startNext))) ∧
  (∀ (s : Station) (k : Nat) (c : Cause) (n : Nat), s.canonical = true →
    let x := s.unisolable k c n
    x.slot k = { s.slot k with state := .unisolable, reason := some (c, n), replanPending := false } ∧
    (∀ j, j ≠ k → x.slot j = s.slot j) ∧ x.im.owner = s.im.owner ∧ x.im.freeList = s.im.freeList ∧
    x.outbox = s.outbox ++
      [{ kind := .unisolable, clock := s.clock / 10, slot := some k, cause := some c, value := some n }] ∧
    { x with im := s.im, outbox := s.outbox } = s) ∧
  (∀ (s : Station) (f : Flight) (unseen region : List Nat), s.canonical = true →
    Listed (s.Reaches (fun v => usability? s v = some .passable) (· ∈ f.seed)) region →
    let e := s.roundBefore f unseen
    let q := s.slot f.slot
    let onBoundary (r : Valve) : Bool := region.contains r.sideA != region.contains r.sideB
    let closable (p : Nat × Valve) : Bool := onBoundary p.2 && decide (usability? s p.1 = some .closable)
    let barrier (p : Nat × Valve) : Bool := onBoundary p.2 && decide (usability? s p.1 = some .barrier)
    let found (j : Nat) : Prop := j < 4 ∧ j ≠ f.slot ∧ j ∉ unseen ∧
      (s.slot j).state ∈ ([.planning, .planned, .closing, .isolated, .unisolable, .aborted] : List SlotState) ∧
      ∃ n ∈ region, s.owner? n = some j ∨ n ∈ (s.slot j).burst
    let first (j : Nat) : Prop := f.cancel = false ∧ found j ∧ ∀ i, i < j → ¬ found i
    (48 < region.length → e = .unisolable .regionTooLarge 49) ∧
    (region.length ≤ 48 → ∀ j, first j →
      let union := (unionList (s.slot (min f.slot j)).burst (s.slot (max f.slot j)).burst).length
      (4 < union → e = .unisolable .burstListFull union) ∧ (union ≤ 4 → e = .merge j)) ∧
    (region.length ≤ 48 → (∀ j, ¬ first j) →
      let sources := region.countP fun n => (s.segment? n).any (·.source)
      let toClose := s.nt.valves.countP closable
      let projected := q.closedBy.length + s.nt.valves.countP fun p =>
        (closable p || (barrier p && decide (p.2.normal = .normallyOpen))) && !q.closedBy.contains p.1
      let barred := 0 < sources ∧ q.authorized.isSome ∧ q.overrideMark = false
      (barred → e = .unisolable .sourceReached sources) ∧
      (¬ barred → 40 < toClose → e = .unisolable .boundaryTooLarge toClose) ∧
      (¬ barred → toClose ≤ 40 → 96 < projected → e = .unisolable .closedSetFull projected) ∧
      (¬ barred → toClose ≤ 40 → projected ≤ 96 → ∃ p : Plan, e = .plan p ∧
        let reading (x : Nat × Valve) : Reading :=
          (f.readings.find? x.1).getD { velocity := s.effectiveVelocity x.1, health := x.2.health }
        let suspect (x : Nat × Valve) : Prop := (reading x).health = .suspect
        let before (x y : Nat × Valve) : Prop := (suspect x ∧ ¬ suspect y) ∨ ((suspect x ↔ suspect y) ∧
          ((reading y).velocity < (reading x).velocity ∨
            ((reading x).velocity = (reading y).velocity ∧ x.1 < y.1)))
        let closing (x : Nat × Valve) : PlanEntry :=
          let r := x.2
          let t := profile r.length r.waveSpeed (reading x).velocity (s.zoneRec r.zone).hmax r.tmin r.tmax
            (s.zoneWatch r.zone).factor
          { valve := x.1, kind := if r.kind = .crew then .crew else .actuated, tcmd := t.tcmd, treq := t.treq
            limited := t.limited, offNormal := false }
        let passes (v : Nat) : Prop := (s.vsOf v).position ∈ ([.opened, .partway, .closing, .opening] : List Position)
        let shut (v : Nat) : Prop := ∃ r, s.valve? v = some r ∧ closable (v, r) = true
        let supplied (n : Nat) : Prop := (∃ g, s.segment? n = some g ∧ g.source = true) ∧ s.owner? n = none
        let connections (ns : List Nat) : Nat := (ns.map fun n => ((s.segment? n).map (·.connections)).getD 0).sum
        p.region = region ∧ p.merged = f.merged ∧
        p.overrideRequired = (decide (0 < sources) && q.authorized.isNone) ∧
        (∃ vs : List (Nat × Valve), vs.Pairwise before ∧ (∀ x, x ∈ vs ↔ x ∈ s.nt.valves ∧ closable x = true) ∧
          p.entries = vs.map closing ++ (s.nt.valves.filter barrier).map fun x =>
            { valve := x.1, kind := .alreadyClosed, tcmd := 0, treq := 0, limited := false
              offNormal := decide (x.2.normal = .normallyOpen) }) ∧
        (∀ cut, Listed (fun n => s.Reaches passes supplied n ∧
            ¬ s.Reaches (fun v => passes v ∧ ¬ shut v) supplied n ∧ n ∉ region ∧ s.owner? n = none) cut →
          let marked := cut.filter fun n => (s.segment? n).any (·.priority)
          p.report = { regionConnections := connections region, cutOffCount := cut.length
                       cutOffConnections := connections cut, priorityList := marked.take 16
                       priorityOverflow := marked.length - 16 })))) ∧
  (∀ (s : Station) (k : Nat) (p : Plan), s.canonical = true →
    let x := s.firstPlan k p
    let r := x.slot k
    r.state = .planned ∧ r.region = p.region ∧ r.report = some p.report ∧ r.overrideRequired = p.overrideRequired ∧
    r.deadline = some ((s.clock + 10 * s.nt.timing.validity) % 42949672960) ∧
    r.work = p.entries.map (fun e =>
      { valve := e.valve, kind := e.kind
        state := if e.kind = .alreadyClosed then .alreadyClosed else .proposed
        tcmd := e.tcmd, limited := e.limited, offNormal := e.offNormal }) ∧
    (∀ n, x.owner? n = if n ∈ p.region then some k else if s.owner? n = some k then none else s.owner? n) ∧
    (∃ ns, x.outbox = s.outbox ++ ns ++
      (p.entries.filter (·.limited)).map (fun e =>
        { kind := .surgeLimited, clock := s.clock / 10, slot := some k, valve := some e.valve
          zone := s.zoneOfValve? e.valve, value := some e.treq }) ++
      [{ kind := .planReady, clock := s.clock / 10, slot := some k, segment := p.report.priorityList.head?
         value := some p.report.cutOffConnections }]) ∧
    s.Listens x) ∧
  (∀ (s : Station) (k : Nat) (p : Plan), s.canonical = true → k < 4 → (s.slot k).state = .closing →
    (p.entries.map (·.valve)).Nodup →
    let q := s.slot k
    let x := s.replan k p
    let r := x.slot k
    let kept (v : Nat) (o : Entry) : Prop := entryOf? q.work v = some o ∧
      o.state ∈ ([.pending, .halted, .stroking, .crewWait, .closed, .alreadyClosed] : List EntryState)
    let fresh (v : Nat) : Prop := ∀ o, ¬ kept v o
    let waits (o : Entry) : Prop := o.state = .pending ∨ o.state = .halted
    let adopted (e : PlanEntry) : Prop :=
      (∃ o, kept e.valve o ∧ o.state = .alreadyClosed ∧ o.offNormal = true) ∨
      (fresh e.valve ∧ (e.kind = .crew ∨ (e.kind = .alreadyClosed ∧ e.offNormal = true)))
    let about (kind : NoticeKind) (v : Nat) : Notice :=
      { kind, clock := s.clock / 10, slot := some k, valve := some v, zone := s.zoneOfValve? v }
    let posted (n : Notice) : Prop := ∃ ns, x.outbox = s.outbox ++ ns ∧ n ∈ ns
    let expanded : Notice := { kind := .expanded, clock := s.clock / 10, slot := some k
                               segment := p.report.priorityList.head?, value := some p.report.cutOffConnections }
    let isolated : Notice :=
      { kind := .isolated, clock := s.clock / 10, slot := some k, value := some p.report.regionConnections }
    let sealed := ∀ e ∈ r.work, e.state = .closed ∨ e.state = .alreadyClosed
    (∀ n, x.owner? n = if n ∈ p.region then some k else if s.owner? n = some k then none else s.owner? n) ∧
    r.region = p.region ∧ r.report = some p.report ∧ r.overrideRequired = p.overrideRequired ∧
    r.work.map (·.valve) = p.entries.map (·.valve) ∧ q.closedBy <+: r.closedBy ∧
    (∀ v, v ∈ r.closedBy ↔ v ∈ q.closedBy ∨ ∃ e ∈ p.entries, e.valve = v ∧ adopted e) ∧
    (∀ e ∈ p.entries, ∀ o, kept e.valve o → waits o → e.kind ≠ .alreadyClosed → e.limited = true → o.limited = false →
      posted { about .surgeLimited e.valve with value := some e.treq }) ∧
    (∀ e ∈ p.entries, fresh e.valve → e.kind ≠ .crew → e.limited = true →
      posted { about .surgeLimited e.valve with value := some e.treq }) ∧
    (∀ e ∈ p.entries, ∀ c, fresh e.valve → e.kind = .crew → s.valve? e.valve = some c →
      let t := profileOf x e.valve c
      posted { about .crewRequest e.valve with cause := some .close, value := some t.tcmd } ∧
      (t.limited = true → posted { about .surgeLimited e.valve with value := some t.treq })) ∧
    (∀ o ∈ q.work, o.valve ∉ p.entries.map (·.valve) →
      (o.state = .crewWait → posted (about .crewCancel o.valve)) ∧
      (∀ y, o.state = .stroking → s.stroke? o.valve = some y → y.owner = .closeEntry k →
        (s.vsOf o.valve).owner = some y.owner → (∀ e, s.exercise? o.valve = some e → e.phase ≠ .outward) →
        x.stroke? o.valve = some { y with retained := true })) ∧
    (s.SendingsKeepClosed →
      (∀ e ∈ p.entries, ∀ o, kept e.valve o → entryOf? r.work e.valve =
        some (if waits o ∧ e.kind ≠ .alreadyClosed then { o with tcmd := e.tcmd, limited := e.limited } else o)) ∧
      (∀ e ∈ p.entries, fresh e.valve → ∃ t : Entry, entryOf? r.work e.valve = some t ∧
        t = { valve := e.valve, kind := e.kind
              state := match e.kind with
                | .actuated => .pending
                | .crew => .crewWait
                | .alreadyClosed => .alreadyClosed
              tcmd := t.tcmd, limited := t.limited, offNormal := e.offNormal, residual := none, halts := {} } ∧
        (e.kind ≠ .crew → (t.tcmd, t.limited) = (e.tcmd, e.limited)) ∧
        (∀ c, e.kind = .crew → s.valve? e.valve = some c →
          (t.tcmd, t.limited) = ((profileOf x e.valve c).tcmd, (profileOf x e.valve c).limited))) ∧
      r.replanPending = false ∧ r.failed = q.failed ∧ r.expansions = q.expansions ∧
      (sealed → r.state = .isolated ∧ ∃ ns, x.outbox = s.outbox ++ ns ++ [expanded, isolated]) ∧
      (¬ sealed → r.state = .closing ∧ ∃ ns, x.outbox = s.outbox ++ ns ++ [expanded]) ∧
      (∀ j, j ≠ k → (x.slot j).work = (s.slot j).work ∧ (x.slot j).closedBy = (s.slot j).closedBy)) ∧
    s.Listens x)

/-- PLANNER_MERGE (the round evaluated at its command, log entry 17; done in one step, log entry 47): a round that
finds another slot joins the two in the lower-numbered one. Burst lists and closed-by lists are united and the holds
that both had fall by one; the survivor is UNISOLABLE past 16 failed pairs, ABORTED when either was, CLOSING with a
replan pending when either was authorized, PLANNING otherwise, and MERGED is posted; the other is FREE at the tail of
the free list and owns nothing. The computation goes on for the survivor with the united burst list, cancelled when
the survivor was withdrawn; neither is in the queue. (The override-required mark is clear where the survivor goes back
to PLANNING, and elsewhere the one of the plan it held, log entry 51; a STOPPED entry keeps no residual time and no
halt cause, log entry 55; a pair twice in the absorbed list 52, a served slot in no served state 13.) The arbiters
then decide (log entry 12 and section 6.4). -/
def Obligations.AMergeJoinsTwoSlots : Prop :=
  ∀ (s : State) (f : Flight) (j : Nat), s.up → s.st.canonical = true → s.st.ip.flight = some f →
    s.st.round f = .merge j →
    let a := min f.slot j
    let b := max f.slot j
    let p := s.st.slot a
    let q := s.st.slot b
    let served := (s.st.slot f.slot).state
    let failed := p.failed ++ q.failed.filter fun x => !p.failed.contains x
    let aborted := p.state = .aborted ∨ q.state = .aborted
    let age (t : Nat) : Nat := (s.st.clock + 42949672960 - t) % 42949672960
    let authorized : Option Nat :=
      match p.authorized, q.authorized with
      | some t, some u => if age u ≤ age t then some t else some u
      | some t, none => some t
      | none, u => u
    let united (v : Nat) : Option Entry :=
      match entryOf? p.work v, entryOf? q.work v with
      | some e, some t => some (if t.state = .stroking ∧ e.state ≠ .stroking then t else e)
      | some e, none => some e
      | none, t => t
    (served ≠ .planning → served ≠ .closing →
      exec .plannerMerge s = .next (takePostings { s with st := s.st.decideAll })) ∧
    (served = .planning ∨ served = .closing →
      ∃ (x : Station) (g : Flight),
        exec .plannerMerge s = .next (takePostings { s with st := x.decideAll }) ∧
        (x.slot a).burst = unionList p.burst q.burst ∧ (x.slot a).closedBy = unionList p.closedBy q.closedBy ∧
        x.slot b = {} ∧
        (q.closedBy.Nodup → ∀ v, (x.vsOf v).holds =
          (s.st.vsOf v).holds - if v ∈ p.closedBy ∧ v ∈ q.closedBy then 1 else 0) ∧
        { kind := .merged, clock := s.st.clock / 10, slot := some a, value := some b } ∈ x.outbox ∧
        (16 < failed.length → (x.slot a).state = .unisolable ∧
          (x.slot a).reason = some (.tooManyFailures, failed.length) ∧ (x.slot a).replanPending = false ∧
          g.cancel = true) ∧
        (failed.length ≤ 16 → aborted → (x.slot a).state = .aborted ∧ (x.slot a).replanPending = false ∧
          g.cancel = true) ∧
        (failed.length ≤ 16 → ¬ aborted → authorized.isSome = true → g.cancel = false ∧
          ((∀ y ∈ s.st.xu, y.phase ≠ .outward) → (x.slot a).state = .closing ∧ (x.slot a).replanPending = true)) ∧
        (failed.length ≤ 16 → ¬ aborted → authorized = none → g.cancel = false ∧ (x.slot a).state = .planning ∧
          (x.slot a).replanPending = false) ∧
        (s.st.SlotsOk → s.st.HoldsCounted → s.st.md.strokes = [] →
          (x.slot a).failed = failed.take 16 ∧ (x.slot a).expansions = max p.expansions q.expansions ∧
          (x.slot a).authorized = authorized ∧ (x.slot a).overrideMark = (p.overrideMark || q.overrideMark) ∧
          (x.slot a).overrideRequired =
            (p.overrideRequired && decide ((x.slot a).state ≠ .planning)) ∧ (x.slot a).deadline = none ∧
          (x.slot a).region = p.region ∧
          ∀ v, entryOf? (x.slot a).work v =
            (united v).map fun e =>
              if aborted ∧ failed.length ≤ 16 ∧ Station.inProgress e = true
                then { e with state := .stopped, residual := none, halts := {} } else e) ∧
        x.im.freeList = s.st.im.freeList ++ [b] ∧
        (∀ m, x.owner? m = if s.st.owner? m = some b then none else s.st.owner? m) ∧
        x.ip.flight = some g ∧ g.slot = a ∧ g.seed = (x.slot a).burst ∧ g.merged = f.merged ++ [b] ∧
        a ∉ x.ip.queue ∧ b ∉ x.ip.queue ∧ x.clock = s.st.clock ∧ x.ss = s.st.ss ∧ x.nt.fixed = s.st.nt.fixed)

/-! Field lines, the supply warning, profiles, and what every step keeps. -/

/-- SUPPLY_WARNING_QUALIFIED posts SUPPLY_WARNING first, sets the mark, puts one broadcast HALT in class 1 of each
line, and then no stroke may start. Every stroke in motion is halted with cause SUPPLY, in the order of the grants
(log entry 37): at once when its call is not yet on the line, after the answer when it is, by the broadcast when it
moves, and joining a halt by a passing cause already decided (the broadcasts it waits for are log entry 31); every
HALTED entry gains SUPPLY. SUPPLY_WARNING_CLEARS clears the mark, posts SUPPLY_RESTORED first, and SUPPLY leaves every
HALTED entry, which with no other cause left is PENDING with its residual formed anew, or CLOSED or OPENED when its
percent is within tolerance already. A warning already qualified or already clear posts nothing (log entry 13). In
each case the arbiters then decide (log entry 12 and section 6.4). -/
def Obligations.ASupplyWarningStopsStarts : Prop :=
  (∀ (t : Station) (v : Nat) (r : Stroke) (n : Node), t.stroke? v = some r → t.nodeOf? v = some n →
     let line := t.line n.line
     let waiting := line.broadcasts.count .halt + (if line.onLine = some (.broadcast .halt) then 1 else 0)
     let wait := if r.supplyWait = 0 then waiting else r.supplyWait
     (r.pendingEnd = none → r.phase = .sending → t.strokeOnLine v = false →
       t.supplyHalt v = Station.endStroke false t r (.halted .supply)) ∧
     (r.pendingEnd = none → r.phase = .sending → t.strokeOnLine v = true →
       (t.supplyHalt v).stroke? v = some { r with pendingEnd := some (.halted .supply), supplyWait := wait }) ∧
     (r.pendingEnd = none → r.phase = .moving →
       (t.supplyHalt v).stroke? v =
         some { r with phase := .halting, pendingEnd := some (.halted .supply), supplyWait := wait }) ∧
     (∀ h, r.pendingEnd = some (.halted h) →
       (t.supplyHalt v).stroke? v = some { r with joined := { r.joined with supply := true }, supplyWait := wait }) ∧
     (∀ e, r.pendingEnd = some e → (∀ h, e ≠ .halted h) →
       (t.supplyHalt v).stroke? v = some { r with supplyWait := wait }) ∧
     (r.pendingEnd.isSome ∨ r.phase ≠ .sending ∨ t.strokeOnLine v = true →
       { t.supplyHalt v with md := t.md } = t ∧
       (∀ w, w ≠ v → (t.supplyHalt v).stroke? w = t.stroke? w))) ∧
  ∀ s : State, s.up →
    let ends (c : Instr) (x : Station) : Prop := exec c s = .next (takePostings { s with st := x.decideAll })
    (s.st.supplyWarning = true → ends .supplyWarningQualified s.st) ∧
    (s.st.supplyWarning = false → ends .supplyWarningClears s.st) ∧
    (s.st.supplyWarning = false →
      let warned : Station :=
        { s.st with
          supplyWarning := true
          lineA := { s.st.lineA with broadcasts := s.st.lineA.broadcasts ++ [.halt] }
          lineB := { s.st.lineB with broadcasts := s.st.lineB.broadcasts ++ [.halt] } }
      let posted : Notice := { kind := .supplyWarning, clock := s.st.clock / 10 }
      let y := (s.st.md.strokes.map (·.valve)).foldl Station.supplyHalt { warned with outbox := [posted] }
      ∃ (x : Station) (rest : List Notice), ends .supplyWarningQualified x ∧ warned.Moves x ∧
        x.outbox = posted :: rest ∧ (∀ z, x.mayStart z = false) ∧
        (s.st.canonical = true →
          x.md = y.md ∧ x.vs = y.vs ∧ x.xu = y.xu ∧ (∀ l, x.line l = y.line l) ∧
          (∀ k ro v e, k < 4 → y.entryIn k ro v = some e →
            x.entryIn k ro v =
              some (if e.state = .halted then { e with halts := { e.halts with supply := true } } else e)) ∧
          ∀ v r n, s.st.stroke? v = some r → s.st.nodeOf? v = some n → r.pendingEnd.isSome ∨ r.phase ≠ .halting →
            (x.stroke? v = none ∧ (x.vsOf v).owner = none) ∨
              ∃ u, x.stroke? v = some u ∧ u.pendingEnd.isSome ∧ 0 < u.supplyWait)) ∧
    (s.st.supplyWarning = true →
      ∃ (x : Station) (rest : List Notice), ends .supplyWarningClears x ∧
        ({ s.st with supplyWarning := false } : Station).Moves x ∧
        x.outbox = { kind := .supplyRestored, clock := s.st.clock / 10 } :: rest ∧
        (s.st.canonical = true → ∀ v a k e, s.st.valve? v = some a → s.st.stroke? v = none → k < 4 →
          e.state = .halted → e.halts.supply = true →
          let claimed := ∃ j c, j < 4 ∧ c ∈ (s.st.slot j).work ∧ c.valve = v ∧ (c.state = .pending ∨ c.state = .halted)
          let resumes (closes : Bool) : Entry → Prop :=
            Entry.Resumes closes (s.st.vsOf v).percent a.tmin { e.halts with supply := false } e
          (entryOf? (s.st.slot k).work v = some e → ∃ u, entryOf? (x.slot k).work v = some u ∧ resumes true u) ∧
          (¬ claimed → entryOf? (s.st.slot k).reopen v = some e →
            ∃ u, entryOf? (x.slot k).reopen v = some u ∧ resumes false u)))

/-- CALL_START: a line that is busy or not yet started starts nothing; a free one brings late DETAIL due times forward
(log entry 40) and starts the call that comes first in the classes: broadcasts, addressed HALTs, the handshake of the
lowest address, the first STROKE whose node is ready, the DETAIL due first, the SAMPLE due first of the sensors of
zones in WATCH or HOLD (one with no SAMPLE due time is due now, log entry 16), and the roll call past the roll
pointer. DETAIL_DUE, SAMPLE_DUE and ROLL_DUE carry the clock to the due time of the address, where it has not been
reached, and change nothing else (log entry 11); an address with no due time has no such event. -/
def Obligations.AFreeLineStartsTheFirstClass : Prop :=
  (∀ (s : State) (l : Line), s.up → s.st.canonical = true →
     let x := s.st.line l
     let now := s.st.clock
     let e (m : Nat) : NodeEntry := s.st.node ⟨l, m⟩
     let starts (f : FieldLine → FieldLine) : Prop :=
       exec (.callStart l) s = .next { s with st := (s.st.bringForward l).modLine l f }
     let marked (m : Nat) : Prop := (e m).presence = .present ∧ (e m).attend = true
     let ready (m : Nat) : Prop := (e m).presence = .present ∧ (e m).attend = false
     let detail (m d : Nat) : Prop := (e m).kind = .actuator ∧ ready m ∧ clockReached now d = true ∧
       (e m).detailDue.map (fun t => if clockReached now t ∧ 5 ≤ clockSince now t then now else t) = some d
     let sample (m d : Nat) : Prop := (e m).kind = .sensor ∧ s.st.sampledFast ⟨l, m⟩ = true ∧
       clockReached now d = true ∧ d = (e m).sampleDue.getD now
     let roll (m : Nat) : Prop := (e m).kind ≠ .none ∧ s.st.sampledFast ⟨l, m⟩ = false ∧
       ∃ d, (e m).rollDue = some d ∧ clockReached now d = true
     let first (due : Nat → Nat → Prop) (m : Nat) : Prop := ∃ d, due m d ∧ ∀ m' d', due m' d' →
       clockSince now d' < clockSince now d ∨ (clockSince now d' = clockSince now d ∧ m ≤ m')
     let free := x.started = true ∧ x.onLine = none
     let none3 := free ∧ x.broadcasts = [] ∧ x.halts = [] ∧ (∀ m, ¬ marked m) ∧
       (s.st.supplyWarning = true ∨ ∀ m ∈ x.strokes, ¬ ready m)
     (¬ free → exec (.callStart l) s = .next s) ∧
     (∀ b bs, free → x.broadcasts = b :: bs → starts fun y => { y with broadcasts := bs, onLine := some (.broadcast b) }) ∧
     (∀ m ms, free → x.broadcasts = [] → x.halts = m :: ms →
       starts fun y => { y with halts := ms, onLine := some (.addressed m .halt 1) }) ∧
     (∀ m, free → x.broadcasts = [] → x.halts = [] → marked m → (∀ j, j < m → ¬ marked j) →
       starts fun y =>
         { y with onLine := some (.addressed m (if (e m).step = .needDetail then .detail else .acknowledge) 2) }) ∧
     (∀ before m after, free → x.broadcasts = [] → x.halts = [] → (∀ j, ¬ marked j) → s.st.supplyWarning = false →
       x.strokes = before ++ m :: after → ready m → (∀ j ∈ before, ¬ ready j) →
       starts fun y => { y with strokes := before ++ after, onLine := some (.addressed m .stroke 3) }) ∧
     (∀ m, none3 → first detail m → starts fun y => { y with onLine := some (.addressed m .detail 4) }) ∧
     (∀ m, none3 → (∀ j d, ¬ detail j d) → first sample m →
       starts fun y => { y with onLine := some (.addressed m .sample 5) }) ∧
     (∀ m, none3 → (∀ j d, ¬ detail j d) → (∀ j d, ¬ sample j d) → roll m →
       (x.rollPointer < m ∧ (∀ j, roll j → x.rollPointer < j → m ≤ j)) ∨
         ((∀ j, roll j → j ≤ x.rollPointer) ∧ ∀ j, roll j → m ≤ j) →
       starts fun y =>
         { y with rollPointer := m
                  onLine := some (.addressed m (if (e m).kind = .sensor then .sample else .poll) 6) }) ∧
     (none3 → (∀ j d, ¬ detail j d) → (∀ j d, ¬ sample j d) → (∀ j, ¬ roll j) →
       exec (.callStart l) s = .next { s with st := s.st.bringForward l })) ∧
  (∀ (s : State) (l : Line) (a : Nat), s.up →
     let e := s.st.node ⟨l, a⟩
     let reaches (c : Instr) (due : Option Nat) : Prop :=
       (due = none → exec c s = .next s) ∧
       (∀ d, due = some d → exec c s = .next
         { s with st := { s.st with clock := if clockReached s.st.clock d then s.st.clock else d } })
     reaches (.detailDue l a) e.detailDue ∧ reaches (.sampleDue l a) e.sampleDue ∧ reaches (.rollDue l a) e.rollDue)

/-- ANSWER_RECEIVED for the call that awaits its answer, of a node of a kind other than NONE: the line is free; the
node is PRESENT with no miss and with the answer's state and time; from ABSENT, NODE_PRESENT is posted first. Bytes
that do not stand count as a missing answer; bytes that arrive at another time are discarded, and the arbiters decide
as after every such event (log entries 12 and 13). ANSWER_TIMEOUT: the line is free and the miss count rises by one,
to no more than 3; at 3 a node that is PRESENT or UNKNOWN becomes ABSENT and NODE_ABSENT is posted first. The last
answer state stands. Either way the roll due time is the roll period later and, after a class 5 call of a sensor whose
zone is in WATCH or HOLD, its SAMPLE is due 1 s later when the arbiters come to decide (R159, log entry 16). The
length is judged by the kind that the place then has (log entry 54). At a place of kind NONE no miss is counted (log
entry 36). An addressed HALT, answered or missed, ends the HALTING stroke of the place's valve with the end already decided
for it (R124). A missed STROKE is treated as R120 says. A node declared ABSENT: its valve's position follows R30 and its
stroke ends with the end already decided or with NODE_ABSENT (R123), its sensor drops the low run (R132), and its due
DETAIL, its handshake step and its queued calls are cleared (R154). -/
def Obligations.AnAnswerOrItsAbsenceIsTaken : Prop :=
  let dues (s y : Station) (n : Node) (cls : Nat) : Prop :=
    (y.decideAll.node n).rollDue = some ((s.clock + 5 * 2 ^ s.nt.timing.exponent) % 42949672960) ∧
    (s.MapAgrees → 1 ≤ n.address → n.address ≤ 60 → cls = 5 → s.sampledFast n = true →
      (y.node n).sampleDue = some ((s.clock + 10) % 42949672960))
  let untouched (s b : Station) : Prop := s.Keeps b ∧ b.md = s.md ∧ b.im = s.im ∧ b.xu = s.xu
  (∀ (s : State) (l : Line) (bytes : List Byte), s.up → s.st.canonical = true →
     ((∀ a call cls, (s.st.line l).onLine ≠ some (.addressed a call cls)) →
       exec (.answerReceived l bytes) s = .next (takePostings { s with st := s.st.decideAll })) ∧
     (∀ a call cls, (s.st.line l).onLine = some (.addressed a call cls) →
       let n : Node := ⟨l, a⟩
       let e := s.st.node n
       e.kind ≠ .none →
       (readAnswer? a call e.kind bytes = none → exec (.answerReceived l bytes) s = exec (.answerTimeout l) s) ∧
       (∀ ans, readAnswer? a call e.kind bytes = some ans →
         ∃ y : Station, exec (.answerReceived l bytes) s = .next (takePostings { s with st := y.decideAll }) ∧
           let x := y.decideAll
           (x.node n).seen = (e.kind, .present, 0, some (ans.state, s.st.clock)) ∧ dues s.st y n cls ∧
           (∀ m, m ≠ n → (x.node m).seen = (s.st.node m).seen) ∧
           (x.line l).calls =
             ((s.st.line l).rollPointer, none, (s.st.line l).broadcasts, (s.st.line l).started) ∧
           (∀ k, k ≠ l → (x.line k).calls = (s.st.line k).calls) ∧ s.st.Keeps x ∧
           (e.presence = .absent → ∃ rest,
             x.outbox = { kind := .nodePresent, clock := s.st.clock / 10, node := some n } :: rest) ∧
           (∀ v r f, call = .halt → s.st.occupant? n = some (.valve v) → s.st.stroke? v = some r → r.phase = .halting →
             r.pendingEnd = some f → ∃ b, untouched s.st b ∧ y = Station.endStroke false b r f)))) ∧
  (∀ (s : State) (l : Line) (a : Nat) (call : CallKind) (cls : Nat), s.up → s.st.canonical = true →
     (s.st.line l).onLine = some (.addressed a call cls) →
     let n : Node := ⟨l, a⟩
     let e := s.st.node n
     ∃ y : Station, exec (.answerTimeout l) s = .next (takePostings { s with st := y.decideAll }) ∧
       let x := y.decideAll
       (e.kind = .none → (x.node n).seen = e.seen) ∧
       (e.kind ≠ .none → (x.node n).seen =
         (e.kind, if 2 ≤ e.misses then .absent else e.presence, min (e.misses + 1) 3, e.last) ∧ dues s.st y n cls) ∧
       (∀ m, m ≠ n → (x.node m).seen = (s.st.node m).seen) ∧
       (x.line l).calls = ((s.st.line l).rollPointer, none, (s.st.line l).broadcasts, (s.st.line l).started) ∧
       (∀ k, k ≠ l → (x.line k).calls = (s.st.line k).calls) ∧ s.st.Keeps x ∧
       (e.kind ≠ .none → 2 ≤ e.misses → e.presence ≠ .absent → ∃ rest,
         x.outbox = { kind := .nodeAbsent, clock := s.st.clock / 10, node := some n } :: rest) ∧
       (∀ v, e.kind ≠ .none → e.misses < 2 ∨ e.presence = .absent → s.st.occupant? n = some (.valve v) →
         ∃ b, untouched s.st b ∧ b.vs = s.st.vs ∧ (call = .stroke → y = b.missStroke n v) ∧
           (∀ r f, call = .halt → s.st.stroke? v = some r → r.phase = .halting → r.pendingEnd = some f →
             y = Station.endStroke false b r f)) ∧
       (e.kind ≠ .none → 2 ≤ e.misses → e.presence ≠ .absent →
         (y.node n).detailDue = none ∧ (y.node n).step = .needDetail ∧ a ∉ (y.line l).strokes ∧ a ∉ (y.line l).halts ∧
         (∀ k, s.st.occupant? n = some (.sensor k) → y.sensorWatch k = { s.st.sensorWatch k with lowRun := none }) ∧
         (∀ v, s.st.occupant? n = some (.valve v) → ∃ b, untouched s.st b ∧ b.vs = s.st.vs ∧
           (b.node n).presence = .absent ∧
           b.outbox = s.st.outbox ++ [{ kind := .nodeAbsent, clock := s.st.clock / 10, node := some n }] ∧
           let offLine (t : Station) : Station := { t with lineA := s.st.lineA, lineB := s.st.lineB }
           (s.st.stroke? v = none → offLine y = offLine (b.nodeLost v)) ∧
           (∀ r, s.st.stroke? v = some r →
             offLine y = offLine (Station.endStroke true (b.nodeLost v) r (r.pendingEnd.getD (.failed .nodeAbsent))) ∧
             y.stroke? v = none ∧ (y.vsOf v).owner = none))))

/-- The two lower bounds of a stroke time: each is the least number of tenths whose product with the divisor reaches
the dividend; their ranges and the range of the sums that form them, for inputs in the ranges of R2 and R4. -/
def Obligations.TheTwoBoundsOfAStrokeTime : Prop :=
  ∀ (L a v hmax : Nat), 1 ≤ L → L ≤ 20000 → 300 ≤ a → a ≤ 1400 → v ≤ 5000 → 10 ≤ hmax → hmax ≤ 1000 →
    let least (t x y : Nat) : Prop := x ≤ t * y ∧ ∀ u, x ≤ u * y → t ≤ u
    20 * L * v ≤ 2000000000 ∧ 9810 ≤ 981 * hmax ∧ 981 * hmax ≤ 981000 ∧ 20 * L + a - 1 ≤ 2000980999 ∧
    least (criticalPeriod L a) (20 * L) a ∧ 1 ≤ criticalPeriod L a ∧ criticalPeriod L a ≤ 1334 ∧
    criticalPeriod L a = (20 * L + a - 1) / a ∧ criticalPeriod 1 1400 = 1 ∧ criticalPeriod 20000 300 = 1334 ∧
    least (slowClosure L v hmax) (20 * L * v) (981 * hmax) ∧ slowClosure L v hmax ≤ 203874 ∧
    slowClosure L v hmax = (20 * L * v + 981 * hmax - 1) / (981 * hmax) ∧ slowClosure L 0 hmax = 0 ∧
    slowClosure 20000 5000 10 = 203874 ∧ 20 * L * v + 981 * hmax - 1 ≤ 2000980999

/-- A stroke time from its bounds: the largest bound times the factor, capped at Tmax with the surge-limited mark;
never below the critical period but for the mark, and within Tmin..Tmax. The other arithmetic of strokes and samples:
a residual time is the share of the remaining travel, raised to Tmin; a timeout is half as long again and 10 s; a
baseline moves a sixteenth of the way toward the sample. -/
def Obligations.StrokeTimesAndTheirShares : Prop :=
  (∀ (L a v hmax tmin tmax f : Nat), 1 ≤ L → L ≤ 20000 → 300 ≤ a → a ≤ 1400 → v ≤ 5000 → 10 ≤ hmax → hmax ≤ 1000 →
     10 ≤ tmin → tmin ≤ tmax → tmax ≤ 36000 → f ∈ ([1, 2, 4, 8] : List Nat) →
     let p := profile L a v hmax tmin tmax f
     let base := max (criticalPeriod L a) (max (slowClosure L v hmax) tmin)
     10 ≤ base ∧ base ≤ 203874 ∧ p.tcrit = criticalPeriod L a ∧ p.treq = base * f ∧ 10 ≤ p.treq ∧ p.treq ≤ 1630992 ∧
     (p.treq ≤ tmax → p.tcmd = p.treq ∧ p.limited = false) ∧ (tmax < p.treq → p.tcmd = tmax ∧ p.limited = true) ∧
     (p.tcmd < p.tcrit → p.tcmd = tmax ∧ tmax < p.tcrit ∧ p.limited = true) ∧ tmin ≤ p.tcmd ∧ p.tcmd ≤ tmax) ∧
  ((∀ tcmd p tmin tmax : Nat, p ≤ 100 → 10 ≤ tmin → tmin ≤ tcmd → tcmd ≤ tmax → tmax ≤ 36000 →
     residualTime true tcmd p tmin = max ((tcmd * p + 99) / 100) tmin ∧
     residualTime false tcmd p tmin = max ((tcmd * (100 - p) + 99) / 100) tmin ∧
     tmin ≤ residualTime true tcmd p tmin ∧ residualTime true tcmd p tmin ≤ tmax ∧
     tmin ≤ residualTime false tcmd p tmin ∧ residualTime false tcmd p tmin ≤ tmax) ∧
   (∀ p : Nat, (withinTarget true p = true ↔ p ≤ 2) ∧ (withinTarget false p = true ↔ 98 ≤ p)) ∧
   (∀ t : Nat, 10 ≤ t → t ≤ 36000 →
     strokeTimeout t = (t * 3 + 1) / 2 + 100 ∧ 115 ≤ strokeTimeout t ∧ strokeTimeout t ≤ 54100) ∧
   (∀ b h : Nat, b ≤ 4000 → h ≤ 4000 →
     (trackBaseline b h : Int) = b + ((h : Int) - b).tdiv 16 ∧ trackBaseline b h ≤ 4000 ∧
     (b ≤ h + 15 → h ≤ b + 15 → trackBaseline b h = b)))

/-- Every step keeps the tables of the station in their canonical form: numbers rising and once each, and no record
listed that an unlisted number reads as. -/
def Obligations.EveryStepKeepsTheTablesCanonical : Prop :=
  ∀ s t : State, s.st.canonical = true → step s = .next t → t.st.canonical = true

/-- A zone's surge factor is 1, 2, 4 or 8: every step keeps it so. -/
def Obligations.EveryStepKeepsTheSurgeFactors : Prop :=
  ∀ s t : State, s.st.factorsOk = true → step s = .next t → t.st.factorsOk = true

/-- Every step keeps the link within its bounds: at most 32 notices and 2 waiting requests, a frame in assembly within
the longest frame, requests waiting only while a reply is being sent, no posted notice left over. -/
def Obligations.EveryStepKeepsTheLinkBounds : Prop :=
  ∀ s t : State, s.linkOk = true → step s = .next t → t.linkOk = true

/-- The slots agree with their states and the free list names exactly the FREE slots, each once (R82): every step
keeps it so. -/
def Obligations.EveryStepKeepsTheSlots : Prop :=
  ∀ s t : State, s.st.canonical = true → s.st.SlotsOk → step s = .next t → t.st.SlotsOk

/-- A valve's hold count is the number of slots whose closed-by list contains it (R33): every step keeps it so, the
slots agreeing with their states. -/
def Obligations.EveryStepKeepsTheHoldCounts : Prop :=
  ∀ s t : State, s.st.canonical = true → s.st.SlotsOk → s.st.HoldsCounted → step s = .next t → t.st.HoldsCounted

/-- The node map names a record at a place exactly when the record names the place (R7): every step keeps it so. -/
def Obligations.EveryStepKeepsTheNodeMap : Prop :=
  ∀ s t : State, s.st.canonical = true → s.st.MapAgrees → step s = .next t → t.st.MapAgrees

/-- A QUIET zone with no PENDING or HALTED entry in it has the surge factor 1 (R145): every step keeps it so, the
slots agreeing with their states. -/
def Obligations.EveryStepKeepsQuietFactorsAtOne : Prop :=
  ∀ s t : State, s.st.canonical = true → s.st.SlotsOk → s.st.FactorsReturned → step s = .next t →
    t.st.FactorsReturned

end
end

