-- ==== Sys2Proof/Laws/Table.lean ====
section
/-! SUPPORT. Tables: every operation keeps the canonical form, and a read after a write. -/

namespace Sys2Proof.Machine.Table

variable {α : Type}

theorem above_iff (n : Nat) (t : Table α) : Table.above n t = true ↔ ∀ e ∈ t, n < e.1 := by
  simp [Table.above]

theorem all_put (p : Nat × α → Bool) (t : Table α) (n : Nat) (x : α) (hx : p (n, x) = true) (h : t.all p = true) :
    (t.put n x).all p = true := by
  induction t with
  | nil => simp [Table.put, hx]
  | cons e t ih =>
    obtain ⟨k, r⟩ := e
    rw [List.all_cons, Bool.and_eq_true] at h
    unfold Table.put
    split
    · simp [List.all_cons, hx, h.2]
    · split
      · simp [List.all_cons, hx, h.1, h.2]
      · simp [List.all_cons, h.1, ih h.2]

theorem all_drop (p : Nat × α → Bool) (t : Table α) (n : Nat) (h : t.all p = true) :
    (t.drop n).all p = true := by
  induction t with
  | nil => simp [Table.drop]
  | cons e t ih =>
    obtain ⟨k, r⟩ := e
    rw [List.all_cons, Bool.and_eq_true] at h
    unfold Table.drop
    split
    · exact h.2
    · split
      · simp [List.all_cons, h.1, h.2]
      · simp [List.all_cons, h.1, ih h.2]

theorem above_put (m n : Nat) (x : α) (t : Table α) (hm : m < n) (h : Table.above m t = true) :
    Table.above m (t.put n x) = true := all_put _ _ _ _ (by simpa using hm) h

theorem above_drop (m n : Nat) (t : Table α) (h : Table.above m t = true) : Table.above m (t.drop n) = true :=
  all_drop _ _ _ h

theorem above_trans {m n : Nat} {t : Table α} (hm : m < n) (h : Table.above n t = true) : Table.above m t = true := by
  rw [above_iff] at h ⊢
  exact fun e he => lt_trans hm (h e he)

/-- Listing a record keeps the canonical form. -/
theorem wf_put (n : Nat) (x : α) (t : Table α) (h : Table.wf t = true) : Table.wf (t.put n x) = true := by
  induction t with
  | nil => simp [Table.put, Table.wf, Table.above]
  | cons e t ih =>
    obtain ⟨k, r⟩ := e
    simp only [Table.wf, Bool.and_eq_true] at h
    unfold Table.put
    split
    · rename_i hn
      subst hn
      simp [Table.wf, h.1, h.2]
    · split
      · rename_i hlt
        simp only [Table.wf, Bool.and_eq_true]
        refine ⟨?_, h⟩
        rw [above_iff]
        intro e he
        rcases List.mem_cons.mp he with rfl | he
        · exact hlt
        · exact lt_trans hlt ((above_iff _ _).mp h.1 e he)
      · simp only [Table.wf, Bool.and_eq_true]
        exact ⟨above_put _ _ _ _ (by omega) h.1, ih h.2⟩

/-- Removing a number keeps the canonical form. -/
theorem wf_drop (n : Nat) (t : Table α) (h : Table.wf t = true) : Table.wf (t.drop n) = true := by
  induction t with
  | nil => simp [Table.drop, Table.wf]
  | cons e t ih =>
    obtain ⟨k, r⟩ := e
    simp only [Table.wf, Bool.and_eq_true] at h
    unfold Table.drop
    split
    · exact h.2
    · split
      · simp [Table.wf, h.1, h.2]
      · simp only [Table.wf, Bool.and_eq_true]
        exact ⟨above_drop _ _ _ h.1, ih h.2⟩

theorem find_put_same (n : Nat) (x : α) (t : Table α) : (t.put n x).find? n = some x := by
  induction t with
  | nil => simp [Table.put, Table.find?]
  | cons e t ih =>
    obtain ⟨k, r⟩ := e
    unfold Table.put
    split
    · simp [Table.find?]
    · split
      · simp [Table.find?]
      · rename_i h1 h2
        simp [Table.find?, h1, h2, ih]

theorem find_put_other (n m : Nat) (x : α) (t : Table α) (h : m ≠ n) : (t.put n x).find? m = t.find? m := by
  induction t with
  | nil => simp [Table.put, Table.find?, h]
  | cons e t ih =>
    obtain ⟨k, r⟩ := e
    unfold Table.put
    split
    · rename_i hn
      subst hn
      simp [Table.find?, h]
    · split
      · rename_i h1 h2
        simp only [Table.find?, h, if_false]
        by_cases hlt : m < n
        · have : m ≠ k := by omega
          have : m < k := by omega
          simp [*]
        · simp [hlt]
      · simp only [Table.find?, ih]

theorem find_of_above {n : Nat} {t : Table α} (h : Table.above n t = true) : t.find? n = none := by
  cases t with
  | nil => rfl
  | cons e t =>
    obtain ⟨k, r⟩ := e
    have hk : n < k := (above_iff _ _).mp h (k, r) (by simp)
    have : n ≠ k := by omega
    simp [Table.find?, this, hk]

theorem find_drop_same (n : Nat) (t : Table α) (h : Table.wf t = true) : (t.drop n).find? n = none := by
  induction t with
  | nil => rfl
  | cons e t ih =>
    obtain ⟨k, r⟩ := e
    simp only [Table.wf, Bool.and_eq_true] at h
    unfold Table.drop
    split
    · rename_i hn
      subst hn
      exact find_of_above h.1
    · split
      · rename_i h1 h2
        simp [Table.find?, h1, h2]
      · rename_i h1 h2
        simp [Table.find?, h1, h2, ih h.2]

theorem find_drop_other (n m : Nat) (t : Table α) (h : Table.wf t = true) (hm : m ≠ n) :
    (t.drop n).find? m = t.find? m := by
  induction t with
  | nil => rfl
  | cons e t ih =>
    obtain ⟨k, r⟩ := e
    simp only [Table.wf, Bool.and_eq_true] at h
    unfold Table.drop
    split
    · rename_i hn
      subst hn
      simp only [Table.find?, hm, if_false]
      split
      · rename_i hlt
        exact find_of_above (above_trans hlt h.1)
      · rfl
    · split
      · rfl
      · simp only [Table.find?, ih h.2]

variable [DecidableEq α]

/-- Writing a record keeps the canonical form. -/
theorem wf_writeD (t : Table α) (d : α) (n : Nat) (x : α) (h : Table.wf t = true) :
    Table.wf (t.writeD d n x) = true := by
  unfold Table.writeD
  split
  · exact wf_drop _ _ h
  · exact wf_put _ _ _ h

theorem all_writeD (p : Nat × α → Bool) (t : Table α) (d : α) (n : Nat) (x : α)
    (hx : x ≠ d → p (n, x) = true) (h : t.all p = true) : (t.writeD d n x).all p = true := by
  unfold Table.writeD
  split
  · exact all_drop _ _ _ h
  · rename_i hne
    exact all_put _ _ _ _ (hx hne) h

/-- Writing a record lists no unlisted record. -/
theorem lean_writeD (t : Table α) (d : α) (n : Nat) (x : α) (h : Table.lean d t = true) :
    Table.lean d (t.writeD d n x) = true :=
  all_writeD _ _ _ _ _ (fun hx => by simpa using hx) h

/-- A record reads as it was written. -/
theorem readD_writeD_same (t : Table α) (d : α) (n : Nat) (x : α) (h : Table.wf t = true) :
    (t.writeD d n x).readD d n = x := by
  unfold Table.writeD Table.readD
  split
  · rename_i hx
    simp [find_drop_same _ _ h, hx]
  · simp [find_put_same]

/-- Every other number reads as before. -/
theorem readD_writeD_other (t : Table α) (d : α) (n m : Nat) (x : α) (h : Table.wf t = true) (hm : m ≠ n) :
    (t.writeD d n x).readD d m = t.readD d m := by
  unfold Table.writeD Table.readD
  split
  · simp [find_drop_other _ _ _ h hm]
  · simp [find_put_other _ _ _ _ hm]

omit [DecidableEq α] in
/-- Replacing a listed record changes nothing that does not see the replacement. -/
theorem map_put {β : Type} (g : α → β) (t : Table α) (n : Nat) (r x : α) (hr : t.find? n = some r) (hg : g x = g r) :
    (t.put n x).map (fun p => (p.1, g p.2)) = t.map fun p => (p.1, g p.2) := by
  induction t with
  | nil => simp [Table.find?] at hr
  | cons e t ih =>
    obtain ⟨k, y⟩ := e
    unfold Table.find? at hr
    unfold Table.put
    split at hr
    · rename_i hn
      cases hr
      simp [hn, hg]
    · split at hr
      · cases hr
      · rename_i h1 h2
        simp [h1, h2, ih hr]

omit [DecidableEq α] in
/-- A map that keeps the numbers keeps the rising order. -/
theorem wf_map (f : Nat × α → α) (t : Table α) (h : Table.wf t = true) :
    Table.wf (t.map fun p => (p.1, f p)) = true := by
  induction t with
  | nil => rfl
  | cons e t ih =>
    obtain ⟨k, y⟩ := e
    simp only [Table.wf, Bool.and_eq_true, List.map_cons] at h ⊢
    refine ⟨?_, ih h.2⟩
    rw [above_iff] at *
    intro e he
    obtain ⟨a, ha, rfl⟩ := List.mem_map.mp he
    exact h.1 a ha

omit [DecidableEq α] in
/-- Keeping some of the records keeps the rising order. -/
theorem wf_filter (p : Nat × α → Bool) (t : Table α) (h : Table.wf t = true) :
    Table.wf (List.filter p t) = true := by
  induction t with
  | nil => rfl
  | cons e t ih =>
    obtain ⟨k, y⟩ := e
    simp only [Table.wf, Bool.and_eq_true] at h
    by_cases hp : p (k, y) = true
    · rw [List.filter_cons_of_pos hp]
      simp only [Table.wf, Bool.and_eq_true]
      refine ⟨?_, ih h.2⟩
      rw [above_iff] at *
      exact fun e he => h.1 e (List.mem_filter.mp he).1
    · rw [List.filter_cons_of_neg hp]
      exact ih h.2

omit [DecidableEq α] in
/-- The records of a list gathered under their numbers are in the canonical form. -/
theorem wf_gather (rows : List (Nat × α)) : Table.wf (Table.gather rows) = true := by
  have : ∀ (xs : List (Nat × α)) (t : Table α), Table.wf t = true →
      Table.wf (xs.foldl (fun t p => t.put p.1 p.2) t) = true := by
    intro xs
    induction xs with
    | nil => exact fun t h => h
    | cons x xs ih => exact fun t h => ih _ (wf_put _ _ _ h)
  exact this rows [] rfl

omit [DecidableEq α] in
/-- Gathering reads as what was there before, but for the numbers of the list. -/
theorem find_foldl_put_other (rows : List (Nat × α)) (t : Table α) (n : Nat)
    (hn : n ∉ rows.map (·.1)) : Table.find? (rows.foldl (fun t p => t.put p.1 p.2) t) n = t.find? n := by
  induction rows generalizing t with
  | nil => rfl
  | cons x xs ih =>
    simp only [List.map_cons, List.mem_cons, not_or] at hn
    rw [List.foldl_cons, ih _ hn.2, find_put_other _ _ _ _ hn.1]

omit [DecidableEq α] in
/-- A list with each number once, gathered under its numbers, reads as the list does. -/
theorem find_gather (rows : List (Nat × α)) (n : Nat) (r : α) (h : (rows.map (·.1)).Nodup) :
    Table.find? (Table.gather rows) n = some r ↔ (n, r) ∈ rows := by
  have : ∀ (xs : List (Nat × α)) (t : Table α), (xs.map (·.1)).Nodup →
      (∀ m ∈ xs.map (·.1), t.find? m = none) →
      (Table.find? (xs.foldl (fun t p => t.put p.1 p.2) t) n = some r ↔ (n, r) ∈ xs ∨ t.find? n = some r) := by
    intro xs
    induction xs with
    | nil => intro t _ _; simp
    | cons x xs ih =>
      intro t hx hm
      simp only [List.map_cons, List.nodup_cons] at hx
      rw [List.foldl_cons]
      by_cases hn : n = x.1
      · have hno : n ∉ xs.map (·.1) := hn ▸ hx.1
        rw [find_foldl_put_other _ _ _ hno, hn, find_put_same]
        have h1 : t.find? x.1 = none := hm _ (by simp)
        have h2 : (x.1, r) ∉ xs := fun hq => hx.1 (List.mem_map.mpr ⟨_, hq, rfl⟩)
        obtain ⟨k, y⟩ := x
        simp only [h1, List.mem_cons, Prod.mk.injEq, true_and, h2, or_false, reduceCtorEq]
        exact ⟨fun e => (Option.some.inj e).symm, fun e => by rw [e]⟩
      · rw [ih _ hx.2 fun m hq => by
          have : m ≠ x.1 := fun e => hx.1 (e ▸ hq)
          rw [find_put_other _ _ _ _ this]
          exact hm m (by simp [hq])]
        rw [find_put_other _ _ _ _ hn]
        obtain ⟨k, y⟩ := x
        simp only [List.mem_cons, Prod.mk.injEq]
        simp only at hn
        simp [hn]
  rw [Table.gather, this rows [] h (by simp [Table.find?])]
  simp [Table.find?]

end Sys2Proof.Machine.Table
end

