-- ==== Sys2Proof/Laws/Moves.lean ====
section
/-! SUPPORT. The frames of motion for the named operations over the station (Ops, Queue). Each law carries a frame
through one more operation, so that `simp` closes the frame of a composition. -/

namespace Sys2Proof.Machine

theorem Table.tidy_writeD {α : Type} [DecidableEq α] (t : Table α) (d : α) (n : Nat) (x : α)
    (h : Table.tidy d t = true) : Table.tidy d (t.writeD d n x) = true := by
  simp only [Table.tidy, Bool.and_eq_true] at h ⊢
  exact ⟨Table.wf_writeD _ _ _ _ h.1, Table.lean_writeD _ _ _ _ h.2⟩

/-- A map over the records keeps the form when it keeps each number and turns no record into the unlisted one. -/
theorem Table.tidy_map {α : Type} [DecidableEq α] (d : α) (g : Nat × α → Nat × α) (t : Table α)
    (h1 : ∀ p, (g p).1 = p.1) (h2 : ∀ p, p.2 ≠ d → (g p).2 ≠ d) (h : Table.tidy d t = true) :
    Table.tidy d (t.map g) = true := by
  simp only [Table.tidy, Bool.and_eq_true] at h ⊢
  have e : t.map g = t.map fun p => (p.1, (g p).2) :=
    List.map_congr_left fun p _ => Prod.ext (h1 p) rfl
  refine ⟨by rw [e]; exact Table.wf_map (fun p => (g p).2) _ h.1, ?_⟩
  simp only [Table.lean, List.all_map, List.all_eq_true, decide_eq_true_eq, Function.comp] at h ⊢
  exact fun p hp => h2 p (h.2 p hp)

/-- What is read of every number is what was read, when the record written shows the same. -/
theorem Table.view_writeD {α β : Type} [DecidableEq α] (g : α → β) (t : Table α) (d : α) (n m : Nat) (x : α)
    (h : Table.tidy d t = true) (hx : g x = g (t.readD d n)) : g ((t.writeD d n x).readD d m) = g (t.readD d m) := by
  simp only [Table.tidy, Bool.and_eq_true] at h
  by_cases hm : m = n
  · subst hm
    rw [Table.readD_writeD_same _ _ _ _ h.1, hx]
  · rw [Table.readD_writeD_other _ _ _ _ _ h.1 hm]

/-- What is shown of every number is what was shown, when a map over the records shows the same of each. -/
theorem Table.view_map {α β : Type} (v : α → β) (g : Nat × α → Nat × α) (t : Table α) (d : α) (n : Nat)
    (h1 : ∀ p, (g p).1 = p.1) (h2 : ∀ p, v (g p).2 = v p.2) :
    v (Table.readD (List.map g t) d n) = v (t.readD d n) := by
  simp only [Table.readD]
  induction t with
  | nil => rfl
  | cons p t ih =>
    have e : g p = (p.1, (g p).2) := Prod.ext (h1 p) rfl
    rw [List.map_cons, e]
    obtain ⟨k, r⟩ := p
    simp only [Table.find?]
    split
    · exact h2 (k, r)
    · split
      · rfl
      · exact ih

/-- The current velocity of a valve, as the frames read it. -/
def VsRec.current (d : VsRec) : Option (Nat × Nat) := d.flow

/-- The zone's surge factor is in range. -/
def ZoneWatch.sound (w : ZoneWatch) : Bool := factorOk w.factor

@[simp] theorem Slot.settled_update (r : Slot) (st w cb f e rp rs ro) :
    Slot.settled ⟨st, r.burst, r.authorized, r.overrideMark, r.overrideRequired, r.region, w, cb, f, e, rp, r.report,
      r.deadline, rs, r.released, ro⟩ = r.settled := by cases r; rfl

@[simp] theorem Slot.settled_ite {c : Prop} {_ : Decidable c} (x y : Slot) :
    (if c then x else y).settled = if c then x.settled else y.settled := apply_ite _ _ _ _

@[simp] theorem VsRec.current_update (d : VsRec) (p c st h l f o r k) :
    VsRec.current ⟨p, c, st, h, l, f, o, r, d.flow, k⟩ = d.current := by cases d; rfl

@[simp] theorem Valve.fixed_update (r : Valve) (h m e) :
    Valve.fixed ⟨r.sideA, r.sideB, r.zone, r.normal, r.kind, r.node, r.length, r.waveSpeed, r.velocity, r.tmin, r.tmax,
      r.stall, h, m, e⟩ = r.fixed := by cases r; rfl

@[simp] theorem ZoneWatch.sound_update (w : ZoneWatch) (st h a p) :
    ZoneWatch.sound ⟨st, w.factor, h, a, p⟩ = w.sound := by cases w; rfl

@[simp] theorem NodeEntry.seen_update (e : NodeEntry) (a h r d p) :
    NodeEntry.seen ⟨e.kind, e.presence, e.misses, a, h, e.last, r, d, p⟩ = e.seen := by cases e; rfl

@[simp] theorem NodeEntry.mark_update (e : NodeEntry) (k p m l r d q) :
    NodeEntry.mark ⟨k, p, m, e.attend, e.step, l, r, d, q⟩ = e.mark := by cases e; rfl

@[simp] theorem FieldLine.calls_update (x : FieldLine) (n h k) :
    FieldLine.calls ⟨n, x.rollPointer, x.onLine, x.broadcasts, h, k, x.started⟩ = x.calls := by cases x; rfl

namespace Station

variable {s t : Station}

/-- The frame of motion from its parts; a part left out holds by definition. -/
theorem Moves.of (clock : t.clock = s.clock := by rfl) (storage : t.ss = s.ss := by rfl)
    (warning : t.supplyWarning = s.supplyWarning := by rfl) (network : t.nt.fixed = s.nt.fixed := by rfl)
    (freeList : t.im.freeList = s.im.freeList := by rfl)
    (posted : ∃ ns, t.outbox = s.outbox ++ ns := by exact ⟨[], (List.append_nil _).symm⟩)
    (canonical : s.canonical = true → t.canonical = true := by exact id)
    (factors : s.factorsOk = true → t.factorsOk = true := by exact id)
    (lines : ∀ l, (t.line l).calls = (s.line l).calls := by intro l; cases l <;> rfl)
    (nodes : s.canonical = true → ∀ n, (t.node n).seen = (s.node n).seen := by
      intro _ n; cases n with | mk l a => cases l <;> rfl)
    (owner : t.im.owner = s.im.owner := by rfl) (sensors : t.pw.sensors = s.pw.sensors := by rfl)
    (slots : s.canonical = true → ∀ k, (t.slot k).settled = (s.slot k).settled := by exact fun _ _ => rfl)
    (holds : s.canonical = true → ∀ z, (t.zoneWatch z).hold = (s.zoneWatch z).hold := by exact fun _ _ => rfl)
    (returns : s.canonical = true → ∀ z, (t.zoneWatch z).factor = (s.zoneWatch z).factor ∨ (t.zoneWatch z).factor = 1 := by
      exact fun _ _ => Or.inl rfl)
    (flows : s.canonical = true → ∀ v, (t.vsOf v).flow = (s.vsOf v).flow := by exact fun _ _ => rfl)
    (marks : s.canonical = true → ∀ n, (t.node n).mark = (s.node n).mark := by
      intro _ n; cases n with | mk l a => cases l <;> rfl) : s.Moves t :=
  { clock, storage, warning, network, freeList, posted, canonical, factors, lines, nodes, owner, sensors, slots, holds
    returns, flows, marks }

/-- The frame of an event that ends no call, from its parts. -/
theorem Listens.of (clock : t.clock = s.clock := by rfl) (storage : t.ss = s.ss := by rfl)
    (warning : t.supplyWarning = s.supplyWarning := by rfl) (network : t.nt.fixed = s.nt.fixed := by rfl)
    (freeList : t.im.freeList = s.im.freeList := by rfl)
    (posted : ∃ ns, t.outbox = s.outbox ++ ns := by exact ⟨[], (List.append_nil _).symm⟩)
    (canonical : s.canonical = true → t.canonical = true := by exact id)
    (factors : s.factorsOk = true → t.factorsOk = true := by exact id)
    (lines : ∀ l, (t.line l).calls = (s.line l).calls := by intro l; cases l <;> rfl)
    (nodes : s.canonical = true → ∀ n, (t.node n).seen = (s.node n).seen := by
      intro _ n; cases n with | mk l a => cases l <;> rfl) : s.Listens t :=
  { clock, storage, warning, network, freeList, posted, canonical, factors, lines, nodes }

theorem Moves.refl (s : Station) : s.Moves s := Moves.of

theorem Keeps.trans {u : Station} (h : s.Keeps t) (g : t.Keeps u) : s.Keeps u where
  clock := g.clock.trans h.clock
  storage := g.storage.trans h.storage
  warning := g.warning.trans h.warning
  network := g.network.trans h.network
  freeList := g.freeList.trans h.freeList
  posted := by
    obtain ⟨x, hx⟩ := h.posted
    obtain ⟨y, hy⟩ := g.posted
    exact ⟨x ++ y, by rw [hy, hx, List.append_assoc]⟩
  canonical := fun c => g.canonical (h.canonical c)
  factors := fun c => g.factors (h.factors c)

theorem Listens.trans {u : Station} (h : s.Listens t) (g : t.Listens u) : s.Listens u where
  toKeeps := h.toKeeps.trans g.toKeeps
  lines := fun l => (g.lines l).trans (h.lines l)
  nodes := fun c n => (g.nodes (h.canonical c) n).trans (h.nodes c n)

theorem Moves.trans {u : Station} (h : s.Moves t) (g : t.Moves u) : s.Moves u where
  toListens := h.toListens.trans g.toListens
  owner := g.owner.trans h.owner
  sensors := g.sensors.trans h.sensors
  slots := fun c k => (g.slots (h.canonical c) k).trans (h.slots c k)
  holds := fun c k => (g.holds (h.canonical c) k).trans (h.holds c k)
  returns := fun c k => (g.returns (h.canonical c) k).elim (fun e => by rw [e]; exact h.returns c k) Or.inr
  flows := fun c k => (g.flows (h.canonical c) k).trans (h.flows c k)
  marks := fun c k => (g.marks (h.canonical c) k).trans (h.marks c k)

/-- The canonical form of the tables and the range of the surge factors go on. -/
structure Safe (s t : Station) : Prop where
  canonical : s.canonical = true → t.canonical = true
  factors : s.factorsOk = true → t.factorsOk = true

theorem Safe.trans {u : Station} (h : s.Safe t) (g : t.Safe u) : s.Safe u :=
  ⟨fun c => g.canonical (h.canonical c), fun c => g.factors (h.factors c)⟩

theorem Keeps.safe (h : s.Keeps t) : s.Safe t := ⟨h.canonical, h.factors⟩

/-- The frame of a level: at 0 the tables stay sound, at 1 or more the frame of every event holds, at 2 or more that
of an event that ends no call, at 3 or more that of motion. -/
structure Frame (b : Nat) (s t : Station) : Prop where
  safe : s.Safe t
  keeps : 1 ≤ b → s.Keeps t
  listens : 2 ≤ b → s.Listens t
  moves : 3 ≤ b → s.Moves t

variable {b : Nat}

@[simp, refl] theorem Frame.refl (s : Station) : Frame b s s :=
  ⟨(Moves.refl s).toKeeps.safe, fun _ => (Moves.refl s).toKeeps, fun _ => (Moves.refl s).toListens, fun _ => Moves.refl s⟩

theorem Frame.trans {u : Station} (h : Frame b s t) (g : Frame b t u) : Frame b s u :=
  ⟨h.safe.trans g.safe, fun e => (h.keeps e).trans (g.keeps e), fun e => (h.listens e).trans (g.listens e),
    fun e => (h.moves e).trans (g.moves e)⟩

/-- A frame goes on through an operation of motion. -/
theorem Frame.after {u : Station} (h : Frame b s t) (g : t.Moves u) : Frame b s u :=
  h.trans ⟨g.toKeeps.safe, fun _ => g.toKeeps, fun _ => g.toListens, fun _ => g⟩

/-- The frame of an event that ends no call goes on through such an event. -/
theorem Frame.wide {u : Station} (h : Frame b s t) (g : t.Listens u) (hb : b ≤ 2) : Frame b s u :=
  h.trans ⟨g.toKeeps.safe, fun _ => g.toKeeps, fun _ => g, fun e => by omega⟩

/-- The frame of every event goes on through an event. -/
theorem Frame.wider {u : Station} (h : Frame b s t) (g : t.Keeps u) (hb : b ≤ 1) : Frame b s u :=
  h.trans ⟨g.safe, fun _ => g, fun e => by omega, fun e => by omega⟩

/-- The tables stay sound through an operation that keeps them so. -/
theorem Frame.widest {u : Station} (h : Frame 0 s t) (g : t.Safe u) : Frame 0 s u :=
  h.trans ⟨g, fun e => by omega, fun e => by omega, fun e => by omega⟩

@[simp] theorem Frame.ite {c : Prop} {_ : Decidable c} {x y : Station} (hx : Frame b s x) (hy : Frame b s y) :
    Frame b s (if c then x else y) := by
  split <;> assumption

@[simp] theorem Frame.foldl {α : Type} (xs : List α) (f : Station → α → Station) (hf : ∀ (t : Station) (a : α), Frame b t (f t a))
    (h : Frame b s t) : Frame b s (xs.foldl f t) := by
  induction xs generalizing t with
  | nil => exact h
  | cons a xs ih => exact ih (h.trans (hf t a))

theorem canonical_iff (s : Station) : s.canonical = true ↔
    Table.wf s.nt.segments = true ∧ Table.wf s.nt.valves = true ∧ Table.tidy {} s.nt.zones = true ∧
    Table.wf s.nt.sensors = true ∧ Table.wf s.nt.nodeMap = true ∧ Table.tidy {} s.vs = true ∧
    Table.tidy {} s.im.slots = true ∧ Table.wf s.im.owner = true ∧ Table.tidy 0 s.md.counts = true ∧
    Table.tidy {} s.pw.zones = true ∧ Table.tidy {} s.pw.sensors = true ∧ Table.tidy {} s.lineA.nodes = true ∧
    Table.tidy {} s.lineB.nodes = true := by
  simp [Station.canonical, Bool.and_eq_true, and_assoc]

/-- A change of the parts of the station that no frame speaks of: strokes, requests, exercises and the planner. -/
theorem Frame.inner {u : Station} (h : Frame b s t)
    (e : u = { t with md := u.md, xu := u.xu, ip := u.ip }) (hc : u.md.counts = t.md.counts) : Frame b s u := by
  refine h.after ?_
  rw [e]
  refine Moves.of (canonical := fun c => ?_)
  rw [canonical_iff] at *
  simpa [hc] using c

@[simp] theorem Frame.post (n : Notice) (h : Frame b s t) : Frame b s (t.post n) :=
  h.after (Moves.of (posted := ⟨_, rfl⟩))

@[simp] theorem Frame.modValve (v : Nat) (f : Valve → Valve) (h : Frame b s t) (hf : ∀ r, (f r).fixed = r.fixed) :
    Frame b s (t.modValve v f) := by
  refine h.after ?_
  unfold Station.modValve
  split
  · rename_i r hr
    refine Moves.of (network := ?_) (canonical := fun c => ?_)
    · simp only [Network.fixed]
      congr 1
      exact Table.map_put Valve.fixed _ _ r _ hr (hf r)
    · rw [canonical_iff] at *
      exact ⟨c.1, Table.wf_put _ _ _ c.2.1, c.2.2⟩
  · exact Moves.refl _

theorem canonical_modVs (v : Nat) (f : VsRec → VsRec) (c : t.canonical = true) : (t.modVs v f).canonical = true := by
  rw [canonical_iff] at *
  obtain ⟨c1, c2, c3, c4, c5, c6, c7⟩ := c
  exact ⟨c1, c2, c3, c4, c5, Table.tidy_writeD _ _ _ _ c6, c7⟩

@[simp] theorem Frame.modVs (v : Nat) (f : VsRec → VsRec) (h : Frame b s t) (hf : ∀ r, (f r).current = r.current) :
    Frame b s (t.modVs v f) := by
  refine h.after (Moves.of (canonical := canonical_modVs v f) (flows := fun c w => ?_))
  rw [canonical_iff] at c
  exact Table.view_writeD (·.flow) _ _ _ _ _ c.2.2.2.2.2.1 (hf _)

theorem canonical_modSlot (k : Nat) (f : Slot → Slot) (c : t.canonical = true) :
    (t.modSlot k f).canonical = true := by
  rw [canonical_iff] at *
  obtain ⟨c1, c2, c3, c4, c5, c6, c7, c8⟩ := c
  exact ⟨c1, c2, c3, c4, c5, c6, Table.tidy_writeD _ _ _ _ c7, c8⟩

@[simp] theorem Frame.modSlot (k : Nat) (f : Slot → Slot) (h : Frame b s t) (hf : ∀ r, (f r).settled = r.settled) :
    Frame b s (t.modSlot k f) := by
  refine h.after (Moves.of (canonical := canonical_modSlot k f) (slots := fun c w => ?_))
  rw [canonical_iff] at c
  exact Table.view_writeD Slot.settled _ _ _ _ _ c.2.2.2.2.2.2.1 (hf _)

@[simp] theorem Frame.setCount (z n : Nat) (h : Frame b s t) : Frame b s (t.setCount z n) := by
  refine h.after (Moves.of (canonical := fun c => ?_))
  rw [canonical_iff] at *
  obtain ⟨c1, c2, c3, c4, c5, c6, c7, c8, c9, c10⟩ := c
  exact ⟨c1, c2, c3, c4, c5, c6, c7, c8, Table.tidy_writeD _ _ _ _ c9, c10⟩

theorem factor_readD (ht : t.factorsOk = true) (z : Nat) : factorOk (t.zoneWatch z).factor = true := by
  unfold Station.zoneWatch Table.readD
  have : ∀ (l : Table ZoneWatch), l.all (fun p => factorOk p.2.factor) = true →
      factorOk ((l.find? z).getD {}).factor = true := by
    intro l hl
    induction l with
    | nil => rfl
    | cons e l ih =>
      obtain ⟨k, r⟩ := e
      rw [List.all_cons, Bool.and_eq_true] at hl
      unfold Table.find?
      split
      · exact hl.1
      · split
        · rfl
        · exact ih hl.2
  exact this _ ht

theorem canonical_modZoneWatch (z : Nat) (f : ZoneWatch → ZoneWatch) (c : t.canonical = true) :
    (t.modZoneWatch z f).canonical = true := by
  rw [canonical_iff] at *
  obtain ⟨c1, c2, c3, c4, c5, c6, c7, c8, c9, c10, c11⟩ := c
  exact ⟨c1, c2, c3, c4, c5, c6, c7, c8, c9, Table.tidy_writeD _ _ _ _ c10, c11⟩

theorem factorsOk_modZoneWatch (z : Nat) (f : ZoneWatch → ZoneWatch) (c : t.factorsOk = true)
    (hf : (t.zoneWatch z).sound = true → (f (t.zoneWatch z)).sound = true) :
    (t.modZoneWatch z f).factorsOk = true :=
  Table.all_writeD _ _ _ _ _ (fun _ => hf (factor_readD c z)) c

theorem Frame.modZoneWatch (z : Nat) (f : ZoneWatch → ZoneWatch) (h : Frame b s t)
    (hh : (f (t.zoneWatch z)).hold = (t.zoneWatch z).hold)
    (hr : (f (t.zoneWatch z)).factor = (t.zoneWatch z).factor ∨ (f (t.zoneWatch z)).factor = 1)
    (hf : (t.zoneWatch z).sound = true → (f (t.zoneWatch z)).sound = true) :
    Frame b s (t.modZoneWatch z f) := by
  refine h.after (Moves.of (canonical := canonical_modZoneWatch z f)
    (factors := fun c => factorsOk_modZoneWatch z f c hf) (holds := fun c w => ?_) (returns := fun c w => ?_))
  · rw [canonical_iff] at c
    exact Table.view_writeD ZoneWatch.hold _ _ _ _ _ c.2.2.2.2.2.2.2.2.2.1 hh
  · rw [canonical_iff] at c
    have ht := c.2.2.2.2.2.2.2.2.2.1
    simp only [Table.tidy, Bool.and_eq_true] at ht
    by_cases hw : w = z
    · subst hw
      simp only [Station.zoneWatch, Station.modZoneWatch] at hr ⊢
      rw [Table.readD_writeD_same _ _ _ _ ht.1]
      exact hr
    · exact Or.inl (congrArg ZoneWatch.factor (Table.readD_writeD_other _ _ _ _ _ ht.1 hw))

/-- Every line's node table is in its canonical form. -/
theorem nodes_tidy (c : t.canonical = true) (l : Line) : Table.tidy {} (t.line l).nodes = true := by
  rw [canonical_iff] at c
  obtain ⟨c1, c2, c3, c4, c5, c6, c7, c8, c9, c10, c11, c12, c13⟩ := c
  cases l
  · exact c12
  · exact c13

theorem canonical_modLine (l : Line) (f : FieldLine → FieldLine)
    (hf : ∀ x, Table.tidy {} x.nodes = true → Table.tidy {} (f x).nodes = true) (c : t.canonical = true) :
    (t.modLine l f).canonical = true := by
  rw [canonical_iff] at *
  obtain ⟨c1, c2, c3, c4, c5, c6, c7, c8, c9, c10, c11, c12, c13⟩ := c
  cases l
  · exact ⟨c1, c2, c3, c4, c5, c6, c7, c8, c9, c10, c11, hf _ c12, c13⟩
  · exact ⟨c1, c2, c3, c4, c5, c6, c7, c8, c9, c10, c11, c12, hf _ c13⟩

/-- A line reads as it was rewritten, and the other as before. -/
theorem line_modLine (l m : Line) (f : FieldLine → FieldLine) :
    (t.modLine l f).line m = if m = l then f (t.line l) else t.line m := by
  cases l <;> cases m <;> rfl

/-- A rewriting of a line that keeps its calls and shows of its nodes what was shown is an operation of motion. -/
theorem Frame.modLineView (l : Line) (f : FieldLine → FieldLine) (h : Frame b s t)
    (hf : ∀ x, Table.tidy {} x.nodes = true → Table.tidy {} (f x).nodes = true)
    (hc : ∀ x, (f x).calls = x.calls)
    (hn : ∀ x, Table.tidy {} x.nodes = true → ∀ a,
      ((f x).nodes.readD {} a).seen = (x.nodes.readD {} a).seen ∧
      ((f x).nodes.readD {} a).mark = (x.nodes.readD {} a).mark) : Frame b s (t.modLine l f) := by
  refine h.after (Moves.of (clock := ?_) (storage := ?_) (warning := ?_) (network := ?_) (freeList := ?_)
    (posted := ?posted) (canonical := canonical_modLine l f hf) (factors := ?_) (lines := fun m => ?lines)
    (nodes := fun c n => ?nodes) (owner := ?_) (sensors := ?_) (slots := ?_) (holds := ?_)
    (returns := ?returns) (flows := ?_) (marks := fun c n => ?marks))
  case lines =>
    rw [line_modLine]
    split
    · rename_i e
      rw [e]
      exact hc _
    · rfl
  case nodes =>
    simp only [Station.node, line_modLine]
    split
    · rename_i e
      rw [e]
      exact (hn _ (nodes_tidy c l) _).1
    · rfl
  case marks =>
    simp only [Station.node, line_modLine]
    split
    · rename_i e
      rw [e]
      exact (hn _ (nodes_tidy c l) _).2
    · rfl
  case posted => exact ⟨[], by cases l <;> simp [Station.modLine]⟩
  case returns => cases l <;> exact fun _ _ => Or.inl rfl
  all_goals cases l <;> first | rfl | exact id | exact fun _ _ => rfl

/-- A rewriting of a line's queues. -/
@[simp] theorem Frame.modLine (l : Line) (f : FieldLine → FieldLine) (h : Frame b s t)
    (hn : ∀ x, (f x).nodes = x.nodes) (hc : ∀ x, (f x).calls = x.calls) : Frame b s (t.modLine l f) :=
  Frame.modLineView l f h (fun x hx => by rw [hn]; exact hx) hc fun x _ a => by rw [hn]; exact ⟨rfl, rfl⟩

/-- Any rewriting of a line that keeps its node table's form. -/
theorem Frame.modLineAny (l : Line) (f : FieldLine → FieldLine) (h : Frame b s t)
    (hf : ∀ x, Table.tidy {} x.nodes = true → Table.tidy {} (f x).nodes = true) (hb : b ≤ 1) :
    Frame b s (t.modLine l f) := by
  refine h.wider ?_ hb
  refine { clock := ?_, storage := ?_, warning := ?_, network := ?_, freeList := ?_, posted := ?posted
           canonical := canonical_modLine l f hf, factors := ?_ }
  case posted => exact ⟨[], by cases l <;> simp [Station.modLine]⟩
  all_goals cases l <;> first | rfl | exact id

/-- A rewriting of a node-table entry that keeps what was seen of the node and its mark. -/
@[simp] theorem Frame.modNode (n : Node) (f : NodeEntry → NodeEntry) (h : Frame b s t)
    (hs : ∀ e, (f e).seen = e.seen) (hm : ∀ e, (f e).mark = e.mark) : Frame b s (t.modNode n f) :=
  Frame.modLineView _ _ h (fun _ hx => Table.tidy_writeD _ _ _ _ hx) (fun _ => rfl) fun _ hx _ =>
    ⟨Table.view_writeD NodeEntry.seen _ _ _ _ _ hx (hs _), Table.view_writeD NodeEntry.mark _ _ _ _ _ hx (hm _)⟩

/-- A rewriting of a node-table entry that keeps what was seen of the node. -/
@[simp] theorem Frame.modNodeMark (n : Node) (f : NodeEntry → NodeEntry) (h : Frame b s t)
    (hs : ∀ e, (f e).seen = e.seen) (hb : b ≤ 2) : Frame b s (t.modNode n f) := by
  refine h.wide ?_ hb
  refine Listens.of (clock := ?_) (storage := ?_) (warning := ?_) (network := ?_) (freeList := ?_)
    (posted := ?posted) (canonical := canonical_modLine _ _ fun _ hx => Table.tidy_writeD _ _ _ _ hx)
    (factors := ?_) (lines := fun m => ?lines) (nodes := fun c m => ?nodes)
  case lines =>
    simp only [Station.modNode, line_modLine]
    split
    · rename_i e
      rw [e]
      rfl
    · rfl
  case nodes =>
    simp only [Station.node, Station.modNode, line_modLine]
    split
    · rename_i e
      rw [e]
      exact Table.view_writeD NodeEntry.seen _ _ _ _ _ (nodes_tidy c _) (hs _)
    · rfl
  case posted => exact ⟨[], by obtain ⟨l, a⟩ := n; cases l <;> simp [Station.modNode, Station.modLine]⟩
  all_goals
    obtain ⟨l, a⟩ := n
    cases l <;> first | rfl | exact id

/-- Any rewriting of a node-table entry. -/
@[simp] theorem Frame.modNodeAny (n : Node) (f : NodeEntry → NodeEntry) (h : Frame b s t) (hb : b ≤ 1) :
    Frame b s (t.modNode n f) :=
  Frame.modLineAny _ _ h (fun _ hx => Table.tidy_writeD _ _ _ _ hx) hb

@[simp] theorem Frame.modStroke (v : Nat) (f : Stroke → Stroke) (h : Frame b s t) : Frame b s (t.modStroke v f) :=
  h.inner rfl rfl

@[simp] theorem Frame.addStroke (r : Stroke) (h : Frame b s t) : Frame b s (t.addStroke r) := h.inner rfl rfl

@[simp] theorem Frame.dropStroke (v : Nat) (h : Frame b s t) : Frame b s (t.dropStroke v) := h.inner rfl rfl

@[simp] theorem Frame.addReturn (v : Nat) (h : Frame b s t) : Frame b s (t.addReturn v) := h.inner rfl rfl

@[simp] theorem Frame.dropReturn (v : Nat) (h : Frame b s t) : Frame b s (t.dropReturn v) := h.inner rfl rfl

@[simp] theorem Frame.addMove (m : Move) (h : Frame b s t) : Frame b s (t.addMove m) := h.inner rfl rfl

@[simp] theorem Frame.modMove (v : Nat) (f : Move → Move) (h : Frame b s t) : Frame b s (t.modMove v f) :=
  h.inner rfl rfl

@[simp] theorem Frame.dropMove (v : Nat) (h : Frame b s t) : Frame b s (t.dropMove v) := h.inner rfl rfl

@[simp] theorem Frame.addExercise (x : Exercise) (h : Frame b s t) : Frame b s (t.addExercise x) := h.inner rfl rfl

@[simp] theorem Frame.modExercise (v : Nat) (f : Exercise → Exercise) (h : Frame b s t) : Frame b s (t.modExercise v f) :=
  h.inner rfl rfl

@[simp] theorem Frame.dropExercise (v : Nat) (h : Frame b s t) : Frame b s (t.dropExercise v) := h.inner rfl rfl

@[simp] theorem Frame.modFlight (f : Flight → Flight) (h : Frame b s t) : Frame b s (t.modFlight f) := h.inner rfl rfl

@[simp] theorem Frame.markStale (h : Frame b s t) : Frame b s t.markStale := h.inner rfl rfl

@[simp] theorem Frame.startNext (h : Frame b s t) : Frame b s t.startNext := by
  unfold Station.startNext
  split
  · exact h.inner rfl rfl
  · exact h

@[simp] theorem Frame.enqueue (k : Nat) (h : Frame b s t) : Frame b s (t.enqueue k) := by
  unfold Station.enqueue
  split
  · exact h
  · exact h.inner rfl rfl

@[simp] theorem Frame.trigger (k : Nat) (h : Frame b s t) : Frame b s (t.trigger k) := by
  simp (maxDischargeDepth := 99) [Station.trigger, h]

@[simp] theorem Frame.withdraw (k : Nat) (h : Frame b s t) : Frame b s (t.withdraw k) := h.inner rfl rfl

@[simp] theorem Frame.modWork (k v : Nat) (f : Entry → Entry) (h : Frame b s t) : Frame b s (t.modWork k v f) :=
  Frame.modSlot _ _ h fun _ => rfl

@[simp] theorem Frame.modReopen (k v : Nat) (f : Entry → Entry) (h : Frame b s t) : Frame b s (t.modReopen k v f) :=
  Frame.modSlot _ _ h fun _ => rfl

@[simp] theorem Frame.unisolable (k : Nat) (c : Cause) (n : Nat) (h : Frame b s t) : Frame b s (t.unisolable k c n) := by
  simp (maxDischargeDepth := 99) [Station.unisolable, h]

@[simp] theorem Frame.tooManyFailures (k n : Nat) (h : Frame b s t) : Frame b s (t.tooManyFailures k n) := by
  simp (maxDischargeDepth := 99) [Station.tooManyFailures, h]

@[simp] theorem Frame.failEntry (k v : Nat) (h : Frame b s t) : Frame b s (t.failEntry k v) :=
  Frame.modWork _ _ _ h

@[simp] theorem Frame.recordFailure (k v : Nat) (c : Cause) (h : Frame b s t) : Frame b s (t.recordFailure k v c) := by
  simp only [Station.recordFailure]
  split <;> simp (maxDischargeDepth := 99) [h]

@[simp] theorem Frame.testIsolated (k : Nat) (h : Frame b s t) : Frame b s (t.testIsolated k) := by
  simp (maxDischargeDepth := 99) [Station.testIsolated, h]

@[simp] theorem Frame.testDone (k : Nat) (h : Frame b s t) : Frame b s (t.testDone k) := by
  simp (maxDischargeDepth := 99) [Station.testDone, h]

@[simp] theorem Frame.refreshClass (v : Nat) (h : Frame b s t) : Frame b s (t.refreshClass v) := by
  unfold Station.refreshClass
  split <;> simp (maxDischargeDepth := 99) [h]

@[simp] theorem Frame.deriveClass (v : Nat) (h : Frame b s t) : Frame b s (t.deriveClass v) := by
  simp (maxDischargeDepth := 99) [Station.deriveClass, h]

@[simp] theorem Frame.watchLeft (v : Nat) (h : Frame b s t) : Frame b s (t.watchLeft v) := by
  simp (maxDischargeDepth := 99) [Station.watchLeft, h]

@[simp] theorem Frame.reposition (v : Nat) (f : VsRec → VsRec) (h : Frame b s t) (hf : ∀ d, (f d).current = d.current) :
    Frame b s (t.reposition v f) := by
  simp (maxDischargeDepth := 99) [Station.reposition, h, hf]

end Station
end Sys2Proof.Machine
end

