-- ==== Sys2Proof/Laws/StrokeMoves.lean ====
section
/-! SUPPORT. The frames of motion for Valve State, the zone states and the ends of strokes. -/

set_option linter.unusedSimpArgs false
set_option linter.unusedTactic false
set_option linter.unreachableTactic false

namespace Sys2Proof.Machine.Station

variable {b : Nat} {s t : Station}

@[simp] theorem Frame.positionFromPercent (v : Nat) (h : Frame b s t) : Frame b s (t.positionFromPercent v) := by
  refine Frame.reposition _ _ h fun d => ?_
  split <;> rfl

@[simp] theorem Frame.requestPosition (v : Nat) (h : Frame b s t) : Frame b s (t.requestPosition v) := by
  simp only [Station.requestPosition]
  split <;> simp (maxDischargeDepth := 99) [h]

@[simp] theorem Frame.nodeFound (v : Nat) (h : Frame b s t) : Frame b s (t.nodeFound v) := by
  simp (maxDischargeDepth := 99) [Station.nodeFound, h]

@[simp] theorem Frame.setHealth (v : Nat) (x : Health) (h : Frame b s t) : Frame b s (t.setHealth v x) := by
  simp (maxDischargeDepth := 99) [Station.setHealth, h]

@[simp] theorem Frame.nodeLost (v : Nat) (h : Frame b s t) : Frame b s (t.nodeLost v) := by
  refine Frame.reposition _ _ h fun d => ?_
  extract_lets d'
  split
  · rfl
  · split <;> rfl

@[simp] theorem Frame.lowerHold (v : Nat) (h : Frame b s t) : Frame b s (t.lowerHold v) := by
  simp (maxDischargeDepth := 99) [Station.lowerHold, h]

@[simp] theorem Frame.reportDrift (v : Nat) (h : Frame b s t) : Frame b s (t.reportDrift v) := by
  simp (maxDischargeDepth := 99) [Station.reportDrift, h]

@[simp] theorem Frame.takeDetailAtRest (v : Nat) (a : DetailAnswer) (h : Frame b s t) : Frame b s (t.takeDetailAtRest v a) := by
  have hx (d : VsRec) : (if 0 < d.holds then { d with stale := true }
      else { d with position := Position.unknown, percent := none, stale := false } : VsRec).current = d.current := by
    split <;> rfl
  simp (maxDischargeDepth := 99) [Station.takeDetailAtRest, h, hx]

@[simp] theorem Frame.takeDetailInMotion (v : Nat) (a : DetailAnswer) (h : Frame b s t) : Frame b s (t.takeDetailInMotion v a) := by
  simp (maxDischargeDepth := 99) [Station.takeDetailInMotion, h]

@[simp] theorem Frame.setSampleDue (z : Nat) (due : Option Nat) (h : Frame b s t) : Frame b s (t.setSampleDue z due) := by
  refine Frame.foldl _ _ (fun u n => ?_) h
  split <;> simp

@[simp] theorem Frame.raiseCount (z : Nat) (h : Frame b s t) : Frame b s (t.raiseCount z) := by
  simp only [Station.raiseCount]
  split
  · rename_i hq
    refine Frame.setSampleDue _ _ (Frame.modZoneWatch _ _ (Frame.setCount _ _ h) ?_ (Or.inl rfl) fun hw => hw)
    simp [ZoneWatch.hold, hq]
  · exact Frame.setCount _ _ h

@[simp] theorem Frame.lowerCount (z : Nat) (h : Frame b s t) : Frame b s (t.lowerCount z) := by
  simp only [Station.lowerCount]
  split
  · rename_i hq
    refine Frame.setSampleDue _ _ (Frame.modZoneWatch _ _ (Frame.setCount _ _ h) ?_ (Or.inl rfl) fun hw => hw)
    simp [ZoneWatch.hold, hq.1]
  · exact Frame.setCount _ _ h

@[simp] theorem Frame.factorReturn (z : Nat) (h : Frame b s t) : Frame b s (t.factorReturn z) := by
  simp only [Station.factorReturn]
  split
  · exact Frame.modZoneWatch _ _ h rfl (Or.inr rfl) fun _ => rfl
  · exact h

@[simp] theorem Frame.returnFactors (h : Frame b s t) : Frame b s t.returnFactors := by
  simp (maxDischargeDepth := 99) [Station.returnFactors, h]

@[simp] theorem Frame.dropQueued (n : Node) (h : Frame b s t) : Frame b s (t.dropQueued n) := by
  exact Frame.modLine _ _ h (fun _ => rfl) (fun _ => rfl)

@[simp] theorem Frame.endPosition (r : Stroke) (e : StrokeEnd) (a : Bool) (h : Frame b s t) : Frame b s (t.endPosition r e a) := by
  simp (maxDischargeDepth := 99) [Station.endPosition, h]

@[simp] theorem Frame.endCore (r : Stroke) (e : StrokeEnd) (a : Bool) (h : Frame b s t) : Frame b s (t.endCore r e a) := by
  simp only [Station.endCore]
  repeat' split
  all_goals simp (maxDischargeDepth := 99) [h]

@[simp] theorem Frame.moveFailed (v : Nat) (c : Cause) (h : Frame b s t) : Frame b s (t.moveFailed v c) := by
  simp (maxDischargeDepth := 99) [Station.moveFailed, h]

@[simp] theorem Frame.moveReturns (v : Nat) (m : Move) (c : Bool) (h : Frame b s t) : Frame b s (t.moveReturns v m c) := by
  simp only [Station.moveReturns]
  split
  · simp [h]
  · split
    · simp [h]
    · split <;> simp (maxDischargeDepth := 99) [h]

@[simp] theorem Frame.handMove (r : Stroke) (e : StrokeEnd) (h : Frame b s t) : Frame b s (t.handMove r e) := by
  simp only [Station.handMove]
  split
  · exact h
  · split <;> simp (maxDischargeDepth := 99) [h]

@[simp] theorem Frame.lowerHealth (v : Nat) (h : Frame b s t) : Frame b s (t.lowerHealth v) := by
  simp only [Station.lowerHealth]
  split <;> simp (maxDischargeDepth := 99) [h]

@[simp] theorem Frame.finishExercise (v : Nat) (h : Frame b s t) : Frame b s (t.finishExercise v) := by
  simp only [Station.finishExercise]
  split <;> simp (maxDischargeDepth := 99) [h]

@[simp] theorem Frame.finishWith (v : Nat) (c : Cause) (h : Frame b s t) : Frame b s (t.finishWith v c) := by
  simp (maxDischargeDepth := 99) [Station.finishWith, h]

@[simp] theorem Frame.beginReturn (v : Nat) (c : Bool) (h : Frame b s t) : Frame b s (t.beginReturn v c) := by
  simp (maxDischargeDepth := 99) [Station.beginReturn, h]

@[simp] theorem Frame.handOutward (r : Stroke) (e : StrokeEnd) (h : Frame b s t) : Frame b s (t.handOutward r e) := by
  simp only [Station.handOutward]
  split <;> simp (maxDischargeDepth := 99) [h]

@[simp] theorem Frame.handReturn (r : Stroke) (e : StrokeEnd) (h : Frame b s t) : Frame b s (t.handReturn r e) := by
  simp only [Station.handReturn]
  split <;> simp (maxDischargeDepth := 99) [h]

@[simp] theorem Frame.handExercise (r : Stroke) (e : StrokeEnd) (h : Frame b s t) : Frame b s (t.handExercise r e) := by
  simp only [Station.handExercise]
  split <;> simp (maxDischargeDepth := 99) [h]

@[simp] theorem Frame.handReopen (k : Nat) (r : Stroke) (e : StrokeEnd) (h : Frame b s t) : Frame b s (t.handReopen k r e) := by
  simp only [Station.handReopen]
  split
  · split <;> simp [h]
  · split
    · exact h
    · split <;> simp (maxDischargeDepth := 99) [h]

@[simp] theorem Frame.handOther (r : Stroke) (e : StrokeEnd) (h : Frame b s t) : Frame b s (t.handOther r e) := by
  simp only [Station.handOther]
  split <;> simp (maxDischargeDepth := 99) [h]

@[simp] theorem Frame.endOther (r : Stroke) (e : StrokeEnd) (h : Frame b s t) : Frame b s (t.endOther r e) := by
  simp (maxDischargeDepth := 99) [Station.endOther, h]

@[simp] theorem Frame.queueHalt (v : Nat) (h : Frame b s t) : Frame b s (t.queueHalt v) := by
  simp only [Station.queueHalt]
  split
  · exact Frame.modLine _ _ h (fun _ => rfl) (fun _ => rfl)
  · exact h

@[simp] theorem Frame.joinEnd (v : Nat) (p e : StrokeEnd) (h : Frame b s t) : Frame b s (t.joinEnd v p e) := by
  simp only [Station.joinEnd]
  split <;> simp (maxDischargeDepth := 99) [h]

/-- A halt keeps the frame when the operation that ends a stroke does. -/
theorem Frame.decideHaltWith (finish : Station → Stroke → StrokeEnd → Station)
    (hf : ∀ (u : Station) (r : Stroke) (e : StrokeEnd), Frame b u (finish u r e)) (v : Nat) (e : StrokeEnd)
    (h : Frame b s t) : Frame b s (decideHaltWith finish t v e) := by
  simp only [Station.decideHaltWith]
  split
  · exact h
  · split
    · simp [h]
    · split
      · split
        · simp [h]
        · exact h.trans (hf _ _ _)
      · simp (maxDischargeDepth := 99) [h]
      · exact h

@[simp] theorem Frame.haltOther (v : Nat) (e : StrokeEnd) (h : Frame b s t) : Frame b s (t.haltOther v e) := by
  exact Frame.decideHaltWith _ (fun u r e => Frame.endOther r e (Frame.refl u)) v e h

end Sys2Proof.Machine.Station
end

