-- ==== Sys2Proof/Laws/DispatchMoves.lean ====
section
/-! SUPPORT. The frames of motion for claims, motion dispatch, the zone arbiters and the call arbiter. -/

set_option linter.unusedSimpArgs false
set_option linter.unusedTactic false
set_option linter.unreachableTactic false

namespace Sys2Proof.Machine.Station

variable {b : Nat} {s t : Station}

@[simp] theorem Frame.crewCancel (k v : Nat) (h : Frame b s t) : Frame b s (t.crewCancel k v) := by
  simp (maxDischargeDepth := 99) [Station.crewCancel, h]

@[simp] theorem Frame.removeReopen (k v : Nat) (h : Frame b s t) : Frame b s (t.removeReopen k v) := by
  simp only [Station.removeReopen]
  split <;> simp (maxDischargeDepth := 99) [h]

@[simp] theorem Frame.withdrawMove (v : Nat) (h : Frame b s t) : Frame b s (t.withdrawMove v) := by
  simp only [Station.withdrawMove]
  split <;> simp (maxDischargeDepth := 99) [h]

@[simp] theorem Frame.endIdleExercise (v : Nat) (c : Cause) (h : Frame b s t) : Frame b s (t.endIdleExercise v c) := by
  simp only [Station.endIdleExercise]
  split <;> simp (maxDischargeDepth := 99) [h]

@[simp] theorem Frame.joinClosedBy (k v : Nat) (h : Frame b s t) : Frame b s (t.joinClosedBy k v) := by
  simp (maxDischargeDepth := 99) [Station.joinClosedBy, h]

@[simp] theorem Frame.abandonExercises (z : Nat) (h : Frame b s t) : Frame b s (t.abandonExercises z) := by
  simp (maxDischargeDepth := 99) [Station.abandonExercises, h]

@[simp] theorem Frame.noteClaim (v : Nat) (h : Frame b s t) : Frame b s (t.noteClaim v) := by
  simp (maxDischargeDepth := 99) [Station.noteClaim, h]

@[simp] theorem Frame.closeWaits (k v : Nat) (h : Frame b s t) : Frame b s (t.closeWaits k v) := by
  simp only [Station.closeWaits]
  split <;> simp (maxDischargeDepth := 99) [h]

@[simp] theorem Frame.ownedTakes (v : Nat) (h : Frame b s t) : Frame b s (t.ownedTakes v) := by
  simp only [Station.ownedTakes]
  split <;> simp (maxDischargeDepth := 99) [h]

@[simp] theorem Frame.handClose (k : Nat) (r : Stroke) (e : StrokeEnd) (h : Frame b s t) : Frame b s (t.handClose k r e) := by
  simp only [Station.handClose]
  repeat' split
  all_goals simp (maxDischargeDepth := 99) [h]

@[simp] theorem Frame.endStroke (a : Bool) (r : Stroke) (e : StrokeEnd) (h : Frame b s t) : Frame b s (endStroke a t r e) := by
  simp only [Station.endStroke]
  split <;> simp (maxDischargeDepth := 99) [h]

@[simp] theorem Frame.decideHalt (v : Nat) (e : StrokeEnd) (h : Frame b s t) : Frame b s (t.decideHalt v e) := by
  exact Frame.decideHaltWith _ (fun u r e => Frame.endStroke false r e (Frame.refl u)) v e h

@[simp] theorem Frame.modIn (k : Nat) (ro : Bool) (v : Nat) (f : Entry → Entry) (h : Frame b s t) : Frame b s (t.modIn k ro v f) := by
  simp (maxDischargeDepth := 99) [Station.modIn, h]

@[simp] theorem Frame.surgeLimited (slot : Option Nat) (v n : Nat) (h : Frame b s t) : Frame b s (t.surgeLimited slot v n) := by
  simp (maxDischargeDepth := 99) [Station.surgeLimited, h]

@[simp] theorem Frame.setTime (k : Nat) (ro : Bool) (v : Nat) (p : Profile) (h : Frame b s t) : Frame b s (t.setTime k ro v p) := by
  simp only [Station.setTime]
  split <;> simp (maxDischargeDepth := 99) [h]

@[simp] theorem Frame.completeEntry (k : Nat) (ro : Bool) (v : Nat) (h : Frame b s t) : Frame b s (t.completeEntry k ro v) := by
  simp (maxDischargeDepth := 99) [Station.completeEntry, h]

@[simp] theorem Frame.pendEntry (k : Nat) (ro : Bool) (v : Nat) (h : Frame b s t) : Frame b s (t.pendEntry k ro v) := by
  simp only [Station.pendEntry]
  repeat' split
  all_goals simp (maxDischargeDepth := 99) [h]

@[simp] theorem Frame.endCauseOf (c : HaltCause) (k : Nat) (ro : Bool) (v : Nat) (h : Frame b s t) : Frame b s (t.endCauseOf c k ro v) := by
  simp only [Station.endCauseOf]
  split <;> simp (maxDischargeDepth := 99) [h]

/-- What is done for every entry keeps the frame when it keeps it once. -/
theorem Frame.forEntriesOf (k : Nat) (f : Station → Bool → Nat → Station)
    (hf : ∀ (u : Station) (ro : Bool) (v : Nat), Frame b u (f u ro v)) (h : Frame b s t) :
    Frame b s (t.forEntriesOf k f) :=
  Frame.foldl _ _ (fun _ _ => hf _ _ _) (Frame.foldl _ _ (fun _ _ => hf _ _ _) h)

theorem Frame.forEntries (f : Station → Nat → Bool → Nat → Station)
    (hf : ∀ (u : Station) (k : Nat) (ro : Bool) (v : Nat), Frame b u (f u k ro v)) (h : Frame b s t) :
    Frame b s (t.forEntries f) :=
  Frame.foldl _ _ (fun u k => Frame.forEntriesOf k _ (fun w ro v => hf w k ro v) (Frame.refl u)) h

@[simp] theorem Frame.endCause (c : HaltCause) (m : Station → Nat → Bool) (h : Frame b s t) : Frame b s (t.endCause c m) := by
  refine Frame.forEntries _ (fun u k ro v => ?_) h
  split <;> simp

@[simp] theorem Frame.addCause (c : HaltCause) (m : Station → Nat → Bool) (h : Frame b s t) : Frame b s (t.addCause c m) := by
  refine Frame.forEntries _ (fun u k ro v => ?_) h
  split
  · split <;> simp
  · simp

@[simp] theorem Frame.retimeEntry (x : Bool) (k : Nat) (ro : Bool) (v : Nat) (h : Frame b s t) : Frame b s (retimeEntry x t k ro v) := by
  simp only [Station.retimeEntry]
  repeat' split
  all_goals simp (maxDischargeDepth := 99) [h]

@[simp] theorem Frame.retimeValve (v : Nat) (h : Frame b s t) : Frame b s (t.retimeValve v) := by
  refine Frame.forEntries _ (fun u k ro v => ?_) h
  split <;> simp

@[simp] theorem Frame.retimeZone (x : Bool) (z : Nat) (h : Frame b s t) : Frame b s (retimeZone x t z) := by
  refine Frame.forEntries _ (fun u k ro v => ?_) h
  split <;> simp

@[simp] theorem Frame.openStroke (v : Nat) (w : Owner) (g d : Nat) (h : Frame b s t) : Frame b s (t.openStroke v w g d) := by
  simp (maxDischargeDepth := 99) [Station.openStroke, h]

@[simp] theorem Frame.queueStroke (v : Nat) (h : Frame b s t) : Frame b s (t.queueStroke v) := by
  simp only [Station.queueStroke]
  split
  · exact Frame.modLine _ _ h (fun _ => rfl) (fun _ => rfl)
  · exact h

@[simp] theorem Frame.grantEntry (k : Nat) (ro : Bool) (v : Nat) (h : Frame b s t) : Frame b s (t.grantEntry k ro v) := by
  simp only [Station.grantEntry]
  split <;> simp (maxDischargeDepth := 99) [h]

@[simp] theorem Frame.grantMove (v : Nat) (h : Frame b s t) : Frame b s (t.grantMove v) := by
  simp only [Station.grantMove]
  split <;> simp (maxDischargeDepth := 99) [h]

@[simp] theorem Frame.grantExercise (v : Nat) (h : Frame b s t) : Frame b s (t.grantExercise v) := by
  simp only [Station.grantExercise]
  split <;> simp (maxDischargeDepth := 99) [h]

@[simp] theorem Frame.grantReturn (v : Nat) (h : Frame b s t) : Frame b s (t.grantReturn v) := by
  simp only [Station.grantReturn]
  split <;> simp (maxDischargeDepth := 99) [h]

@[simp] theorem Frame.select (c : Candidate) (h : Frame b s t) : Frame b s (t.select c) := by
  simp only [Station.select]
  split <;> simp (maxDischargeDepth := 99) [h]

@[simp] theorem Frame.decideZone (n z : Nat) (h : Frame b s t) : Frame b s (decideZone n t z) := by
  induction n generalizing t with
  | zero => simp [Station.decideZone, h]
  | succ n ih =>
    simp only [Station.decideZone]
    split
    · exact ih (Frame.select _ (Frame.factorReturn _ h))
    · exact Frame.factorReturn _ h

@[simp] theorem Frame.decideAll (h : Frame b s t) : Frame b s (t.decideAll) := by
  simp (maxDischargeDepth := 99) [Station.decideAll, h]

@[simp] theorem Frame.sampleNotice (x : NoticeKind) (z n d : Nat) (h : Frame b s t) : Frame b s (t.sampleNotice x z n d) := by
  simp only [Station.sampleNotice]
  split <;> simp (maxDischargeDepth := 99) [h]

@[simp] theorem Frame.haltZone (z : Nat) (h : Frame b s t) : Frame b s (t.haltZone z) := by
  simp (maxDischargeDepth := 99) [Station.haltZone, h]

@[simp] theorem Frame.bringForward (l : Line) (h : Frame b s t) : Frame b s (t.bringForward l) := by
  refine Frame.modLineView _ _ h (fun x hx => Table.tidy_map _ _ _ (fun _ => rfl) (fun p hp he => hp ?_) hx)
    (fun _ => rfl) fun x _ a => ⟨Table.view_map NodeEntry.seen _ _ _ _ (fun _ => rfl) fun _ => rfl,
      Table.view_map NodeEntry.mark _ _ _ _ (fun _ => rfl) fun _ => rfl⟩
  have hd : p.2.detailDue = none := by
    have := congrArg NodeEntry.detailDue he
    simpa using this
  rw [← he]
  obtain ⟨_, e⟩ := p
  cases e
  simp_all

@[simp] theorem Frame.startCall (l : Line) (h : Frame b s t) (hb : b ≤ 1) : Frame b s (t.startCall l) := by
  simp only [Station.startCall]
  have hl (f : FieldLine → FieldLine) (hf : ∀ x, (f x).nodes = x.nodes) : Frame b s ((t.bringForward l).modLine l f) :=
    Frame.modLineAny _ _ (Frame.bringForward l h) (fun x hx => by rw [hf]; exact hx) hb
  repeat' split
  all_goals first
    | exact h
    | exact Frame.bringForward l h
    | exact hl _ fun _ => rfl

end Sys2Proof.Machine.Station
end

