-- ==== Sys2Proof/Laws/AnswerMoves.lean ====
section
/-! SUPPORT. The frames of motion for the ends of calls, and the wider frame for samples, holds, absence and ownership. -/

set_option linter.unusedSimpArgs false
set_option linter.unusedTactic false
set_option linter.unreachableTactic false

namespace Sys2Proof.Machine.Station

variable {b : Nat} {s t : Station}

@[simp] theorem Frame.completeCall (n : Node) (c : Nat) (h : Frame b s t) (hb : b ≤ 1) : Frame b s (t.completeCall n c) := by
  have hu : Frame b s (t.modLine n.line fun x => { x with onLine := none }) := Frame.modLineAny _ _ h (fun _ hx => hx) hb
  simp only [Station.completeCall]
  split <;> simp (maxDischargeDepth := 99) [hu]

@[simp] theorem Frame.toHalting (r : Stroke) (h : Frame b s t) : Frame b s (t.toHalting r) := by
  simp (maxDischargeDepth := 99) [Station.toHalting, h]

@[simp] theorem Frame.acceptStroke (r : Stroke) (h : Frame b s t) : Frame b s (t.acceptStroke r) := by
  simp only [Station.acceptStroke]
  repeat' split
  all_goals simp (maxDischargeDepth := 99) [h]

@[simp] theorem Frame.sendAgain (v : Nat) (h : Frame b s t) : Frame b s (t.sendAgain v) := by
  simp (maxDischargeDepth := 99) [Station.sendAgain, h]

@[simp] theorem Frame.takeStrokeAnswer (n : Node) (v c : Nat) (h : Frame b s t) (hb : b ≤ 2) : Frame b s (t.takeStrokeAnswer n v c) := by
  simp only [Station.takeStrokeAnswer]
  split <;> simp (maxDischargeDepth := 99) [h, hb]

@[simp] theorem Frame.missStroke (n : Node) (v : Nat) (h : Frame b s t) : Frame b s (t.missStroke n v) := by
  simp only [Station.missStroke]
  split
  · exact h
  · split
    · exact h
    · split
      · simp [h]
      · exact Frame.modLine _ _ (Frame.modStroke _ _ h) (fun _ => rfl) (fun _ => rfl)

@[simp] theorem Frame.haltCompleted (v : Nat) (h : Frame b s t) : Frame b s (t.haltCompleted v) := by
  simp only [Station.haltCompleted]
  repeat' split
  all_goals simp (maxDischargeDepth := 99) [h]

@[simp] theorem Frame.judgeStroke (v : Nat) (a : DetailAnswer) (h : Frame b s t) : Frame b s (t.judgeStroke v a) := by
  simp only [Station.judgeStroke]
  repeat' split
  all_goals simp (maxDischargeDepth := 99) [h]

@[simp] theorem Frame.rearmDetail (n : Node) (v : Nat) (p : Option Nat) (h : Frame b s t) : Frame b s (t.rearmDetail n v p) := by
  simp (maxDischargeDepth := 99) [Station.rearmDetail, h]

@[simp] theorem Frame.takeDetail (v : Nat) (a : DetailAnswer) (h : Frame b s t) : Frame b s (t.takeDetail v a) := by
  simp only [Station.takeDetail]
  repeat' split
  all_goals simp (maxDischargeDepth := 99) [h]

@[simp] theorem Frame.markCleared (n : Node) (h : Frame b s t) (hb : b ≤ 2) : Frame b s (t.markCleared n) := by
  simp only [Station.markCleared]
  repeat' split
  all_goals simp (maxDischargeDepth := 99) [h, hb]

@[simp] theorem Frame.takePresence (n : Node) (h : Frame b s t) (hb : b ≤ 1) : Frame b s (t.takePresence n) := by
  simp only [Station.takePresence]
  repeat' split
  all_goals simp (maxDischargeDepth := 99) [h, hb, (Nat.le_succ_of_le hb : b ≤ 2)]

@[simp] theorem Frame.takeState (n : Node) (c : CallKind) (k : Nat) (st : AnswerState) (h : Frame b s t) (hb : b ≤ 1) : Frame b s (t.takeState n c k st) := by
  simp only [Station.takeState]
  repeat' split
  all_goals simp (maxDischargeDepth := 99) [h, hb, (Nat.le_succ_of_le hb : b ≤ 2)]

@[simp] theorem Frame.advanceHandshake (n : Node) (c : CallKind) (st : AnswerState) (h : Frame b s t) (hb : b ≤ 2) : Frame b s (t.advanceHandshake n c st) := by
  simp only [Station.advanceHandshake]
  repeat' split
  all_goals simp (maxDischargeDepth := 99) [h, hb]

@[simp] theorem Frame.clearDetailDue (n : Node) (c : CallKind) (h : Frame b s t) : Frame b s (t.clearDetailDue n c) := by
  simp (maxDischargeDepth := 99) [Station.clearDetailDue, h]

@[simp] theorem Frame.rearmAfter (n : Node) (c : CallKind) (p : Option Nat) (h : Frame b s t) : Frame b s (t.rearmAfter n c p) := by
  simp only [Station.rearmAfter]
  split <;> simp (maxDischargeDepth := 99) [h]

@[simp] theorem Frame.missedCall (n : Node) (c : CallKind) (h : Frame b s t) (hb : b ≤ 2) : Frame b s (t.missedCall n c) := by
  simp only [Station.missedCall]
  repeat' split
  all_goals simp (maxDischargeDepth := 99) [h, hb]

@[simp] theorem Frame.clearStroke (v : Nat) (h : Frame b s t) : Frame b s (t.clearStroke v) := by
  simp only [Station.clearStroke]
  repeat' split
  all_goals simp (maxDischargeDepth := 99) [h]

@[simp] theorem Frame.clearIsSent (l : Line) (h : Frame b s t) (hb : b ≤ 1) : Frame b s (t.clearIsSent l) := by
  simp only [Station.clearIsSent]
  split
  · have h1 : Frame b s (t.modLine l fun x => { x with onLine := none }) := Frame.modLineAny _ _ h (fun _ hx => hx) hb
    generalize t.modLine l (fun x => { x with onLine := none }) = u at h1 ⊢
    have h2 : Frame b s (((u.strokesOn l).foldl Station.clearStroke u).addCause .clear (onLineOf l)) := by
      simp (maxDischargeDepth := 99) [h1]
    generalize ((u.strokesOn l).foldl Station.clearStroke u).addCause .clear (onLineOf l) = w at h2 ⊢
    refine Frame.ite ?_ (Frame.post _ ?_) <;>
      refine Frame.modLineAny _ _ h2 (fun x hx => Table.tidy_map _ _ _ (fun p => ?_) (fun p hp => ?_) hx) hb
    all_goals split
    all_goals first
      | rfl
      | exact hp
      | (rename_i hk; exact fun he => hk (congrArg NodeEntry.kind he))
  · exact h

@[simp] theorem Frame.broadcastStroke (v : Nat) (h : Frame b s t) : Frame b s (t.broadcastStroke v) := by
  simp only [Station.broadcastStroke]
  repeat' split
  all_goals simp (maxDischargeDepth := 99) [h]

@[simp] theorem Frame.broadcastIsSent (l : Line) (h : Frame b s t) (hb : b ≤ 1) : Frame b s (t.broadcastIsSent l) := by
  simp only [Station.broadcastIsSent]
  split
  · have h1 : Frame b s (t.modLine l fun x => { x with onLine := none }) := Frame.modLineAny _ _ h (fun _ hx => hx) hb
    simp (maxDischargeDepth := 99) [h1]
  · exact h

@[simp] theorem Frame.supplyHalt (v : Nat) (h : Frame b s t) : Frame b s (t.supplyHalt v) := by
  simp only [Station.supplyHalt]
  repeat' split
  all_goals simp (maxDischargeDepth := 99) [h]

@[simp] theorem Frame.modSensorWatch (n : Nat) (f : SensorWatch → SensorWatch) (h : Frame b s t) (hb : b ≤ 2) : Frame b s (t.modSensorWatch n f) := by
  refine h.wide (Listens.of (canonical := fun c => ?_)) hb
  rw [canonical_iff] at *
  obtain ⟨c1, c2, c3, c4, c5, c6, c7, c8, c9, c10, c11, c12⟩ := c
  exact ⟨c1, c2, c3, c4, c5, c6, c7, c8, c9, c10, Table.tidy_writeD _ _ _ _ c11, c12⟩

@[simp] theorem Frame.sensorLost (n : Nat) (h : Frame b s t) (hb : b ≤ 2) : Frame b s (t.sensorLost n) := by
  simp (maxDischargeDepth := 99) [Station.sensorLost, h, hb]

@[simp] theorem Frame.silence (xs : List Nat) (h : Frame b s t) (hb : b ≤ 2) : Frame b s (t.silence xs) := by
  simp (maxDischargeDepth := 99) [Station.silence, h, hb]

/-- Writing the ownership map in its canonical form keeps the wider frame. -/
theorem Frame.owner (m : Table Nat) (h : Frame b s t)
    (hm : Table.wf t.im.owner = true → Table.wf m = true) (hb : b ≤ 2) :
    Frame b s { t with im := { t.im with owner := m } } := by
  refine h.wide (Listens.of (canonical := fun c => ?_)) hb
  rw [canonical_iff] at *
  obtain ⟨c1, c2, c3, c4, c5, c6, c7, c8, c9⟩ := c
  exact ⟨c1, c2, c3, c4, c5, c6, c7, hm c8, c9⟩

theorem wf_foldl_put (xs : List Nat) (k : Nat) (m : Table Nat) (h : Table.wf m = true) :
    Table.wf (xs.foldl (fun (t : Table Nat) n => t.put n k) m) = true := by
  induction xs generalizing m with
  | nil => exact h
  | cons x xs ih => exact ih _ (Table.wf_put _ _ _ h)

@[simp] theorem Frame.writeOwnership (k : Nat) (r : List Nat) (h : Frame b s t) (hb : b ≤ 2) : Frame b s (t.writeOwnership k r) := by
  simp only [Station.writeOwnership]
  refine Frame.silence _ (hb := hb) (Frame.foldl _ _ (fun u v => ?_)
    (Frame.owner _ h (fun hw => wf_foldl_put _ _ _ (Table.wf_filter _ _ hw)) hb))
  split <;> simp

@[simp] theorem Frame.dropOwnership (k : Nat) (h : Frame b s t) (hb : b ≤ 2) : Frame b s (t.dropOwnership k) := by
  exact Frame.owner _ h (fun hw => Table.wf_filter _ _ hw) hb

@[simp] theorem Frame.clearOwnership (k : Nat) (h : Frame b s t) (hb : b ≤ 2) : Frame b s (t.clearOwnership k) := by
  simp (maxDischargeDepth := 99) [Station.clearOwnership, h, hb]

/-- A zone watch record written with a factor in range keeps the wider frame. -/
theorem Frame.zoneWatch (z : Nat) (f : ZoneWatch → ZoneWatch) (h : Frame b s t)
    (hf : (t.zoneWatch z).sound = true → (f (t.zoneWatch z)).sound = true) (hb : b ≤ 2) :
    Frame b s (t.modZoneWatch z f) :=
  h.wide (Listens.of (canonical := canonical_modZoneWatch _ _) (factors := fun c => factorsOk_modZoneWatch _ _ c hf)) hb

@[simp] theorem modNode_pw (n : Node) (f : NodeEntry → NodeEntry) : (t.modNode n f).pw = t.pw := by
  unfold Station.modNode Station.modLine
  split <;> rfl

@[simp] theorem setSampleDue_pw (z : Nat) (d : Option Nat) : (t.setSampleDue z d).pw = t.pw := by
  unfold Station.setSampleDue
  generalize t.sensorsOfZone z = xs
  induction xs generalizing t with
  | nil => rfl
  | cons x xs ih =>
    rw [List.foldl_cons, ih]
    split <;> simp

theorem setSampleDue_zoneWatch (z : Nat) (d : Option Nat) (w : Nat) :
    (t.setSampleDue z d).zoneWatch w = t.zoneWatch w := by
  simp [Station.zoneWatch]

@[simp] theorem Frame.enterHold (z n d : Nat) (h : Frame b s t) (hb : b ≤ 2) : Frame b s (t.enterHold z n d) := by
  simp only [Station.enterHold]
  have key (u : Station) (hu : Frame b s u) (hz : u.zoneWatch z = t.zoneWatch z) : Frame b s
      (u.modZoneWatch z fun w =>
        { w with
          state := .hold
          heldAt := some u.clock
          settleAt := if decide (8 ≤ (t.zoneWatch z).factor) = true then none else some u.clock
          persist := decide (8 ≤ (t.zoneWatch z).factor)
          factor := if decide (8 ≤ (t.zoneWatch z).factor) = true then w.factor else w.factor * 2 }) := by
    refine Frame.zoneWatch z _ hu (fun hs => ?_) hb
    rw [hz] at hs ⊢
    simp only [ZoneWatch.sound, factorOk, decide_eq_true_eq] at hs ⊢
    split <;> omega
  refine Frame.sampleNotice _ _ _ _ (Frame.haltZone _ (Frame.ite ?_ (Frame.retimeZone _ _ ?_)))
  all_goals
    split
    · exact key _ (Frame.setSampleDue _ _ h) (setSampleDue_zoneWatch _ _ _)
    · exact key _ h rfl

@[simp] theorem Frame.judgeZone (z n d : Nat) (h : Frame b s t) (hb : b ≤ 2) : Frame b s (t.judgeZone z n d) := by
  simp only [Station.judgeZone]
  repeat' split
  · exact Frame.zoneWatch _ _ h (fun hs => hs) hb
  · exact h
  · exact Frame.enterHold _ _ _ h hb
  · exact h

@[simp] theorem Frame.leaveHold (z : Nat) (c : Cause) (h : Frame b s t) (hb : b ≤ 2) : Frame b s (t.leaveHold z c) := by
  simp only [Station.leaveHold]
  refine Frame.post _ (Frame.factorReturn _ (Frame.endCause _ _ (Frame.ite (Frame.setSampleDue _ _ ?_) ?_)))
  all_goals exact Frame.zoneWatch _ _ h (fun hs => hs) hb

@[simp] theorem Frame.judgeSensor (z n d : Nat) (h : Frame b s t) (hb : b ≤ 2) : Frame b s (t.judgeSensor z n d) := by
  simp only [Station.judgeSensor]
  repeat' split
  all_goals simp (maxDischargeDepth := 99) [h, hb]

@[simp] theorem Frame.takeSample (n : Nat) (st : AnswerState) (d : Nat) (h : Frame b s t) (hb : b ≤ 2) : Frame b s (t.takeSample n st d) := by
  simp (maxDischargeDepth := 99) [Station.takeSample, h, hb]

@[simp] theorem Frame.deliver (n : Node) (c : CallKind) (a : Answer) (h : Frame b s t) (hb : b ≤ 2) : Frame b s (t.deliver n c a) := by
  simp only [Station.deliver]
  repeat' split
  all_goals simp (maxDischargeDepth := 99) [h, hb]

@[simp] theorem Frame.takeAnswer (n : Node) (c : CallKind) (k : Nat) (a : Answer) (h : Frame b s t) (hb : b ≤ 1) : Frame b s (t.takeAnswer n c k a) := by
  simp (maxDischargeDepth := 99) [Station.takeAnswer, h, hb, (Nat.le_succ_of_le hb : b ≤ 2)]

@[simp] theorem Frame.declareAbsent (n : Node) (h : Frame b s t) (hb : b ≤ 1) : Frame b s (t.declareAbsent n) := by
  simp only [Station.declareAbsent]
  repeat' split
  all_goals simp (maxDischargeDepth := 99) [h, hb, (Nat.le_succ_of_le hb : b ≤ 2)]

@[simp] theorem Frame.takeMiss (n : Node) (c : CallKind) (k : Nat) (h : Frame b s t) (hb : b ≤ 1) : Frame b s (t.takeMiss n c k) := by
  simp (maxDischargeDepth := 99) [Station.takeMiss, h, hb, (Nat.le_succ_of_le hb : b ≤ 2)]

@[simp] theorem Frame.answerArrives (l : Line) (xs : List Byte) (h : Frame b s t) (hb : b ≤ 1) : Frame b s (t.answerArrives l xs) := by
  simp only [Station.answerArrives]
  repeat' split
  all_goals simp (maxDischargeDepth := 99) [h, hb, (Nat.le_succ_of_le hb : b ≤ 2)]

@[simp] theorem Frame.answerMissing (l : Line) (h : Frame b s t) (hb : b ≤ 1) : Frame b s (t.answerMissing l) := by
  simp only [Station.answerMissing]
  split <;> simp (maxDischargeDepth := 99) [h, hb, (Nat.le_succ_of_le hb : b ≤ 2)]

end Sys2Proof.Machine.Station
end

