-- ==== Sys2Proof/Laws/PlanMoves.lean ====
section
/-! SUPPORT. The frames of plans, of the requests that set work going, and of the table's edits. -/

set_option linter.unusedSimpArgs false
set_option linter.unusedTactic false
set_option linter.unreachableTactic false

namespace Sys2Proof.Machine.Station

variable {b : Nat} {s t : Station}

@[simp] theorem Frame.modSlotAny (k : Nat) (f : Slot → Slot) (h : Frame b s t) (hb : b ≤ 2) : Frame b s (t.modSlot k f) := by
  refine h.wide (Listens.of (canonical := fun c => ?_)) hb
  rw [canonical_iff] at *
  obtain ⟨c1, c2, c3, c4, c5, c6, c7, c8⟩ := c
  exact ⟨c1, c2, c3, c4, c5, c6, Table.tidy_writeD _ _ _ _ c7, c8⟩

@[simp] theorem Frame.setTimeSilently (k v : Nat) (p : Profile) (h : Frame b s t) : Frame b s (t.setTimeSilently k v p) := by
  simp (maxDischargeDepth := 99) [Station.setTimeSilently, h]

@[simp] theorem Frame.crewRequest (k v : Nat) (c : Cause) (n : Nat) (h : Frame b s t) : Frame b s (t.crewRequest k v c n) := by
  simp (maxDischargeDepth := 99) [Station.crewRequest, h]

@[simp] theorem Frame.firstPlan (k : Nat) (p : Plan) (h : Frame b s t) (hb : b ≤ 2) : Frame b s (t.firstPlan k p) := by
  simp (maxDischargeDepth := 99) [Station.firstPlan, h, hb]

@[simp] theorem Frame.keepAtReplan (k : Nat) (old : List Entry) (p : PlanEntry) (h : Frame b s t) : Frame b s (keepAtReplan k old t p) := by
  simp only [Station.keepAtReplan]
  repeat' split
  all_goals simp (maxDischargeDepth := 99) [h]

@[simp] theorem Frame.dropAtReplan (k : Nat) (p : Plan) (e : Entry) (h : Frame b s t) : Frame b s (dropAtReplan k p t e) := by
  simp only [Station.dropAtReplan]
  repeat' split
  all_goals simp (maxDischargeDepth := 99) [h]

@[simp] theorem Frame.startAtReplan (k : Nat) (old : List Entry) (p : PlanEntry) (h : Frame b s t) : Frame b s (startAtReplan k old t p) := by
  simp only [Station.startAtReplan]
  repeat' split
  all_goals simp (maxDischargeDepth := 99) [h]

@[simp] theorem Frame.reportNewMark (k : Nat) (old : List Entry) (p : PlanEntry) (h : Frame b s t) : Frame b s (reportNewMark k old t p) := by
  simp only [Station.reportNewMark]
  repeat' split
  all_goals simp (maxDischargeDepth := 99) [h]

@[simp] theorem Frame.replan (k : Nat) (p : Plan) (h : Frame b s t) (hb : b ≤ 2) : Frame b s (t.replan k p) := by
  simp (maxDischargeDepth := 99) [Station.replan, h, hb]

@[simp] theorem Frame.applyResult (k : Nat) (e : RoundEnd) (h : Frame b s t) (hb : b ≤ 2) : Frame b s (t.applyResult k e) := by
  simp only [Station.applyResult]
  repeat' split
  all_goals simp (maxDischargeDepth := 99) [h, hb]

@[simp] theorem Frame.stopEntries (k : Nat) (ro : Bool) (h : Frame b s t) : Frame b s (t.stopEntries k ro) := by
  have hx (r : Slot) : (if ro then { r with reopen := r.reopen.map stopEntry }
      else { r with work := r.work.map stopEntry } : Slot).settled = r.settled := by split <;> rfl
  simp (maxDischargeDepth := 99) [Station.stopEntries, h]

@[simp] theorem Frame.renameStrokes (a c : Nat) (h : Frame b s t) : Frame b s (t.renameStrokes a c) := by
  simp (maxDischargeDepth := 99) [Station.renameStrokes, h]

/-- The tables stay sound through a change of the free list, the planner, the clock or storage. -/
theorem Frame.plain {u : Station} (h : Frame 0 s t) (e : u = { t with
      clock := u.clock, ss := u.ss, ip := u.ip, supplyWarning := u.supplyWarning
      im := { t.im with freeList := u.im.freeList } }) : Frame 0 s u := by
  refine h.widest ⟨fun c => ?_, fun c => ?_⟩
  · rw [e]
    rw [canonical_iff] at *
    exact c
  · rw [e]
    exact c

@[simp] theorem Frame.advanceTo (d : Nat) (h : Frame 0 s t) : Frame 0 s (t.advanceTo d) := by
  unfold Station.advanceTo
  split
  · exact h
  · exact h.plain rfl

@[simp] theorem Frame.tick (h : Frame 0 s t) : Frame 0 s (t.tick) := by
  exact h.plain rfl

@[simp] theorem Frame.freeSlot (k : Nat) (h : Frame 0 s t) : Frame 0 s (t.freeSlot k) := by
  have h1 : Frame 0 s (t.modSlot k fun _ => {}) := Frame.modSlotAny _ _ h (by omega)
  exact h1.plain rfl

@[simp] theorem Frame.joinSlots (a c : Nat) (h : Frame 0 s t) : Frame 0 s ((t.joinSlots a c).1) := by
  simp only [Station.joinSlots]
  repeat' split
  all_goals simp (maxDischargeDepth := 99) [h]

@[simp] theorem Frame.mergeWith (f : Flight) (j : Nat) (h : Frame 0 s t) : Frame 0 s (t.mergeWith f j) := by
  simp only [Station.mergeWith]
  split <;> exact (Frame.joinSlots _ _ h).plain rfl

@[simp] theorem Frame.plannerMerges (h : Frame 0 s t) : Frame 0 s (t.plannerMerges) := by
  simp only [Station.plannerMerges]
  repeat' split
  all_goals simp (maxDischargeDepth := 99) [h]

@[simp] theorem Frame.completeWith (f : Flight) (e : RoundEnd) (h : Frame b s t) (hb : b ≤ 2) :
    Frame b s (t.completeWith f e) := by
  have h1 : Frame b s { t with ip := { t.ip with flight := none } } := h.inner rfl rfl
  simp only [Station.completeWith]
  split
  · exact h1
  · split
    · exact Frame.enqueue _ h1
    · exact Frame.applyResult _ _ h1 hb

@[simp] theorem Frame.computationEnds (h : Frame b s t) (hb : b ≤ 2) : Frame b s (t.computationEnds) := by
  simp only [Station.computationEnds]
  split
  · exact h
  · split
    · exact h
    · exact Frame.startNext (Frame.completeWith _ _ h hb)

end Sys2Proof.Machine.Station
end

