-- ==== Sys2Proof/Laws/RequestMoves.lean ====
section
/-! SUPPORT. The frames of the table's edits, of the requests and of start-up. -/

set_option linter.unusedSimpArgs false
set_option linter.unusedTactic false
set_option linter.unreachableTactic false

namespace Sys2Proof.Machine.Station

variable {b : Nat} {s t : Station}

/-- The tables of the network are in their canonical form. -/
def netTidy (n : Network) : Prop :=
  Table.wf n.segments = true ∧ Table.wf n.valves = true ∧ Table.tidy {} n.zones = true ∧ Table.wf n.sensors = true ∧
    Table.wf n.nodeMap = true

theorem canonical_netTidy (h : s.canonical = true) : netTidy s.nt := by
  rw [canonical_iff] at h
  exact ⟨h.1, h.2.1, h.2.2.1, h.2.2.2.1, h.2.2.2.2.1⟩

/-- An edit of the network table keeps the tables sound when it keeps the network's own. -/
theorem Frame.edit (n : Network) (h : Frame 0 s t) (hn : netTidy t.nt → netTidy n) : Frame 0 s { t with nt := n } := by
  refine h.widest ⟨fun c => ?_, fun c => c⟩
  obtain ⟨n1, n2, n3, n4, n5⟩ := hn (canonical_netTidy c)
  rw [canonical_iff] at *
  exact ⟨n1, n2, n3, n4, n5, c.2.2.2.2.2⟩

@[simp] theorem Frame.modVsAny (v : Nat) (f : VsRec → VsRec) (h : Frame b s t) (hb : b ≤ 2) : Frame b s (t.modVs v f) := by
  refine h.wide (Listens.of (canonical := fun c => ?_)) hb
  rw [canonical_iff] at *
  obtain ⟨c1, c2, c3, c4, c5, c6, c7⟩ := c
  exact ⟨c1, c2, c3, c4, c5, Table.tidy_writeD _ _ _ _ c6, c7⟩

@[simp] theorem Frame.repositionAny (v : Nat) (f : VsRec → VsRec) (h : Frame b s t) (hb : b ≤ 2) : Frame b s (t.reposition v f) := by
  simp (maxDischargeDepth := 99) [Station.reposition, h, hb]

@[simp] theorem Frame.sampleByZone (n : Nat) (h : Frame b s t) : Frame b s (t.sampleByZone n) := by
  simp only [Station.sampleByZone]
  split <;> simp (maxDischargeDepth := 99) [h]

@[simp] theorem Frame.setKind (n : Node) (k : NodeKind) (h : Frame b s t) (hb : b ≤ 1) : Frame b s (t.setKind n k) := by
  simp (maxDischargeDepth := 99) [Station.setKind, h, hb, (Nat.le_succ_of_le hb : b ≤ 2)]

@[simp] theorem Frame.putSegment (n z c p q : Nat) (x : List Byte) (h : Frame 0 s t) : Frame 0 s (t.putSegment n z c p q x).2.2 := by
  simp only [Station.putSegment]
  have hs (y : Segment) : Frame 0 s { t with nt :=
      { t.nt with segments := t.nt.segments.put n y, sourceCount := countSources (t.nt.segments.put n y) } } :=
    Frame.edit _ h fun ⟨a, b⟩ => ⟨Table.wf_put _ _ _ a, b⟩
  repeat' split
  all_goals simp (maxDischargeDepth := 99) [h, hs, refuse, editTaken]

@[simp] theorem Frame.deleteSegment (n : Nat) (h : Frame 0 s t) : Frame 0 s (t.deleteSegment n).2.2 := by
  simp only [Station.deleteSegment]
  have hs : Frame 0 s { t with nt :=
      { t.nt with segments := t.nt.segments.drop n, sourceCount := countSources (t.nt.segments.drop n) } } :=
    Frame.edit _ h fun ⟨a, b⟩ => ⟨Table.wf_drop _ _ a, b⟩
  repeat' split
  all_goals simp (maxDischargeDepth := 99) [h, hs, refuse, editTaken]

@[simp] theorem Frame.valveStateOnEdit (v : Nat) (old : Option Valve) (new : Valve) (h : Frame b s t) (hb : b ≤ 2) : Frame b s (t.valveStateOnEdit v old new) := by
  simp only [Station.valveStateOnEdit]
  repeat' split
  all_goals simp (maxDischargeDepth := 99) [h, hb]

@[simp] theorem Frame.remap (old new : Option Node) (o : Occupant) (k : NodeKind) (h : Frame 0 s t) : Frame 0 s (t.remap old new o k) := by
  have hd (u : Station) (hu : Frame 0 s u) (n : Node) :
      Frame 0 s { u with nt := { u.nt with nodeMap := u.nt.nodeMap.drop n.key } } :=
    Frame.edit _ hu fun ⟨n1, n2, n3, n4, n5⟩ => ⟨n1, n2, n3, n4, Table.wf_drop _ _ n5⟩
  have hp (u : Station) (hu : Frame 0 s u) (n : Node) :
      Frame 0 s { u with nt := { u.nt with nodeMap := u.nt.nodeMap.put n.key o } } :=
    Frame.edit _ hu fun ⟨n1, n2, n3, n4, n5⟩ => ⟨n1, n2, n3, n4, Table.wf_put _ _ _ n5⟩
  simp only [Station.remap]
  split
  · exact h
  · split
    · split
      · exact Frame.setKind _ _ (hp _ (Frame.setKind _ _ (hd _ h _) (by omega)) _) (by omega)
      · exact Frame.setKind _ _ (hp _ h _) (by omega)
    · split
      · exact Frame.setKind _ _ (hd _ h _) (by omega)
      · exact h

@[simp] theorem Frame.storeValve (f : ValveFields) (n : Normal) (k : ValveKind) (p : Option Node) (h : Frame 0 s t) : Frame 0 s (t.storeValve f n k p).2.2 := by
  simp only [Station.storeValve]
  have hs (y : Valve) : Frame 0 s { t with nt := { t.nt with valves := t.nt.valves.put f.valve y } } :=
    Frame.edit _ h fun ⟨n1, n2, n3⟩ => ⟨n1, Table.wf_put _ _ _ n2, n3⟩
  simp (maxDischargeDepth := 99) [hs, editTaken]

@[simp] theorem Frame.putValve (f : ValveFields) (h : Frame 0 s t) : Frame 0 s (t.putValve f).2.2 := by
  simp only [Station.putValve]
  repeat' split
  all_goals simp (maxDischargeDepth := 99) [h, refuse, editTaken]

@[simp] theorem Frame.deleteValve (v : Nat) (h : Frame 0 s t) : Frame 0 s (t.deleteValve v).2.2 := by
  simp only [Station.deleteValve]
  have hs : Frame 0 s { t with nt := { t.nt with valves := t.nt.valves.drop v } } :=
    Frame.edit _ h fun ⟨n1, n2, n3⟩ => ⟨n1, Table.wf_drop _ _ n2, n3⟩
  repeat' split
  all_goals simp (maxDischargeDepth := 99) [h, hs, refuse, editTaken]

@[simp] theorem Frame.putSensor (n l a g : Nat) (h : Frame 0 s t) : Frame 0 s (t.putSensor n l a g).2.2 := by
  simp only [Station.putSensor]
  have hs (y : Sensor) : Frame 0 s { t with nt := { t.nt with sensors := t.nt.sensors.put n y } } :=
    Frame.edit _ h fun ⟨n1, n2, n3, n4, n5⟩ => ⟨n1, n2, n3, Table.wf_put _ _ _ n4, n5⟩
  repeat' split
  all_goals simp (maxDischargeDepth := 99) [h, hs, refuse, editTaken]

@[simp] theorem Frame.deleteSensor (n : Nat) (h : Frame 0 s t) : Frame 0 s (t.deleteSensor n).2.2 := by
  simp only [Station.deleteSensor]
  have hs : Frame 0 s { t with nt := { t.nt with sensors := t.nt.sensors.drop n } } :=
    Frame.edit _ h fun ⟨n1, n2, n3, n4, n5⟩ => ⟨n1, n2, n3, Table.wf_drop _ _ n4, n5⟩
  repeat' split
  all_goals simp (maxDischargeDepth := 99) [h, hs, refuse, editTaken]

@[simp] theorem Frame.putZone (f : ZoneFields) (h : Frame 0 s t) : Frame 0 s (t.putZone f).2.2 := by
  simp only [Station.putZone]
  have hs (y : ZoneRec) : Frame 0 s { t with nt := { t.nt with zones := t.nt.zones.writeD {} f.zone y } } :=
    Frame.edit _ h fun ⟨n1, n2, n3, n4⟩ => ⟨n1, n2, Table.tidy_writeD _ _ _ _ n3, n4⟩
  split
  · exact h
  · split
    · exact h
    · split <;> simp (maxDischargeDepth := 99) [hs, editTaken]

@[simp] theorem Frame.setTiming (p l k w : Nat) (h : Frame 0 s t) : Frame 0 s (t.setTiming p l k w).2.2 := by
  simp only [Station.setTiming]
  split
  · exact h
  · exact Frame.edit _ h fun n => n

@[simp] theorem Frame.setFlow (v q : Nat) (h : Frame b s t) (hb : b ≤ 2) : Frame b s (t.setFlow v q).2.2 := by
  simp only [Station.setFlow]
  repeat' split
  all_goals simp (maxDischargeDepth := 99) [h, refuse, editTaken, hb]

@[simp] theorem Frame.putHealth (v x : Nat) (h : Frame b s t) : Frame b s (t.putHealth v x).2.2 := by
  simp only [Station.putHealth]
  repeat' split
  all_goals simp (maxDischargeDepth := 99) [h, refuse, editTaken]

@[simp] theorem Frame.crewClosed (v : Nat) (h : Frame b s t) : Frame b s (t.crewClosed v) := by
  refine Frame.foldl _ _ (fun u k => ?_) h
  split
  · split <;> simp
  · simp

@[simp] theorem Frame.crewOpened (v : Nat) (h : Frame b s t) : Frame b s (t.crewOpened v) := by
  refine Frame.foldl _ _ (fun u k => ?_) h
  split
  · split <;> simp
  · simp

@[simp] theorem Frame.stuckClose (v k : Nat) (h : Frame b s t) : Frame b s (stuckClose v t k) := by
  simp only [Station.stuckClose]
  repeat' split
  all_goals simp (maxDischargeDepth := 99) [h]

@[simp] theorem Frame.stuckReopen (v k : Nat) (h : Frame b s t) : Frame b s (stuckReopen v t k) := by
  simp only [Station.stuckReopen]
  repeat' split
  all_goals simp (maxDischargeDepth := 99) [h]

@[simp] theorem Frame.crewStuck (v : Nat) (h : Frame b s t) : Frame b s (t.crewStuck v) := by
  simp (maxDischargeDepth := 99) [Station.crewStuck, h]

@[simp] theorem Frame.confirmValve (v r : Nat) (h : Frame b s t) : Frame b s (t.confirmValve v r).2.2 := by
  simp only [Station.confirmValve]
  repeat' split
  all_goals simp (maxDischargeDepth := 99) [h, refuse, editTaken]

@[simp] theorem Frame.moveValve (v g d : Nat) (h : Frame b s t) : Frame b s (t.moveValve v g d).2.2 := by
  simp only [Station.moveValve]
  repeat' split
  all_goals simp (maxDischargeDepth := 99) [h, refuse, editTaken]

@[simp] theorem Frame.hostHaltEntry (k : Nat) (ro : Bool) (v : Nat) (h : Frame b s t) : Frame b s (t.hostHaltEntry k ro v) := by
  simp only [Station.hostHaltEntry]
  repeat' split
  all_goals simp (maxDischargeDepth := 99) [h]

@[simp] theorem Frame.stopValve (v : Nat) (h : Frame b s t) : Frame b s (t.stopValve v) := by
  simp only [Station.stopValve]
  have h1 : Frame b s (t.forEntries fun s k ro w => if w = v then s.hostHaltEntry k ro w else s) :=
    Frame.forEntries _ (fun u k ro w => by split <;> simp) h
  generalize t.forEntries (fun s k ro w => if w = v then s.hostHaltEntry k ro w else s) = u at h1 ⊢
  split
  · split <;> simp (maxDischargeDepth := 99) [h1]
  · simp (maxDischargeDepth := 99) [h1]

@[simp] theorem Frame.haltValve (v m : Nat) (h : Frame b s t) : Frame b s (t.haltValve v m).2.2 := by
  simp only [Station.haltValve]
  repeat' split
  all_goals simp (maxDischargeDepth := 99) [h, refuse, editTaken]

@[simp] theorem Frame.resumeZone (z : Nat) (h : Frame b s t) (hb : b ≤ 2) : Frame b s (t.resumeZone z).2.2 := by
  simp only [Station.resumeZone]
  repeat' split
  all_goals simp (maxDischargeDepth := 99) [h, refuse, editTaken, hb]

@[simp] theorem Frame.fieldClear (l : Nat) (h : Frame b s t) (hb : b ≤ 1) : Frame b s (t.fieldClear l).2.2 := by
  simp only [Station.fieldClear]
  split
  · exact h
  · split
    · exact h
    · dsimp only
      split
      · exact h
      · exact Frame.modLineAny _ _ h (fun _ hx => hx) hb

@[simp] theorem Frame.exerciseValve (v g : Nat) (h : Frame b s t) : Frame b s (t.exerciseValve v g).2.2 := by
  simp only [Station.exerciseValve]
  repeat' split
  all_goals simp (maxDischargeDepth := 99) [h, refuse, editTaken]

@[simp] theorem Frame.noteOpened (k : Nat) (h : Frame b s t) : Frame b s (t.noteOpened k) := by
  simp only [Station.noteOpened]
  split
  · split
    · exact h
    · exact h.inner rfl rfl
  · exact h

@[simp] theorem Frame.openIncident (n : Nat) (h : Frame 0 s t) : Frame 0 s (t.openIncident n).2.2 := by
  simp only [Station.openIncident]
  have hs (l : List Nat) : Frame 0 s { t with im := { t.im with freeList := l } } := h.plain rfl
  repeat' split
  all_goals simp (maxDischargeDepth := 99) [h, hs, refuse]

@[simp] theorem Frame.adoptEntry (k : Nat) (e : Entry) (h : Frame b s t) : Frame b s (adoptEntry k t e) := by
  simp (maxDischargeDepth := 99) [Station.adoptEntry, h]

@[simp] theorem Frame.failOpened (k : Nat) (e : Entry) (h : Frame b s t) : Frame b s (failOpened k t e) := by
  simp (maxDischargeDepth := 99) [Station.failOpened, h]

@[simp] theorem Frame.startCrew (k : Nat) (e : Entry) (h : Frame b s t) : Frame b s (startCrew k t e) := by
  simp (maxDischargeDepth := 99) [Station.startCrew, h]

@[simp] theorem Frame.startActuated (k : Nat) (e : Entry) (h : Frame b s t) : Frame b s (startActuated k t e) := by
  simp (maxDischargeDepth := 99) [Station.startActuated, h]

@[simp] theorem Frame.authorize (k o : Nat) (h : Frame b s t) (hb : b ≤ 2) : Frame b s (t.authorize k o).2.2 := by
  simp only [Station.authorize]
  repeat' split
  all_goals simp (maxDischargeDepth := 99) [h, refuse, editTaken, hb]

@[simp] theorem Frame.abort (k : Nat) (h : Frame 0 s t) : Frame 0 s (t.abort k).2.2 := by
  simp only [Station.abort]
  repeat' split
  all_goals simp (maxDischargeDepth := 99) [h, refuse, editTaken]

@[simp] theorem Frame.releaseValve (k v : Nat) (h : Frame b s t) : Frame b s (releaseValve k t v) := by
  simp (maxDischargeDepth := 99) [Station.releaseValve, h]

@[simp] theorem Frame.startReopen (k : Nat) (e : Entry) (h : Frame b s t) : Frame b s (startReopen k t e) := by
  simp (maxDischargeDepth := 99) [Station.startReopen, h]

@[simp] theorem Frame.release (k : Nat) (h : Frame b s t) (hb : b ≤ 2) : Frame b s (t.release k).2.2 := by
  simp only [Station.release]
  repeat' split
  all_goals simp (maxDischargeDepth := 99) [h, refuse, editTaken, hb]

@[simp] theorem Frame.closeIncident (k : Nat) (h : Frame 0 s t) : Frame 0 s (t.closeIncident k).2.2 := by
  simp only [Station.closeIncident]
  repeat' split
  all_goals simp (maxDischargeDepth := 99) [h, refuse, editTaken]

@[simp] theorem Frame.planExpires (k : Nat) (h : Frame 0 s t) : Frame 0 s (t.planExpires k) := by
  simp only [Station.planExpires]
  repeat' split
  all_goals simp (maxDischargeDepth := 99) [h]

@[simp] theorem Frame.reachDue (d : Option Nat) (h : Frame 0 s t) : Frame 0 s (t.reachDue d) := by
  simp only [Station.reachDue]
  repeat' split
  all_goals simp (maxDischargeDepth := 99) [h]

@[simp] theorem Frame.timesOut (v : Nat) (h : Frame 0 s t) : Frame 0 s (t.timesOut v) := by
  simp only [Station.timesOut]
  repeat' split
  all_goals simp (maxDischargeDepth := 99) [h]

@[simp] theorem Frame.settles (z : Nat) (h : Frame 0 s t) : Frame 0 s (t.settles z) := by
  simp only [Station.settles]
  repeat' split
  all_goals simp (maxDischargeDepth := 99) [h]

@[simp] theorem Frame.warningQualifies (h : Frame 0 s t) : Frame 0 s (t.warningQualifies) := by
  simp only [Station.warningQualifies]
  have hs : Frame 0 s { t with supplyWarning := true } := h.plain rfl
  have hl (l : Line) (u : Station) (hu : Frame 0 s u) :
      Frame 0 s (u.modLine l fun x => { x with broadcasts := x.broadcasts ++ [.halt] }) :=
    Frame.modLineAny _ _ hu (fun _ hx => hx) (by omega)
  split
  · exact h
  · exact Frame.addCause _ _ (Frame.foldl _ _ (fun u v => Frame.supplyHalt v (Frame.refl u))
      (hl _ _ (hl _ _ (Frame.post _ hs))))

@[simp] theorem Frame.warningClears (h : Frame 0 s t) : Frame 0 s (t.warningClears) := by
  simp only [Station.warningClears]
  have hs : Frame 0 s { t with supplyWarning := false } := h.plain rfl
  split
  · simp (maxDischargeDepth := 99) [hs]
  · exact h

@[simp] theorem Frame.startLines (h : Frame 0 s t) : Frame 0 s (t.startLines) := by
  simp only [Station.startLines]
  have hg (x : FieldLine) (hx : Table.tidy {} x.nodes = true) : Table.tidy {}
      (if x.started = true then x
        else { x with started := true, broadcasts := .clear true :: x.broadcasts }).nodes = true := by
    split <;> exact hx
  split
  · exact h
  · refine h.widest ⟨fun c => ?_, fun c => c⟩
    rw [canonical_iff] at *
    obtain ⟨c1, c2, c3, c4, c5, c6, c7, c8, c9, c10, c11, c12, c13⟩ := c
    exact ⟨c1, c2, c3, c4, c5, c6, c7, c8, c9, c10, c11, hg _ c12, hg _ c13⟩

/-- Storage is no table. -/
theorem Frame.storage (x : Storage) (h : Frame 0 s t) : Frame 0 s { t with ss := x } := h.plain rfl

@[simp] theorem Frame.settleWaitEnds (h : Frame 0 s t) : Frame 0 s (t.settleWaitEnds) := by
  simp only [Station.settleWaitEnds]
  split
  · exact Frame.startLines (Frame.storage _ (Frame.advanceTo 20 h))
  · exact h

@[simp] theorem Frame.commitTable (h : Frame 0 s t) : Frame 0 s (t.commitTable).2.2 := by
  simp only [Station.commitTable]
  repeat' split
  all_goals first
    | exact h
    | exact Frame.storage _ h

@[simp] theorem Frame.storeFails (c : Cause) (h : Frame 0 s t) : Frame 0 s (t.storeFails c) := by
  exact Frame.post _ (Frame.storage _ h)

@[simp] theorem Frame.eraseDone (x : Bool) (h : Frame 0 s t) : Frame 0 s (t.eraseDone x) := by
  simp only [Station.eraseDone]
  repeat' split
  all_goals first
    | exact h
    | exact Frame.storeFails _ h
    | exact Frame.storage _ h
    | exact Frame.post _ (Frame.storage _ h)

@[simp] theorem Frame.writeDone (x : Bool) (h : Frame 0 s t) : Frame 0 s (t.writeDone x) := by
  simp only [Station.writeDone]
  repeat' split
  all_goals first
    | exact h
    | exact Frame.storeFails _ h
    | exact Frame.storage _ h
    | exact Frame.post _ (Frame.storage _ h)

@[simp] theorem Frame.verifyDone (x : Bool) (h : Frame 0 s t) : Frame 0 s (t.verifyDone x) := by
  simp only [Station.verifyDone]
  repeat' split
  all_goals first
    | exact h
    | exact Frame.storeFails _ h
    | exact Frame.storage _ h
    | exact Frame.post _ (Frame.storage _ h)

@[simp] theorem Frame.flashTimeout (h : Frame 0 s t) : Frame 0 s (t.flashTimeout) := by
  simp only [Station.flashTimeout]
  repeat' split
  all_goals first
    | exact h
    | exact Frame.storeFails _ h
    | exact Frame.storage _ h
    | exact Frame.post _ (Frame.storage _ h)

end Sys2Proof.Machine.Station
end

