-- ==== Sys2Proof/Laws/StartMoves.lean ====
section
/-! SUPPORT. The load and the reset keep the tables sound; reads change nothing; every request keeps the tables sound. -/

set_option linter.unusedSimpArgs false
set_option linter.unusedTactic false
set_option linter.unreachableTactic false

namespace Sys2Proof.Machine.Station

variable {b : Nat} {s t : Station}

theorem wf_foldl_tables {α β : Type} (f : Table α → β → Table α) (xs : List β)
    (hf : ∀ t x, Table.wf t = true → Table.wf (f t x) = true) (m : Table α) (h : Table.wf m = true) :
    Table.wf (xs.foldl f m) = true := by
  induction xs generalizing m with
  | nil => exact h
  | cons x xs ih => exact ih _ (hf _ _ h)

/-- The table of a loaded image is in its canonical form (R8). -/
theorem netTidy_networkOf (i : Image) : netTidy (networkOf i) := by
  refine ⟨Table.wf_gather _, Table.wf_gather _, ?_, Table.wf_gather _, ?_⟩
  · have : ∀ (xs : List (Nat × ZoneRec)) (m : Table ZoneRec), Table.tidy {} m = true →
        Table.tidy {} (xs.foldl (fun (t : Table ZoneRec) p => t.writeD {} p.1 p.2) m) = true := by
      intro xs
      induction xs with
      | nil => exact fun m hm => hm
      | cons x xs ih => exact fun m hm => ih _ (Table.tidy_writeD _ _ _ _ hm)
    exact this _ _ rfl
  · refine wf_foldl_tables _ _ (fun t x ht => Table.wf_put _ _ _ ht) _ (wf_foldl_tables _ _ (fun t x ht => ?_) _ rfl)
    split
    · exact Table.wf_put _ _ _ ht
    · exact ht

/-- The load of an image keeps the tables sound (R181). -/
theorem Frame.loaded (i : Image) (h : Frame 0 s t) : Frame 0 s (t.loaded i) := by
  have h0 : Frame 0 s { t with nt := networkOf i, ss := { t.ss with station := .ready } } :=
    Frame.storage _ (Frame.edit _ h fun _ => netTidy_networkOf i)
  simp only [Station.loaded]
  refine Frame.foldl _ _ (fun u p => Frame.deriveClass _ (Frame.refl u))
    (Frame.foldl _ _ (fun u p => Frame.modNodeAny _ _ (Frame.refl u) (by omega)) (Frame.foldl _ _ (fun u p => ?_) h0))
  split
  · exact Frame.modNodeAny _ _ (Frame.modVsAny _ _ (Frame.refl u) (by decide)) (by decide)
  · exact Frame.modVsAny _ _ (Frame.refl u) (by decide)

@[simp] theorem Frame.loadingEnds (x : Bool) (h : Frame 0 s t) : Frame 0 s (t.loadingEnds x) := by
  have hn (n : Network) (st : Storage) (hn : netTidy n) : Frame 0 s { t with nt := n, ss := st } :=
    Frame.storage _ (Frame.edit _ h fun _ => hn)
  simp only [Station.loadingEnds]
  split
  · exact h
  · refine Frame.startLines ?_
    split
    · exact Frame.loaded _ h
    · exact Frame.post _ (hn _ _ ⟨rfl, rfl, rfl, rfl, rfl⟩)

theorem canonical_atReset (s : Station) : s.atReset.canonical = true := rfl

theorem factorsOk_atReset (s : Station) : s.atReset.factorsOk = true := rfl

@[simp] theorem readSegment_station (n : Nat) : (s.readSegment n).2.2 = s := by
  simp only [Station.readSegment, Station.unlessLoading]
  repeat' split
  all_goals rfl

@[simp] theorem readValve_station (v : Nat) : (s.readValve v).2.2 = s := by
  simp only [Station.readValve, Station.unlessLoading]
  repeat' split
  all_goals rfl

@[simp] theorem readZone_station (z : Nat) : (s.readZone z).2.2 = s := by
  simp only [Station.readZone, Station.unlessLoading]
  repeat' split
  all_goals rfl

@[simp] theorem readSensor_station (n : Nat) : (s.readSensor n).2.2 = s := by
  simp only [Station.readSensor, Station.unlessLoading]
  repeat' split
  all_goals rfl

@[simp] theorem readTiming_station : (s.readTiming).2.2 = s := by
  simp only [Station.readTiming, Station.unlessLoading]
  repeat' split
  all_goals rfl

@[simp] theorem nextRecord_station (k n : Nat) : (s.nextRecord k n).2.2 = s := by
  simp only [Station.nextRecord, Station.unlessLoading]
  repeat' split
  all_goals rfl

@[simp] theorem readValveState_station (v : Nat) : (s.readValveState v).2.2 = s := by
  simp only [Station.readValveState, Station.unlessLoading]
  repeat' split
  all_goals rfl

@[simp] theorem readIncident_station (k : Nat) : (s.readIncident k).2.2 = s := by
  simp only [Station.readIncident, Station.unlessLoading]
  repeat' split
  all_goals rfl

@[simp] theorem readPlan_station (k p : Nat) : (s.readPlan k p).2.2 = s := by
  simp only [Station.readPlan, Station.unlessLoading]
  repeat' split
  all_goals rfl

@[simp] theorem readMotion_station (z : Nat) : (s.readMotion z).2.2 = s := by
  simp only [Station.readMotion, Station.unlessLoading]
  repeat' split
  all_goals rfl

@[simp] theorem readZoneWatch_station (z : Nat) : (s.readZoneWatch z).2.2 = s := by
  simp only [Station.readZoneWatch, Station.unlessLoading]
  repeat' split
  all_goals rfl

@[simp] theorem readSensorWatch_station (n : Nat) : (s.readSensorWatch n).2.2 = s := by
  simp only [Station.readSensorWatch, Station.unlessLoading]
  repeat' split
  all_goals rfl

@[simp] theorem readNode_station (l a : Nat) : (s.readNode l a).2.2 = s := by
  simp only [Station.readNode, Station.unlessLoading]
  repeat' split
  all_goals rfl

@[simp] theorem readExercises_station : (s.readExercises).2.2 = s := by
  simp only [Station.readExercises, Station.unlessLoading]
  repeat' split
  all_goals rfl

/-- Every request that a block decides keeps the tables sound. -/
theorem Frame.decideRequest (r : Request) (h : Frame 0 s t) : Frame 0 s (decideRequest t r).2.2 := by
  cases r <;> simp (maxDischargeDepth := 99) [Sys2Proof.Machine.decideRequest, h]

end Sys2Proof.Machine.Station
end

