-- ==== Sys2Proof/Laws/State.lean ====
section
/-! SUPPORT. What each base operation over the station writes and what it leaves, field by field, so that no later
proof unfolds a record update. -/

namespace Sys2Proof.Machine

namespace Station

variable (s : Station)

@[simp] theorem tick_clock : (s.tick).clock = clockAfter s.clock 1 := rfl
@[simp] theorem tick_ss : (s.tick).ss = s.ss := rfl
@[simp] theorem tick_nt : (s.tick).nt = s.nt := rfl
@[simp] theorem tick_vs : (s.tick).vs = s.vs := rfl
@[simp] theorem tick_ip : (s.tick).ip = s.ip := rfl
@[simp] theorem tick_im : (s.tick).im = s.im := rfl
@[simp] theorem tick_md : (s.tick).md = s.md := rfl
@[simp] theorem tick_pw : (s.tick).pw = s.pw := rfl
@[simp] theorem tick_lineA : (s.tick).lineA = s.lineA := rfl
@[simp] theorem tick_lineB : (s.tick).lineB = s.lineB := rfl
@[simp] theorem tick_supplyWarning : (s.tick).supplyWarning = s.supplyWarning := rfl
@[simp] theorem tick_xu : (s.tick).xu = s.xu := rfl
@[simp] theorem tick_outbox : (s.tick).outbox = s.outbox := rfl

@[simp] theorem post_clock (n : Notice) : (s.post n).clock = s.clock := rfl
@[simp] theorem post_ss (n : Notice) : (s.post n).ss = s.ss := rfl
@[simp] theorem post_nt (n : Notice) : (s.post n).nt = s.nt := rfl
@[simp] theorem post_vs (n : Notice) : (s.post n).vs = s.vs := rfl
@[simp] theorem post_ip (n : Notice) : (s.post n).ip = s.ip := rfl
@[simp] theorem post_im (n : Notice) : (s.post n).im = s.im := rfl
@[simp] theorem post_md (n : Notice) : (s.post n).md = s.md := rfl
@[simp] theorem post_pw (n : Notice) : (s.post n).pw = s.pw := rfl
@[simp] theorem post_lineA (n : Notice) : (s.post n).lineA = s.lineA := rfl
@[simp] theorem post_lineB (n : Notice) : (s.post n).lineB = s.lineB := rfl
@[simp] theorem post_supplyWarning (n : Notice) : (s.post n).supplyWarning = s.supplyWarning := rfl
@[simp] theorem post_xu (n : Notice) : (s.post n).xu = s.xu := rfl
@[simp] theorem post_outbox (n : Notice) : (s.post n).outbox = s.outbox ++ [{ n with clock := s.seconds }] := rfl

@[simp] theorem modVs_clock (v : Nat) (f : VsRec → VsRec) : (s.modVs v f).clock = s.clock := rfl
@[simp] theorem modVs_ss (v : Nat) (f : VsRec → VsRec) : (s.modVs v f).ss = s.ss := rfl
@[simp] theorem modVs_nt (v : Nat) (f : VsRec → VsRec) : (s.modVs v f).nt = s.nt := rfl
@[simp] theorem modVs_vs (v : Nat) (f : VsRec → VsRec) : (s.modVs v f).vs = s.vs.writeD {} v (f (s.vsOf v)) := rfl
@[simp] theorem modVs_ip (v : Nat) (f : VsRec → VsRec) : (s.modVs v f).ip = s.ip := rfl
@[simp] theorem modVs_im (v : Nat) (f : VsRec → VsRec) : (s.modVs v f).im = s.im := rfl
@[simp] theorem modVs_md (v : Nat) (f : VsRec → VsRec) : (s.modVs v f).md = s.md := rfl
@[simp] theorem modVs_pw (v : Nat) (f : VsRec → VsRec) : (s.modVs v f).pw = s.pw := rfl
@[simp] theorem modVs_lineA (v : Nat) (f : VsRec → VsRec) : (s.modVs v f).lineA = s.lineA := rfl
@[simp] theorem modVs_lineB (v : Nat) (f : VsRec → VsRec) : (s.modVs v f).lineB = s.lineB := rfl
@[simp] theorem modVs_supplyWarning (v : Nat) (f : VsRec → VsRec) : (s.modVs v f).supplyWarning = s.supplyWarning := rfl
@[simp] theorem modVs_xu (v : Nat) (f : VsRec → VsRec) : (s.modVs v f).xu = s.xu := rfl
@[simp] theorem modVs_outbox (v : Nat) (f : VsRec → VsRec) : (s.modVs v f).outbox = s.outbox := rfl

@[simp] theorem modSlot_clock (k : Nat) (f : Slot → Slot) : (s.modSlot k f).clock = s.clock := rfl
@[simp] theorem modSlot_ss (k : Nat) (f : Slot → Slot) : (s.modSlot k f).ss = s.ss := rfl
@[simp] theorem modSlot_nt (k : Nat) (f : Slot → Slot) : (s.modSlot k f).nt = s.nt := rfl
@[simp] theorem modSlot_vs (k : Nat) (f : Slot → Slot) : (s.modSlot k f).vs = s.vs := rfl
@[simp] theorem modSlot_ip (k : Nat) (f : Slot → Slot) : (s.modSlot k f).ip = s.ip := rfl
@[simp] theorem modSlot_im (k : Nat) (f : Slot → Slot) : (s.modSlot k f).im = { s.im with slots := s.im.slots.writeD {} k (f (s.slot k)) } := rfl
@[simp] theorem modSlot_md (k : Nat) (f : Slot → Slot) : (s.modSlot k f).md = s.md := rfl
@[simp] theorem modSlot_pw (k : Nat) (f : Slot → Slot) : (s.modSlot k f).pw = s.pw := rfl
@[simp] theorem modSlot_lineA (k : Nat) (f : Slot → Slot) : (s.modSlot k f).lineA = s.lineA := rfl
@[simp] theorem modSlot_lineB (k : Nat) (f : Slot → Slot) : (s.modSlot k f).lineB = s.lineB := rfl
@[simp] theorem modSlot_supplyWarning (k : Nat) (f : Slot → Slot) : (s.modSlot k f).supplyWarning = s.supplyWarning := rfl
@[simp] theorem modSlot_xu (k : Nat) (f : Slot → Slot) : (s.modSlot k f).xu = s.xu := rfl
@[simp] theorem modSlot_outbox (k : Nat) (f : Slot → Slot) : (s.modSlot k f).outbox = s.outbox := rfl

@[simp] theorem setCount_clock (z n : Nat) : (s.setCount z n).clock = s.clock := rfl
@[simp] theorem setCount_ss (z n : Nat) : (s.setCount z n).ss = s.ss := rfl
@[simp] theorem setCount_nt (z n : Nat) : (s.setCount z n).nt = s.nt := rfl
@[simp] theorem setCount_vs (z n : Nat) : (s.setCount z n).vs = s.vs := rfl
@[simp] theorem setCount_ip (z n : Nat) : (s.setCount z n).ip = s.ip := rfl
@[simp] theorem setCount_im (z n : Nat) : (s.setCount z n).im = s.im := rfl
@[simp] theorem setCount_md (z n : Nat) : (s.setCount z n).md = { s.md with counts := s.md.counts.writeD 0 z n } := rfl
@[simp] theorem setCount_pw (z n : Nat) : (s.setCount z n).pw = s.pw := rfl
@[simp] theorem setCount_lineA (z n : Nat) : (s.setCount z n).lineA = s.lineA := rfl
@[simp] theorem setCount_lineB (z n : Nat) : (s.setCount z n).lineB = s.lineB := rfl
@[simp] theorem setCount_supplyWarning (z n : Nat) : (s.setCount z n).supplyWarning = s.supplyWarning := rfl
@[simp] theorem setCount_xu (z n : Nat) : (s.setCount z n).xu = s.xu := rfl
@[simp] theorem setCount_outbox (z n : Nat) : (s.setCount z n).outbox = s.outbox := rfl

@[simp] theorem modZoneWatch_clock (z : Nat) (f : ZoneWatch → ZoneWatch) : (s.modZoneWatch z f).clock = s.clock := rfl
@[simp] theorem modZoneWatch_ss (z : Nat) (f : ZoneWatch → ZoneWatch) : (s.modZoneWatch z f).ss = s.ss := rfl
@[simp] theorem modZoneWatch_nt (z : Nat) (f : ZoneWatch → ZoneWatch) : (s.modZoneWatch z f).nt = s.nt := rfl
@[simp] theorem modZoneWatch_vs (z : Nat) (f : ZoneWatch → ZoneWatch) : (s.modZoneWatch z f).vs = s.vs := rfl
@[simp] theorem modZoneWatch_ip (z : Nat) (f : ZoneWatch → ZoneWatch) : (s.modZoneWatch z f).ip = s.ip := rfl
@[simp] theorem modZoneWatch_im (z : Nat) (f : ZoneWatch → ZoneWatch) : (s.modZoneWatch z f).im = s.im := rfl
@[simp] theorem modZoneWatch_md (z : Nat) (f : ZoneWatch → ZoneWatch) : (s.modZoneWatch z f).md = s.md := rfl
@[simp] theorem modZoneWatch_pw (z : Nat) (f : ZoneWatch → ZoneWatch) : (s.modZoneWatch z f).pw = { s.pw with zones := s.pw.zones.writeD {} z (f (s.zoneWatch z)) } := rfl
@[simp] theorem modZoneWatch_lineA (z : Nat) (f : ZoneWatch → ZoneWatch) : (s.modZoneWatch z f).lineA = s.lineA := rfl
@[simp] theorem modZoneWatch_lineB (z : Nat) (f : ZoneWatch → ZoneWatch) : (s.modZoneWatch z f).lineB = s.lineB := rfl
@[simp] theorem modZoneWatch_supplyWarning (z : Nat) (f : ZoneWatch → ZoneWatch) : (s.modZoneWatch z f).supplyWarning = s.supplyWarning := rfl
@[simp] theorem modZoneWatch_xu (z : Nat) (f : ZoneWatch → ZoneWatch) : (s.modZoneWatch z f).xu = s.xu := rfl
@[simp] theorem modZoneWatch_outbox (z : Nat) (f : ZoneWatch → ZoneWatch) : (s.modZoneWatch z f).outbox = s.outbox := rfl

@[simp] theorem modSensorWatch_clock (n : Nat) (f : SensorWatch → SensorWatch) : (s.modSensorWatch n f).clock = s.clock := rfl
@[simp] theorem modSensorWatch_ss (n : Nat) (f : SensorWatch → SensorWatch) : (s.modSensorWatch n f).ss = s.ss := rfl
@[simp] theorem modSensorWatch_nt (n : Nat) (f : SensorWatch → SensorWatch) : (s.modSensorWatch n f).nt = s.nt := rfl
@[simp] theorem modSensorWatch_vs (n : Nat) (f : SensorWatch → SensorWatch) : (s.modSensorWatch n f).vs = s.vs := rfl
@[simp] theorem modSensorWatch_ip (n : Nat) (f : SensorWatch → SensorWatch) : (s.modSensorWatch n f).ip = s.ip := rfl
@[simp] theorem modSensorWatch_im (n : Nat) (f : SensorWatch → SensorWatch) : (s.modSensorWatch n f).im = s.im := rfl
@[simp] theorem modSensorWatch_md (n : Nat) (f : SensorWatch → SensorWatch) : (s.modSensorWatch n f).md = s.md := rfl
@[simp] theorem modSensorWatch_pw (n : Nat) (f : SensorWatch → SensorWatch) : (s.modSensorWatch n f).pw = { s.pw with sensors := s.pw.sensors.writeD {} n (f (s.sensorWatch n)) } := rfl
@[simp] theorem modSensorWatch_lineA (n : Nat) (f : SensorWatch → SensorWatch) : (s.modSensorWatch n f).lineA = s.lineA := rfl
@[simp] theorem modSensorWatch_lineB (n : Nat) (f : SensorWatch → SensorWatch) : (s.modSensorWatch n f).lineB = s.lineB := rfl
@[simp] theorem modSensorWatch_supplyWarning (n : Nat) (f : SensorWatch → SensorWatch) : (s.modSensorWatch n f).supplyWarning = s.supplyWarning := rfl
@[simp] theorem modSensorWatch_xu (n : Nat) (f : SensorWatch → SensorWatch) : (s.modSensorWatch n f).xu = s.xu := rfl
@[simp] theorem modSensorWatch_outbox (n : Nat) (f : SensorWatch → SensorWatch) : (s.modSensorWatch n f).outbox = s.outbox := rfl

@[simp] theorem modStroke_clock (v : Nat) (f : Stroke → Stroke) : (s.modStroke v f).clock = s.clock := rfl
@[simp] theorem modStroke_ss (v : Nat) (f : Stroke → Stroke) : (s.modStroke v f).ss = s.ss := rfl
@[simp] theorem modStroke_nt (v : Nat) (f : Stroke → Stroke) : (s.modStroke v f).nt = s.nt := rfl
@[simp] theorem modStroke_vs (v : Nat) (f : Stroke → Stroke) : (s.modStroke v f).vs = s.vs := rfl
@[simp] theorem modStroke_ip (v : Nat) (f : Stroke → Stroke) : (s.modStroke v f).ip = s.ip := rfl
@[simp] theorem modStroke_im (v : Nat) (f : Stroke → Stroke) : (s.modStroke v f).im = s.im := rfl
@[simp] theorem modStroke_md (v : Nat) (f : Stroke → Stroke) : (s.modStroke v f).md = { s.md with strokes := s.md.strokes.map fun r => if r.valve = v then f r else r } := rfl
@[simp] theorem modStroke_pw (v : Nat) (f : Stroke → Stroke) : (s.modStroke v f).pw = s.pw := rfl
@[simp] theorem modStroke_lineA (v : Nat) (f : Stroke → Stroke) : (s.modStroke v f).lineA = s.lineA := rfl
@[simp] theorem modStroke_lineB (v : Nat) (f : Stroke → Stroke) : (s.modStroke v f).lineB = s.lineB := rfl
@[simp] theorem modStroke_supplyWarning (v : Nat) (f : Stroke → Stroke) : (s.modStroke v f).supplyWarning = s.supplyWarning := rfl
@[simp] theorem modStroke_xu (v : Nat) (f : Stroke → Stroke) : (s.modStroke v f).xu = s.xu := rfl
@[simp] theorem modStroke_outbox (v : Nat) (f : Stroke → Stroke) : (s.modStroke v f).outbox = s.outbox := rfl

@[simp] theorem addStroke_clock (r : Stroke) : (s.addStroke r).clock = s.clock := rfl
@[simp] theorem addStroke_ss (r : Stroke) : (s.addStroke r).ss = s.ss := rfl
@[simp] theorem addStroke_nt (r : Stroke) : (s.addStroke r).nt = s.nt := rfl
@[simp] theorem addStroke_vs (r : Stroke) : (s.addStroke r).vs = s.vs := rfl
@[simp] theorem addStroke_ip (r : Stroke) : (s.addStroke r).ip = s.ip := rfl
@[simp] theorem addStroke_im (r : Stroke) : (s.addStroke r).im = s.im := rfl
@[simp] theorem addStroke_md (r : Stroke) : (s.addStroke r).md = { s.md with strokes := s.md.strokes ++ [r] } := rfl
@[simp] theorem addStroke_pw (r : Stroke) : (s.addStroke r).pw = s.pw := rfl
@[simp] theorem addStroke_lineA (r : Stroke) : (s.addStroke r).lineA = s.lineA := rfl
@[simp] theorem addStroke_lineB (r : Stroke) : (s.addStroke r).lineB = s.lineB := rfl
@[simp] theorem addStroke_supplyWarning (r : Stroke) : (s.addStroke r).supplyWarning = s.supplyWarning := rfl
@[simp] theorem addStroke_xu (r : Stroke) : (s.addStroke r).xu = s.xu := rfl
@[simp] theorem addStroke_outbox (r : Stroke) : (s.addStroke r).outbox = s.outbox := rfl

@[simp] theorem dropStroke_clock (v : Nat) : (s.dropStroke v).clock = s.clock := rfl
@[simp] theorem dropStroke_ss (v : Nat) : (s.dropStroke v).ss = s.ss := rfl
@[simp] theorem dropStroke_nt (v : Nat) : (s.dropStroke v).nt = s.nt := rfl
@[simp] theorem dropStroke_vs (v : Nat) : (s.dropStroke v).vs = s.vs := rfl
@[simp] theorem dropStroke_ip (v : Nat) : (s.dropStroke v).ip = s.ip := rfl
@[simp] theorem dropStroke_im (v : Nat) : (s.dropStroke v).im = s.im := rfl
@[simp] theorem dropStroke_md (v : Nat) : (s.dropStroke v).md = { s.md with strokes := s.md.strokes.filter fun r => decide (r.valve ≠ v) } := rfl
@[simp] theorem dropStroke_pw (v : Nat) : (s.dropStroke v).pw = s.pw := rfl
@[simp] theorem dropStroke_lineA (v : Nat) : (s.dropStroke v).lineA = s.lineA := rfl
@[simp] theorem dropStroke_lineB (v : Nat) : (s.dropStroke v).lineB = s.lineB := rfl
@[simp] theorem dropStroke_supplyWarning (v : Nat) : (s.dropStroke v).supplyWarning = s.supplyWarning := rfl
@[simp] theorem dropStroke_xu (v : Nat) : (s.dropStroke v).xu = s.xu := rfl
@[simp] theorem dropStroke_outbox (v : Nat) : (s.dropStroke v).outbox = s.outbox := rfl

@[simp] theorem addReturn_clock (v : Nat) : (s.addReturn v).clock = s.clock := rfl
@[simp] theorem addReturn_ss (v : Nat) : (s.addReturn v).ss = s.ss := rfl
@[simp] theorem addReturn_nt (v : Nat) : (s.addReturn v).nt = s.nt := rfl
@[simp] theorem addReturn_vs (v : Nat) : (s.addReturn v).vs = s.vs := rfl
@[simp] theorem addReturn_ip (v : Nat) : (s.addReturn v).ip = s.ip := rfl
@[simp] theorem addReturn_im (v : Nat) : (s.addReturn v).im = s.im := rfl
@[simp] theorem addReturn_md (v : Nat) : (s.addReturn v).md = { s.md with returns := s.md.returns ++ [v] } := rfl
@[simp] theorem addReturn_pw (v : Nat) : (s.addReturn v).pw = s.pw := rfl
@[simp] theorem addReturn_lineA (v : Nat) : (s.addReturn v).lineA = s.lineA := rfl
@[simp] theorem addReturn_lineB (v : Nat) : (s.addReturn v).lineB = s.lineB := rfl
@[simp] theorem addReturn_supplyWarning (v : Nat) : (s.addReturn v).supplyWarning = s.supplyWarning := rfl
@[simp] theorem addReturn_xu (v : Nat) : (s.addReturn v).xu = s.xu := rfl
@[simp] theorem addReturn_outbox (v : Nat) : (s.addReturn v).outbox = s.outbox := rfl

@[simp] theorem dropReturn_clock (v : Nat) : (s.dropReturn v).clock = s.clock := rfl
@[simp] theorem dropReturn_ss (v : Nat) : (s.dropReturn v).ss = s.ss := rfl
@[simp] theorem dropReturn_nt (v : Nat) : (s.dropReturn v).nt = s.nt := rfl
@[simp] theorem dropReturn_vs (v : Nat) : (s.dropReturn v).vs = s.vs := rfl
@[simp] theorem dropReturn_ip (v : Nat) : (s.dropReturn v).ip = s.ip := rfl
@[simp] theorem dropReturn_im (v : Nat) : (s.dropReturn v).im = s.im := rfl
@[simp] theorem dropReturn_md (v : Nat) : (s.dropReturn v).md = { s.md with returns := s.md.returns.filter fun w => decide (w ≠ v) } := rfl
@[simp] theorem dropReturn_pw (v : Nat) : (s.dropReturn v).pw = s.pw := rfl
@[simp] theorem dropReturn_lineA (v : Nat) : (s.dropReturn v).lineA = s.lineA := rfl
@[simp] theorem dropReturn_lineB (v : Nat) : (s.dropReturn v).lineB = s.lineB := rfl
@[simp] theorem dropReturn_supplyWarning (v : Nat) : (s.dropReturn v).supplyWarning = s.supplyWarning := rfl
@[simp] theorem dropReturn_xu (v : Nat) : (s.dropReturn v).xu = s.xu := rfl
@[simp] theorem dropReturn_outbox (v : Nat) : (s.dropReturn v).outbox = s.outbox := rfl

@[simp] theorem addMove_clock (m : Move) : (s.addMove m).clock = s.clock := rfl
@[simp] theorem addMove_ss (m : Move) : (s.addMove m).ss = s.ss := rfl
@[simp] theorem addMove_nt (m : Move) : (s.addMove m).nt = s.nt := rfl
@[simp] theorem addMove_vs (m : Move) : (s.addMove m).vs = s.vs := rfl
@[simp] theorem addMove_ip (m : Move) : (s.addMove m).ip = s.ip := rfl
@[simp] theorem addMove_im (m : Move) : (s.addMove m).im = s.im := rfl
@[simp] theorem addMove_md (m : Move) : (s.addMove m).md = { s.md with moves := s.md.moves ++ [m] } := rfl
@[simp] theorem addMove_pw (m : Move) : (s.addMove m).pw = s.pw := rfl
@[simp] theorem addMove_lineA (m : Move) : (s.addMove m).lineA = s.lineA := rfl
@[simp] theorem addMove_lineB (m : Move) : (s.addMove m).lineB = s.lineB := rfl
@[simp] theorem addMove_supplyWarning (m : Move) : (s.addMove m).supplyWarning = s.supplyWarning := rfl
@[simp] theorem addMove_xu (m : Move) : (s.addMove m).xu = s.xu := rfl
@[simp] theorem addMove_outbox (m : Move) : (s.addMove m).outbox = s.outbox := rfl

@[simp] theorem modMove_clock (v : Nat) (f : Move → Move) : (s.modMove v f).clock = s.clock := rfl
@[simp] theorem modMove_ss (v : Nat) (f : Move → Move) : (s.modMove v f).ss = s.ss := rfl
@[simp] theorem modMove_nt (v : Nat) (f : Move → Move) : (s.modMove v f).nt = s.nt := rfl
@[simp] theorem modMove_vs (v : Nat) (f : Move → Move) : (s.modMove v f).vs = s.vs := rfl
@[simp] theorem modMove_ip (v : Nat) (f : Move → Move) : (s.modMove v f).ip = s.ip := rfl
@[simp] theorem modMove_im (v : Nat) (f : Move → Move) : (s.modMove v f).im = s.im := rfl
@[simp] theorem modMove_md (v : Nat) (f : Move → Move) : (s.modMove v f).md = { s.md with moves := s.md.moves.map fun r => if r.valve = v then f r else r } := rfl
@[simp] theorem modMove_pw (v : Nat) (f : Move → Move) : (s.modMove v f).pw = s.pw := rfl
@[simp] theorem modMove_lineA (v : Nat) (f : Move → Move) : (s.modMove v f).lineA = s.lineA := rfl
@[simp] theorem modMove_lineB (v : Nat) (f : Move → Move) : (s.modMove v f).lineB = s.lineB := rfl
@[simp] theorem modMove_supplyWarning (v : Nat) (f : Move → Move) : (s.modMove v f).supplyWarning = s.supplyWarning := rfl
@[simp] theorem modMove_xu (v : Nat) (f : Move → Move) : (s.modMove v f).xu = s.xu := rfl
@[simp] theorem modMove_outbox (v : Nat) (f : Move → Move) : (s.modMove v f).outbox = s.outbox := rfl

@[simp] theorem dropMove_clock (v : Nat) : (s.dropMove v).clock = s.clock := rfl
@[simp] theorem dropMove_ss (v : Nat) : (s.dropMove v).ss = s.ss := rfl
@[simp] theorem dropMove_nt (v : Nat) : (s.dropMove v).nt = s.nt := rfl
@[simp] theorem dropMove_vs (v : Nat) : (s.dropMove v).vs = s.vs := rfl
@[simp] theorem dropMove_ip (v : Nat) : (s.dropMove v).ip = s.ip := rfl
@[simp] theorem dropMove_im (v : Nat) : (s.dropMove v).im = s.im := rfl
@[simp] theorem dropMove_md (v : Nat) : (s.dropMove v).md = { s.md with moves := s.md.moves.filter fun r => decide (r.valve ≠ v) } := rfl
@[simp] theorem dropMove_pw (v : Nat) : (s.dropMove v).pw = s.pw := rfl
@[simp] theorem dropMove_lineA (v : Nat) : (s.dropMove v).lineA = s.lineA := rfl
@[simp] theorem dropMove_lineB (v : Nat) : (s.dropMove v).lineB = s.lineB := rfl
@[simp] theorem dropMove_supplyWarning (v : Nat) : (s.dropMove v).supplyWarning = s.supplyWarning := rfl
@[simp] theorem dropMove_xu (v : Nat) : (s.dropMove v).xu = s.xu := rfl
@[simp] theorem dropMove_outbox (v : Nat) : (s.dropMove v).outbox = s.outbox := rfl

@[simp] theorem addExercise_clock (x : Exercise) : (s.addExercise x).clock = s.clock := rfl
@[simp] theorem addExercise_ss (x : Exercise) : (s.addExercise x).ss = s.ss := rfl
@[simp] theorem addExercise_nt (x : Exercise) : (s.addExercise x).nt = s.nt := rfl
@[simp] theorem addExercise_vs (x : Exercise) : (s.addExercise x).vs = s.vs := rfl
@[simp] theorem addExercise_ip (x : Exercise) : (s.addExercise x).ip = s.ip := rfl
@[simp] theorem addExercise_im (x : Exercise) : (s.addExercise x).im = s.im := rfl
@[simp] theorem addExercise_md (x : Exercise) : (s.addExercise x).md = s.md := rfl
@[simp] theorem addExercise_pw (x : Exercise) : (s.addExercise x).pw = s.pw := rfl
@[simp] theorem addExercise_lineA (x : Exercise) : (s.addExercise x).lineA = s.lineA := rfl
@[simp] theorem addExercise_lineB (x : Exercise) : (s.addExercise x).lineB = s.lineB := rfl
@[simp] theorem addExercise_supplyWarning (x : Exercise) : (s.addExercise x).supplyWarning = s.supplyWarning := rfl
@[simp] theorem addExercise_xu (x : Exercise) : (s.addExercise x).xu = s.xu ++ [x] := rfl
@[simp] theorem addExercise_outbox (x : Exercise) : (s.addExercise x).outbox = s.outbox := rfl

@[simp] theorem modExercise_clock (v : Nat) (f : Exercise → Exercise) : (s.modExercise v f).clock = s.clock := rfl
@[simp] theorem modExercise_ss (v : Nat) (f : Exercise → Exercise) : (s.modExercise v f).ss = s.ss := rfl
@[simp] theorem modExercise_nt (v : Nat) (f : Exercise → Exercise) : (s.modExercise v f).nt = s.nt := rfl
@[simp] theorem modExercise_vs (v : Nat) (f : Exercise → Exercise) : (s.modExercise v f).vs = s.vs := rfl
@[simp] theorem modExercise_ip (v : Nat) (f : Exercise → Exercise) : (s.modExercise v f).ip = s.ip := rfl
@[simp] theorem modExercise_im (v : Nat) (f : Exercise → Exercise) : (s.modExercise v f).im = s.im := rfl
@[simp] theorem modExercise_md (v : Nat) (f : Exercise → Exercise) : (s.modExercise v f).md = s.md := rfl
@[simp] theorem modExercise_pw (v : Nat) (f : Exercise → Exercise) : (s.modExercise v f).pw = s.pw := rfl
@[simp] theorem modExercise_lineA (v : Nat) (f : Exercise → Exercise) : (s.modExercise v f).lineA = s.lineA := rfl
@[simp] theorem modExercise_lineB (v : Nat) (f : Exercise → Exercise) : (s.modExercise v f).lineB = s.lineB := rfl
@[simp] theorem modExercise_supplyWarning (v : Nat) (f : Exercise → Exercise) : (s.modExercise v f).supplyWarning = s.supplyWarning := rfl
@[simp] theorem modExercise_xu (v : Nat) (f : Exercise → Exercise) : (s.modExercise v f).xu = s.xu.map fun r => if r.valve = v then f r else r := rfl
@[simp] theorem modExercise_outbox (v : Nat) (f : Exercise → Exercise) : (s.modExercise v f).outbox = s.outbox := rfl

@[simp] theorem dropExercise_clock (v : Nat) : (s.dropExercise v).clock = s.clock := rfl
@[simp] theorem dropExercise_ss (v : Nat) : (s.dropExercise v).ss = s.ss := rfl
@[simp] theorem dropExercise_nt (v : Nat) : (s.dropExercise v).nt = s.nt := rfl
@[simp] theorem dropExercise_vs (v : Nat) : (s.dropExercise v).vs = s.vs := rfl
@[simp] theorem dropExercise_ip (v : Nat) : (s.dropExercise v).ip = s.ip := rfl
@[simp] theorem dropExercise_im (v : Nat) : (s.dropExercise v).im = s.im := rfl
@[simp] theorem dropExercise_md (v : Nat) : (s.dropExercise v).md = s.md := rfl
@[simp] theorem dropExercise_pw (v : Nat) : (s.dropExercise v).pw = s.pw := rfl
@[simp] theorem dropExercise_lineA (v : Nat) : (s.dropExercise v).lineA = s.lineA := rfl
@[simp] theorem dropExercise_lineB (v : Nat) : (s.dropExercise v).lineB = s.lineB := rfl
@[simp] theorem dropExercise_supplyWarning (v : Nat) : (s.dropExercise v).supplyWarning = s.supplyWarning := rfl
@[simp] theorem dropExercise_xu (v : Nat) : (s.dropExercise v).xu = s.xu.filter fun r => decide (r.valve ≠ v) := rfl
@[simp] theorem dropExercise_outbox (v : Nat) : (s.dropExercise v).outbox = s.outbox := rfl

end Station

variable (s : State)

/-- A reply formed writes the link's reply and the station alone. -/
@[simp] theorem replied_pending (t : Byte) (k : Nat) (st : Status) (d : List Byte) (x : Station) :
    (s.replied t k st d x).pending = s.pending := rfl

@[simp] theorem replied_nrstLow (t : Byte) (k : Nat) (st : Status) (d : List Byte) (x : Station) :
    (s.replied t k st d x).nrstLow = s.nrstLow := rfl

@[simp] theorem replied_ratePin (t : Byte) (k : Nat) (st : Status) (d : List Byte) (x : Station) :
    (s.replied t k st d x).ratePin = s.ratePin := rfl

@[simp] theorem replied_rateSamples (t : Byte) (k : Nat) (st : Status) (d : List Byte) (x : Station) :
    (s.replied t k st d x).rateSamples = s.rateSamples := rfl

@[simp] theorem replied_st (t : Byte) (k : Nat) (st : Status) (d : List Byte) (x : Station) :
    (s.replied t k st d x).st = x := rfl

@[simp] theorem replied_notices (t : Byte) (k : Nat) (st : Status) (d : List Byte) (x : Station) :
    (s.replied t k st d x).sl.notices = s.sl.notices := rfl

end Sys2Proof.Machine
end

