-- ==== Sys2Proof/Laws/Link.lean ====
section
/-! SUPPORT. What the link does, each shared operation once: taking a notice, taking what was posted, taking a
request that arrives at a free link, the receiver, and the bounds of the link. -/

namespace Sys2Proof.Machine

@[simp] theorem takeNotice_receiver (l : Link) (n : Notice) : (l.takeNotice n).receiver = l.receiver := by
  unfold Link.takeNotice; split <;> (try split) <;> rfl

@[simp] theorem takeNotice_buffer (l : Link) (n : Notice) : (l.takeNotice n).buffer = l.buffer := by
  unfold Link.takeNotice; split <;> (try split) <;> rfl

@[simp] theorem takeNotice_sending (l : Link) (n : Notice) : (l.takeNotice n).sending = l.sending := by
  unfold Link.takeNotice; split <;> (try split) <;> rfl

@[simp] theorem takeNotice_lastReply (l : Link) (n : Notice) : (l.takeNotice n).lastReply = l.lastReply := by
  unfold Link.takeNotice; split <;> (try split) <;> rfl

@[simp] theorem takeNotice_rateHigh (l : Link) (n : Notice) : (l.takeNotice n).rateHigh = l.rateHigh := by
  unfold Link.takeNotice; split <;> (try split) <;> rfl

@[simp] theorem takeNotice_enables (l : Link) (n : Notice) : (l.takeNotice n).enables = l.enables := by
  unfold Link.takeNotice; split <;> (try split) <;> rfl

/-- The queue keeps its bound (R194). -/
theorem takeNotice_cap (l : Link) (n : Notice) (h : l.notices.length ≤ Config.noticeCap) :
    (l.takeNotice n).notices.length ≤ Config.noticeCap := by
  unfold Link.takeNotice
  split
  · split
    · simp only [List.length_append, List.length_singleton]; omega
    · exact h
  · exact h

/-- What holds of a link and of it after any notice holds after several. -/
theorem foldl_takeNotice (P : Link → Prop) (hp : ∀ l n, P l → P (l.takeNotice n)) (ns : List Notice) (l : Link)
    (h : P l) : P (ns.foldl Link.takeNotice l) := by
  induction ns generalizing l with
  | nil => exact h
  | cons n ns ih => exact ih _ (hp _ _ h)

/-- Taking notices leaves everything of the link but the queue and the withheld marks. -/
theorem foldl_takeNotice_rest (ns : List Notice) (l : Link) :
    ns.foldl Link.takeNotice l =
      { l with notices := (ns.foldl Link.takeNotice l).notices, withheld := (ns.foldl Link.takeNotice l).withheld } := by
  induction ns generalizing l with
  | nil => rfl
  | cons n ns ih =>
    rw [List.foldl_cons, ih (l.takeNotice n)]
    simp

@[simp] theorem takePostings_pending (s : State) : (takePostings s).pending = s.pending := rfl
@[simp] theorem takePostings_nrstLow (s : State) : (takePostings s).nrstLow = s.nrstLow := rfl
@[simp] theorem takePostings_ratePin (s : State) : (takePostings s).ratePin = s.ratePin := rfl
@[simp] theorem takePostings_rateSamples (s : State) : (takePostings s).rateSamples = s.rateSamples := rfl
@[simp] theorem takePostings_st (s : State) : (takePostings s).st = { s.st with outbox := [] } := rfl

/-- With nothing posted, SL takes nothing. -/
theorem takePostings_nil (s : State) (h : s.st.outbox = []) : takePostings s = s := by
  obtain ⟨p, n, r, q, l, st⟩ := s
  obtain ⟨c, ss, nt, vs, ip, im, md, pw, a, b, w, xu, o⟩ := st
  simp only at h
  subst h
  rfl

/-- The notices taken are those posted, in order (R193). -/
@[simp] theorem takePostings_sl (s : State) : (takePostings s).sl = s.st.outbox.foldl Link.takeNotice s.sl := rfl

/-- What comes to a free link is taken at once, and then the notices it posted (R190, R193). -/
theorem deliver_taking (s : State) (w : Waiting) (h : s.taking) : deliver s w = takePostings (takeRequest s w) := by
  obtain ⟨-, h2, h3, -⟩ := h
  obtain ⟨p, n, ra, q, l, st⟩ := s
  obtain ⟨rc, bu, se, lr, rh, no, en, wi⟩ := l
  simp only at h2 h3
  subst h2 h3
  rfl

/-- A request that arrives at a free link is taken at once, and then the notices it posted (R190, R193). -/
theorem arrive_taking (s : State) (t : Byte) (r : Request) (h : s.taking) :
    arrive s t r = takePostings (takeRequest s { tag := t, kind := BitVec.ofNat 8 (requestCode r), content := .request r }) :=
  deliver_taking s _ h

/-- A request that a block decides, arriving at a free link: the block's decision and its reply (R190). -/
theorem arrive_decided (s : State) (t : Byte) (r : Request) (h : s.taking) (hl : s.st.ss.station ≠ .loading)
    (hr : r ≠ .readNotice ∧ (∀ m, r ≠ .setNoticeClasses m) ∧ r ≠ .status ∧ r ≠ .identify ∧ r ≠ .resetStation) :
    arrive s t r = takePostings (s.replied t (requestCode r) (decideRequest s.st r).1 (decideRequest s.st r).2.1
      (decideRequest s.st r).2.2) := by
  rw [arrive_taking s t r h]
  obtain ⟨h1, h2, h3, h4, h5⟩ := hr
  cases r <;> simp_all [takeRequest, respond, State.replied]

/-- The same for a block's decision that posts nothing. -/
theorem arrive_quiet (s : State) (t : Byte) (r : Request) (h : s.taking) (hl : s.st.ss.station ≠ .loading)
    (hr : r ≠ .readNotice ∧ (∀ m, r ≠ .setNoticeClasses m) ∧ r ≠ .status ∧ r ≠ .identify ∧ r ≠ .resetStation)
    (ho : (decideRequest s.st r).2.2.outbox = []) :
    arrive s t r = s.replied t (requestCode r) (decideRequest s.st r).1 (decideRequest s.st r).2.1
      (decideRequest s.st r).2.2 := by
  rw [arrive_decided s t r h hl hr, takePostings_nil _ ho]

/-- In LOADING a request that is not taken there is refused and changes nothing (R191). -/
theorem arrive_loading (s : State) (t : Byte) (r : Request) (h : s.taking) (hl : s.st.ss.station = .loading)
    (hr : takenLoading r = false) : arrive s t r = s.replied t (requestCode r) .notReady [] s.st := by
  rw [arrive_taking s t r h, takePostings_nil]
  · simp [takeRequest, respond, hl, hr, State.replied]
  · simp [takeRequest, respond, hl, hr, h.2.2.2]

/-- A request row is the arrival of its request, when the part is not held in reset (log entry 3). -/
theorem exec_request {i : Instr} {t : Byte} {r : Request} (hi : i.request? = some (t, r)) {s : State}
    (h : s.nrstLow = false) : exec i s = .next (arrive s t r) := by
  cases i <;> cases hi <;> (show whileUp s (fun s => arrive s _ _) = _; unfold whileUp; rw [h]; rfl)

/-- An event inside the station, when the part is not held in reset. -/
theorem exec_station (f : Station → Station) (s : State) (h : s.up) :
    whileUp s (onStation f) = .next (takePostings { s with st := f s.st }) := by
  simp [whileUp, h.1, onStation]

/-- The same for an event after which the arbiters decide (R117). -/
theorem exec_motion (f : Station → Station) (s : State) (h : s.up) :
    whileUp s (onMotion f) = .next (takePostings { s with st := (f s.st).decideAll }) :=
  exec_station (fun x => (f x).decideAll) s h

/-- SL answers the request itself (R195 to R198, R187). -/
def Request.ofLink : Request → Bool
  | .readNotice | .setNoticeClasses _ | .status | .identify | .resetStation => true
  | _ => false

/-- A request row that a block decides, at a free link. -/
theorem exec_decided (i : Instr) (t : Byte) (r : Request) (hi : i.request? = some (t, r)) {s : State} (h : s.taking)
    (hl : s.st.ss.station ≠ .loading) (hr : Request.ofLink r = false) {a : Status} {b : List Byte} {x : Station}
    (hd : decideRequest s.st r = (a, b, x)) :
    exec i s = .next (takePostings (s.replied t (requestCode r) a b x)) := by
  rw [exec_request hi h.1, arrive_decided s t r h hl, hd]
  cases r <;> simp [Request.ofLink] at hr <;> simp

/-- The same for a decision that posts nothing. -/
theorem exec_quiet (i : Instr) (t : Byte) (r : Request) (hi : i.request? = some (t, r)) {s : State} (h : s.taking)
    (hl : s.st.ss.station ≠ .loading) (hr : Request.ofLink r = false) {a : Status} {b : List Byte} {x : Station}
    (hd : decideRequest s.st r = (a, b, x)) (ho : x.outbox = []) :
    exec i s = .next (s.replied t (requestCode r) a b x) := by
  rw [exec_decided i t r hi h hl hr hd, takePostings_nil _ ho]

/-- The bounds of the link, field by field. -/
theorem linkOk_iff (s : State) : s.linkOk = true ↔
    s.sl.notices.length ≤ Config.noticeCap ∧ s.sl.buffer.length ≤ Config.bufferCap ∧
    (s.sl.sending = true ∨ s.sl.buffer = []) ∧ s.st.outbox = [] ∧
    (∀ n rest, s.sl.receiver = .assembling (n :: rest) → n.toNat ≤ Config.payloadCap ∧ rest.length < n.toNat + 4) := by
  unfold State.linkOk
  cases hr : s.sl.receiver with
  | hunting => simp [and_assoc]
  | assembling xs => cases xs <;> simp [and_assoc]

/-- Taking what was posted keeps the bounds. -/
theorem linkOk_takePostings (s : State) (h : { s with st := { s.st with outbox := [] } }.linkOk = true) :
    (takePostings s).linkOk = true := by
  rw [linkOk_iff] at h ⊢
  obtain ⟨h1, h2, h3, -, h5⟩ := h
  have e : (takePostings s).sl = _ := foldl_takeNotice_rest s.st.outbox s.sl
  have hc := foldl_takeNotice (fun l => l.notices.length ≤ Config.noticeCap) takeNotice_cap s.st.outbox s.sl h1
  rw [e]
  exact ⟨hc, h2, h3, rfl, h5⟩

/-- An event inside the station keeps the bounds of the link. -/
theorem linkOk_onStation (f : Station → Station) (s : State) (h : s.linkOk = true) : (onStation f s).linkOk = true := by
  refine linkOk_takePostings _ ?_
  rw [linkOk_iff] at h ⊢
  exact ⟨h.1, h.2.1, h.2.2.1, rfl, h.2.2.2.2⟩

end Sys2Proof.Machine
end

