-- ==== Sys2Proof/Laws/Due.lean ====
section
/-! SUPPORT. Due times: carrying the clock to one, and the earliest of several (R162, R166; log entry 11). -/

namespace Sys2Proof.Machine.Station

/-- The clock is carried to a due time it has not reached (log entry 11). -/
theorem advanceTo_eq (s : Station) (d : Nat) :
    s.advanceTo d = { s with clock := if clockReached s.clock d then s.clock else d } := by
  unfold Station.advanceTo
  generalize clockReached s.clock d = b
  cases b <;> rfl

/-- `earliest` answers the address due first, the lowest where two are due alike, and none where none is due. -/
theorem earliest_spec (now : Nat) (xs : List (Nat × Nat)) :
    (∀ a, earliest now xs = some a → ∃ d, (a, d) ∈ xs ∧ clockReached now d = true ∧ ∀ m' d', (m', d') ∈ xs → clockReached now d' = true → clockSince now d' < clockSince now d ∨ (clockSince now d' = clockSince now d ∧ a ≤ m')) ∧
    (earliest now xs = none → ∀ x ∈ xs, clockReached now x.2 = false) := by
  unfold earliest
  have gen : ∀ (ys : List (Nat × Nat)) (b : Option (Nat × Nat)),
      (∀ r, ys.foldl (fun best x => match best with | none => some x | some y => if dueFirst now y x then some y else some x) b = some r →
        (r ∈ ys ∨ b = some r) ∧ (∀ x, (x ∈ ys ∨ b = some x) → clockSince now x.2 < clockSince now r.2 ∨ (clockSince now x.2 = clockSince now r.2 ∧ r.1 ≤ x.1))) ∧
      (ys.foldl (fun best x => match best with | none => some x | some y => if dueFirst now y x then some y else some x) b = none → ys = [] ∧ b = none) := by
    intro ys
    induction ys with
    | nil =>
      intro b
      refine ⟨fun r hr => ⟨Or.inr hr, fun x hx => ?_⟩, fun h => ⟨rfl, h⟩⟩
      rcases hx with hx | hx
      · simp at hx
      · rw [List.foldl_nil] at hr; rw [hr] at hx; cases hx; exact Or.inr ⟨rfl, Nat.le_refl _⟩
    | cons y ys ih =>
      intro b
      rw [List.foldl_cons]
      cases b with
      | none =>
        have := ih (some y)
        refine ⟨fun r hr => ?_, fun hn => ?_⟩
        · obtain ⟨h1, h2⟩ := this.1 r hr
          refine ⟨?_, fun x hx => h2 x ?_⟩
          · rcases h1 with h1 | h1
            · exact Or.inl (by simp [h1])
            · cases h1; exact Or.inl (by simp)
          · rcases hx with hx | hx
            · rcases List.mem_cons.mp hx with rfl | hx
              · exact Or.inr rfl
              · exact Or.inl hx
            · cases hx
        · have := (this.2 hn).2; cases this
      | some z =>
        dsimp only
        by_cases hd : dueFirst now z y = true
        · rw [if_pos hd]
          have := ih (some z)
          refine ⟨fun r hr => ?_, fun hn => ?_⟩
          · obtain ⟨h1, h2⟩ := this.1 r hr
            refine ⟨?_, fun x hx => ?_⟩
            · rcases h1 with h1 | h1
              · exact Or.inl (by simp [h1])
              · exact Or.inr h1
            · rcases hx with hx | hx
              · rcases List.mem_cons.mp hx with rfl | hx
                · have hz := h2 z (Or.inr rfl)
                  simp only [dueFirst, decide_eq_true_eq] at hd
                  omega
                · exact h2 x (Or.inl hx)
              · exact h2 x (Or.inr hx)
          · have := (this.2 hn).2; cases this
        · rw [if_neg hd]
          have := ih (some y)
          refine ⟨fun r hr => ?_, fun hn => ?_⟩
          · obtain ⟨h1, h2⟩ := this.1 r hr
            refine ⟨?_, fun x hx => ?_⟩
            · rcases h1 with h1 | h1
              · exact Or.inl (by simp [h1])
              · cases h1; exact Or.inl (by simp)
            · have hy := h2 y (Or.inr rfl)
              rcases hx with hx | hx
              · rcases List.mem_cons.mp hx with rfl | hx
                · exact hy
                · exact h2 x (Or.inl hx)
              · cases hx
                simp only [dueFirst, decide_eq_true_eq] at hd
                omega
          · have := (this.2 hn).2; cases this
  have g := gen (xs.filter fun x => clockReached now x.2) none
  refine ⟨fun a ha => ?_, fun hn x hx => ?_⟩
  · rw [Option.map_eq_some_iff] at ha
    obtain ⟨⟨a', d⟩, hr, rfl⟩ := ha
    obtain ⟨h1, h2⟩ := g.1 _ hr
    simp only [List.mem_filter, reduceCtorEq, or_false] at h1 h2
    exact ⟨d, h1.1, h1.2, fun m' d' hm hd => h2 (m', d') ⟨hm, hd⟩⟩
  · rw [Option.map_eq_none_iff] at hn
    have := (g.2 hn).1
    rw [List.filter_eq_nil_iff] at this
    simpa using this x hx

end Sys2Proof.Machine.Station
end

