-- ==== Sys2Proof/Laws/Reading.lean ====
section
/-! SUPPORT. What a record reads as after another was written: the read-after-write laws of the station's tables, and
tables searched by membership. -/

namespace Sys2Proof.Machine

namespace Table

variable {α : Type}

/-- A table in its form finds exactly what it lists. -/
theorem find_iff_mem (t : Table α) (h : Table.wf t = true) (n : Nat) (x : α) : t.find? n = some x ↔ (n, x) ∈ t := by
  induction t with
  | nil => simp [Table.find?]
  | cons e t ih =>
    obtain ⟨k, r⟩ := e
    simp only [Table.wf, Bool.and_eq_true] at h
    have hk := (Table.above_iff _ _).mp h.1
    unfold Table.find?
    split
    · rename_i hn
      subst hn
      simp only [Option.some.injEq, List.mem_cons, Prod.mk.injEq, true_and]
      refine ⟨fun e => Or.inl e.symm, fun e => e.elim Eq.symm fun e => ?_⟩
      exact absurd (hk _ e) (by simp)
    · rename_i hn
      split
      · rename_i hl
        simp only [reduceCtorEq, List.mem_cons, Prod.mk.injEq, false_iff, not_or, not_and]
        exact ⟨fun e => absurd e hn, fun e => by have := hk _ e; simp at this; omega⟩
      · rw [ih h.2]
        simp [hn]

/-- Keeping some of the records keeps what is found of those. -/
theorem find_filter (t : Table α) (h : Table.wf t = true) (p : Nat × α → Bool) (n : Nat) :
    Table.find? (List.filter p t) n = (t.find? n).filter fun x => p (n, x) := by
  apply Option.ext
  intro x
  rw [find_iff_mem _ (Table.wf_filter p t h), List.mem_filter, ← find_iff_mem _ h, Option.filter_eq_some_iff]

/-- Putting one record under each of several numbers. -/
theorem find_foldl_put (xs : List Nat) (k : α) (t : Table α) (n : Nat) :
    (xs.foldl (fun (t : Table α) m => t.put m k) t).find? n = if n ∈ xs then some k else t.find? n := by
  induction xs generalizing t with
  | nil => simp
  | cons y ys ih =>
    rw [List.foldl_cons, ih]
    by_cases hy : n ∈ ys
    · simp [hy]
    · by_cases e : n = y
      · subst e
        simp [hy, Table.find_put_same]
      · simp [hy, e, Table.find_put_other]

/-- The next listed number: the lowest at or above the start. -/
theorem next_iff (t : Table α) (h : Table.wf t = true) (n m : Nat) :
    t.next? n = some m ↔ n ≤ m ∧ (t.find? m).isSome ∧ ∀ j, n ≤ j → j < m → t.find? j = none := by
  unfold Table.next?
  induction t with
  | nil => simp [Table.next?.go, Table.find?]
  | cons e t ih =>
    obtain ⟨k, r⟩ := e
    simp only [Table.wf, Bool.and_eq_true] at h
    have hb : ∀ j, j < k → Table.find? t j = none := fun j hj => Table.find_of_above (Table.above_trans hj h.1)
    unfold Table.next?.go
    split
    · rename_i hn
      simp only [Option.some.injEq]
      constructor
      · rintro rfl
        refine ⟨hn, by simp [Table.find?], fun j _ hj => ?_⟩
        simp only [Table.find?, if_neg (Nat.ne_of_lt hj), if_pos hj]
      · rintro ⟨h1, h2, h3⟩
        rcases Nat.lt_trichotomy k m with hm | hm | hm
        · have := h3 k hn hm
          simp [Table.find?] at this
        · exact hm
        · simp only [Table.find?, if_neg (Nat.ne_of_lt hm), if_pos hm] at h2
          simp at h2
    · rename_i hn
      rw [ih h.2]
      have e : ∀ j, n ≤ j → Table.find? ((k, r) :: t) j = Table.find? t j := by
        intro j hj
        simp only [Table.find?, if_neg (show ¬ j = k by omega), if_neg (show ¬ j < k by omega)]
      constructor
      · rintro ⟨h1, h2, h3⟩
        exact ⟨h1, by rw [e m h1]; exact h2, fun j hj hm => by rw [e j hj]; exact h3 j hj hm⟩
      · rintro ⟨h1, h2, h3⟩
        exact ⟨h1, by rw [← e m h1]; exact h2, fun j hj hm => by rw [← e j hj]; exact h3 j hj hm⟩

end Table

namespace Station

variable {s : Station}

/-- A Valve State record reads as it was written. -/
theorem vsOf_modVs (c : s.canonical = true) (v w : Nat) (f : VsRec → VsRec) :
    (s.modVs v f).vsOf w = if w = v then f (s.vsOf v) else s.vsOf w := by
  rw [canonical_iff] at c
  have h := c.2.2.2.2.2.1
  simp only [Table.tidy, Bool.and_eq_true] at h
  simp only [Station.vsOf, modVs_vs]
  split
  · rename_i e
    subst e
    exact Table.readD_writeD_same _ _ _ _ h.1
  · rename_i e
    exact Table.readD_writeD_other _ _ _ _ _ h.1 e

/-- A slot reads as it was written. -/
theorem slot_modSlot (c : s.canonical = true) (k j : Nat) (f : Slot → Slot) :
    (s.modSlot k f).slot j = if j = k then f (s.slot k) else s.slot j := by
  rw [canonical_iff] at c
  have h := c.2.2.2.2.2.2.1
  simp only [Table.tidy, Bool.and_eq_true] at h
  simp only [Station.slot, modSlot_im]
  split
  · rename_i e
    subst e
    exact Table.readD_writeD_same _ _ _ _ h.1
  · rename_i e
    exact Table.readD_writeD_other _ _ _ _ _ h.1 e

/-- A zone watch record reads as it was written. -/
theorem zoneWatch_modZoneWatch (c : s.canonical = true) (z w : Nat) (f : ZoneWatch → ZoneWatch) :
    (s.modZoneWatch z f).zoneWatch w = if w = z then f (s.zoneWatch z) else s.zoneWatch w := by
  rw [canonical_iff] at c
  have h := c.2.2.2.2.2.2.2.2.2.1
  simp only [Table.tidy, Bool.and_eq_true] at h
  simp only [Station.zoneWatch, Station.modZoneWatch]
  split
  · rename_i e
    subst e
    exact Table.readD_writeD_same _ _ _ _ h.1
  · rename_i e
    exact Table.readD_writeD_other _ _ _ _ _ h.1 e

/-- A sensor watch record reads as it was written. -/
theorem sensorWatch_modSensorWatch (c : s.canonical = true) (n m : Nat) (f : SensorWatch → SensorWatch) :
    (s.modSensorWatch n f).sensorWatch m = if m = n then f (s.sensorWatch n) else s.sensorWatch m := by
  rw [canonical_iff] at c
  have h := c.2.2.2.2.2.2.2.2.2.2.1
  simp only [Table.tidy, Bool.and_eq_true] at h
  simp only [Station.sensorWatch, Station.modSensorWatch]
  split
  · rename_i e
    subst e
    exact Table.readD_writeD_same _ _ _ _ h.1
  · rename_i e
    exact Table.readD_writeD_other _ _ _ _ _ h.1 e

/-- A node-table entry reads as it was written. -/
theorem node_modNode (c : s.canonical = true) (n m : Node) (f : NodeEntry → NodeEntry) :
    (s.modNode n f).node m = if m = n then f (s.node n) else s.node m := by
  have h := nodes_tidy c n.line
  simp only [Table.tidy, Bool.and_eq_true] at h
  unfold Station.node Station.modNode
  rw [line_modLine]
  obtain ⟨l, a⟩ := n
  obtain ⟨l', a'⟩ := m
  by_cases hl : l' = l
  · subst hl
    by_cases ha : a' = a
    · subst ha
      simpa using Table.readD_writeD_same _ _ _ _ h.1
    · simpa [ha] using Table.readD_writeD_other _ _ _ _ _ h.1 ha
  · simp [hl]

/-- A present valve record reads as it was rewritten. -/
theorem valve_modValve (v w : Nat) (f : Valve → Valve) :
    (s.modValve v f).valve? w = if w = v then (s.valve? v).map f else s.valve? w := by
  unfold Station.modValve
  split
  · rename_i r hr
    split
    · rename_i e
      subst e
      rw [hr]
      exact Table.find_put_same _ _ _
    · rename_i e
      simp [Station.valve?, Table.find_put_other, e]
  · rename_i hr
    split
    · rename_i e
      subst e
      simp [hr]
    · rfl

/-- The first entry of a valve after a rewrite of the entries of a valve, which keep their valve. -/
theorem entryOf_modEntry (es : List Entry) (v w : Nat) (f : Entry → Entry) (hf : ∀ e, (f e).valve = e.valve) :
    entryOf? (modEntry es v f) w = (entryOf? es w).map fun e => if w = v then f e else e := by
  unfold entryOf? modEntry
  induction es with
  | nil => rfl
  | cons e es ih =>
    rw [List.map_cons, List.find?_cons, List.find?_cons]
    have hv : (if e.valve = v then f e else e).valve = e.valve := by split <;> simp [hf]
    rw [hv]
    by_cases h : e.valve = w
    · subst h; simp
    · simp only [h, decide_false]; exact ih

/-- The entry of a valve in a list of a slot after a rewrite of an entry. -/
theorem entryIn_modIn (c : s.canonical = true) (k j : Nat) (ro so : Bool) (v w : Nat) (f : Entry → Entry)
    (hf : ∀ e, (f e).valve = e.valve) :
    (s.modIn k ro v f).entryIn j so w = (s.entryIn j so w).map fun e => if j = k ∧ so = ro ∧ w = v then f e else e := by
  cases ro <;> cases so <;> by_cases h : j = k <;>
    simp [Station.modIn, Station.modWork, Station.modReopen, Station.entryIn, slot_modSlot c, h, entryOf_modEntry _ _ _ _ hf]

end Station
end Sys2Proof.Machine
end

