-- ==== Sys2Proof/Laws/ZoneFactor.lean ====
section
/-! SUPPORT. What the test for the surge factor's return does (R145). -/

namespace Sys2Proof.Machine.Station

/-- The factor's return changes only the watch's zones (R145). -/
theorem factorReturn_eq (s : Station) (z : Nat) :
    s.factorReturn z = { s with pw := { s.pw with zones := (s.factorReturn z).pw.zones } } := by
  unfold factorReturn
  split <;> rfl

/-- Whether an entry waits in a zone is unaffected by the watch's zones. -/
theorem anyWaitingEntry_factorReturn (s : Station) (z y : Nat) :
    (s.factorReturn z).anyWaitingEntry y = s.anyWaitingEntry y := by
  rw [factorReturn_eq]; rfl

/-- What the factor's return does to each zone (R145). -/
theorem zoneWatch_factorReturn (s : Station) (z y : Nat) (h : Table.wf s.pw.zones = true) :
    (s.factorReturn z).zoneWatch y =
      if y = z then
        { s.zoneWatch y with
          factor := if (s.zoneWatch y).state = .quiet ∧ s.anyWaitingEntry y = false then 1 else (s.zoneWatch y).factor }
      else s.zoneWatch y := by
  unfold factorReturn
  by_cases hy : y = z
  · subst hy
    rw [if_pos rfl]
    split
    · exact Table.readD_writeD_same _ _ _ _ h
    · rfl
  · rw [if_neg hy]
    split
    · exact Table.readD_writeD_other _ _ _ _ _ h hy
    · rfl

theorem wf_factorReturn (s : Station) (z : Nat) (h : Table.wf s.pw.zones = true) :
    Table.wf (s.factorReturn z).pw.zones = true := by
  unfold factorReturn
  split
  · exact Table.wf_writeD _ _ _ _ h
  · exact h

theorem foldl_factorReturn (zs : List Nat) (s : Station) (h : Table.wf s.pw.zones = true) :
    (zs.foldl factorReturn s = { s with pw := { s.pw with zones := (zs.foldl factorReturn s).pw.zones } }) ∧
    ∀ y, (zs.foldl factorReturn s).zoneWatch y =
      if y ∈ zs then
        { s.zoneWatch y with
          factor := if (s.zoneWatch y).state = .quiet ∧ s.anyWaitingEntry y = false then 1 else (s.zoneWatch y).factor }
      else s.zoneWatch y := by
  induction zs generalizing s with
  | nil => exact ⟨rfl, fun y => by simp⟩
  | cons z zs ih =>
    obtain ⟨h1, h2⟩ := ih (s.factorReturn z) (wf_factorReturn s z h)
    rw [List.foldl_cons]
    refine ⟨?_, fun y => ?_⟩
    · rw [h1]
      generalize (zs.foldl factorReturn (s.factorReturn z)).pw.zones = zones
      rw [factorReturn_eq]
    · rw [h2, zoneWatch_factorReturn s z y h, anyWaitingEntry_factorReturn]
      by_cases hy : y = z
      · subst hy
        by_cases hz : y ∈ zs
        · simp only [hz, List.mem_cons, or_true, if_true]
          by_cases hq : (s.zoneWatch y).state = .quiet ∧ s.anyWaitingEntry y = false <;> simp [hq]
        · simp [hz]
      · by_cases hz : y ∈ zs <;> simp [hz, hy]

/-- Every zone that is QUIET with no entry waiting has the factor 1 afterwards, and nothing else changes (R145). -/
theorem returnFactors_spec (s : Station) (h : Table.wf s.pw.zones = true) :
    (s.returnFactors = { s with pw := { s.pw with zones := s.returnFactors.pw.zones } }) ∧
    ∀ y, y < Config.zones → s.returnFactors.zoneWatch y =
        { s.zoneWatch y with
          factor := if (s.zoneWatch y).state = .quiet ∧ s.anyWaitingEntry y = false then 1 else (s.zoneWatch y).factor } := by
  unfold returnFactors
  have hm (y : Nat) (hy : y < Config.zones) : y ∈ zoneNumbers := by
    unfold zoneNumbers
    exact List.mem_range.mpr hy
  generalize zoneNumbers = zs at hm ⊢
  obtain ⟨h1, h2⟩ := foldl_factorReturn zs s h
  exact ⟨h1, fun y hy => by rw [h2, if_pos (hm y hy)]⟩

end Sys2Proof.Machine.Station
end

