-- ==== Sys2Proof/Laws/Exhaust.lean ====
section
/-! SUPPORT. The decision of a zone's arbiter goes on until no candidate of the zone is eligible (R114): selecting a
candidate brings no new one and uses up the one selected, so that the number of candidates bounds the turns. -/

set_option linter.unusedSimpArgs false

namespace Sys2Proof.Machine

/-- No entry of `b` is PENDING whose valve has no PENDING entry in `a`. -/
def EntriesFewer (a b : List Entry) : Prop :=
  ∀ e ∈ b, e.state = .pending → ∃ f ∈ a, f.valve = e.valve ∧ f.state = .pending

/-- A slot offers the arbiters nothing that it did not offer before. -/
structure SlotFewer (a b : Slot) : Prop where
  closing : b.state = .closing → b.replanPending = false →
    a.state = .closing ∧ a.replanPending = false ∧ EntriesFewer a.work b.work
  reopening : b.state = .reopening → a.state = .reopening ∧ EntriesFewer a.reopen b.reopen

theorem EntriesFewer.refl (a : List Entry) : EntriesFewer a a := fun e he hp => ⟨e, he, rfl, hp⟩

theorem EntriesFewer.trans {a b c : List Entry} (h : EntriesFewer a b) (g : EntriesFewer b c) : EntriesFewer a c := by
  intro e he hp
  obtain ⟨f, hf, hv, hs⟩ := g e he hp
  obtain ⟨d, hd, hw, ht⟩ := h f hf hs
  exact ⟨d, hd, hw.trans hv, ht⟩

theorem EntriesFewer.modEntry (a : List Entry) (v : Nat) (f : Entry → Entry)
    (hf : ∀ e, (f e).state = .pending → e.state = .pending ∧ (f e).valve = e.valve) :
    EntriesFewer a (modEntry a v f) := by
  intro e he hp
  simp only [Machine.modEntry, List.mem_map] at he
  obtain ⟨d, hd, rfl⟩ := he
  split at hp
  · rename_i hv
    rw [if_pos hv]
    exact ⟨d, hd, (hf d hp).2.symm, (hf d hp).1⟩
  · rename_i hv
    rw [if_neg hv]
    exact ⟨d, hd, rfl, hp⟩

theorem EntriesFewer.filter (a : List Entry) (p : Entry → Bool) : EntriesFewer a (a.filter p) :=
  fun e he hp => ⟨e, (List.mem_filter.mp he).1, rfl, hp⟩

theorem SlotFewer.refl (a : Slot) : SlotFewer a a :=
  ⟨fun h g => ⟨h, g, EntriesFewer.refl _⟩, fun h => ⟨h, EntriesFewer.refl _⟩⟩

theorem SlotFewer.trans {a b c : Slot} (h : SlotFewer a b) (g : SlotFewer b c) : SlotFewer a c where
  closing hs hr := by
    obtain ⟨h1, h2, h3⟩ := g.closing hs hr
    obtain ⟨g1, g2, g3⟩ := h.closing h1 h2
    exact ⟨g1, g2, g3.trans h3⟩
  reopening hs := by
    obtain ⟨h1, h2⟩ := g.reopening hs
    obtain ⟨g1, g2⟩ := h.reopening h1
    exact ⟨g1, g2.trans h2⟩

theorem SlotFewer.of {a b : Slot} (hs : b.state = a.state) (hr : b.replanPending = a.replanPending)
    (hw : EntriesFewer a.work b.work) (ho : EntriesFewer a.reopen b.reopen) : SlotFewer a b :=
  ⟨fun h g => ⟨hs ▸ h, hr ▸ g, hw⟩, fun h => ⟨hs ▸ h, ho⟩⟩

/-- A slot that comes to offer nothing. -/
theorem SlotFewer.none {a b : Slot} (hc : b.state = .closing → b.replanPending = true) (hr : b.state ≠ .reopening) :
    SlotFewer a b :=
  ⟨fun h g => absurd (hc h) (by simp [g]), fun h => absurd h hr⟩

namespace Station

/-- The arbiters are offered nothing that they were not offered before, and no valve has changed its zone. -/
structure Fewer (s t : Station) : Prop where
  zones : ∀ v, t.zoneOfValve? v = s.zoneOfValve? v
  returns : ∀ v, v ∈ t.md.returns → v ∈ s.md.returns
  moves : ∀ m ∈ t.md.moves, m.waiting = true → ∃ n ∈ s.md.moves, n.valve = m.valve ∧ n.waiting = true
  exercises : ∀ x ∈ t.xu, x.phase = .queued → ∃ y ∈ s.xu, y.valve = x.valve ∧ y.zone = x.zone ∧ y.phase = .queued
  slots : ∀ k, SlotFewer (s.slot k) (t.slot k)

/-- From tables in their canonical form, what is offered dwindles and the form is kept. -/
def Dwindles (s t : Station) : Prop := s.canonical = true → t.canonical = true ∧ Fewer s t

variable {s t : Station}

@[simp, refl] theorem Dwindles.refl (s : Station) : Dwindles s s := fun c =>
  ⟨c, ⟨fun _ => rfl, fun _ h => h, fun m h g => ⟨m, h, rfl, g⟩, fun x h g => ⟨x, h, rfl, rfl, g⟩, fun _ => SlotFewer.refl _⟩⟩

theorem Dwindles.trans {u : Station} (h : Dwindles s t) (g : Dwindles t u) : Dwindles s u := by
  intro c
  obtain ⟨c1, h⟩ := h c
  obtain ⟨c2, g⟩ := g c1
  refine ⟨c2, ⟨fun v => (g.zones v).trans (h.zones v), fun v hv => h.returns v (g.returns v hv), fun m hm hw => ?_,
    fun x hx hq => ?_, fun k => (h.slots k).trans (g.slots k)⟩⟩
  · obtain ⟨n, hn, e, w⟩ := g.moves m hm hw
    obtain ⟨n', hn', e', w'⟩ := h.moves n hn w
    exact ⟨n', hn', e'.trans e, w'⟩
  · obtain ⟨y, hy, e, z, q⟩ := g.exercises x hx hq
    obtain ⟨y', hy', e', z', q'⟩ := h.exercises y hy q
    exact ⟨y', hy', e'.trans e, z'.trans z, q'⟩

@[simp] theorem Dwindles.ite {c : Prop} {_ : Decidable c} {x y : Station} (hx : Dwindles s x) (hy : Dwindles s y) :
    Dwindles s (if c then x else y) := by
  split <;> assumption

@[simp] theorem Dwindles.foldl {α : Type} (xs : List α) (f : Station → α → Station)
    (hf : ∀ (t : Station) (a : α), Dwindles t (f t a)) (h : Dwindles s t) : Dwindles s (xs.foldl f t) := by
  induction xs generalizing t with
  | nil => exact h
  | cons a xs ih => exact ih (h.trans (hf t a))

theorem Fewer.same {u : Station} (hz : ∀ v, u.zoneOfValve? v = t.zoneOfValve? v := by intro; rfl)
    (hi : u.im.slots = t.im.slots := by rfl) (hr : u.md.returns = t.md.returns := by rfl)
    (hm : u.md.moves = t.md.moves := by rfl) (hx : u.xu = t.xu := by rfl) : Fewer t u :=
  ⟨hz, fun v hv => hr ▸ hv, fun m h g => ⟨m, hm ▸ h, rfl, g⟩, fun x h g => ⟨x, hx ▸ h, rfl, rfl, g⟩, fun k => by
    have e : u.slot k = t.slot k := by simp only [Station.slot, hi]
    rw [e]
    exact SlotFewer.refl _⟩

/-- An operation of motion that leaves the slots, the returns, the requests, the exercises and every valve's zone. -/
theorem Dwindles.same {u : Station} (h : Dwindles s t) (f : Frame 3 t u)
    (hz : ∀ v, u.zoneOfValve? v = t.zoneOfValve? v := by intro; rfl) (hi : u.im.slots = t.im.slots := by rfl)
    (hr : u.md.returns = t.md.returns := by rfl) (hm : u.md.moves = t.md.moves := by rfl) (hx : u.xu = t.xu := by rfl) :
    Dwindles s u :=
  h.trans fun c => ⟨f.safe.canonical c, Fewer.same hz hi hr hm hx⟩

@[simp] theorem Dwindles.post (n : Notice) (h : Dwindles s t) : Dwindles s (t.post n) := h.same (Frame.post n (Frame.refl t))

@[simp] theorem Dwindles.modVs (v : Nat) (f : VsRec → VsRec) (h : Dwindles s t) : Dwindles s (t.modVs v f) := by
  exact h.trans fun c => ⟨canonical_modVs v f c, Fewer.same⟩

theorem Dwindles.modSlot (k : Nat) (f : Slot → Slot) (h : Dwindles s t) (hf : ∀ r, SlotFewer r (f r)) :
    Dwindles s (t.modSlot k f) := by
  refine h.trans fun c => ⟨canonical_modSlot k f c, ?_⟩
  obtain ⟨_, g⟩ := Dwindles.refl t c
  refine ⟨g.zones, g.returns, g.moves, g.exercises, fun j => ?_⟩
  rw [canonical_iff] at c
  have w := c.2.2.2.2.2.2.1
  simp only [Table.tidy, Bool.and_eq_true] at w
  by_cases hj : j = k
  · subst hj
    have e : (t.modSlot j f).slot j = f (t.slot j) := Table.readD_writeD_same _ _ _ _ w.1
    rw [e]
    exact hf _
  · have e : (t.modSlot k f).slot j = t.slot j := Table.readD_writeD_other _ _ _ _ _ w.1 hj
    rw [e]
    exact SlotFewer.refl _

theorem Dwindles.modWork (k v : Nat) (f : Entry → Entry) (h : Dwindles s t)
    (hf : ∀ e, (f e).state = .pending → e.state = .pending ∧ (f e).valve = e.valve) : Dwindles s (t.modWork k v f) :=
  h.modSlot k _ fun _ => SlotFewer.of rfl rfl (EntriesFewer.modEntry _ v f hf) (EntriesFewer.refl _)

theorem Dwindles.modReopen (k v : Nat) (f : Entry → Entry) (h : Dwindles s t)
    (hf : ∀ e, (f e).state = .pending → e.state = .pending ∧ (f e).valve = e.valve) : Dwindles s (t.modReopen k v f) :=
  h.modSlot k _ fun _ => SlotFewer.of rfl rfl (EntriesFewer.refl _) (EntriesFewer.modEntry _ v f hf)

theorem Dwindles.modIn (k : Nat) (ro : Bool) (v : Nat) (f : Entry → Entry) (h : Dwindles s t)
    (hf : ∀ e, (f e).state = .pending → e.state = .pending ∧ (f e).valve = e.valve) : Dwindles s (t.modIn k ro v f) := by
  unfold Station.modIn
  split
  · exact h.modReopen k v f hf
  · exact h.modWork k v f hf

@[simp] theorem Dwindles.modValve (v : Nat) (f : Valve → Valve) (h : Dwindles s t) (hf : ∀ r, (f r).fixed = r.fixed) :
    Dwindles s (t.modValve v f) := by
  refine h.same (Frame.modValve v f (Frame.refl t) hf) (fun w => ?_) ?_ ?_ ?_ ?_
  · unfold Station.modValve
    split
    · rename_i r hr
      simp only [Station.zoneOfValve?, Station.valve?] at hr ⊢
      by_cases hw : w = v
      · subst hw
        rw [Table.find_put_same, hr]
        have e : (f r).fixed.zone = r.fixed.zone := by rw [hf]
        exact congrArg some e
      · rw [Table.find_put_other _ _ _ _ hw]
    · rfl
  all_goals unfold Station.modValve; split <;> rfl

@[simp] theorem Dwindles.setCount (z n : Nat) (h : Dwindles s t) : Dwindles s (t.setCount z n) :=
  h.same (Frame.setCount z n (Frame.refl t))

@[simp] theorem Dwindles.modZoneState (z : Nat) (st : ZoneState) (h : Dwindles s t) :
    Dwindles s (t.modZoneWatch z fun w => { w with state := st }) :=
  h.trans fun c => ⟨canonical_modZoneWatch z _ c, Fewer.same⟩

@[simp] theorem Dwindles.modLine (l : Line) (f : FieldLine → FieldLine) (h : Dwindles s t)
    (hn : ∀ x, (f x).nodes = x.nodes) (hc : ∀ x, (f x).calls = x.calls) : Dwindles s (t.modLine l f) := by
  refine h.same (Frame.modLine l f (Frame.refl t) hn hc) ?_ ?_ ?_ ?_ ?_ <;> cases l <;> first | rfl | exact fun _ => rfl

@[simp] theorem Dwindles.modNode (n : Node) (f : NodeEntry → NodeEntry) (h : Dwindles s t)
    (hs : ∀ e, (f e).seen = e.seen) (hm : ∀ e, (f e).mark = e.mark) : Dwindles s (t.modNode n f) := by
  obtain ⟨l, a⟩ := n
  refine h.same (Frame.modNode _ f (Frame.refl t) hs hm) ?_ ?_ ?_ ?_ ?_ <;> cases l <;> first | rfl | exact fun _ => rfl

@[simp] theorem Dwindles.modStroke (v : Nat) (f : Stroke → Stroke) (h : Dwindles s t) : Dwindles s (t.modStroke v f) :=
  h.same (Frame.modStroke v f (Frame.refl t))

@[simp] theorem Dwindles.addStroke (r : Stroke) (h : Dwindles s t) : Dwindles s (t.addStroke r) :=
  h.same (Frame.addStroke r (Frame.refl t))

@[simp] theorem Dwindles.dropStroke (v : Nat) (h : Dwindles s t) : Dwindles s (t.dropStroke v) :=
  h.same (Frame.dropStroke v (Frame.refl t))

@[simp] theorem Dwindles.dropReturn (v : Nat) (h : Dwindles s t) : Dwindles s (t.dropReturn v) := by
  refine h.trans fun c => ⟨(Frame.dropReturn (b := 3) v (Frame.refl t)).safe.canonical c, ?_⟩
  obtain ⟨_, g⟩ := Dwindles.refl t c
  exact ⟨g.zones, fun w hw => (List.mem_filter.mp hw).1, g.moves, g.exercises, g.slots⟩

@[simp] theorem Dwindles.dropMove (v : Nat) (h : Dwindles s t) : Dwindles s (t.dropMove v) := by
  refine h.trans fun c => ⟨(Frame.dropMove (b := 3) v (Frame.refl t)).safe.canonical c, ?_⟩
  obtain ⟨_, g⟩ := Dwindles.refl t c
  exact ⟨g.zones, g.returns, fun m hm hw => ⟨m, (List.mem_filter.mp hm).1, rfl, hw⟩, g.exercises, g.slots⟩

@[simp] theorem Dwindles.modMove (v : Nat) (f : Move → Move) (h : Dwindles s t)
    (hf : ∀ m, (f m).waiting = true → m.waiting = true ∧ (f m).valve = m.valve) : Dwindles s (t.modMove v f) := by
  refine h.trans fun c => ⟨(Frame.modMove (b := 3) v f (Frame.refl t)).safe.canonical c, ?_⟩
  obtain ⟨_, g⟩ := Dwindles.refl t c
  refine ⟨g.zones, g.returns, fun m hm hw => ?_, g.exercises, g.slots⟩
  obtain ⟨n, hn, rfl⟩ := List.mem_map.mp hm
  split at hw
  · rename_i e
    rw [if_pos e]
    exact ⟨n, hn, (hf n hw).2.symm, (hf n hw).1⟩
  · rename_i e
    rw [if_neg e]
    exact ⟨n, hn, rfl, hw⟩

@[simp] theorem Dwindles.dropExercise (v : Nat) (h : Dwindles s t) : Dwindles s (t.dropExercise v) := by
  refine h.trans fun c => ⟨(Frame.dropExercise (b := 3) v (Frame.refl t)).safe.canonical c, ?_⟩
  obtain ⟨_, g⟩ := Dwindles.refl t c
  exact ⟨g.zones, g.returns, g.moves, fun x hx hq => ⟨x, (List.mem_filter.mp hx).1, rfl, rfl, hq⟩, g.slots⟩

@[simp] theorem Dwindles.modExercise (v : Nat) (f : Exercise → Exercise) (h : Dwindles s t)
    (hf : ∀ x, (f x).phase = .queued → x.phase = .queued ∧ (f x).valve = x.valve ∧ (f x).zone = x.zone) :
    Dwindles s (t.modExercise v f) := by
  refine h.trans fun c => ⟨(Frame.modExercise (b := 3) v f (Frame.refl t)).safe.canonical c, ?_⟩
  obtain ⟨_, g⟩ := Dwindles.refl t c
  refine ⟨g.zones, g.returns, g.moves, fun x hx hq => ?_, g.slots⟩
  obtain ⟨y, hy, rfl⟩ := List.mem_map.mp hx
  split at hq
  · rename_i e
    rw [if_pos e]
    obtain ⟨h1, h2, h3⟩ := hf y hq
    exact ⟨y, hy, h2.symm, h3.symm, h1⟩
  · rename_i e
    rw [if_neg e]
    exact ⟨y, hy, rfl, rfl, hq⟩

@[simp] theorem Dwindles.markStale (h : Dwindles s t) : Dwindles s t.markStale := h.same (Frame.markStale (Frame.refl t))

@[simp] theorem Dwindles.withdraw (k : Nat) (h : Dwindles s t) : Dwindles s (t.withdraw k) :=
  h.same (Frame.withdraw k (Frame.refl t))

@[simp] theorem Dwindles.trigger (k : Nat) (h : Dwindles s t) : Dwindles s (t.trigger k) := by
  have e : t.trigger k = { t with ip := (t.trigger k).ip } := by
    unfold Station.trigger Station.enqueue Station.startNext
    repeat' split
    all_goals rfl
  have f := Frame.trigger (b := 3) k (Frame.refl t)
  rw [e] at f ⊢
  exact h.same f

@[simp] theorem Dwindles.tooManyFailures (k n : Nat) (h : Dwindles s t) : Dwindles s (t.tooManyFailures k n) := by
  simp only [Station.tooManyFailures, Station.unisolable]
  exact (Dwindles.post _ (h.modSlot k _ fun _ => SlotFewer.none (by simp) (by simp))).withdraw k

@[simp] theorem Dwindles.modFailed (k : Nat) (f : Slot → List (Nat × Cause)) (h : Dwindles s t) :
    Dwindles s (t.modSlot k fun r => { r with failed := f r }) :=
  h.modSlot k _ fun _ => SlotFewer.of rfl rfl (EntriesFewer.refl _) (EntriesFewer.refl _)

@[simp] theorem Dwindles.failEntry (k v : Nat) (h : Dwindles s t) : Dwindles s (t.failEntry k v) :=
  h.modWork k v _ fun e he => by simp [Entry.settle] at he

/-- A slot that expands its plan waits for the replan. -/
@[simp] theorem Dwindles.expand (k : Nat) (f : Slot → Nat) (h : Dwindles s t) : Dwindles s
    (t.modSlot k fun r => { r with expansions := f r, replanPending := true, state := .closing }) :=
  h.modSlot k _ fun _ => SlotFewer.none (fun _ => rfl) (by simp)

@[simp] theorem Dwindles.modFailedTo (k n : Nat) (x : Nat × Cause) (h : Dwindles s t) : Dwindles s
    (t.modSlot k fun r => if r.failed.length < n then { r with failed := r.failed ++ [x] } else r) := by
  refine h.modSlot k _ fun r => ?_
  split
  · exact SlotFewer.of rfl rfl (EntriesFewer.refl _) (EntriesFewer.refl _)
  · exact SlotFewer.refl _

@[simp] theorem Dwindles.recordFailure (k v : Nat) (c : Cause) (h : Dwindles s t) : Dwindles s (t.recordFailure k v c) := by
  have h1 := h.failEntry k v
  simp only [Station.recordFailure]
  split
  case h_1 | h_2 =>
    have h2 := h1.modFailed k fun r => r.failed ++ [(v, c)]
    split
    · exact (h1.post _).tooManyFailures _ _
    split
    · exact (h2.trigger k).post _
    split
    · exact (h2.post _).tooManyFailures _ _
    · exact ((h2.expand k fun r => r.expansions + 1).trigger k).post _
  case h_3 | h_4 => exact (h1.modFailedTo k Config.failedCap (v, c)).post _
  all_goals exact h1.post _

@[simp] theorem Dwindles.testIsolated (k : Nat) (h : Dwindles s t) : Dwindles s (t.testIsolated k) := by
  simp only [Station.testIsolated]
  split
  · exact (h.modSlot k _ fun _ => SlotFewer.none (by simp) (by simp)).post _
  · exact h

@[simp] theorem Dwindles.testDone (k : Nat) (h : Dwindles s t) : Dwindles s (t.testDone k) := by
  simp only [Station.testDone]
  split
  · exact (h.modSlot k _ fun _ => SlotFewer.none (by simp) (by simp)).post _
  · exact h

@[simp] theorem Dwindles.refreshClass (v : Nat) (h : Dwindles s t) : Dwindles s (t.refreshClass v) := by
  unfold Station.refreshClass
  split
  · exact h
  · exact Dwindles.ite h ((h.modVs v _).markStale)

@[simp] theorem Dwindles.watchLeft (v : Nat) (h : Dwindles s t) : Dwindles s (t.watchLeft v) :=
  Dwindles.foldl _ _ (fun u k => Dwindles.ite ((Dwindles.refl u).recordFailure k v _) (Dwindles.refl u)) h

@[simp] theorem Dwindles.reposition (v : Nat) (f : VsRec → VsRec) (h : Dwindles s t) : Dwindles s (t.reposition v f) := by
  simp (maxDischargeDepth := 99) [Station.reposition, h]

@[simp] theorem Dwindles.positionFromPercent (v : Nat) (h : Dwindles s t) : Dwindles s (t.positionFromPercent v) :=
  h.reposition v _

@[simp] theorem Dwindles.requestPosition (v : Nat) (h : Dwindles s t) : Dwindles s (t.requestPosition v) := by
  simp only [Station.requestPosition]
  split <;> simp (maxDischargeDepth := 99) [h]

@[simp] theorem Dwindles.setHealth (v : Nat) (x : Health) (h : Dwindles s t) : Dwindles s (t.setHealth v x) := by
  simp (maxDischargeDepth := 99) [Station.setHealth, h]

@[simp] theorem Dwindles.setSampleDue (z : Nat) (due : Option Nat) (h : Dwindles s t) : Dwindles s (t.setSampleDue z due) := by
  refine Dwindles.foldl _ _ (fun u n => ?_) h
  split <;> simp

@[simp] theorem Dwindles.raiseCount (z : Nat) (h : Dwindles s t) : Dwindles s (t.raiseCount z) := by
  simp (maxDischargeDepth := 99) [Station.raiseCount, h]

@[simp] theorem Dwindles.lowerCount (z : Nat) (h : Dwindles s t) : Dwindles s (t.lowerCount z) := by
  simp (maxDischargeDepth := 99) [Station.lowerCount, h]

@[simp] theorem Dwindles.factorReturn (z : Nat) (h : Dwindles s t) : Dwindles s (t.factorReturn z) := by
  have f := Frame.factorReturn (b := 3) z (Frame.refl t)
  rw [factorReturn_eq] at f ⊢
  exact h.same f

@[simp] theorem Dwindles.endPosition (r : Stroke) (e : StrokeEnd) (a : Bool) (h : Dwindles s t) :
    Dwindles s (t.endPosition r e a) := by
  simp (maxDischargeDepth := 99) [Station.endPosition, h]

@[simp] theorem Dwindles.endCore (r : Stroke) (e : StrokeEnd) (a : Bool) (h : Dwindles s t) : Dwindles s (t.endCore r e a) := by
  simp only [Station.endCore, Station.dropQueued]
  repeat' split
  all_goals simp (maxDischargeDepth := 99) [h]

@[simp] theorem Dwindles.moveFailed (v : Nat) (c : Cause) (h : Dwindles s t) : Dwindles s (t.moveFailed v c) := by
  simp [Station.moveFailed, h]

@[simp] theorem Dwindles.finishExercise (v : Nat) (h : Dwindles s t) : Dwindles s (t.finishExercise v) := by
  simp only [Station.finishExercise]
  split <;> simp (maxDischargeDepth := 99) [h]

@[simp] theorem Dwindles.finishWith (v : Nat) (c : Cause) (h : Dwindles s t) : Dwindles s (t.finishWith v c) := by
  refine Dwindles.finishExercise v (h.modExercise v _ fun x hx => ?_)
  unfold Station.offerCause at hx ⊢
  repeat' split
  all_goals simp_all

/-- A stroke that other work takes ends with no return that waits. -/
@[simp] theorem Dwindles.endTaken (r : Stroke) (h : Dwindles s t) : Dwindles s (t.endOther r (.taken .preempted)) := by
  simp only [Station.endOther, Station.handOther, Station.handReopen, Station.handMove, Station.handExercise,
    Station.handOutward, Station.handReturn]
  repeat' split
  all_goals simp_all

@[simp] theorem Dwindles.queueHalt (v : Nat) (h : Dwindles s t) : Dwindles s (t.queueHalt v) := by
  simp only [Station.queueHalt]
  split
  · exact h.modLine _ _ (fun _ => rfl) fun _ => rfl
  · exact h

@[simp] theorem Dwindles.haltTaken (v : Nat) (h : Dwindles s t) : Dwindles s (t.haltOther v (.taken .preempted)) := by
  simp only [Station.haltOther, Station.decideHaltWith, Station.joinEnd]
  repeat' split
  all_goals simp [h]

@[simp] theorem Dwindles.crewCancel (k v : Nat) (h : Dwindles s t) : Dwindles s (t.crewCancel k v) := h.post _

@[simp] theorem Dwindles.removeReopen (k v : Nat) (h : Dwindles s t) : Dwindles s (t.removeReopen k v) := by
  unfold Station.removeReopen
  split
  · exact h
  · rename_i e _
    dsimp only
    have halted : Dwindles s (if e.state = .stroking then
        (t.modStroke v fun r => { r with orphan := true }).haltOther v (.taken .preempted) else t) :=
      Dwindles.ite ((h.modStroke v _).haltTaken v) h
    exact Dwindles.ite (Dwindles.testDone k (Dwindles.modSlot k _ (Dwindles.ite (halted.crewCancel k v) halted) fun _ =>
      SlotFewer.of rfl rfl (EntriesFewer.refl _) (EntriesFewer.filter _ _))) h

@[simp] theorem Dwindles.withdrawMove (v : Nat) (h : Dwindles s t) : Dwindles s (t.withdrawMove v) := by
  simp only [Station.withdrawMove]
  split <;> simp [h]

@[simp] theorem Dwindles.endIdleExercise (v : Nat) (c : Cause) (h : Dwindles s t) : Dwindles s (t.endIdleExercise v c) := by
  simp only [Station.endIdleExercise]
  split <;> simp [h]

@[simp] theorem Dwindles.joinClosedBy (k v : Nat) (h : Dwindles s t) : Dwindles s (t.joinClosedBy k v) := by
  have joined : Dwindles s (t.modSlot k fun r => { r with closedBy := r.closedBy ++ [v] }) :=
    h.modSlot k _ fun _ => SlotFewer.of rfl rfl (EntriesFewer.refl _) (EntriesFewer.refl _)
  simp (maxDischargeDepth := 99) [Station.joinClosedBy, h, joined]

@[simp] theorem Dwindles.surgeLimited (slot : Option Nat) (v n : Nat) (h : Dwindles s t) :
    Dwindles s (t.surgeLimited slot v n) := by
  simp [Station.surgeLimited, h]

@[simp] theorem Dwindles.setTime (k : Nat) (ro : Bool) (v : Nat) (p : Profile) (h : Dwindles s t) :
    Dwindles s (t.setTime k ro v p) := by
  have timed : Dwindles s (t.modIn k ro v fun x => { x with tcmd := p.tcmd, limited := p.limited }) :=
    h.modIn k ro v _ fun _ he => ⟨he, rfl⟩
  simp only [Station.setTime]
  split <;> simp [h, timed]

@[simp] theorem Dwindles.openStroke (v : Nat) (o : Owner) (target time : Nat) (h : Dwindles s t) :
    Dwindles s (t.openStroke v o target time) := by
  simp (maxDischargeDepth := 99) [Station.openStroke, h]

@[simp] theorem Dwindles.queueStroke (v : Nat) (h : Dwindles s t) : Dwindles s (t.queueStroke v) := by
  simp only [Station.queueStroke]
  split
  · exact h.modLine _ _ (fun _ => rfl) fun _ => rfl
  · exact h

@[simp] theorem Dwindles.completeEntry (k : Nat) (ro : Bool) (v : Nat) (h : Dwindles s t) :
    Dwindles s (t.completeEntry k ro v) := by
  simp only [Station.completeEntry]
  split
  · exact ((h.positionFromPercent v).modReopen k v _ fun e he => by simp [Entry.settle] at he).testDone k
  · exact (((h.joinClosedBy k v).positionFromPercent v).modWork k v _ fun e he => by simp [Entry.settle] at he).testIsolated k

@[simp] theorem Dwindles.grantEntry (k : Nat) (ro : Bool) (v : Nat) (h : Dwindles s t) : Dwindles s (t.grantEntry k ro v) := by
  have stroking {u : Station} (hu : Dwindles s u) (p : Option Nat) :
      Dwindles s (u.modIn k ro v fun x => { x with state := .stroking, residual := p }) :=
    hu.modIn k ro v _ fun _ he => by simp at he
  simp only [Station.grantEntry]
  split <;> simp (maxDischargeDepth := 99) [h, stroking]

@[simp] theorem Dwindles.grantMove (v : Nat) (h : Dwindles s t) : Dwindles s (t.grantMove v) := by
  simp only [Station.grantMove]
  split <;> simp (maxDischargeDepth := 99) [h]

@[simp] theorem Dwindles.grantExercise (v : Nat) (h : Dwindles s t) : Dwindles s (t.grantExercise v) := by
  simp only [Station.grantExercise]
  split <;> simp (maxDischargeDepth := 99) [h]

/-- The part of a selected return's grant after the return has left the waiting ones. -/
theorem Dwindles.grantReturn (v : Nat) (h : Dwindles s (t.dropReturn v)) : Dwindles s (t.grantReturn v) := by
  simp only [Station.grantReturn]
  split <;> simp (maxDischargeDepth := 99) [h]

/-- Selecting a candidate brings no new one. -/
theorem Dwindles.select (c : Candidate) (h : Dwindles s t) : Dwindles s (t.select c) := by
  cases c with
  | exerciseReturn v => exact (h.dropReturn v).grantReturn v
  | closeEntry k v => exact h.grantEntry k false v
  | reopenEntry k v => exact h.grantEntry k true v
  | move v => exact h.grantMove v
  | exercise v => exact h.grantExercise v

/-- What a zone's arbiter is offered: a candidate of R111 whose slot, where it has one, expects no replan (R113). -/
def Offered (s : Station) (z : Nat) : Candidate → Prop
  | .exerciseReturn v => v ∈ s.md.returns ∧ s.zoneOfValve? v = some z
  | .closeEntry k v => k ∈ slotNumbers ∧ (s.slot k).state = .closing ∧ (s.slot k).replanPending = false ∧
    (∃ e ∈ (s.slot k).work, e.valve = v ∧ e.state = .pending) ∧ s.zoneOfValve? v = some z
  | .reopenEntry k v => k ∈ slotNumbers ∧ (s.slot k).state = .reopening ∧
    (∃ e ∈ (s.slot k).reopen, e.valve = v ∧ e.state = .pending) ∧ s.zoneOfValve? v = some z
  | .move v => (∃ m ∈ s.md.moves, m.valve = v ∧ m.waiting = true) ∧ s.zoneOfValve? v = some z
  | .exercise v => ∃ x ∈ s.xu, x.valve = v ∧ x.zone = z ∧ x.phase = .queued

theorem Fewer.offered (h : Fewer s t) {z : Nat} {c : Candidate} (ho : t.Offered z c) : s.Offered z c := by
  cases c with
  | exerciseReturn v => exact ⟨h.returns v ho.1, h.zones v ▸ ho.2⟩
  | closeEntry k v =>
    obtain ⟨hk, hs, hr, ⟨e, he, hv, hp⟩, hz⟩ := ho
    obtain ⟨h1, h2, h3⟩ := (h.slots k).closing hs hr
    obtain ⟨f, hf, hw, hq⟩ := h3 e he hp
    exact ⟨hk, h1, h2, ⟨f, hf, hw.trans hv, hq⟩, h.zones v ▸ hz⟩
  | reopenEntry k v =>
    obtain ⟨hk, hs, ⟨e, he, hv, hp⟩, hz⟩ := ho
    obtain ⟨h1, h3⟩ := (h.slots k).reopening hs
    obtain ⟨f, hf, hw, hq⟩ := h3 e he hp
    exact ⟨hk, h1, ⟨f, hf, hw.trans hv, hq⟩, h.zones v ▸ hz⟩
  | move v =>
    obtain ⟨⟨m, hm, hv, hw⟩, hz⟩ := ho
    obtain ⟨n, hn, e, w⟩ := h.moves m hm hw
    exact ⟨⟨n, hn, e.trans hv, w⟩, h.zones v ▸ hz⟩
  | exercise v =>
    obtain ⟨x, hx, hv, hz, hq⟩ := ho
    obtain ⟨y, hy, e, f, q⟩ := h.exercises x hx hq
    exact ⟨y, hy, e.trans hv, f.trans hz, q⟩

theorem mem_insertBy {α : Type} (p : α → α → Bool) (x y : α) (xs : List α) : y ∈ insertBy p x xs ↔ y = x ∨ y ∈ xs := by
  induction xs with
  | nil => simp [insertBy]
  | cons a xs ih =>
    unfold insertBy
    split
    · simp only [List.mem_cons, ih]
      tauto
    · simp

theorem mem_sortBy {α : Type} (p : α → α → Bool) (y : α) (xs : List α) : y ∈ sortBy p xs ↔ y ∈ xs := by
  have h : ∀ (xs ys : List α), y ∈ xs.foldl (fun ys x => insertBy (fun a b => !p b a) x ys) ys ↔ y ∈ ys ∨ y ∈ xs := by
    intro xs
    induction xs with
    | nil => simp
    | cons a xs ih =>
      intro ys
      rw [List.foldl_cons, ih, mem_insertBy, List.mem_cons]
      tauto
  simpa [sortBy] using h xs []

theorem mem_slotsByAge (k : Nat) (st : SlotState) (time : Slot → Option Nat) :
    k ∈ s.slotsByAge st time ↔ k ∈ slotNumbers ∧ (s.slot k).state = st := by
  simp [slotsByAge, mem_sortBy]

theorem mem_pendingIn (z v : Nat) (es : List Entry) :
    v ∈ s.pendingIn z es ↔ (∃ e ∈ es, e.valve = v ∧ e.state = .pending) ∧ s.zoneOfValve? v = some z := by
  simp only [pendingIn, inZone, List.mem_map, List.mem_filter, Bool.and_eq_true, decide_eq_true_eq]
  constructor
  · rintro ⟨e, ⟨he, hp, hz⟩, rfl⟩
    exact ⟨⟨e, he, rfl, hp⟩, hz⟩
  · rintro ⟨⟨e, he, rfl, hp⟩, hz⟩
    exact ⟨e, ⟨he, hp, hz⟩, rfl⟩

/-- What is offered is a candidate. -/
theorem Offered.candidate {z : Nat} {c : Candidate} (h : s.Offered z c) : c ∈ s.candidates z := by
  simp only [candidates, class0, class1, class2, class3, class4, List.mem_append, List.mem_map, List.mem_flatMap,
    List.mem_filter, mem_slotsByAge, mem_pendingIn, inZone, decide_eq_true_eq, Bool.and_eq_true]
  cases c with
  | exerciseReturn v => exact Or.inl (Or.inl (Or.inl (Or.inl ⟨v, h, rfl⟩)))
  | closeEntry k v => exact Or.inl (Or.inl (Or.inl (Or.inr ⟨k, ⟨h.1, h.2.1⟩, v, h.2.2.2, rfl⟩)))
  | reopenEntry k v => exact Or.inl (Or.inl (Or.inr ⟨k, ⟨h.1, h.2.1⟩, v, h.2.2, rfl⟩))
  | move v =>
    obtain ⟨⟨m, hm, rfl, hw⟩, hz⟩ := h
    exact Or.inl (Or.inr ⟨m, ⟨hm, hw, hz⟩, rfl⟩)
  | exercise v =>
    obtain ⟨x, hx, rfl, hz, hq⟩ := h
    exact Or.inr ⟨x, ⟨hx, hq, hz⟩, rfl⟩

/-- An eligible candidate is offered. -/
theorem offered_of_firstEligible {z : Nat} {c : Candidate} (h : s.firstEligible z = some c) : s.Offered z c := by
  have hm := List.mem_of_find?_eq_some h
  have he := List.find?_some h
  simp only [candidates, class0, class1, class2, class3, class4, List.mem_append, List.mem_map, List.mem_flatMap,
    List.mem_filter, mem_slotsByAge, mem_pendingIn, inZone, decide_eq_true_eq, Bool.and_eq_true] at hm
  rcases hm with (((⟨v, hv, rfl⟩ | ⟨k, hk, v, hv, rfl⟩) | ⟨k, hk, v, hv, rfl⟩) | ⟨m, ⟨hm, hw, hz⟩, rfl⟩) | ⟨x, ⟨hx, hq, hz⟩, rfl⟩
  · exact hv
  · refine ⟨hk.1, hk.2, ?_, hv⟩
    simp only [eligible, Bool.and_eq_true] at he
    simpa using he.2
  · exact ⟨hk.1, hk.2, hv⟩
  · exact ⟨⟨m, hm, rfl, hw⟩, hz⟩
  · exact ⟨x, hx, rfl, hz, hq⟩

theorem none_pending (v : Nat) (f : Entry → Entry) (hf : ∀ e, (f e).state ≠ .pending) (es : List Entry) :
    ¬ ∃ e ∈ modEntry es v f, e.valve = v ∧ e.state = .pending := by
  rintro ⟨e, he, hv, hp⟩
  simp only [modEntry, List.mem_map] at he
  obtain ⟨d, _, rfl⟩ := he
  split at hp
  · exact hf d hp
  · rename_i hd
    rw [if_neg hd] at hv
    exact hd hv

/-- After the close entries of a valve have left PENDING none is offered. -/
theorem not_offered_modWork (k v z : Nat) (f : Entry → Entry) (c : t.canonical = true) (hf : ∀ e, (f e).state ≠ .pending) :
    ¬ (t.modWork k v f).Offered z (.closeEntry k v) := by
  rintro ⟨_, _, _, h, _⟩
  have e : (t.modWork k v f).slot k = { t.slot k with work := modEntry (t.slot k).work v f } := (slot_modSlot c k k _).trans (if_pos rfl)
  rw [e] at h
  exact none_pending v f hf _ h

/-- After the reopen entries of a valve have left PENDING none is offered. -/
theorem not_offered_modReopen (k v z : Nat) (f : Entry → Entry) (c : t.canonical = true) (hf : ∀ e, (f e).state ≠ .pending) :
    ¬ (t.modReopen k v f).Offered z (.reopenEntry k v) := by
  rintro ⟨_, _, h, _⟩
  have e : (t.modReopen k v f).slot k = { t.slot k with reopen := modEntry (t.slot k).reopen v f } := (slot_modSlot c k k _).trans (if_pos rfl)
  rw [e] at h
  exact none_pending v f hf _ h

/-- Where what is offered dwindles, what is not offered stays so. -/
theorem Dwindles.not_offered (h : Dwindles s t) (hc : s.canonical = true) {z : Nat} {c : Candidate}
    (hn : ¬ s.Offered z c) : ¬ t.Offered z c := fun ho => hn ((h hc).2.offered ho)

theorem grantClose_uses (k v z : Nat) (c : s.canonical = true) (e : Entry) (r : Valve)
    (he : s.entryIn k false v = some e) (hr : s.valve? v = some r) :
    ¬ (s.grantEntry k false v).Offered z (.closeEntry k v) := by
  have ht := (Dwindles.refl s).setTime k false v (profileOf s v r)
  unfold Station.grantEntry
  rw [he, hr]
  dsimp only
  generalize s.setTime k false v (profileOf s v r) = u at ht ⊢
  simp only [Bool.false_eq_true, if_false]
  split
  · have h := (ht.joinClosedBy k v).positionFromPercent v
    have step := h.modWork k v (fun x => x.settle .closed) fun e he => by simp [Entry.settle] at he
    show ¬ ((((u.joinClosedBy k v).positionFromPercent v).modWork k v fun x => x.settle .closed).testIsolated k).Offered z _
    exact ((Dwindles.refl _).testIsolated k).not_offered (step c).1
      (not_offered_modWork k v z _ (h c).1 fun _ => by simp [Entry.settle])
  · generalize u.newResidual v (!false) e.residual _ _ = q
    generalize (q.getD _) = time
    have h := ht.openStroke v (.closeEntry k) 0 time
    have step := h.modWork k v (fun x => { x with state := .stroking, residual := q }) fun e he => by simp at he
    show ¬ ((((u.openStroke v (.closeEntry k) 0 time).modWork k v fun x => { x with state := .stroking, residual := q }).joinClosedBy
      k v).queueStroke v).Offered z _
    exact (((Dwindles.refl _).joinClosedBy k v).queueStroke v).not_offered (step c).1
      (not_offered_modWork k v z _ (h c).1 fun _ => by simp)

theorem grantReopen_uses (k v z : Nat) (c : s.canonical = true) (e : Entry) (r : Valve)
    (he : s.entryIn k true v = some e) (hr : s.valve? v = some r) :
    ¬ (s.grantEntry k true v).Offered z (.reopenEntry k v) := by
  have ht := (Dwindles.refl s).setTime k true v (profileOf s v r)
  unfold Station.grantEntry
  rw [he, hr]
  dsimp only
  generalize s.setTime k true v (profileOf s v r) = u at ht ⊢
  simp only [if_true]
  split
  · have h := ht.positionFromPercent v
    have step := h.modReopen k v (fun x => x.settle .opened) fun e he => by simp [Entry.settle] at he
    show ¬ (((u.positionFromPercent v).modReopen k v fun x => x.settle .opened).testDone k).Offered z _
    exact ((Dwindles.refl _).testDone k).not_offered (step c).1
      (not_offered_modReopen k v z _ (h c).1 fun _ => by simp [Entry.settle])
  · generalize u.newResidual v (!true) e.residual _ _ = q
    generalize (q.getD _) = time
    have h := ht.openStroke v (.reopenEntry k) 100 time
    have step := h.modReopen k v (fun x => { x with state := .stroking, residual := q }) fun e he => by simp at he
    show ¬ (((u.openStroke v (.reopenEntry k) 100 time).modReopen k v fun x =>
      { x with state := .stroking, residual := q }).queueStroke v).Offered z _
    exact ((Dwindles.refl _).queueStroke v).not_offered (step c).1
      (not_offered_modReopen k v z _ (h c).1 fun _ => by simp)

theorem valve_of_zone {v z : Nat} (h : s.zoneOfValve? v = some z) : ∃ r, s.valve? v = some r := by
  unfold Station.zoneOfValve? at h
  cases hr : s.valve? v with
  | none => simp [hr] at h
  | some r => exact ⟨r, rfl⟩

theorem find_of_mem {α : Type} (p : α → Bool) (xs : List α) (x : α) (hx : x ∈ xs) (hp : p x = true) :
    ∃ y, xs.find? p = some y := by
  cases h : xs.find? p with
  | none => exact absurd hp (by simpa using List.find?_eq_none.mp h x hx)
  | some y => exact ⟨y, rfl⟩

theorem queueStroke_rest (u : Station) (v : Nat) : (u.queueStroke v).md = u.md ∧ (u.queueStroke v).xu = u.xu := by
  unfold Station.queueStroke
  split
  · rename_i n _
    obtain ⟨l, a⟩ := n
    cases l <;> exact ⟨rfl, rfl⟩
  · exact ⟨rfl, rfl⟩

theorem grantMove_uses (v z : Nat) (m : Move) (r : Valve) (hm : s.move? v = some m) (hr : s.valve? v = some r) :
    ¬ (s.grantMove v).Offered z (.move v) := by
  have gone (u : Station) : ¬ (u.dropMove v).Offered z (.move v) := by
    rintro ⟨⟨x, hx, hv, _⟩, _⟩
    simpa [hv] using (List.mem_filter.mp hx).2
  have granted (u : Station) (p : Option Nat) (b : Bool) :
      ¬ ((u.modMove v fun m => { m with waiting := false, residual := p, limited := b }).queueStroke v).Offered z (.move v) := by
    rintro ⟨⟨x, hx, hv, hw⟩, _⟩
    rw [(queueStroke_rest _ v).1] at hx
    obtain ⟨y, _, rfl⟩ := List.mem_map.mp hx
    split at hw
    · simp at hw
    · rename_i hy
      rw [if_neg hy] at hv
      exact hy hv
  unfold Station.grantMove
  rw [hm, hr]
  dsimp only
  generalize (if (m.given.isNone && (profileOf s v r).limited) = true then _ else s : Station) = u
  generalize (if m.closes = true then 0 else 100) = target
  split
  · exact gone _
  · exact granted _ _ _

theorem finishExercise_uses (u : Station) (v z : Nat) (x : Exercise) (hx : u.exercise? v = some x) :
    ¬ (u.finishExercise v).Offered z (.exercise v) := by
  unfold Station.finishExercise
  rw [hx]
  rintro ⟨y, hy, hv, _⟩
  simpa [hv] using (List.mem_filter.mp hy).2

theorem grantExercise_uses (v z : Nat) (x : Exercise) (r : Valve) (hx : s.exercise? v = some x) (hr : s.valve? v = some r) :
    ¬ (s.grantExercise v).Offered z (.exercise v) := by
  unfold Station.grantExercise
  rw [hx, hr]
  dsimp only
  split
  · rintro ⟨y, hy, hv, _, hq⟩
    rw [(queueStroke_rest _ v).2] at hy
    obtain ⟨w, _, rfl⟩ := List.mem_map.mp hy
    split at hq
    · simp at hq
    · rename_i hw
      rw [if_neg hw] at hv
      exact hw hv
  · have h : (s.modExercise v (offerCause .notOpen)).exercise? v = some (offerCause .notOpen x) := by
      have g : ∀ xs : List Exercise, xs.find? (fun y => decide (y.valve = v)) = some x →
          (xs.map fun y => if y.valve = v then offerCause .notOpen y else y).find? (fun y => decide (y.valve = v)) =
            some (offerCause .notOpen x) := by
        intro xs
        have hv (y : Exercise) : (offerCause .notOpen y).valve = y.valve := by
          unfold offerCause
          repeat' split
          all_goals rfl
        induction xs with
        | nil => simp
        | cons y ys ih =>
          by_cases hy : y.valve = v
          · simpa [hy, hv] using fun e : y = x => congrArg _ e
          · simpa [hy] using ih
      exact g _ hx
    exact finishExercise_uses _ v z _ h

/-- Selecting a candidate uses it up. -/
theorem select_uses (z : Nat) (c : Candidate) (hc : s.canonical = true) (ho : s.Offered z c) (he : s.eligible z c = true) :
    ¬ (s.select c).Offered z c := by
  cases c with
  | exerciseReturn v =>
    have h : Dwindles (s.dropReturn v) (s.grantReturn v) := (Dwindles.refl _).grantReturn v
    refine h.not_offered ((Frame.dropReturn (b := 3) v (Frame.refl s)).safe.canonical hc) fun g => ?_
    simpa using (List.mem_filter.mp g.1).2
  | closeEntry k v =>
    obtain ⟨_, _, _, ⟨e, he, hv, _⟩, hz⟩ := ho
    obtain ⟨r, hr⟩ := valve_of_zone hz
    obtain ⟨f, hf⟩ := find_of_mem (fun e => decide (e.valve = v)) _ e he (by simp [hv])
    exact grantClose_uses k v z hc f r hf hr
  | reopenEntry k v =>
    obtain ⟨_, _, ⟨e, he, hv, _⟩, hz⟩ := ho
    obtain ⟨r, hr⟩ := valve_of_zone hz
    obtain ⟨f, hf⟩ := find_of_mem (fun e => decide (e.valve = v)) _ e he (by simp [hv])
    exact grantReopen_uses k v z hc f r hf hr
  | move v =>
    obtain ⟨⟨m, hm, hv, _⟩, hz⟩ := ho
    obtain ⟨r, hr⟩ := valve_of_zone hz
    obtain ⟨n, hn⟩ := find_of_mem (fun r : Move => decide (r.valve = v)) _ m hm (by simp [hv])
    exact grantMove_uses v z n r hn hr
  | exercise v =>
    obtain ⟨m, hm, hv, _, _⟩ := ho
    obtain ⟨x, hx⟩ := find_of_mem (fun r : Exercise => decide (r.valve = v)) _ m hm (by simp [hv])
    obtain ⟨r, hr⟩ : ∃ r, s.valve? v = some r := by
      cases h : s.valve? v with
      | some r => exact ⟨r, rfl⟩
      | none => simp [eligible, nodeReady, nodeOf?, Candidate.valve, h] at he
    exact grantExercise_uses v z x r hx hr

/-- A decision of a zone's arbiter goes on until no candidate of the zone is eligible: what the zone is offered lies in
`L`, and the decision has a turn for each member of it. -/
theorem decideZone_exhausts (z n : Nat) (s : Station) (L : List Candidate) (hn : L.length ≤ n) (hc : s.canonical = true)
    (hL : ∀ c, s.Offered z c → c ∈ L) : (decideZone n s z).firstEligible z = none := by
  induction n generalizing s L with
  | zero =>
    cases h : (s.factorReturn z).firstEligible z with
    | none => exact h
    | some c =>
      have := hL c ((((Dwindles.refl s).factorReturn z) hc).2.offered (offered_of_firstEligible h))
      rw [List.length_eq_zero_iff.mp (Nat.le_zero.mp hn)] at this
      cases this
  | succ n ih =>
    have hd := (Dwindles.refl s).factorReturn z
    unfold decideZone
    cases h : (s.factorReturn z).firstEligible z with
    | none => simp only [h]
    | some c =>
      have ho := offered_of_firstEligible h
      have hs := hd.select c
      have hu := select_uses z c (hd hc).1 ho (List.find?_some h)
      have hm := hL c ((hd hc).2.offered ho)
      simp only [h]
      refine ih _ (L.filter fun d => decide (d ≠ c)) ?_ (hs hc).1 fun d g => ?_
      · have := List.length_filter_lt_length_iff_exists (l := L) (p := fun d => decide (d ≠ c)) |>.mpr ⟨c, hm, by simp⟩
        omega
      · refine List.mem_filter.mpr ⟨hL d ((hs hc).2.offered g), ?_⟩
        have : d ≠ c := fun e => hu (e ▸ g)
        simpa using this

/-- The arbiter's decision leaves no eligible candidate in its zone (R114). -/
theorem firstEligible_decideZone (s : Station) (z : Nat) (hc : s.canonical = true) :
    (decideZone (s.candidates z).length s z).firstEligible z = none :=
  decideZone_exhausts z _ s _ (Nat.le_refl _) hc fun _ h => h.candidate

end Station
end Sys2Proof.Machine
end

