-- ==== Sys2Proof/Laws/Frames.lean ====
section
/-! SUPPORT. The receiver, once: what it makes of the bytes of a whole frame, of bytes within a frame, and of bytes that
are no frame. -/

namespace Sys2Proof.Machine

/-- The state with its receiver set. -/
def State.heard (s : State) (r : Receiver) : State := { s with sl := { s.sl with receiver := r } }

@[simp] theorem heard_heard (s : State) (r q : Receiver) : (s.heard r).heard q = s.heard q := rfl
@[simp] theorem heard_receiver (s : State) (r : Receiver) : (s.heard r).sl.receiver = r := rfl

theorem heard_self (s : State) (r : Receiver) (h : s.sl.receiver = r) : s.heard r = s := by subst h; rfl

/-- One byte: the receiver's next state, and the frame it completes. -/
theorem receiveBytes_cons (b : Byte) (bs : List Byte) (s : State) :
    receiveBytes (b :: bs) s =
      match (receiveByte s.sl.receiver b).2 with
      | none => receiveBytes bs (s.heard (receiveByte s.sl.receiver b).1)
      | some w =>
        if resetsNow (s.heard (receiveByte s.sl.receiver b).1) w then
          deliver (s.heard (receiveByte s.sl.receiver b).1) w
        else receiveBytes bs (deliver (s.heard (receiveByte s.sl.receiver b).1) w) := by
  rw [receiveBytes]
  rfl

/-- A byte that completes no frame changes the receiver alone. -/
theorem receiveBytes_none (b : Byte) (bs : List Byte) (s : State) (r : Receiver)
    (h : receiveByte s.sl.receiver b = (r, none)) : receiveBytes (b :: bs) s = receiveBytes bs (s.heard r) := by
  rw [receiveBytes_cons, h]

/-- Bytes within a frame join what was taken (R188). -/
theorem receive_within (n : Byte) (rest bs more : List Byte) (s : State) (h : rest.length + bs.length < n.toNat + 4) :
    receiveBytes (bs ++ more) (s.heard (.assembling (n :: rest))) =
      receiveBytes more (s.heard (.assembling (n :: (rest ++ bs)))) := by
  induction bs generalizing rest s with
  | nil => simp
  | cons b bs ih =>
    simp only [List.length_cons] at h
    rw [List.cons_append, receiveBytes_none b _ _ (.assembling (n :: (rest ++ [b])))]
    · rw [heard_heard, ih _ _ (by simp; omega)]
      simp
    · simp only [heard_receiver, receiveByte, List.cons_append]
      have hl : (rest ++ [b]).length ≠ n.toNat + 4 := by simp; omega
      cases hr : rest ++ [b] with
      | nil => simp at hr
      | cons x xs =>
        rw [hr] at hl
        simp only [hl, if_false]

/-- The last byte of a frame of the length its first byte gives: the check decides (R188, R189). -/
theorem receive_last (kind tag c0 c1 : Byte) (p : List Byte) (hp : p.length ≤ Config.payloadCap) :
    receiveByte (.assembling (BitVec.ofNat 8 p.length :: kind :: tag :: (p ++ [c0]))) c1 =
      (.hunting, if [c0, c1] = checkBytes (frameBody kind tag p) then
        some { tag, kind, content := parseRequest kind p } else none) := by
  have hn : (BitVec.ofNat 8 p.length).toNat = p.length := by
    rw [BitVec.toNat_ofNat]
    have : p.length ≤ 240 := hp
    omega
  simp only [receiveByte, List.cons_append, List.append_assoc, List.nil_append, hn, List.length_cons,
    List.length_append, List.length_nil, List.take_succ_cons, List.take_append_of_le_length (Nat.le_refl _),
    List.take_length, List.drop_left, frameBody, if_true]
  split <;> simp_all

/-- A whole frame, heard from HUNTING: delivered when its check stands, otherwise nothing (R188, R189). -/
theorem receive_frame (kind tag c0 c1 : Byte) (p : List Byte) (s : State) (hp : p.length ≤ Config.payloadCap)
    (hs : s.sl.receiver = .hunting) :
    receiveBytes (0x7E#8 :: (frameBody kind tag p ++ [c0, c1])) s =
      if [c0, c1] = checkBytes (frameBody kind tag p) then deliver s { tag, kind, content := parseRequest kind p }
      else s := by
  have hn : (BitVec.ofNat 8 p.length).toNat = p.length := by
    rw [BitVec.toNat_ofNat]
    have : p.length ≤ 240 := hp
    omega
  rw [receiveBytes_none _ _ _ (.assembling []) (by rw [hs]; rfl)]
  unfold frameBody
  rw [List.cons_append, receiveBytes_none _ _ _ (.assembling [BitVec.ofNat 8 p.length])]
  · have e : (kind :: tag :: p) ++ [c0, c1] = (kind :: tag :: (p ++ [c0])) ++ [c1] := by simp
    rw [e, heard_heard, receive_within _ _ _ _ _ (by simp [hn])]
    simp only [List.nil_append]
    have hh : s.heard .hunting = s := heard_self _ _ hs
    rw [receiveBytes_cons, heard_receiver, receive_last _ _ _ _ _ hp]
    simp only [heard_heard, hh]
    by_cases hc : [c0, c1] = checkBytes (frameBody kind tag p)
    · have hd : [c0, c1] = checkBytes (BitVec.ofNat 8 p.length :: kind :: tag :: p) := hc
      simp only [if_pos hc, if_pos hd, receiveBytes, ite_self]
    · have hd : ¬ [c0, c1] = checkBytes (BitVec.ofNat 8 p.length :: kind :: tag :: p) := hc
      simp only [if_neg hc, if_neg hd, receiveBytes]
  · simp only [heard_receiver, receiveByte, List.nil_append, hn]
    rw [if_neg (Nat.not_lt.mpr hp)]

/-- In HUNTING bytes without a start byte are discarded (R188). -/
theorem receive_noise (bs : List Byte) (s : State) (hs : s.sl.receiver = .hunting) (h : 0x7E#8 ∉ bs) :
    receiveBytes bs s = s := by
  induction bs with
  | nil => rfl
  | cons b bs ih =>
    simp only [List.mem_cons, not_or] at h
    rw [receiveBytes_none _ _ _ .hunting]
    · rw [heard_self _ _ hs, ih h.2]
    · rw [hs]
      simp only [receiveByte]
      rw [if_neg (fun e => h.1 e.symm)]

/-- A request of the table in its frame is taken as the request's row is (R188, R199; log entry 3). -/
theorem receive_request (t : Byte) (r : Request) (s : State) (hs : s.sl.receiver = .hunting)
    (hp : (requestPayload r).length ≤ Config.payloadCap)
    (hr : parseRequest (BitVec.ofNat 8 (requestCode r)) (requestPayload r) = .request r) :
    receiveBytes (requestFrame t r) s = arrive s t r := by
  have : checkBytes (frameBody (BitVec.ofNat 8 (requestCode r)) t (requestPayload r)) =
      [BitVec.ofNat 8 (crc16 (frameBody (BitVec.ofNat 8 (requestCode r)) t (requestPayload r))).toNat,
        BitVec.ofNat 8 ((crc16 (frameBody (BitVec.ofNat 8 (requestCode r)) t (requestPayload r))).toNat / 256)] := rfl
  unfold requestFrame
  simp only [this]
  rw [receive_frame _ _ _ _ _ _ hp hs, if_pos this.symm, hr]
  rfl

end Sys2Proof.Machine
end

