-- ==== Sys2Proof/Laws/NodeMap.lean ====
section
/-! SUPPORT. The node map: what a change of a node entry, of a kind and of a mapping leaves, and what it sets (R6, R7). -/

namespace Sys2Proof.Machine.Station

/-- A change of a line touches the lines alone. -/
theorem modLine_lines (s : Station) (l : Line) (f : FieldLine → FieldLine) :
    s.modLine l f = { s with lineA := (s.modLine l f).lineA, lineB := (s.modLine l f).lineB } := by
  cases l <;> rfl

/-- A change of a node entry touches the lines alone. -/
theorem modNode_lines (s : Station) (n : Node) (f : NodeEntry → NodeEntry) :
    s.modNode n f = { s with lineA := (s.modNode n f).lineA, lineB := (s.modNode n f).lineB } := by
  cases n with | mk l a => cases l <;> rfl

/-- A change of a node entry leaves the calls of every line. -/
theorem modNode_calls (s : Station) (n : Node) (f : NodeEntry → NodeEntry) (l : Line) :
    ((s.modNode n f).line l).calls = (s.line l).calls := by
  cases n with | mk l' a => cases l' <;> cases l <;> rfl

/-- A change of a node entry keeps the canonical form. -/
theorem canonical_modNode (s : Station) (c : s.canonical = true) (n : Node) (f : NodeEntry → NodeEntry) :
    (s.modNode n f).canonical = true :=
  ((Frame.modNodeAny (b := 0) n f (Frame.refl s) (by omega)).safe).canonical c

/-- Dropping a node's queued calls touches the lines alone. -/
theorem dropQueued_lines (s : Station) (n : Node) :
    s.dropQueued n = { s with lineA := (s.dropQueued n).lineA, lineB := (s.dropQueued n).lineB } :=
  modLine_lines _ _ _

/-- Dropping a node's queued calls leaves every node entry. -/
theorem dropQueued_node (s : Station) (n m : Node) : (s.dropQueued n).node m = s.node m := by
  cases n with | mk l' a => cases m with | mk l b => cases l' <;> cases l <;> rfl

/-- Dropping a node's queued calls leaves the broadcasts, the call on the line and the roll pointer. -/
theorem dropQueued_calls (s : Station) (n : Node) (l : Line) :
    ((s.dropQueued n).line l).calls = (s.line l).calls := by
  cases n with | mk l' a => cases l' <;> cases l <;> rfl

/-- Dropping a node's queued calls keeps the canonical form. -/
theorem canonical_dropQueued (s : Station) (c : s.canonical = true) (n : Node) : (s.dropQueued n).canonical = true :=
  ((Frame.dropQueued (b := 0) n (Frame.refl s)).safe).canonical c

/-- All that a change of the kind of one node does. -/
structure Kinded (s t : Station) (n : Node) (k : NodeKind) : Prop where
  eq : t = { s with lineA := t.lineA, lineB := t.lineB }
  can : t.canonical = true
  calls : ∀ l, (t.line l).calls = (s.line l).calls
  kind : (t.node n).kind = k
  other : ∀ m, m ≠ n → t.node m = s.node m

/-- What `setKind` does. -/
theorem setKind_spec (s : Station) (c : s.canonical = true) (n : Node) (k : NodeKind) :
    Kinded s (s.setKind n k) n k := by
  unfold Station.setKind
  split
  · rename_i h; exact ⟨rfl, c, fun _ => rfl, h, fun _ _ => rfl⟩
  · have cd := canonical_dropQueued s c n
    refine ⟨?_, canonical_modNode _ cd _ _, fun l => (modNode_calls _ _ _ l).trans (dropQueued_calls _ _ l), ?_,
      fun m hm => ?_⟩
    · rw [modNode_lines, dropQueued_lines]
    · rw [Station.node_modNode cd, if_pos rfl]
    · rw [Station.node_modNode cd, if_neg hm, dropQueued_node]

/-- An edit that keeps the network table tidy keeps the canonical form. -/
theorem canonical_edit (s : Station) (c : s.canonical = true) (n : Network)
    (h : Station.netTidy s.nt → Station.netTidy n) : ({ s with nt := n } : Station).canonical = true :=
  (Station.Frame.edit n (Station.Frame.refl (b := 0) s) h).safe.canonical c

/-- A mapping taken away: the place is free and its kind NONE; the rest stands. -/
theorem remap_gone (s : Station) (c : s.canonical = true) (old : Option Node) (o : Occupant) (k : NodeKind) :
    (s.remap old none o k).canonical = true ∧
    s.remap old none o k =
      { s with
        nt := { s.nt with nodeMap := match old with | some n => s.nt.nodeMap.drop n.key | none => s.nt.nodeMap }
        lineA := (s.remap old none o k).lineA
        lineB := (s.remap old none o k).lineB } ∧
    (∀ l, ((s.remap old none o k).line l).calls = (s.line l).calls) ∧
    ∀ n, old = some n → ((s.remap old none o k).node n).kind = .none := by
  cases old with
  | none => simp [Station.remap, c]
  | some n =>
    have c1 : ({ s with nt := { s.nt with nodeMap := s.nt.nodeMap.drop n.key } } : Station).canonical = true :=
      canonical_edit s c _ (fun h => ⟨h.1, h.2.1, h.2.2.1, h.2.2.2.1, Table.wf_drop _ _ h.2.2.2.2⟩)
    have := setKind_spec _ c1 n .none
    simp only [Station.remap, reduceCtorEq, if_false]
    refine ⟨this.can, this.eq, this.calls, fun m hm => ?_⟩
    cases hm; exact this.kind

/-- A mapping set anew is the old one taken away and the new place taken. -/
theorem remap_eq (s : Station) (old : Option Node) (n : Node) (o : Occupant) (k : NodeKind) (h : old ≠ some n) :
    s.remap old (some n) o k =
      ({ s.remap old none o k with
         nt := { (s.remap old none o k).nt with nodeMap := (s.remap old none o k).nt.nodeMap.put n.key o } } :
        Station).setKind n k := by
  cases old with
  | none => simp [Station.remap]
  | some m => simp only [Station.remap, if_neg h, reduceCtorEq, if_false]

/-- A change of mapping touches the node map and the lines alone. -/
theorem remap_rest (s : Station) (c : s.canonical = true) (old new : Option Node) (o : Occupant) (k : NodeKind) :
    ∃ nm, (s.remap old new o k).canonical = true ∧
      s.remap old new o k =
        { s with
          nt := { s.nt with nodeMap := nm }
          lineA := (s.remap old new o k).lineA
          lineB := (s.remap old new o k).lineB } ∧
      (∀ l, ((s.remap old new o k).line l).calls = (s.line l).calls) := by
  by_cases hne : old = new
  · unfold Station.remap; rw [if_pos hne]; exact ⟨_, c, rfl, fun _ => rfl⟩
  · obtain ⟨a1, a2, a3, -⟩ := remap_gone s c old o k
    cases new with
    | none => exact ⟨_, a1, a2, a3⟩
    | some n =>
      rw [remap_eq s old n o k hne]
      generalize s.remap old none o k = y at *
      have c1 : ({ y with nt := { y.nt with nodeMap := y.nt.nodeMap.put n.key o } } : Station).canonical = true :=
        canonical_edit y a1 _ (fun h => ⟨h.1, h.2.1, h.2.2.1, h.2.2.2.1, Table.wf_put _ _ _ h.2.2.2.2⟩)
      have := setKind_spec _ c1 n k
      refine ⟨y.nt.nodeMap.put n.key o, this.can, ?_, fun l => (this.calls l).trans (a3 l)⟩
      have e := this.eq
      generalize ({ y with nt := { y.nt with nodeMap := y.nt.nodeMap.put n.key o } } : Station).setKind n k = w at *
      rw [e, a2]

/-- A new place: its occupant and its kind. -/
theorem remap_some (s : Station) (c : s.canonical = true) (old : Option Node) (n : Node) (o : Occupant) (k : NodeKind)
    (h : old ≠ some n) :
    (s.remap old (some n) o k).occupant? n = some o ∧ ((s.remap old (some n) o k).node n).kind = k := by
  obtain ⟨a1, -, -, -⟩ := remap_gone s c old o k
  rw [remap_eq s old n o k h]
  generalize s.remap old none o k = y at *
  have c1 : ({ y with nt := { y.nt with nodeMap := y.nt.nodeMap.put n.key o } } : Station).canonical = true :=
    canonical_edit y a1 _ (fun h => ⟨h.1, h.2.1, h.2.2.1, h.2.2.2.1, Table.wf_put _ _ _ h.2.2.2.2⟩)
  have := setKind_spec _ c1 n k
  refine ⟨?_, this.kind⟩
  unfold Station.occupant?
  rw [this.eq]
  exact Table.find_put_same _ _ _

end Sys2Proof.Machine.Station
end

