-- ==== Sys2Proof/Laws/PerInstr.lean ====
section
/-! SUPPORT. Laws with one lemma per command. RoundTrip: the frame of every request row carries its request back, with
every operand at every value that the frame admits (R191, R199). -/

set_option linter.unusedSimpArgs false

namespace Sys2Proof.Machine

/-- One byte carries a number that fits it. -/
theorem byte1_back (n : Nat) (h : fits8 n = true) : (BitVec.ofNat 8 n).toNat = n := by
  simp only [fits8, decide_eq_true_eq] at h
  rw [BitVec.toNat_ofNat]
  omega

/-- Two bytes carry a number that fits them. -/
theorem byte2_back (n : Nat) (h : fits16 n = true) : num2 (BitVec.ofNat 8 n) (BitVec.ofNat 8 (n / 256)) = n := by
  simp only [fits16, decide_eq_true_eq] at h
  simp only [num2, BitVec.toNat_ofNat]
  omega

end Sys2Proof.Machine

namespace Sys2Proof.Laws.RoundTrip

open Sys2Proof.Machine

/-- The payload of a request row that can be sent reads back as its request, and fits a frame. -/
def Statement (i : Instr) : Prop :=
  ∀ (t : Byte) (r : Request), i.request? = some (t, r) → i.wf = true →
    parseRequest (BitVec.ofNat 8 (requestCode r)) (requestPayload r) = .request r ∧ (requestPayload r).length ≤
        Config.payloadCap

theorem powerOn (rate : Bool) : Statement (.powerOn rate) := by
  intro t r h
  cases h

theorem resetPinAssert : Statement .resetPinAssert := by
  intro t r h
  cases h

theorem resetPinRelease (rate : Bool) : Statement (.resetPinRelease rate) := by
  intro t r h
  cases h

theorem loadingEnd (flashAnswers : Bool) : Statement (.loadingEnd flashAnswers) := by
  intro t r h
  cases h

theorem settleWaitEnd : Statement .settleWaitEnd := by
  intro t r h
  cases h

theorem storeEraseDone (error : Bool) : Statement (.storeEraseDone error) := by
  intro t r h
  cases h

theorem storeWriteDone (error : Bool) : Statement (.storeWriteDone error) := by
  intro t r h
  cases h

theorem storeVerifyDone (differs : Bool) : Statement (.storeVerifyDone differs) := by
  intro t r h
  cases h

theorem flashOperationTimeout : Statement .flashOperationTimeout := by
  intro t r h
  cases h

theorem requestFrameReceived (bytes : List Byte) : Statement (.requestFrameReceived bytes) := by
  intro t r h
  cases h

theorem frameGapTimeout : Statement .frameGapTimeout := by
  intro t r h
  cases h

theorem breakReceived : Statement .breakReceived := by
  intro t r h
  cases h

theorem framingError : Statement .framingError := by
  intro t r h
  cases h

theorem replySent : Statement .replySent := by
  intro t r h
  cases h

theorem putSegment (tag : Byte) (segment : Nat) (zone : Nat) (source : Nat) (connections : Nat) (priority : Nat) (name
    : List Byte) :
    Statement (.putSegment tag segment zone source connections priority name) := by
  intro t r h w
  cases h
  simp only [Instr.wf, Instr.request?, Request.wf, Bool.and_eq_true, decide_eq_true_eq] at w
  have hl : (BitVec.ofNat 8 name.length).toNat = name.length := byte1_back _ (by simp [fits8]; omega)
  refine ⟨?_, by simp [requestPayload, byte1, byte2, Config.payloadCap]; omega⟩
  show (match (if (BitVec.ofNat 8 name.length).toNat = name.length then
      some (Request.putSegment (num2 (BitVec.ofNat 8 segment) (BitVec.ofNat 8 (segment / 256))) (BitVec.ofNat 8
          zone).toNat (BitVec.ofNat 8 source).toNat (num2 (BitVec.ofNat 8 connections) (BitVec.ofNat 8 (connections /
          256))) (BitVec.ofNat 8 priority).toNat name) else none) with
    | some r => Received.request r
    | none => .badLength) = _
  rw [if_pos hl]
  simp only [w, byte1_back, byte2_back]

theorem deleteSegment (tag : Byte) (segment : Nat) : Statement (.deleteSegment tag segment) := by
  intro t r h w
  cases h
  simp only [Instr.wf, Instr.request?, Request.wf, Bool.and_eq_true] at w
  refine ⟨?_, by simp [requestPayload, byte1, byte2, Config.payloadCap]⟩
  show Received.request (.deleteSegment (num2 (BitVec.ofNat 8 segment) (BitVec.ofNat 8 (segment / 256)))) = _
  simp only [w, byte1_back, byte2_back]

theorem putValve (tag : Byte) (f : ValveFields) : Statement (.putValve tag f) := by
  intro t r h w
  cases h
  simp only [Instr.wf, Instr.request?, Request.wf, ValveFields.fits, Bool.and_eq_true] at w
  refine ⟨?_, by simp [requestPayload, byte1, byte2, Config.payloadCap]⟩
  show Received.request (.putValve ⟨(num2 (BitVec.ofNat 8 f.valve) (BitVec.ofNat 8 (f.valve / 256))), (num2
      (BitVec.ofNat 8 f.sideA) (BitVec.ofNat 8 (f.sideA / 256))), (num2 (BitVec.ofNat 8 f.sideB) (BitVec.ofNat 8
      (f.sideB / 256))), (BitVec.ofNat 8 f.zone).toNat, (BitVec.ofNat 8 f.normal).toNat, (BitVec.ofNat 8
      f.kind).toNat, (BitVec.ofNat 8 f.line).toNat, (BitVec.ofNat 8 f.address).toNat, (num2 (BitVec.ofNat 8 f.length)
      (BitVec.ofNat 8 (f.length / 256))), (num2 (BitVec.ofNat 8 f.waveSpeed) (BitVec.ofNat 8 (f.waveSpeed / 256))),
      (num2 (BitVec.ofNat 8 f.velocity) (BitVec.ofNat 8 (f.velocity / 256))), (num2 (BitVec.ofNat 8 f.tmin)
      (BitVec.ofNat 8 (f.tmin / 256))), (num2 (BitVec.ofNat 8 f.tmax) (BitVec.ofNat 8 (f.tmax / 256))), (BitVec.ofNat
      8 f.stall).toNat⟩) = _
  simp only [w, byte1_back, byte2_back]

theorem deleteValve (tag : Byte) (valve : Nat) : Statement (.deleteValve tag valve) := by
  intro t r h w
  cases h
  simp only [Instr.wf, Instr.request?, Request.wf, Bool.and_eq_true] at w
  refine ⟨?_, by simp [requestPayload, byte1, byte2, Config.payloadCap]⟩
  show Received.request (.deleteValve (num2 (BitVec.ofNat 8 valve) (BitVec.ofNat 8 (valve / 256)))) = _
  simp only [w, byte1_back, byte2_back]

theorem putSensor (tag : Byte) (sensor : Nat) (line : Nat) (address : Nat) (segment : Nat) :
    Statement (.putSensor tag sensor line address segment) := by
  intro t r h w
  cases h
  simp only [Instr.wf, Instr.request?, Request.wf, Bool.and_eq_true] at w
  refine ⟨?_, by simp [requestPayload, byte1, byte2, Config.payloadCap]⟩
  show Received.request (.putSensor (BitVec.ofNat 8 sensor).toNat (BitVec.ofNat 8 line).toNat (BitVec.ofNat 8
      address).toNat (num2 (BitVec.ofNat 8 segment) (BitVec.ofNat 8 (segment / 256)))) = _
  simp only [w, byte1_back, byte2_back]

theorem deleteSensor (tag : Byte) (sensor : Nat) : Statement (.deleteSensor tag sensor) := by
  intro t r h w
  cases h
  simp only [Instr.wf, Instr.request?, Request.wf, Bool.and_eq_true] at w
  refine ⟨?_, by simp [requestPayload, byte1, byte2, Config.payloadCap]⟩
  show Received.request (.deleteSensor (BitVec.ofNat 8 sensor).toNat) = _
  simp only [w, byte1_back, byte2_back]

theorem putZone (tag : Byte) (f : ZoneFields) : Statement (.putZone tag f) := by
  intro t r h w
  cases h
  simp only [Instr.wf, Instr.request?, Request.wf, ZoneFields.fits, Bool.and_eq_true] at w
  refine ⟨?_, by simp [requestPayload, byte1, byte2, Config.payloadCap]⟩
  show Received.request (.putZone ⟨(BitVec.ofNat 8 f.zone).toNat, (num2 (BitVec.ofNat 8 f.hmax) (BitVec.ofNat 8
      (f.hmax / 256))), (BitVec.ofNat 8 f.slots).toNat, (num2 (BitVec.ofNat 8 f.ceiling) (BitVec.ofNat 8 (f.ceiling /
      256))), (num2 (BitVec.ofNat 8 f.hysteresis) (BitVec.ofNat 8 (f.hysteresis / 256))), (num2 (BitVec.ofNat 8
      f.settle) (BitVec.ofNat 8 (f.settle / 256))), (num2 (BitVec.ofNat 8 f.drop) (BitVec.ofNat 8 (f.drop / 256))),
      (num2 (BitVec.ofNat 8 f.detect) (BitVec.ofNat 8 (f.detect / 256)))⟩) = _
  simp only [w, byte1_back, byte2_back]

theorem setTiming (tag : Byte) (validity : Nat) (lifetime : Nat) (exponent : Nat) (window : Nat) :
    Statement (.setTiming tag validity lifetime exponent window) := by
  intro t r h w
  cases h
  simp only [Instr.wf, Instr.request?, Request.wf, Bool.and_eq_true] at w
  refine ⟨?_, by simp [requestPayload, byte1, byte2, Config.payloadCap]⟩
  show Received.request (.setTiming (num2 (BitVec.ofNat 8 validity) (BitVec.ofNat 8 (validity / 256))) (num2
      (BitVec.ofNat 8 lifetime) (BitVec.ofNat 8 (lifetime / 256))) (BitVec.ofNat 8 exponent).toNat (BitVec.ofNat 8
      window).toNat) = _
  simp only [w, byte1_back, byte2_back]

theorem setFlow (tag : Byte) (valve : Nat) (velocity : Nat) : Statement (.setFlow tag valve velocity) := by
  intro t r h w
  cases h
  simp only [Instr.wf, Instr.request?, Request.wf, Bool.and_eq_true] at w
  refine ⟨?_, by simp [requestPayload, byte1, byte2, Config.payloadCap]⟩
  show Received.request (.setFlow (num2 (BitVec.ofNat 8 valve) (BitVec.ofNat 8 (valve / 256))) (num2 (BitVec.ofNat 8
      velocity) (BitVec.ofNat 8 (velocity / 256)))) = _
  simp only [w, byte1_back, byte2_back]

theorem readSegment (tag : Byte) (segment : Nat) : Statement (.readSegment tag segment) := by
  intro t r h w
  cases h
  simp only [Instr.wf, Instr.request?, Request.wf, Bool.and_eq_true] at w
  refine ⟨?_, by simp [requestPayload, byte1, byte2, Config.payloadCap]⟩
  show Received.request (.readSegment (num2 (BitVec.ofNat 8 segment) (BitVec.ofNat 8 (segment / 256)))) = _
  simp only [w, byte1_back, byte2_back]

theorem readValve (tag : Byte) (valve : Nat) : Statement (.readValve tag valve) := by
  intro t r h w
  cases h
  simp only [Instr.wf, Instr.request?, Request.wf, Bool.and_eq_true] at w
  refine ⟨?_, by simp [requestPayload, byte1, byte2, Config.payloadCap]⟩
  show Received.request (.readValve (num2 (BitVec.ofNat 8 valve) (BitVec.ofNat 8 (valve / 256)))) = _
  simp only [w, byte1_back, byte2_back]

theorem readZone (tag : Byte) (zone : Nat) : Statement (.readZone tag zone) := by
  intro t r h w
  cases h
  simp only [Instr.wf, Instr.request?, Request.wf, Bool.and_eq_true] at w
  refine ⟨?_, by simp [requestPayload, byte1, byte2, Config.payloadCap]⟩
  show Received.request (.readZone (BitVec.ofNat 8 zone).toNat) = _
  simp only [w, byte1_back, byte2_back]

theorem readSensor (tag : Byte) (sensor : Nat) : Statement (.readSensor tag sensor) := by
  intro t r h w
  cases h
  simp only [Instr.wf, Instr.request?, Request.wf, Bool.and_eq_true] at w
  refine ⟨?_, by simp [requestPayload, byte1, byte2, Config.payloadCap]⟩
  show Received.request (.readSensor (BitVec.ofNat 8 sensor).toNat) = _
  simp only [w, byte1_back, byte2_back]

theorem readTiming (tag : Byte) : Statement (.readTiming tag) := by
  intro t r h _
  cases h
  exact ⟨rfl, by decide⟩

theorem nextRecord (tag : Byte) (kind : Nat) (start : Nat) : Statement (.nextRecord tag kind start) := by
  intro t r h w
  cases h
  simp only [Instr.wf, Instr.request?, Request.wf, Bool.and_eq_true] at w
  refine ⟨?_, by simp [requestPayload, byte1, byte2, Config.payloadCap]⟩
  show Received.request (.nextRecord (BitVec.ofNat 8 kind).toNat (num2 (BitVec.ofNat 8 start) (BitVec.ofNat 8 (start /
      256)))) = _
  simp only [w, byte1_back, byte2_back]

theorem setHealth (tag : Byte) (valve : Nat) (health : Nat) : Statement (.setHealth tag valve health) := by
  intro t r h w
  cases h
  simp only [Instr.wf, Instr.request?, Request.wf, Bool.and_eq_true] at w
  refine ⟨?_, by simp [requestPayload, byte1, byte2, Config.payloadCap]⟩
  show Received.request (.setHealth (num2 (BitVec.ofNat 8 valve) (BitVec.ofNat 8 (valve / 256))) (BitVec.ofNat 8
      health).toNat) = _
  simp only [w, byte1_back, byte2_back]

theorem confirmValve (tag : Byte) (valve : Nat) (report : Nat) : Statement (.confirmValve tag valve report) := by
  intro t r h w
  cases h
  simp only [Instr.wf, Instr.request?, Request.wf, Bool.and_eq_true] at w
  refine ⟨?_, by simp [requestPayload, byte1, byte2, Config.payloadCap]⟩
  show Received.request (.confirmValve (num2 (BitVec.ofNat 8 valve) (BitVec.ofNat 8 (valve / 256))) (BitVec.ofNat 8
      report).toNat) = _
  simp only [w, byte1_back, byte2_back]

theorem moveValve (tag : Byte) (valve : Nat) (target : Nat) (time : Nat) :
    Statement (.moveValve tag valve target time) := by
  intro t r h w
  cases h
  simp only [Instr.wf, Instr.request?, Request.wf, Bool.and_eq_true] at w
  refine ⟨?_, by simp [requestPayload, byte1, byte2, Config.payloadCap]⟩
  show Received.request (.moveValve (num2 (BitVec.ofNat 8 valve) (BitVec.ofNat 8 (valve / 256))) (BitVec.ofNat 8
      target).toNat (num2 (BitVec.ofNat 8 time) (BitVec.ofNat 8 (time / 256)))) = _
  simp only [w, byte1_back, byte2_back]

theorem haltValveStop (tag : Byte) (valve : Nat) : Statement (.haltValveStop tag valve) := by
  intro t r h w
  cases h
  simp only [Instr.wf, Instr.request?, Request.wf, Bool.and_eq_true] at w
  refine ⟨?_, by simp [requestPayload, byte1, byte2, Config.payloadCap]⟩
  show Received.request (.haltValve (num2 (BitVec.ofNat 8 valve) (BitVec.ofNat 8 (valve / 256))) (BitVec.ofNat 8
      0).toNat) = _
  simp only [w, byte2_back]
  rfl

theorem haltValveLift (tag : Byte) (valve : Nat) : Statement (.haltValveLift tag valve) := by
  intro t r h w
  cases h
  simp only [Instr.wf, Instr.request?, Request.wf, Bool.and_eq_true] at w
  refine ⟨?_, by simp [requestPayload, byte1, byte2, Config.payloadCap]⟩
  show Received.request (.haltValve (num2 (BitVec.ofNat 8 valve) (BitVec.ofNat 8 (valve / 256))) (BitVec.ofNat 8
      1).toNat) = _
  simp only [w, byte2_back]
  rfl

theorem readValveState (tag : Byte) (valve : Nat) : Statement (.readValveState tag valve) := by
  intro t r h w
  cases h
  simp only [Instr.wf, Instr.request?, Request.wf, Bool.and_eq_true] at w
  refine ⟨?_, by simp [requestPayload, byte1, byte2, Config.payloadCap]⟩
  show Received.request (.readValveState (num2 (BitVec.ofNat 8 valve) (BitVec.ofNat 8 (valve / 256)))) = _
  simp only [w, byte1_back, byte2_back]

theorem openIncident (tag : Byte) (segment : Nat) : Statement (.openIncident tag segment) := by
  intro t r h w
  cases h
  simp only [Instr.wf, Instr.request?, Request.wf, Bool.and_eq_true] at w
  refine ⟨?_, by simp [requestPayload, byte1, byte2, Config.payloadCap]⟩
  show Received.request (.openIncident (num2 (BitVec.ofNat 8 segment) (BitVec.ofNat 8 (segment / 256)))) = _
  simp only [w, byte1_back, byte2_back]

theorem authorize (tag : Byte) (slot : Nat) (override : Nat) : Statement (.authorize tag slot override) := by
  intro t r h w
  cases h
  simp only [Instr.wf, Instr.request?, Request.wf, Bool.and_eq_true] at w
  refine ⟨?_, by simp [requestPayload, byte1, byte2, Config.payloadCap]⟩
  show Received.request (.authorize (BitVec.ofNat 8 slot).toNat (BitVec.ofNat 8 override).toNat) = _
  simp only [w, byte1_back, byte2_back]

theorem abort (tag : Byte) (slot : Nat) : Statement (.abort tag slot) := by
  intro t r h w
  cases h
  simp only [Instr.wf, Instr.request?, Request.wf, Bool.and_eq_true] at w
  refine ⟨?_, by simp [requestPayload, byte1, byte2, Config.payloadCap]⟩
  show Received.request (.abort (BitVec.ofNat 8 slot).toNat) = _
  simp only [w, byte1_back, byte2_back]

theorem release (tag : Byte) (slot : Nat) : Statement (.release tag slot) := by
  intro t r h w
  cases h
  simp only [Instr.wf, Instr.request?, Request.wf, Bool.and_eq_true] at w
  refine ⟨?_, by simp [requestPayload, byte1, byte2, Config.payloadCap]⟩
  show Received.request (.release (BitVec.ofNat 8 slot).toNat) = _
  simp only [w, byte1_back, byte2_back]

theorem closeIncident (tag : Byte) (slot : Nat) : Statement (.closeIncident tag slot) := by
  intro t r h w
  cases h
  simp only [Instr.wf, Instr.request?, Request.wf, Bool.and_eq_true] at w
  refine ⟨?_, by simp [requestPayload, byte1, byte2, Config.payloadCap]⟩
  show Received.request (.closeIncident (BitVec.ofNat 8 slot).toNat) = _
  simp only [w, byte1_back, byte2_back]

theorem readIncident (tag : Byte) (slot : Nat) : Statement (.readIncident tag slot) := by
  intro t r h w
  cases h
  simp only [Instr.wf, Instr.request?, Request.wf, Bool.and_eq_true] at w
  refine ⟨?_, by simp [requestPayload, byte1, byte2, Config.payloadCap]⟩
  show Received.request (.readIncident (BitVec.ofNat 8 slot).toNat) = _
  simp only [w, byte1_back, byte2_back]

theorem readPlan (tag : Byte) (slot : Nat) (page : Nat) : Statement (.readPlan tag slot page) := by
  intro t r h w
  cases h
  simp only [Instr.wf, Instr.request?, Request.wf, Bool.and_eq_true] at w
  refine ⟨?_, by simp [requestPayload, byte1, byte2, Config.payloadCap]⟩
  show Received.request (.readPlan (BitVec.ofNat 8 slot).toNat (BitVec.ofNat 8 page).toNat) = _
  simp only [w, byte1_back, byte2_back]

theorem readMotion (tag : Byte) (zone : Nat) : Statement (.readMotion tag zone) := by
  intro t r h w
  cases h
  simp only [Instr.wf, Instr.request?, Request.wf, Bool.and_eq_true] at w
  refine ⟨?_, by simp [requestPayload, byte1, byte2, Config.payloadCap]⟩
  show Received.request (.readMotion (BitVec.ofNat 8 zone).toNat) = _
  simp only [w, byte1_back, byte2_back]

theorem resumeZone (tag : Byte) (zone : Nat) : Statement (.resumeZone tag zone) := by
  intro t r h w
  cases h
  simp only [Instr.wf, Instr.request?, Request.wf, Bool.and_eq_true] at w
  refine ⟨?_, by simp [requestPayload, byte1, byte2, Config.payloadCap]⟩
  show Received.request (.resumeZone (BitVec.ofNat 8 zone).toNat) = _
  simp only [w, byte1_back, byte2_back]

theorem readZoneWatch (tag : Byte) (zone : Nat) : Statement (.readZoneWatch tag zone) := by
  intro t r h w
  cases h
  simp only [Instr.wf, Instr.request?, Request.wf, Bool.and_eq_true] at w
  refine ⟨?_, by simp [requestPayload, byte1, byte2, Config.payloadCap]⟩
  show Received.request (.readZoneWatch (BitVec.ofNat 8 zone).toNat) = _
  simp only [w, byte1_back, byte2_back]

theorem readSensorWatch (tag : Byte) (sensor : Nat) : Statement (.readSensorWatch tag sensor) := by
  intro t r h w
  cases h
  simp only [Instr.wf, Instr.request?, Request.wf, Bool.and_eq_true] at w
  refine ⟨?_, by simp [requestPayload, byte1, byte2, Config.payloadCap]⟩
  show Received.request (.readSensorWatch (BitVec.ofNat 8 sensor).toNat) = _
  simp only [w, byte1_back, byte2_back]

theorem fieldClear (tag : Byte) (line : Nat) : Statement (.fieldClear tag line) := by
  intro t r h w
  cases h
  simp only [Instr.wf, Instr.request?, Request.wf, Bool.and_eq_true] at w
  refine ⟨?_, by simp [requestPayload, byte1, byte2, Config.payloadCap]⟩
  show Received.request (.fieldClear (BitVec.ofNat 8 line).toNat) = _
  simp only [w, byte1_back, byte2_back]

theorem readNode (tag : Byte) (line : Nat) (address : Nat) : Statement (.readNode tag line address) := by
  intro t r h w
  cases h
  simp only [Instr.wf, Instr.request?, Request.wf, Bool.and_eq_true] at w
  refine ⟨?_, by simp [requestPayload, byte1, byte2, Config.payloadCap]⟩
  show Received.request (.readNode (BitVec.ofNat 8 line).toNat (BitVec.ofNat 8 address).toNat) = _
  simp only [w, byte1_back, byte2_back]

theorem exerciseValve (tag : Byte) (valve : Nat) (target : Nat) : Statement (.exerciseValve tag valve target) := by
  intro t r h w
  cases h
  simp only [Instr.wf, Instr.request?, Request.wf, Bool.and_eq_true] at w
  refine ⟨?_, by simp [requestPayload, byte1, byte2, Config.payloadCap]⟩
  show Received.request (.exerciseValve (num2 (BitVec.ofNat 8 valve) (BitVec.ofNat 8 (valve / 256))) (BitVec.ofNat 8
      target).toNat) = _
  simp only [w, byte1_back, byte2_back]

theorem readExercises (tag : Byte) : Statement (.readExercises tag) := by
  intro t r h _
  cases h
  exact ⟨rfl, by decide⟩

theorem commitTable (tag : Byte) : Statement (.commitTable tag) := by
  intro t r h _
  cases h
  exact ⟨rfl, by decide⟩

theorem resetStation (tag : Byte) : Statement (.resetStation tag) := by
  intro t r h _
  cases h
  exact ⟨rfl, by decide⟩

theorem readNotice (tag : Byte) : Statement (.readNotice tag) := by
  intro t r h _
  cases h
  exact ⟨rfl, by decide⟩

theorem setNoticeClasses (tag : Byte) (mask : Nat) : Statement (.setNoticeClasses tag mask) := by
  intro t r h w
  cases h
  simp only [Instr.wf, Instr.request?, Request.wf, Bool.and_eq_true] at w
  refine ⟨?_, by simp [requestPayload, byte1, byte2, Config.payloadCap]⟩
  show Received.request (.setNoticeClasses (BitVec.ofNat 8 mask).toNat) = _
  simp only [w, byte1_back, byte2_back]

theorem status (tag : Byte) : Statement (.status tag) := by
  intro t r h _
  cases h
  exact ⟨rfl, by decide⟩

theorem identify (tag : Byte) : Statement (.identify tag) := by
  intro t r h _
  cases h
  exact ⟨rfl, by decide⟩

theorem supplyWarningQualified : Statement .supplyWarningQualified := by
  intro t r h
  cases h

theorem supplyWarningClears : Statement .supplyWarningClears := by
  intro t r h
  cases h

theorem callStart (line : Line) : Statement (.callStart line) := by
  intro t r h
  cases h

theorem detailDue (line : Line) (address : Nat) : Statement (.detailDue line address) := by
  intro t r h
  cases h

theorem sampleDue (line : Line) (address : Nat) : Statement (.sampleDue line address) := by
  intro t r h
  cases h

theorem rollDue (line : Line) (address : Nat) : Statement (.rollDue line address) := by
  intro t r h
  cases h

theorem answerReceived (line : Line) (bytes : List Byte) : Statement (.answerReceived line bytes) := by
  intro t r h
  cases h

theorem answerTimeout (line : Line) : Statement (.answerTimeout line) := by
  intro t r h
  cases h

theorem clearSent (line : Line) : Statement (.clearSent line) := by
  intro t r h
  cases h

theorem broadcastHaltSent (line : Line) : Statement (.broadcastHaltSent line) := by
  intro t r h
  cases h

theorem strokeTimeout (valve : Nat) : Statement (.strokeTimeout valve) := by
  intro t r h
  cases h

theorem planExpiry (slot : Nat) : Statement (.planExpiry slot) := by
  intro t r h
  cases h

theorem settleTimerExpiry (zone : Nat) : Statement (.settleTimerExpiry zone) := by
  intro t r h
  cases h

theorem plannerMerge : Statement .plannerMerge := by
  intro t r h
  cases h

theorem computationCompletion : Statement .computationCompletion := by
  intro t r h
  cases h

end Sys2Proof.Laws.RoundTrip
end

