-- ==== Sys2Proof/Laws/Slots.lean ====
section
/-! SUPPORT. What a slot outside the watch of R93 keeps: the shared operations that end, halt or drop strokes without a
failure, and the ones that move a valve's position, leave such a slot as it stood. -/

namespace Sys2Proof.Machine.Station

variable {s t : Station}

/-- Slot k is outside the watch of R93. -/
def Unwatched (s : Station) (k : Nat) : Prop := (s.slot k).state ≠ .closing ∧ (s.slot k).state ≠ .isolated

/-- The tables keep their form and a slot outside the watch of R93 stands. -/
structure Spares (s t : Station) (k : Nat) : Prop where
  canonical : t.canonical = true
  slot : t.slot k = s.slot k

/-- Whatever leaves the slots and moves the rest within the families' bounds spares the slot. -/
theorem Spares.of_im {k : Nat} {u : Station} (h : Spares s t k) (f : t.Moves u) (e : u.im = t.im) : Spares s u k :=
  ⟨f.canonical h.canonical, by rw [← h.slot]; unfold Station.slot; rw [e]⟩

/-- Posting a notice. -/
@[simp] theorem Spares.post {k : Nat} (h : Spares s t k) (n : Notice) : Spares s (t.post n) k :=
  h.of_im ((Frame.post (b := 3) n (Frame.refl t)).moves (by omega)) rfl

/-- A change of another slot. -/
@[simp] theorem Spares.modSlot {k j : Nat} (h : Spares s t k) (hj : j ≠ k) (f : Slot → Slot) : Spares s (t.modSlot j f) k :=
  ⟨canonical_modSlot _ _ h.canonical, by rw [← h.slot]; exact (slot_modSlot h.canonical j k f).trans (if_neg (Ne.symm hj))⟩

/-- A trigger of the planner leaves the slots. -/
theorem trigger_im (j : Nat) : (t.trigger j).im = t.im := by
  unfold trigger enqueue startNext markStale modFlight; dsimp only; repeat' split
  all_goals rfl

/-- A trigger of the planner. -/
@[simp] theorem Spares.trigger {k : Nat} (h : Spares s t k) (j : Nat) : Spares s (t.trigger j) k :=
  h.of_im ((Frame.trigger (b := 3) j (Frame.refl t)).moves (by omega)) (trigger_im j)

/-- A withdrawal from the planner. -/
@[simp] theorem Spares.withdraw {k : Nat} (h : Spares s t k) (j : Nat) : Spares s (t.withdraw j) k :=
  h.of_im ((Frame.withdraw (b := 3) j (Frame.refl t)).moves (by omega)) rfl

/-- A failure recorded in another slot (R91, R92). -/
theorem recordFailure_spares {k j : Nat} (h : Spares s t k) (hj : j ≠ k) (v : Nat) (c : Cause) : Spares s (t.recordFailure j v c) k := by
  simp only [recordFailure, failEntry, modWork, tooManyFailures, unisolable]
  repeat' split
  all_goals simp (maxDischargeDepth := 99) [h, hj]

/-- A valve that leaves CLOSED is recorded by the slots that watch it alone (R93). -/
theorem watchLeft_spares {k : Nat} (h : Spares s t k) (hk : s.Unwatched k) (v : Nat) : Spares s (t.watchLeft v) k := by
  have : ∀ (xs : List Nat) (u : Station), Spares s u k → Spares s (xs.foldl (fun s j => if s.watchedBy j v then s.recordFailure j v (s.leftCause v) else s) u) k := by
    intro xs; induction xs with
    | nil => exact fun u hu => hu
    | cons x xs ih =>
      intro u hu
      refine ih _ ?_
      dsimp only
      split
      · rename_i hw
        refine recordFailure_spares hu ?_ v _
        rintro rfl
        simp only [watchedBy, hu.slot, Bool.and_eq_true, decide_eq_true_eq] at hw
        rcases hw.1.1 with g | g
        · exact hk.1 g
        · exact hk.2 g
      · exact hu
  exact this _ _ h

/-- Deriving a class leaves the slots. -/
theorem refreshClass_im (v : Nat) : (t.refreshClass v).im = t.im := by
  unfold Station.refreshClass; repeat' split
  all_goals rfl

/-- A new position of a valve. -/
theorem reposition_spares {k : Nat} (h : Spares s t k) (hk : s.Unwatched k) (v : Nat) (f : VsRec → VsRec)
    (hf : ∀ d, (f d).current = d.current) : Spares s (t.reposition v f) k := by
  have h1 : Spares s (t.modVs v f) k := h.of_im ((Frame.modVs (b := 3) v f (Frame.refl t) hf).moves (by omega)) rfl
  have h2 : Spares s (t.modVs v f).markStale k := h1.of_im ((Frame.markStale (b := 3) (Frame.refl _)).moves (by omega)) rfl
  have h3 (u) (hu : Spares s u k) : Spares s (u.refreshClass v) k :=
    hu.of_im ((Frame.refreshClass (b := 3) v (Frame.refl _)).moves (by omega)) (refreshClass_im v)
  have h4 : ∀ c : Prop, ∀ [Decidable c] u, Spares s u k → Spares s (if c then u.watchLeft v else u) k := by
    intro c _ u hu; split
    · exact watchLeft_spares hu hk v
    · exact hu
  simp only [Station.reposition]
  refine h4 _ _ (h3 _ ?_)
  split
  · exact h1
  · exact h2

/-- A change of a node entry leaves the slots. -/
theorem modNode_im (n : Node) (f) : (t.modNode n f).im = t.im := by
  unfold Station.modNode Station.modLine; split <;> rfl

/-- Sampling due times leave the slots. -/
theorem setSampleDue_im (z d) : (t.setSampleDue z d).im = t.im := by
  unfold Station.setSampleDue
  generalize t.sensorsOfZone z = xs
  induction xs generalizing t with
  | nil => rfl
  | cons x xs ih => rw [List.foldl_cons, ih]; split <;> simp [modNode_im]

/-- A lower count leaves the slots. -/
theorem lowerCount_im (z) : (t.lowerCount z).im = t.im := by
  unfold Station.lowerCount; dsimp only; split
  · rw [setSampleDue_im]; rfl
  · rfl

/-- A change of a line leaves the slots. -/
theorem modLine_im (l f) : (t.modLine l f).im = t.im := by unfold Station.modLine; split <;> rfl

/-- Dropping queued calls leaves the slots. -/
theorem dropQueued_im (n) : (t.dropQueued n).im = t.im := modLine_im _ _

/-- A position request leaves the slots. -/
theorem requestPosition_im (v) : (t.requestPosition v).im = t.im := by
  unfold Station.requestPosition; repeat' split
  · rfl
  · rw [modNode_im]; rfl
  · rfl

/-- A change of a valve record leaves the slots. -/
theorem modValve_im (v f) : (t.modValve v f).im = t.im := by unfold Station.modValve; split <;> rfl

/-- A health write leaves the slots. -/
theorem setHealth_im (v f) : (t.setHealth v f).im = t.im := by unfold Station.setHealth; rw [refreshClass_im, modValve_im]

/-- An end that hands over neither a failure nor a completion. -/
def Plain (e : StrokeEnd) : Prop := e = .dropped ∨ ∃ c, e = .taken c

/-- The shared end of a stroke. -/
theorem endCore_spares {k : Nat} (h : Spares s t k) (hk : s.Unwatched k) (r : Stroke) (e : StrokeEnd) (he : Plain e) :
    Spares s (t.endCore r e false) k := by
  have h1 : Spares s ((t.dropStroke r.valve).lowerCount r.zone) k :=
    h.of_im ((Frame.lowerCount (b := 3) _ (Frame.dropStroke _ (Frame.refl t))).moves (by omega)) (lowerCount_im _)
  have h2 : Spares s (((t.dropStroke r.valve).lowerCount r.zone).modVs r.valve fun d => { d with owner := none }) k :=
    h1.of_im ((Frame.modVs (b := 3) r.valve (fun d => { d with owner := none }) (Frame.refl _) (fun _ => rfl)).moves (by omega)) rfl
  obtain ⟨u, hu⟩ : ∃ u, u = ((t.dropStroke r.valve).lowerCount r.zone).modVs r.valve fun d => { d with owner := none } := ⟨_, rfl⟩
  rw [← hu] at h2
  have h3 : ∀ w, Spares s w k → Spares s (w.endPosition r e false) k := by
    intro w hw
    have ne : e ≠ .completed := by rcases he with rfl | ⟨c, rfl⟩ <;> simp
    have rq : ∀ w, Spares s w k → Spares s (w.requestPosition r.valve) k := fun w hw =>
      hw.of_im ((Frame.requestPosition (b := 3) _ (Frame.refl w)).moves (by omega)) (requestPosition_im _)
    simp only [endPosition, Bool.false_eq_true, if_false, ne]
    refine rq _ ?_
    repeat' split
    all_goals exact reposition_spares hw hk _ _ (fun _ => rfl)
  have h4 : ∀ n, Spares s ((u.dropQueued n).modNode n fun x => { x with detailDue := if r.accepted.isSome then none else x.detailDue }) k := fun n =>
    h2.of_im ((Frame.modNode (b := 3) n (fun x => { x with detailDue := if r.accepted.isSome then none else x.detailDue }) (Frame.dropQueued n (Frame.refl u)) (fun _ => rfl) (fun _ => rfl)).moves (by omega)) (by rw [modNode_im, dropQueued_im])
  simp only [endCore]
  rw [← hu]
  rcases he with rfl | ⟨c, rfl⟩
  all_goals
    dsimp only
    split
    · exact h3 _ (h4 _)
    · exact h3 _ h2

/-- A failed MOVE leaves the slots. -/
theorem moveFailed_im (v c) : (t.moveFailed v c).im = t.im := rfl

/-- The end of an exercise leaves the slots. -/
theorem finishExercise_im (v) : (t.finishExercise v).im = t.im := by
  unfold Station.finishExercise; repeat' split
  · rfl
  · simp only [post_im, dropReturn_im, dropExercise_im]; repeat' split
    all_goals simp only [setHealth_im, modValve_im]

/-- The end of an exercise with a result leaves the slots. -/
theorem finishWith_im (v c) : (t.finishWith v c).im = t.im := by unfold Station.finishWith; rw [finishExercise_im]; rfl

/-- The return of an exercise leaves the slots. -/
theorem beginReturn_im (v c) : (t.beginReturn v c).im = t.im := by
  unfold Station.beginReturn; dsimp only; repeat' split
  all_goals first | (rw [finishWith_im]; rfl) | rfl

/-- Handing a plain end to work other than a close leaves the slots. -/
theorem handOther_im (r e) (he : Plain e) : (t.handOther r e).im = t.im := by
  unfold Station.handOther
  split
  · rfl
  · unfold handReopen; rcases he with rfl | ⟨c, rfl⟩ <;> dsimp only <;> (repeat' split) <;> rfl
  · unfold handMove; rcases he with rfl | ⟨c, rfl⟩ <;> dsimp only <;> (repeat' split) <;> rfl
  · unfold handExercise; split
    · rfl
    · split
      · unfold handOutward; rcases he with rfl | ⟨c, rfl⟩
        · exact finishWith_im _ _
        · dsimp only; split
          · rw [beginReturn_im]; rfl
          · exact finishWith_im _ _
      · unfold handReturn; rcases he with rfl | ⟨c, rfl⟩ <;> exact finishWith_im _ _

/-- Handing a plain end to work other than a close. -/
theorem handOther_spares {k : Nat} (h : Spares s t k) (r e) (he : Plain e) : Spares s (t.handOther r e) k :=
  h.of_im ((Frame.handOther (b := 3) r e (Frame.refl t)).moves (by omega)) (handOther_im r e he)

/-- A plain end of a stroke other than a close. -/
theorem endOther_spares {k : Nat} (h : Spares s t k) (hk : s.Unwatched k) (r e) (he : Plain e) : Spares s (t.endOther r e) k :=
  handOther_spares (endCore_spares h hk r e he) r e he

/-- A plain end of any stroke. -/
theorem endStroke_spares {k : Nat} (h : Spares s t k) (hk : s.Unwatched k) (r : Stroke) (e) (he : Plain e) : Spares s (endStroke false t r e) k := by
  have h1 := endCore_spares h hk r e he
  simp only [endStroke]
  split
  · unfold handClose; rcases he with rfl | ⟨c, rfl⟩ <;> dsimp only <;> (repeat' split) <;> exact h1
  · exact handOther_spares h1 r e he

/-- Deciding a halt, whatever finishes a stroke that was never called. -/
theorem decideHaltWith_spares {k : Nat} (h : Spares s t k) (v e) (finish) (hf : ∀ r, Spares s (finish t r e) k) : Spares s (decideHaltWith finish t v e) k := by
  have ms : ∀ w f, Spares s w k → Spares s (w.modStroke v f) k := fun w f hw => hw.of_im ((Frame.modStroke (b := 3) v f (Frame.refl w)).moves (by omega)) rfl
  simp only [decideHaltWith]
  split
  · exact h
  · split
    · unfold joinEnd; split
      · exact ms _ _ h
      · exact h
    · split
      · split
        · exact ms _ _ h
        · exact hf _
      · refine (ms _ _ h).of_im ((Frame.queueHalt (b := 3) v (Frame.refl _)).moves (by omega)) ?_
        unfold queueHalt; split
        · rw [modLine_im]
        · rfl
      · exact h

/-- Deciding a halt. -/
theorem decideHalt_spares {k : Nat} (h : Spares s t k) (hk : s.Unwatched k) (v e) (he : Plain e) : Spares s (t.decideHalt v e) k :=
  decideHaltWith_spares h v e _ fun r => endStroke_spares h hk r e he

/-- Halting work other than a close. -/
theorem haltOther_spares {k : Nat} (h : Spares s t k) (hk : s.Unwatched k) (v e) (he : Plain e) : Spares s (t.haltOther v e) k :=
  decideHaltWith_spares h v e _ fun r => endOther_spares h hk r e he

/-- What each turn spares, the whole spares. -/
theorem Spares.foldl {α} {k : Nat} (xs : List α) (f : Station → α → Station) (hf : ∀ u a, Spares s u k → Spares s (f u a) k) (h : Spares s t k) : Spares s (xs.foldl f t) k := by
  induction xs generalizing t with
  | nil => exact h
  | cons x xs ih => exact ih (hf _ _ h)

/-- Abandoning the exercises of a zone. -/
theorem abandonExercises_spares {k : Nat} (h : Spares s t k) (hk : s.Unwatched k) (z) : Spares s (t.abandonExercises z) k := by
  refine Spares.foldl _ _ (fun u a hu => ?_) h
  split
  · exact haltOther_spares hu hk _ _ (Or.inr ⟨_, rfl⟩)
  · exact hu

/-- Stopping the entries of another slot (R101, R103). -/
theorem stopEntries_spares {k j : Nat} (h : Spares s t k) (hk : s.Unwatched k) (ro : Bool) (hj : j ≠ k) : Spares s (t.stopEntries j ro) k := by
  simp only [stopEntries]
  refine Spares.modSlot (Spares.foldl _ _ (fun u a hu => ?_) (Spares.foldl _ _ (fun u a hu => ?_) h)) hj _
  · split
    · exact Spares.post hu _
    · exact hu
  · refine decideHalt_spares ?_ hk _ _ (Or.inl rfl)
    exact hu.of_im ((Frame.modStroke (b := 3) _ _ (Frame.refl _)).moves (by omega)) rfl

end Sys2Proof.Machine.Station
end

