-- ==== Sys2Proof/Laws/Position.lean ====
section
/-! SUPPORT. A valve's position and its class: what taking a new position and deriving a class set (R17, R25, R26). -/

namespace Sys2Proof.Machine.Station

/-- Only the incident side differs: slots, planner and posted notices. -/
def InnerEq (s t : Station) : Prop := t = { s with im := t.im, ip := t.ip, outbox := t.outbox }

/-- The relation composes. -/
theorem InnerEq.trans {s t u : Station} (h : InnerEq s t) (g : InnerEq t u) : InnerEq s u := by
  unfold InnerEq at *; rw [g, h]

/-- A trigger of the planner. -/
theorem InnerEq.trigger (y : Station) (j : Nat) : InnerEq y (y.trigger j) := by
  unfold InnerEq Station.trigger enqueue startNext markStale modFlight; dsimp only; repeat' split
  all_goals rfl

variable {s t : Station}

/-- Nothing at all. -/
@[simp] theorem InnerEq.refl : InnerEq s s := rfl

/-- A trigger after it. -/
@[simp] theorem InnerEq.then_trigger (h : InnerEq s t) (j : Nat) : InnerEq s (t.trigger j) := h.trans (InnerEq.trigger _ _)

/-- A change of a slot after it. -/
@[simp] theorem InnerEq.modSlot (h : InnerEq s t) (j : Nat) (f) : InnerEq s (t.modSlot j f) := h.trans rfl

/-- A notice after it. -/
@[simp] theorem InnerEq.post (h : InnerEq s t) (n) : InnerEq s (t.post n) := h.trans rfl

/-- A withdrawal after it. -/
@[simp] theorem InnerEq.withdraw (h : InnerEq s t) (n) : InnerEq s (t.withdraw n) := h.trans rfl

/-- A recorded failure. -/
theorem recordFailure_inner (u : Station) (k v c) : InnerEq u (u.recordFailure k v c) := by
  simp only [recordFailure, failEntry, modWork, tooManyFailures, unisolable]
  repeat' split
  all_goals simp (maxDischargeDepth := 99)

/-- The watch of R93. -/
theorem watchLeft_inner (s : Station) (v : Nat) : InnerEq s (s.watchLeft v) := by
  unfold watchLeft
  generalize slotNumbers = xs
  induction xs generalizing s with
  | nil => rfl
  | cons x xs ih =>
    rw [List.foldl_cons]
    refine InnerEq.trans ?_ (ih _)
    split
    · exact recordFailure_inner _ _ _ _
    · rfl

/-- The watch of R93 leaves valves, table and lines. -/
theorem watchLeft_valves (s : Station) (v : Nat) : (s.watchLeft v).vs = s.vs ∧ (s.watchLeft v).nt = s.nt ∧ (s.watchLeft v).lineA = s.lineA ∧ (s.watchLeft v).lineB = s.lineB := by
  have := watchLeft_inner s v
  unfold InnerEq at this
  rw [this]; exact ⟨rfl, rfl, rfl, rfl⟩

/-- The class is derived from the table, the Valve State and the lines alone (R25). -/
theorem usability_eq {s t : Station} (v : Nat) (h1 : t.nt = s.nt) (h2 : t.vs = s.vs) (h3 : t.lineA = s.lineA) (h4 : t.lineB = s.lineB) : usability? t v = usability? s v := by
  have a : t.valve? v = s.valve? v := by unfold Station.valve?; rw [h1]
  have b : t.vsOf v = s.vsOf v := by unfold Station.vsOf; rw [h2]
  have c : ∀ n, t.node n = s.node n := by
    intro n; unfold Station.node; obtain ⟨l, x⟩ := n; cases l
    · show t.lineA.nodes.readD _ _ = s.lineA.nodes.readD _ _; rw [h3]
    · show t.lineB.nodes.readD _ _ = s.lineB.nodes.readD _ _; rw [h4]
  unfold usability?; rw [a, b]; simp only [c]

/-- The kept class is no input of the derivation. -/
theorem usability_kept (s : Station) (hc : s.canonical = true) (v : Nat) (c) : usability? (s.modVs v fun d => { d with kept := c }) v = usability? s v := by
  have b : (s.modVs v fun d => { d with kept := c }).vsOf v = { s.vsOf v with kept := c } := (vsOf_modVs hc v v _).trans (if_pos rfl)
  have a : (s.modVs v fun d => { d with kept := c }).valve? v = s.valve? v := rfl
  have e : ∀ n, (s.modVs v fun d => { d with kept := c }).node n = s.node n := fun n => rfl
  unfold usability?; rw [a, b]; simp only [e]

/-- `refreshClass` keeps the class now derived. -/
theorem refreshClass_spec (s : Station) (hc : s.canonical = true) (v : Nat) (c : Usability) (hu : usability? s v = some c) :
    (s.refreshClass v).vsOf v = { s.vsOf v with kept := some c } ∧ usability? (s.refreshClass v) v = some c ∧ (s.refreshClass v).nt = s.nt := by
  unfold refreshClass; rw [hu]; dsimp only
  split
  · rename_i g; refine ⟨?_, hu, rfl⟩
    rw [← g]
  · refine ⟨?_, ?_, rfl⟩
    · exact (vsOf_modVs hc v v fun d => { d with kept := some c }).trans (if_pos rfl)
    · have := usability_eq (s := s.modVs v fun d => { d with kept := some c }) (t := (s.modVs v fun d => { d with kept := some c }).markStale) v rfl rfl rfl rfl
      rw [this, usability_kept s hc, hu]

/-- A present valve has a class. -/
theorem usability_some (s : Station) (v : Nat) (r : Valve) (h : s.valve? v = some r) : ∃ c, usability? s v = some c := by
  unfold usability?; rw [h]; dsimp only
  repeat' split
  all_goals exact ⟨_, rfl⟩

/-- `reposition` sets the position and keeps the class then derived. -/
theorem reposition_spec (s : Station) (hc : s.canonical = true) (v : Nat) (r : Valve) (hr : s.valve? v = some r) (f : VsRec → VsRec) :
    ∃ c, (s.reposition v f).vsOf v = { f (s.vsOf v) with kept := some c } ∧ usability? (s.reposition v f) v = some c := by
  have c1 : (s.modVs v f).canonical = true := canonical_modVs _ _ hc
  have e1 : (s.modVs v f).vsOf v = f (s.vsOf v) := (vsOf_modVs hc v v f).trans (if_pos rfl)
  have hr1 : (s.modVs v f).valve? v = some r := hr
  unfold reposition
  dsimp only
  generalize s.modVs v f = s1 at *
  have key : ∀ s2 : Station, s2.canonical = true → s2.vsOf v = s1.vsOf v → s2.valve? v = some r → ∀ (b : Prop) [Decidable b], ∃ c, (if b then (s2.refreshClass v).watchLeft v else s2.refreshClass v).vsOf v = { f (s.vsOf v) with kept := some c } ∧ usability? (if b then (s2.refreshClass v).watchLeft v else s2.refreshClass v) v = some c := by
    intro s2 c2 v2 r2 b _
    obtain ⟨c, hcl⟩ := usability_some s2 v r r2
    have h3 := refreshClass_spec s2 c2 v c hcl
    refine ⟨c, ?_⟩
    have h3' : (s2.refreshClass v).vsOf v = { f (s.vsOf v) with kept := some c } ∧ usability? (s2.refreshClass v) v = some c := by
      refine ⟨h3.1.trans ?_, h3.2.1⟩
      rw [v2, e1]
    generalize s2.refreshClass v = s3 at *
    split
    · have w := watchLeft_valves s3 v
      exact ⟨by unfold Station.vsOf; rw [w.1]; exact h3'.1, by rw [usability_eq v w.2.1 w.1 w.2.2.1 w.2.2.2]; exact h3'.2⟩
    · exact h3'
  by_cases hp : (s.vsOf v).position.passes = (s1.vsOf v).position.passes
  · rw [if_pos hp]; exact key s1 c1 rfl hr1 ((s.vsOf v).position = .closed ∧ (s1.vsOf v).position ≠ .closed)
  · rw [if_neg hp]; exact key s1.markStale c1 rfl hr1 ((s.vsOf v).position = .closed ∧ (s1.vsOf v).position ≠ .closed)

end Sys2Proof.Machine.Station
end

