-- ==== Sys2Proof/Laws/Region.lean ====
section
/-! SUPPORT. What a traversal of the planner finds (R50, R51, R58): the segments that its starting ones reach across the
valves that carry, ascending and once each, unless a region stops past 48. -/

namespace Sys2Proof.Machine

theorem mem_insertNumber (n m : Nat) (ns : List Nat) : n ∈ insertNumber m ns ↔ n = m ∨ n ∈ ns := by
  induction ns with
  | nil => simp [insertNumber]
  | cons k ns ih =>
    unfold insertNumber
    split
    · subst_vars; simp
    · split
      · simp
      · simp only [List.mem_cons, ih]; tauto

theorem rising_insertNumber (m : Nat) (ns : List Nat) (h : ns.Pairwise (· < ·)) :
    (insertNumber m ns).Pairwise (· < ·) := by
  induction ns with
  | nil => simp [insertNumber]
  | cons k ns ih =>
    obtain ⟨h1, h2⟩ := List.pairwise_cons.1 h
    unfold insertNumber
    split
    · exact h
    · split
      · rename_i h3
        exact List.pairwise_cons.2 ⟨fun a ha => by
          rcases List.mem_cons.1 ha with rfl | ha
          · exact h3
          · exact Nat.lt_trans h3 (h1 a ha), h⟩
      · rename_i h3 h4
        refine List.pairwise_cons.2 ⟨fun a ha => ?_, ih h2⟩
        rcases (mem_insertNumber a m ns).1 ha with rfl | ha
        · omega
        · exact h1 a ha

theorem length_insertNumber (m : Nat) (ns : List Nat) (h : m ∉ ns) : (insertNumber m ns).length = ns.length + 1 := by
  induction ns with
  | nil => rfl
  | cons k ns ih =>
    rw [List.mem_cons, not_or] at h
    unfold insertNumber
    rw [if_neg h.1]
    split
    · rfl
    · simp [ih h.2]

theorem ascending_spec (ns : List Nat) : Listed (· ∈ ns) (ascending ns) := by
  have key : ∀ (xs acc : List Nat), acc.Pairwise (· < ·) →
      (xs.foldl (fun a n => insertNumber n a) acc).Pairwise (· < ·) ∧
      ∀ n, n ∈ xs.foldl (fun a n => insertNumber n a) acc ↔ n ∈ acc ∨ n ∈ xs := by
    intro xs
    induction xs with
    | nil => intro acc h; exact ⟨h, by simp⟩
    | cons x xs ih =>
      intro acc h
      obtain ⟨h1, h2⟩ := ih (insertNumber x acc) (rising_insertNumber x acc h)
      refine ⟨h1, fun n => ?_⟩
      rw [List.foldl_cons, h2 n, mem_insertNumber, List.mem_cons]
      tauto
  obtain ⟨h1, h2⟩ := key ns [] List.Pairwise.nil
  exact ⟨h1, fun n => (h2 n).trans (by simp)⟩

namespace Station

/-- The numbers reached stay within a set that holds the starting ones and is closed under the valves that carry. -/
theorem Reaches.within {s : Station} {carries starts P : Nat → Prop} (h0 : ∀ n, starts n → P n)
    (h1 : ∀ v r, s.valve? v = some r → carries v → (P r.sideA ↔ P r.sideB)) :
    ∀ n, s.Reaches carries starts n → P n := by
  intro n h
  induction h with
  | start h => exact h0 _ h
  | across _ hv hc hs ih =>
    have := h1 _ _ hv hc
    rcases hs with ⟨rfl, rfl⟩ | ⟨rfl, rfl⟩
    · exact this.1 ih
    · exact this.2 ih

/-- Where no present valve carries, the numbers reached are the starting ones. -/
theorem listed_starts {s : Station} {carries : Nat → Prop} {ns : List Nat} (hn : ns.Pairwise (· < ·))
    (h : ∀ v r, s.valve? v = some r → ¬ carries v) : Listed (s.Reaches carries (· ∈ ns)) ns :=
  ⟨hn, fun _ => ⟨.start, Reaches.within (fun _ h => h) (fun v r hv hc => absurd hc (h v r hv)) _⟩⟩

/-- What one valve does to a set (R50): the set stands, or the one side that is missing joins. -/
theorem spread_spec (r : Valve) (set : List Nat) :
    (spread r set = set ∧ (r.sideA ∈ set ↔ r.sideB ∈ set)) ∨
    (spread r set = insertNumber r.sideB set ∧ r.sideA ∈ set ∧ r.sideB ∉ set) ∨
    (spread r set = insertNumber r.sideA set ∧ r.sideB ∈ set ∧ r.sideA ∉ set) := by
  unfold spread
  by_cases ha : r.sideA ∈ set <;> by_cases hb : r.sideB ∈ set <;> simp [ha, hb]

/-- What one traversal step does (R50): the set only grows, by segments reached from it, stays ascending, and where it
does not grow it is closed under every valve that carries. -/
theorem spreadOnce_spec (s : Station) (carries : Nat → Bool) (starts : Nat → Prop) (vs : Table Valve)
    (hvs : ∀ p ∈ vs, s.valve? p.1 = some p.2) (set : List Nat) (h : set.Pairwise (· < ·))
    (hr : ∀ n ∈ set, s.Reaches (fun v => carries v = true) starts n) :
    (spreadOnce carries vs set).Pairwise (· < ·) ∧
    (∀ n ∈ spreadOnce carries vs set, s.Reaches (fun v => carries v = true) starts n) ∧
    (∀ n ∈ set, n ∈ spreadOnce carries vs set) ∧ set.length ≤ (spreadOnce carries vs set).length ∧
    ((spreadOnce carries vs set).length = set.length → spreadOnce carries vs set = set ∧
      ∀ p ∈ vs, carries p.1 = true → (p.2.sideA ∈ set ↔ p.2.sideB ∈ set)) := by
  induction vs generalizing set with
  | nil => exact ⟨h, hr, fun _ hn => hn, Nat.le_refl _, fun _ => ⟨rfl, by simp⟩⟩
  | cons p vs ih =>
    have hvs' : ∀ q ∈ vs, s.valve? q.1 = some q.2 := fun q hq => hvs q (List.mem_cons_of_mem _ hq)
    have e : spreadOnce carries (p :: vs) set =
        spreadOnce carries vs (if carries p.1 then spread p.2 set else set) := rfl
    rw [e]
    by_cases hc : carries p.1 = true
    · rw [if_pos hc]
      have hp := hvs p List.mem_cons_self
      have grown (a b : Nat) (hs : (p.2.sideA = a ∧ p.2.sideB = b) ∨ (p.2.sideB = a ∧ p.2.sideA = b)) (ha : a ∈ set)
          (hb : b ∉ set) :
          (spreadOnce carries vs (insertNumber b set)).Pairwise (· < ·) ∧
          (∀ n ∈ spreadOnce carries vs (insertNumber b set), s.Reaches (fun v => carries v = true) starts n) ∧
          (∀ n ∈ set, n ∈ spreadOnce carries vs (insertNumber b set)) ∧
          set.length ≤ (spreadOnce carries vs (insertNumber b set)).length ∧
          ((spreadOnce carries vs (insertNumber b set)).length = set.length →
            spreadOnce carries vs (insertNumber b set) = set ∧
            ∀ q ∈ p :: vs, carries q.1 = true → (q.2.sideA ∈ set ↔ q.2.sideB ∈ set)) := by
        obtain ⟨i1, i2, i3, i4, i5⟩ := ih hvs' (insertNumber b set) (rising_insertNumber b set h) (fun n hn => by
          rcases (mem_insertNumber n b set).1 hn with rfl | hn
          · exact .across (hr a ha) hp hc hs
          · exact hr n hn)
        have hl := length_insertNumber b set hb
        exact ⟨i1, i2, fun n hn => i3 n ((mem_insertNumber n b set).2 (.inr hn)), by omega, fun hh => by omega⟩
      rcases spread_spec p.2 set with ⟨e', hs⟩ | ⟨e', ha, hb⟩ | ⟨e', hb, ha⟩
      · rw [e']
        obtain ⟨i1, i2, i3, i4, i5⟩ := ih hvs' set h hr
        refine ⟨i1, i2, i3, i4, fun hh => ⟨(i5 hh).1, fun q hq hqc => ?_⟩⟩
        rcases List.mem_cons.1 hq with rfl | hq
        · exact hs
        · exact (i5 hh).2 q hq hqc
      · rw [e']
        exact grown _ _ (.inl ⟨rfl, rfl⟩) ha hb
      · rw [e']
        exact grown _ _ (.inr ⟨rfl, rfl⟩) hb ha
    · rw [if_neg hc]
      obtain ⟨i1, i2, i3, i4, i5⟩ := ih hvs' set h hr
      refine ⟨i1, i2, i3, i4, fun hh => ⟨(i5 hh).1, fun q hq hqc => ?_⟩⟩
      rcases List.mem_cons.1 hq with rfl | hq
      · exact absurd hqc hc
      · exact (i5 hh).2 q hq hqc

/-- How many valves do not have both sides in a set: what is left to a traversal. -/
def outside (vs : Table Valve) (set : List Nat) : Nat := vs.countP fun p => decide (¬ (p.2.sideA ∈ set ∧ p.2.sideB ∈ set))

theorem outside_insert (vs : Table Valve) (p : Nat × Valve) (hp : p ∈ vs) (a b : Nat) (set : List Nat) (ha : a ∈ set)
    (hb : b ∉ set) (hs : (p.2.sideA = a ∧ p.2.sideB = b) ∨ (p.2.sideB = a ∧ p.2.sideA = b)) :
    outside vs (insertNumber b set) + 1 ≤ outside vs set := by
  have mono : ∀ ws : Table Valve, outside ws (insertNumber b set) ≤ outside ws set := fun ws =>
    List.countP_mono_left fun q _ hq => by
      simp only [decide_eq_true_eq, mem_insertNumber] at hq ⊢; tauto
  obtain ⟨u, w, rfl⟩ := List.append_of_mem hp
  have h1 := mono u
  have h2 := mono w
  have e (x : List Nat) : outside (u ++ p :: w) x =
      outside u x + (outside w x + if p.2.sideA ∈ x ∧ p.2.sideB ∈ x then 0 else 1) := by
    unfold outside
    rw [List.countP_append, List.countP_cons]
    by_cases hx : p.2.sideA ∈ x ∧ p.2.sideB ∈ x
    · rw [if_pos hx, if_neg (by rw [decide_eq_true_eq]; exact not_not.2 hx)]
    · rw [if_neg hx, if_pos (by rw [decide_eq_true_eq]; exact hx)]
  have hn : p.2.sideA ∈ insertNumber b set ∧ p.2.sideB ∈ insertNumber b set := by
    simp only [mem_insertNumber]
    rcases hs with ⟨rfl, rfl⟩ | ⟨rfl, rfl⟩ <;> tauto
  have ho : ¬ (p.2.sideA ∈ set ∧ p.2.sideB ∈ set) := by
    rcases hs with ⟨rfl, rfl⟩ | ⟨rfl, rfl⟩ <;> tauto
  rw [e, e, if_pos hn, if_neg ho]
  omega

/-- A traversal step that adds segments leaves as many fewer valves outside, at least. -/
theorem spreadOnce_outside (carries : Nat → Bool) (all vs : Table Valve) (h : ∀ p ∈ vs, p ∈ all) (set : List Nat) :
    outside all (spreadOnce carries vs set) + (spreadOnce carries vs set).length ≤ outside all set + set.length := by
  induction vs generalizing set with
  | nil => exact Nat.le_refl _
  | cons p vs ih =>
    have hvs : ∀ q ∈ vs, q ∈ all := fun q hq => h q (List.mem_cons_of_mem _ hq)
    have hp := h p List.mem_cons_self
    have e : spreadOnce carries (p :: vs) set =
        spreadOnce carries vs (if carries p.1 then spread p.2 set else set) := rfl
    rw [e]
    refine Nat.le_trans (ih hvs _) ?_
    split
    · rcases spread_spec p.2 set with ⟨e', -⟩ | ⟨e', ha, hb⟩ | ⟨e', hb, ha⟩
      · rw [e']
      · rw [e', length_insertNumber _ _ hb]
        have := outside_insert all p hp _ _ set ha hb (.inl ⟨rfl, rfl⟩)
        omega
      · rw [e', length_insertNumber _ _ ha]
        have := outside_insert all p hp _ _ set hb ha (.inr ⟨rfl, rfl⟩)
        omega
    · exact Nat.le_refl _

/-- What a traversal gives, `left` bounding the steps that remain: an ascending set of segments reached, with the
starting ones in it, that is full or closed under the valves that carry. -/
theorem spreadAll_spec (s : Station) (hw : Table.wf s.nt.valves = true) (carries : Nat → Bool) (starts : Nat → Prop)
    (full : List Nat → Bool) (left : List Nat → Nat)
    (hl : ∀ set, (spreadOnce carries s.nt.valves set).length ≠ set.length → set.length ≤ (spreadOnce carries s.nt.valves set).length →
      full (spreadOnce carries s.nt.valves set) = false → left (spreadOnce carries s.nt.valves set) < left set)
    (n : Nat) (set : List Nat) (hn : left set < n) (h : set.Pairwise (· < ·))
    (hr : ∀ n ∈ set, s.Reaches (fun v => carries v = true) starts n) :
    let x := spreadAll carries s.nt.valves full n set
    x.Pairwise (· < ·) ∧ (∀ n ∈ x, s.Reaches (fun v => carries v = true) starts n) ∧ (∀ n ∈ set, n ∈ x) ∧
    (full x = true ∨ ∀ v r, s.valve? v = some r → carries v = true → (r.sideA ∈ x ↔ r.sideB ∈ x)) := by
  induction n generalizing set with
  | zero => omega
  | succ n ih =>
    obtain ⟨i1, i2, i3, i4, i5⟩ := spreadOnce_spec s carries starts s.nt.valves
      (fun p hp => (Table.find_iff_mem _ hw p.1 p.2).2 hp) set h hr
    simp only [spreadAll]
    split
    · rename_i hc
      refine ⟨i1, i2, i3, ?_⟩
      by_cases hf : full (spreadOnce carries s.nt.valves set) = true
      · exact .inl hf
      · obtain ⟨j1, j2⟩ := i5 (hc.resolve_right hf)
        exact .inr fun v r hv hc => by
          rw [j1]; exact j2 (v, r) ((Table.find_iff_mem _ hw v r).1 hv) hc
    · rename_i hc
      rw [not_or] at hc
      obtain ⟨j1, j2, j3, j4⟩ := ih _ (by
        have := hl set hc.1 i4 (by simpa using hc.2)
        omega) i1 i2
      exact ⟨j1, j2, fun n hn => j3 n (i3 n hn), j4⟩

/-- A closed ascending set of segments reached, with the starting ones in it, is what the traversal lists. -/
theorem listed_of_closed {s : Station} {carries : Nat → Bool} {starts : Nat → Prop} {x : List Nat}
    (h1 : x.Pairwise (· < ·)) (h2 : ∀ n ∈ x, s.Reaches (fun v => carries v = true) starts n) (h3 : ∀ n, starts n → n ∈ x)
    (h4 : ∀ v r, s.valve? v = some r → carries v = true → (r.sideA ∈ x ↔ r.sideB ∈ x)) :
    Listed (s.Reaches (fun v => carries v = true) starts) x :=
  ⟨h1, fun n => ⟨h2 n, Reaches.within h3 h4 n⟩⟩

/-- The region of a seed list (R50, R51): the segments reached across PASSABLE valves, or more than 48 of them. -/
theorem regionOf_spec (s : Station) (hw : Table.wf s.nt.valves = true) (seed : List Nat) :
    let reached := s.Reaches (fun v => usability? s v = some .passable) (· ∈ seed)
    let x := s.regionOf seed
    x.Pairwise (· < ·) ∧ (∀ n ∈ x, reached n) ∧ (48 < x.length ∨ Listed reached x) := by
  obtain ⟨a1, a2⟩ := ascending_spec seed
  have ec : (fun v => usability? s v = some .passable) =
      fun v => (fun v => decide (usability? s v = some .passable)) v = true := by
    funext v; simp
  simp only [ec]
  by_cases h0 : ascending seed = []
  · have e : s.regionOf seed = [] := by
      have once (c : Nat → Bool) (vs : Table Valve) : spreadOnce c vs [] = [] := by
        induction vs with
        | nil => rfl
        | cons p vs ih =>
          have hs : spread p.2 [] = [] := by simp [spread]
          rw [show spreadOnce c (p :: vs) [] = spreadOnce c vs (if c p.1 then spread p.2 [] else []) from rfl, hs,
            ite_self, ih]
      simp [regionOf, h0, spreadAll, once]
    rw [e]
    exact ⟨.nil, fun _ hn => absurd hn List.not_mem_nil, .inr (listed_of_closed .nil
      (fun _ hn => absurd hn List.not_mem_nil) (fun n hn => by rw [← h0]; exact (a2 n).2 hn) (fun _ _ _ _ =>
        ⟨fun hn => absurd hn List.not_mem_nil, fun hn => absurd hn List.not_mem_nil⟩))⟩
  · have hp : 0 < (ascending seed).length := List.length_pos_iff.2 h0
    obtain ⟨j1, j2, j3, j4⟩ := spreadAll_spec s hw (fun v => decide (usability? s v = some .passable)) (· ∈ seed)
      (fun set => decide (Config.regionCap < set.length)) (fun set => 49 - set.length)
      (fun set hne hle hf => by
        have hf : ¬ 48 < _ := of_decide_eq_false hf
        omega) (Config.regionCap + 1) (ascending seed)
      (by simp only [Config.regionCap]; omega) a1 (fun n hn => .start ((a2 n).1 hn))
    refine ⟨j1, j2, ?_⟩
    rcases j4 with hf | hc
    · exact .inl (of_decide_eq_true hf)
    · exact .inr (listed_of_closed j1 j2 (fun n hn => j3 n ((a2 n).2 hn)) hc)

/-- A supply pass (R58, R59) lists what the supplied segments reach across valves that pass and are not of `closed`. -/
theorem supplyPass_spec (s : Station) (hw : Table.wf s.nt.valves = true) (hs : s.supplyStarts.Pairwise (· < ·))
    (closed : List Nat) :
    Listed (s.Reaches (fun v => ((s.vsOf v).position.passes && !closed.contains v) = true) (· ∈ s.supplyStarts))
      (s.supplyPass closed) := by
  obtain ⟨j1, j2, j3, j4⟩ := spreadAll_spec s hw (fun v => (s.vsOf v).position.passes && !closed.contains v)
    (· ∈ s.supplyStarts) (fun _ => false) (outside s.nt.valves)
    (fun set hne hle _ => by
      have := spreadOnce_outside (fun v => (s.vsOf v).position.passes && !closed.contains v) s.nt.valves s.nt.valves
        (fun _ hp => hp) set
      omega) (s.nt.valves.length + 1) s.supplyStarts (Nat.lt_succ_of_le List.countP_le_length) hs (fun n hn => .start hn)
  exact listed_of_closed j1 j2 j3 (j4.resolve_left (by simp))

end Station
end Sys2Proof.Machine
end

