-- ==== Sys2Proof/Tests/Slice0.lean ====
section
/-! SUPPORT. The model's own tests: terms that cannot arrive, one step of several commands on small states, and for
every statement with hypotheses a state and operands that meet them. -/

namespace Sys2Proof.Tests

open Sys2Proof Sys2Proof.Machine

set_option maxRecDepth 20000

/-! Small states. -/

/-- The part with a free link and this station. -/
def host (x : Station) : State := { pending := [], nrstLow := false, ratePin := false, rateSamples := 0, sl := {}, st := x }

/-- The state a command answers; the machine after reset where it answers none. -/
def after : Host.Outcome State Fault Refusal → State
  | .next s => s
  | _ => State.reset

/-- The status of the last reply. -/
def status? (s : State) : Option Status := s.sl.lastReply.map (·.status)

/-- A segment of zone 0 with 10 connections. -/
def segment : Segment := { zone := 0, source := false, connections := 10, priority := false, name := none }

/-- A crew valve between segments 0 and 1. -/
def crew : Valve :=
  { sideA := 0, sideB := 1, zone := 0, normal := .normallyOpen, kind := .crew, node := none, length := 500
    waveSpeed := 1000, velocity := 1500, tmin := 100, tmax := 1200, stall := 110, health := .sound, measured := none
    exercised := none }

/-- An actuated valve between segments 1 and 511 at this place. -/
def actuated (n : Node) : Valve := { crew with sideA := 1, sideB := 511, kind := .actuated, node := some n }

/-- Three segments, three valves and two sensors, with numbers and addresses at the ends of their ranges. -/
def net : Network :=
  { segments := [(0, segment), (1, segment), (2, segment), (511, { segment with zone := 15, source := true })]
    sourceCount := 1
    valves := [(0, crew), (1, actuated ⟨.a, 1⟩), (767, actuated ⟨.b, 60⟩)]
    sensors := [(0, ⟨⟨.a, 2⟩, 0⟩), (47, ⟨⟨.a, 60⟩, 1⟩)]
    nodeMap := [(1, .valve 1), (2, .sensor 0), (60, .sensor 47), (120, .valve 767)] }

/-- The nodes of line A. -/
def nodesA : Table NodeEntry :=
  [(1, { kind := .actuator, presence := .present }), (2, { kind := .sensor, presence := .present }), (60, { kind := .sensor })]

/-- A station in READY with that table, its valves open. -/
def ready : Station :=
  { ss := { station := .ready, settling := false }
    nt := net
    vs := [(0, { position := .opened, percent := some 100 }), (1, { position := .opened, percent := some 100 }),
      (767, { position := .opened, percent := some 100 })]
    lineA := { nodes := nodesA, started := true }
    lineB := { nodes := [(60, { kind := .actuator, presence := .present })], started := true } }

/-- The same station with this record in slot 3. -/
def withSlot (r : Slot) : Station := { ready with im := { slots := [(3, r)], freeList := [0, 1, 2], owner := [(0, 3)] } }

/-- The same station with valve 1 in this stroke. -/
def withStroke (r : Stroke) : Station := { ready with md := { strokes := [r] } }

/-- A stroke of valve 1 in SENDING. -/
def stroke : Stroke := { valve := 1, zone := 0, owner := .move, target := 0, time := 200, before := (.opened, some 100) }

/-- A store at this step. -/
def storing (w : StoreStep) : Store :=
  { image := { segments := [], valves := [], sensors := [], zones := [], timing := {} }, step := w, blank := true }

/-- The image of that table. -/
def image : Image := { segments := net.segments, valves := net.valves, sensors := net.sensors, zones := [], timing := {} }

/-- Line A of the ready station changed. -/
def lineOn (f : FieldLine → FieldLine) : Station := ready.modLine .a f

/-- Zone 15 in HOLD, its settle timer started at 7. -/
def holding : Station := { ready with pw := { zones := [(15, { state := .hold, factor := 2, heldAt := some 0, settleAt := some 7 })] } }

theorem test_ready_is_canonical : ready.canonical = true ∧ ready.factorsOk = true ∧ (host ready).linkOk = true := by decide

theorem free (x : Station) (h : x.outbox = []) : (host x).taking ∧ (host x).up := ⟨⟨rfl, rfl, rfl, h⟩, rfl, h⟩

/-! Terms that cannot arrive: one for each check of `Instr.wf`. -/

theorem test_wf_one_byte_field : (Instr.readZone 0#8 256).wf = false ∧ (Instr.readZone 0#8 255).wf = true := by decide
theorem test_wf_two_byte_field :
    (Instr.readSegment 0#8 65536).wf = false ∧ (Instr.readSegment 0#8 65535).wf = true := by decide
theorem test_wf_name_length :
    (Instr.putSegment 0#8 0 0 0 0 0 (List.replicate 233 65#8)).wf = false ∧
    (Instr.putSegment 0#8 0 0 0 0 0 (List.replicate 232 65#8)).wf = true := by decide
theorem test_wf_valve_fields :
    (Instr.putValve 0#8 ⟨0, 1, 0, 0, 0, 0, 0, 0, 65536, 0, 0, 0, 0, 0⟩).wf = false ∧
    (Instr.putValve 0#8 ⟨0, 1, 0, 0, 0, 0, 0, 0, 0, 0, 0, 0, 0, 256⟩).wf = false := by decide
theorem test_wf_zone_fields : (Instr.putZone 0#8 ⟨0, 0, 256, 0, 0, 0, 0, 0⟩).wf = false := by decide
theorem test_wf_timing_fields : (Instr.setTiming 0#8 0 0 256 0).wf = false ∧ (Instr.setTiming 0#8 0 0 0 256).wf = false := by
  decide
theorem test_wf_address :
    (Instr.detailDue .a 0).wf = false ∧ (Instr.sampleDue .b 61).wf = false ∧ (Instr.rollDue .a 60).wf = true := by decide
theorem test_wf_valve_number : (Instr.strokeTimeout 768).wf = false ∧ (Instr.strokeTimeout 767).wf = true := by decide
theorem test_wf_slot_number : (Instr.planExpiry 4).wf = false ∧ (Instr.planExpiry 3).wf = true := by decide
theorem test_wf_zone_number : (Instr.settleTimerExpiry 16).wf = false ∧ (Instr.settleTimerExpiry 15).wf = true := by decide

/-! One step of several commands. -/

/-- The frame of IDENTIFY, byte by byte from R199, with the CRC-16 of 00 73 05: the request is taken. -/
theorem test_identify_frame :
    (after (exec (.requestFrameReceived [0x7E#8, 0x00#8, 0x73#8, 0x05#8, 0xE5#8, 0x33#8]) (host ready))).sl.lastReply.map
      (fun r => (r.tag, r.kind, r.status, r.data.length)) = some (5#8, 0x73#8, .ok, 28) := by decide

theorem test_reset_reads_loading :
    State.reset.st.ss.station = .loading ∧ status? (after (exec (.readTiming 1#8) State.reset)) = some .notReady := by decide
theorem test_erased_flash_leaves_blank :
    (after (exec (.loadingEnd true) State.reset)).st.ss.station = .blank ∧
    (after (exec (.loadingEnd true) State.reset)).sl.notices.map (fun n => (n.kind, n.cause)) =
      [(.started, some .powerOn), (.loadFailed, some .format)] := by decide
theorem test_put_segment :
    (after (exec (.putSegment 9#8 3 15 0 70000 1 []) (host ready))).st.segment? 3 =
      some { zone := 15, source := false, connections := 65535, priority := true, name := none } := by decide
theorem test_put_sensor :
    (after (exec (.putSensor 9#8 1 0 3 1) (host ready))).st.occupant? ⟨.a, 3⟩ = some (.sensor 1) := by decide
theorem test_delete_valve : (after (exec (.deleteValve 9#8 767) (host ready))).st.valve? 767 = none := by decide
theorem test_move_valve_is_granted :
    (after (exec (.moveValve 1#8 1 1 300) (host ready))).st.stroke? 1 =
      some { valve := 1, zone := 0, owner := .move, target := 0, time := 300, before := (.opened, some 100) } ∧
    (after (exec (.moveValve 1#8 1 1 300) (host ready))).st.lineA.strokes = [1] ∧
    (after (exec (.moveValve 1#8 1 1 300) (host ready))).st.count 0 = 1 := by decide
theorem test_stroke_call_starts :
    (after (exec (.callStart .a) (host (lineOn fun x => { x with strokes := [1] })))).st.lineA.onLine =
      some (.addressed 1 .stroke 3) := by decide
theorem test_stroke_call_frame :
    (after (exec (.callStart .a) (after (exec (.moveValve 1#8 1 1 300) (host ready))))).st.callFrame? .a =
      some [1#8, 3#8, 0#8, 44#8, 1#8, 224#8, 132#8] := by decide
theorem test_third_miss_makes_absent :
    (after (exec (.answerTimeout .a) (host (lineOn fun x =>
      { x with onLine := some (.addressed 2 .sample 6)
               nodes := [(2, { kind := .sensor, presence := .present, misses := 2 })] })))).sl.notices.map (·.kind) =
      [.nodeAbsent] := by decide
theorem test_open_incident_starts_planning :
    (after (exec (.openIncident 2#8 0) (host ready))).st.ip.flight = some { slot := 0, seed := [0] } ∧
    status? (after (exec (.openIncident 2#8 0) (host ready))) = some .accepted := by decide
theorem test_supply_warning :
    (after (exec .supplyWarningQualified (host ready))).st.supplyWarning = true ∧
    (after (exec .supplyWarningQualified (host ready))).st.lineB.broadcasts = [.halt] := by decide

theorem test_stuck_fails_an_opened_reopen_entry :
    let s : Station := { ready with im := { slots := [(3, { state := .reopening, reopen :=
      [{ valve := 0, kind := .crew, state := .opened }, { valve := 2, kind := .crew, state := .crewWait }] })] } }
    ((after (exec (.confirmValve 1#8 0 2) (host s))).st.slot 3).reopen.map (·.state) = [.failed, .crewWait] := by decide

/-! Hypotheses that can be met: for each statement that has some, states and operands that meet them, each clause at the
ends of its range. `free` gives a link that takes requests and a part that is not held in reset. -/

theorem witness_StepRunsTheFrontCommand :
    ({ host ready with pending := [.replySent] } : State).pending = [.replySent] ∧ (host ready).pending = [] ∧
    (host ready).nrstLow = false ∧ ({ host ready with nrstLow := true } : State).nrstLow = true := ⟨rfl, rfl, rfl, rfl⟩

/-- RESET_STATION waiting behind a reply that is being sent. -/
def resetWaits : State :=
  { host ready with sl := { sending := true, buffer := [⟨1#8, 0x61#8, .request .resetStation⟩] } }

theorem witness_EachResetPostsStarted :
    ({ host ready with nrstLow := true } : State).nrstLow = true ∧
    ((host ready).taking ∧ (host ready).st.ss.station ≠ .loading) ∧
    (resetWaits.up ∧ resetWaits.sl.sending = true ∧
      resetWaits.sl.buffer = ⟨1#8, 0x61#8, .request .resetStation⟩ :: [] ∧ resetWaits.st.ss.station ≠ .loading) :=
  ⟨rfl, ⟨(free _ rfl).1, by decide⟩, ⟨rfl, rfl⟩, rfl, rfl, by decide⟩

theorem witness_AResetGivesTheResetValues :
    ({ host ready with nrstLow := true } : State).nrstLow = true ∧ (host ready).nrstLow = false ∧ (host ready).taking ∧
    (host ready).st.ss.station ≠ .loading := ⟨rfl, rfl, (free _ rfl).1, by decide⟩

theorem witness_TheResetPinHoldsThePart :
    (host ready).nrstLow = false ∧ ({ host ready with nrstLow := true } : State).nrstLow = true ∧
    (∀ r, Instr.resetPinAssert ≠ .powerOn r) ∧ (∀ r, Instr.resetPinAssert ≠ .resetPinRelease r) := by
  refine ⟨rfl, rfl, ?_, ?_⟩ <;> intro r h <;> cases h

/-- The part in LOADING with this flash content. -/
def loading (f : Flash) : State := host { ss := { flash := f } }

/-- What the flash holds of an image before its check. -/
def content (i : Image) : Content := { format := 2, image := i, codesDefined := true }

theorem witness_LoadingTakesTheImageOrFails :
    (countsOk { image with sensors := List.replicate 49 (0, ⟨⟨.a, 2⟩, 0⟩) } = false ∧
      (countsOk { image with timing := { window := 17 } } = true ∧ fieldsOk { image with timing := { window := 17 } } = false) ∧
      (fieldsOk { image with segments := [(0, segment)] } = true ∧
        topologyOk { image with segments := [(0, segment)] } = false) ∧
      (countsOk image = true ∧ fieldsOk image = true ∧ topologyOk image = true) ∧
      contentCheck (content image) ≠ contentCheck (content image) + 1#32 ∧ ({ content image with format := 3 } : Content).format ≠ 2) ∧
    ((host ready).up ∧ (host ready).st.ss.station ≠ .loading) ∧
    ((loading .erased).up ∧ (loading .erased).st.ss.station = .loading ∧ loadTest .erased = .error .format) ∧
    (let f : Flash := .holds (content image) (contentCheck (content image));
      (loading f).up ∧ (loading f).st.ss.station = .loading ∧ (loading f).st.canonical = true ∧
      loadTest f = .ok image ∧ (0, crew) ∈ image.valves ∧ (767, actuated ⟨.b, 60⟩) ∈ image.valves) := by
  have h : countsOk image = true ∧ fieldsOk image = true ∧ topologyOk image = true := by decide
  refine ⟨⟨by decide, by decide, by decide, h, ?_, by decide⟩, ⟨(free _ rfl).2, by decide⟩, ⟨(free _ rfl).2, rfl, rfl⟩,
    (free _ rfl).2, rfl, by rfl, ?_, by decide⟩
  · intro e
    have e' := congrArg (· - contentCheck (content image)) e
    simp [BitVec.add_comm] at e'
  · simp [loadTest, content, Config.imageFormat, h]

theorem witness_TheSettleWaitEndsAtTwoSeconds :
    ((host ready).up ∧ (host ready).st.ss.settling = false) ∧
    ((host {}).up ∧ (host {}).st.ss.settling = true ∧ (host {}).st.ss.station = .loading) ∧
    ((host { ss := { station := .blank } }).up ∧ (host { ss := { station := .blank } }).st.ss.settling = true) :=
  ⟨⟨(free _ rfl).2, rfl⟩, ⟨(free _ rfl).2, rfl, rfl⟩, (free _ rfl).2, rfl⟩

theorem witness_AStorePassesItsThreeSteps :
    (((host {}).taking ∧ (host {}).st.ss.station = .loading) ∧
      ((host { ready with ss := { station := .ready, storing := some (storing .erase) } }).taking ∧
        (some (storing .erase)).isSome ∧ StationState.ready ≠ .loading) ∧
      ((host { ss := { station := .blank } }).taking ∧ ({ ss := { station := .blank } } : Station).nt.segments = []) ∧
      ((host { ready with ss := { station := .blank } }).taking ∧ ready.nt.segments ≠ []) ∧
      ((host ready).taking ∧ ready.ss.storing = none ∧ ready.ss.station = .ready)) ∧
    ∀ w, (host { ready with ss := { station := .ready, storing := some (storing w) } }).up ∧
      (host { ready with ss := { station := .ready, storing := some (storing w) } }).st.ss.storing = some (storing w) ∧
      (storing w).step = w ∧ (storing .erase).step ≠ .write ∧ (storing .erase).step ≠ .verify ∧ (storing .write).step ≠ .erase :=
  ⟨⟨⟨(free _ rfl).1, rfl⟩, ⟨(free _ rfl).1, by decide⟩, ⟨(free _ rfl).1, rfl⟩, ⟨(free _ rfl).1, by decide⟩, (free _ rfl).1,
    rfl, rfl⟩, fun _ => ⟨(free _ rfl).2, rfl, rfl, by decide, by decide, by decide⟩⟩

theorem witness_AnAbandonedFrameChangesNothingElse :
    (host ready).nrstLow = false ∧ (host ready).sl.receiver = .hunting ∧
    ({ host ready with sl := { receiver := .assembling [] } } : State).sl.receiver = .assembling [] ∧ 240 < (241#8 : Byte).toNat ∧
    240 < (255#8 : Byte).toNat ∧ 0x7E#8 ∉ ([0#8, 0xFF#8] : List Byte) ∧ (List.replicate 240 0#8).length ≤ 240 ∧
    [0xE5#8, 0x32#8] ≠ checkBytes (frameBody 0x73#8 5#8 []) := by decide

/-- A link that sends a reply, with this many requests waiting. -/
def busy (n : Nat) : State := { host ready with sl := { sending := true, buffer := List.replicate n ⟨1#8, 0x72#8, .request .status⟩ } }

theorem witness_RequestsWaitWhileAReplyIsSent :
    (Instr.status 1#8).request? = some (1#8, .status) ∧ (∀ n, (busy n).up) ∧ (busy 0).sl.buffer = [] ∧
    (busy 1).sl.buffer = [⟨1#8, BitVec.ofNat 8 (requestCode .status), .request .status⟩] ∧ (busy 1).sl.buffer.length < 2 ∧
    2 ≤ (busy 2).sl.buffer.length ∧ ((host ready).up ∧ (host ready).sl.sending = false) :=
  ⟨rfl, fun _ => ⟨rfl, rfl⟩, rfl, rfl, by decide, by decide, (free _ rfl).2, rfl⟩

theorem witness_AFrameIsItsRequest :
    ((Instr.setFlow 255#8 65535 65535).request? = some (255#8, .setFlow 65535 65535) ∧
      (Instr.setFlow 255#8 65535 65535).wf = true ∧ (host ready).sl.receiver = .hunting ∧ (host ready).taking ∧
      (∀ n, (busy n).up ∧ (busy n).sl.receiver = .hunting) ∧ (busy 1).sl.buffer.length < 2 ∧ 2 ≤ (busy 2).sl.buffer.length) ∧
    ((host ready).taking ∧ kindAdmits 0 [] = none ∧ kindAdmits 0x74 [] = none ∧ kindAdmits 0x70 [0#8] = some false) ∧
    ((host {}).taking ∧ kindAdmits 0x61 [] = some true ∧ 0x61 < 0x70 ∧ (host {}).st.ss.station = .loading) :=
  ⟨⟨rfl, by decide, rfl, (free _ rfl).1, fun _ => ⟨⟨rfl, rfl⟩, rfl⟩, by decide, by decide⟩, ⟨(free _ rfl).1, by decide⟩,
    (free _ rfl).1, by decide⟩

/-- A link with this many notices queued. -/
def queued (n : Nat) : Link := { notices := List.replicate n { kind := .planReady } }

theorem witness_NoticesAreQueuedAndReadInOrder :
    ((({ enables := ⟨false, true, true, true, true⟩ } : Link).enables.of (NoticeKind.planReady.classOf) = false) ∧
      (queued 0).enables.of NoticeKind.started.classOf = true ∧ (queued 31).notices.length < 32 ∧
      32 ≤ (queued 32).notices.length ∧ NoticeClass.valve ≠ NoticeKind.started.classOf) ∧
    ((host ready).taking ∧ (host ready).sl.notices = [] ∧ ({ host ready with sl := queued 31 } : State).taking ∧
      (queued 31).notices = { kind := .planReady } :: (queued 30).notices ∧
      (queued 31).enables.of NoticeKind.started.classOf = true) :=
  ⟨by decide, (free _ rfl).1, rfl, ⟨rfl, rfl, rfl, rfl⟩, rfl, by decide⟩

theorem witness_SetNoticeClassesSetsTheEnables :
    (host ready).taking ∧ 32 ≤ 32 ∧ 31 < 32 ∧ (ClassMarks.ofMask 30).of NoticeKind.planReady.classOf = false :=
  ⟨(free _ rfl).1, by decide⟩

theorem witness_StatusAndIdentifyReport : (host ready).taking := (free _ rfl).1

theorem witness_TheStationStateAndTheRangesBarRequests :
    (Instr.setFlow 1#8 0 0).request? = some (1#8, .setFlow 0 0) ∧ (Request.setFlow 0 0).isEdit = true ∧
    ((host {}).taking ∧ (host {}).st.ss.station = .loading) ∧
    ((host { ss := { station := .ready, storing := some (storing .write) } }).taking ∧ (some (storing .write)).isSome = true) ∧
    ((host { ss := { station := .blank } }).taking ∧ StationState.blank ≠ .ready) ∧
    ((host ready).taking ∧ (host ready).st.editable) ∧ nameTag? (List.replicate 13 65#8) = none :=
  ⟨rfl, rfl, ⟨(free _ rfl).1, rfl⟩, ⟨(free _ rfl).1, rfl⟩, ⟨(free _ rfl).1, by decide⟩, ⟨(free _ rfl).1, by decide, rfl⟩, by decide⟩

theorem editable_ready : (host ready).taking ∧ ready.editable ∧ ready.canonical = true := ⟨(free _ rfl).1, ⟨by decide, rfl⟩, by decide⟩

/-- An edit while a slot is in use. -/
theorem editable_used : (host (withSlot { state := .planned })).taking ∧ (withSlot { state := .planned }).editable ∧
    (withSlot { state := .planned }).canonical = true ∧ (withSlot { state := .planned }).allFree = false :=
  ⟨(free _ rfl).1, ⟨by decide, rfl⟩, by decide, by decide⟩

/-- 24 sources are counted. -/
def sources : Station := { ready with nt := { net with sourceCount := 24 } }

theorem witness_SegmentEditsStoreAndRemoveTheRecord :
    (511 < 512 ∧ 15 < 16 ∧ nameTag? [] = some none ∧
      nameTag? (List.replicate 12 65#8) = some (some (List.replicate 12 65#8)) ∧ ready.allFree = true ∧
      (ready.segment? 511).map (·.zone) = some 15 ∧ (ready.segment? 3).map (·.zone) ≠ some 15) ∧
    ((host sources).taking ∧ sources.editable ∧ sources.canonical = true ∧ sources.allFree = true ∧
      24 ≤ sources.nt.sourceCount) ∧
    (ready.segment? 510 = none ∧ (ready.segment? 0).isSome ∧ (∃ p ∈ ready.nt.valves, p.2.sideA = 0 ∨ p.2.sideB = 0) ∧
      (ready.segment? 2).isSome ∧
      ¬ ((∃ p ∈ ready.nt.valves, p.2.sideA = 2 ∨ p.2.sideB = 2) ∨ (∃ p ∈ ready.nt.sensors, p.2.segment = 2))) ∧
    (ready.segment? 1 = some segment ∧ segment.zone ≠ 15 ∧ (47, ⟨⟨.a, 60⟩, 1⟩) ∈ ready.nt.sensors ∧
      (ready.zoneWatch 15).state = .quiet ∧ (holding.zoneWatch 15).state ≠ .quiet ∧ holding.canonical = true ∧
      holding.allFree = true ∧ nameTag? (List.replicate 13 65#8) = none) ∧
    ((host holding).taking ∧ holding.editable) :=
  ⟨by decide, ⟨(free _ rfl).1, ⟨by decide, rfl⟩, by decide⟩, by decide, by decide, (free _ rfl).1, by decide, rfl⟩

/-- Fields of PUT_VALVE: valve 2 between segments 1 and 2, of zone 15, actuated at B address 59. -/
def fields : ValveFields := ⟨2, 1, 2, 15, 0, 0, 1, 59, 0, 2000, 6000, 0, 40000, 0⟩

/-- Valve 2 has a waiting MOVE_VALVE request. -/
def moving (v : Nat) : Station := { ready with md := { moves := [{ valve := v, closes := true, given := none }] } }

/-- A station whose one record at a place is valve 767. -/
def lone : Station :=
  { ready with nt := { net with valves := [(767, actuated ⟨.b, 60⟩)], sensors := [], nodeMap := [(120, .valve 767)] } }

theorem find_one {α : Type} (k n : Nat) (x y : α) : Table.find? [(k, x)] n = some y ↔ n = k ∧ x = y := by
  simp only [Table.find?]
  split <;> simp_all

theorem lone_map : lone.MapAgrees where
  valves v r n h e := by
    obtain ⟨-, rfl⟩ := (find_one _ _ _ _).1 h
    cases e; decide
  sensors k r h := by cases h
  valve n h1 h2 v := by
    obtain ⟨l, a⟩ := n
    simp only [lone, Station.occupant?, Station.valve?, find_one]
    cases l <;> simp_all [Node.key, lineCode, actuated, crew] <;> omega
  sensor n h1 h2 k := by
    simp [lone, Station.occupant?, Station.sensor?, Table.find?]

/-- A station whose one record at a place is valve 1. -/
def lone1 : Station :=
  { ready with nt := { net with valves := [(1, actuated ⟨.a, 1⟩)], sensors := [], nodeMap := [(1, .valve 1)] } }

theorem lone1_map : lone1.MapAgrees where
  valves v r n h e := by
    obtain ⟨-, rfl⟩ := (find_one _ _ _ _).1 h
    cases e; decide
  sensors k r h := by cases h
  valve n h1 h2 v := by
    obtain ⟨l, a⟩ := n
    simp only [lone1, Station.occupant?, Station.valve?, find_one]
    cases l <;> simp_all [Node.key, lineCode, actuated, crew] <;> omega
  sensor n h1 h2 k := by
    simp [lone1, Station.occupant?, Station.sensor?, Table.find?]

/-- Valve 1 of that station in this stroke, with this slot 3 and with line A changed. -/
def stroked (r : Stroke) (q : Slot := {}) (f : FieldLine → FieldLine := id) : Station :=
  { lone1 with
    md := { strokes := [r] }
    vs := [(1, { position := .opened, percent := some 100, owner := some r.owner })]
    im := { slots := if q = {} then [] else [(3, q)] }
    lineA := f lone1.lineA }

theorem stroked_map (r : Stroke) (q : Slot) (f : FieldLine → FieldLine) : (stroked r q f).MapAgrees :=
  ⟨lone1_map.valves, lone1_map.sensors, lone1_map.valve, lone1_map.sensor⟩

/-- The call of that address on line A. -/
def calling (call : CallKind) (cls : Nat) (x : FieldLine) : FieldLine := { x with onLine := some (.addressed 1 call cls) }

theorem witness_PutValveCreatesAValve :
    ready.valve? 2 = none ∧ normal? fields.normal = some .normallyOpen ∧ valveKind? fields.kind = some .actuated ∧
    fields.valve < 768 ∧ fields.sideA < 512 ∧ fields.sideB < 512 ∧ fields.zone < 16 ∧
    (fields.line ≤ 1 ∧ 1 ≤ fields.address ∧ fields.address ≤ 60) ∧ ready.allFree = true ∧ ready.motionWork 2 = false ∧
    (moving 2).motionWork 2 = true ∧ (moving 2).canonical = true ∧ ready.segment? 510 = none ∧
    ready.occupant? ⟨.b, 60⟩ = some (.valve 767) ∧ ready.occupant? ⟨.b, 59⟩ = none ∧ (ready.segment? 1).isSome ∧
    (ready.segment? 2).isSome ∧ fields.sideA ≠ fields.sideB ∧ (ready.node ⟨.b, 59⟩).kind ≠ .actuator ∧
    (let s := ready.modLine .b fun x => { x with nodes := [(59, { kind := .actuator })] };
      s.canonical = true ∧ s.occupant? ⟨.b, 59⟩ = none ∧ (s.node ⟨.b, 59⟩).kind = .actuator) ∧
    valveKind? 1 = some .crew := by decide

/-- An entry of valve 1 halted by the host. -/
def haltedEntry : Entry := { valve := 1, kind := .actuated, state := .halted, halts := { host := true } }

/-- Slot 3 in CLOSING with a PENDING entry of valve 1. -/
def waiting : Station := withSlot { state := .closing, work := [{ haltedEntry with state := .pending }] }

theorem witness_PutValveRewritesAValve :
    (ready.valve? 767 = some (actuated ⟨.b, 60⟩) ∧ (actuated ⟨.b, 60⟩).sideA = 1 ∧ (actuated ⟨.b, 60⟩).sideB = 511 ∧
      (actuated ⟨.b, 60⟩).zone = 0 ∧ (actuated ⟨.b, 60⟩).node = some ⟨.b, 60⟩ ∧ ready.allFree = true ∧
      ready.motionWork 767 = false ∧ (moving 767).motionWork 767 = true ∧ (withSlot { state := .planned }).allFree = false ∧
      (ready.segment? 1).isSome ∧ (ready.segment? 511).isSome ∧ ready.segment? 510 = none ∧
      ready.occupant? ⟨.b, 60⟩ = some (.valve 767) ∧ ready.occupant? ⟨.b, 1⟩ = none) ∧
    ((host lone).taking ∧ lone.editable ∧ lone.canonical = true ∧ lone.MapAgrees ∧ lone.allFree = true ∧
      lone.valve? 767 = some (actuated ⟨.b, 60⟩) ∧ lone.motionWork 767 = false ∧ (lone.segment? 1).isSome ∧
      (lone.segment? 511).isSome ∧ lone.occupant? ⟨.b, 59⟩ = none) ∧
    ((host waiting).taking ∧ waiting.editable ∧ waiting.canonical = true ∧ 20000 ≠ (actuated ⟨.a, 1⟩).length ∧
      waiting.entryIn 3 false 1 = some { haltedEntry with state := .pending } ∧
      Station.waits { haltedEntry with state := .pending } = true ∧
      (profileOf waiting 1 { actuated ⟨.a, 1⟩ with length := 20000, velocity := 5000 }).limited = true) :=
  ⟨by decide, ⟨(free _ rfl).1, ⟨by decide, rfl⟩, by decide, lone_map, by decide⟩, (free _ rfl).1, ⟨by decide, rfl⟩, by decide⟩

theorem witness_DeleteValveRemovesTheRecord :
    ready.valve? 766 = none ∧ (ready.valve? 767).isSome ∧ ready.allFree = true ∧ ready.motionWork 767 = false ∧
    (moving 767).motionWork 767 = true ∧ (actuated ⟨.b, 60⟩).node = some ⟨.b, 60⟩ := by decide

/-- Sensor 47 of the station whose one record at a place it is. -/
def lone47 : Station :=
  { ready with nt := { net with valves := [], sensors := [(47, ⟨⟨.a, 60⟩, 1⟩)], nodeMap := [(60, .sensor 47)] } }

theorem lone47_map : lone47.MapAgrees where
  valves v r n h e := by cases h
  sensors k r h := by
    obtain ⟨-, rfl⟩ := (find_one _ _ _ _).1 h
    decide
  valve n h1 h2 v := by
    simp [lone47, Station.occupant?, Station.valve?, Table.find?]
  sensor n h1 h2 k := by
    obtain ⟨l, a⟩ := n
    simp only [lone47, Station.occupant?, Station.sensor?, find_one]
    cases l <;> simp_all [Node.key, lineCode] <;> omega

theorem witness_SensorEditsPlaceAndRemoveTheRecord :
    (place? 0 60 = some ⟨.a, 60⟩ ∧ place? 1 1 = some ⟨.b, 1⟩ ∧ ready.allFree = true ∧ ready.segment? 510 = none ∧
      ready.occupant? ⟨.a, 1⟩ = some (.valve 1) ∧ ready.sensor? 47 = some ⟨⟨.a, 60⟩, 1⟩ ∧
      ready.occupant? ⟨.a, 60⟩ = some (.sensor 47) ∧ ready.sensor? 46 = none ∧ ready.occupant? ⟨.b, 1⟩ = none ∧
      (ready.segment? 1).isSome) ∧
    ((host lone47).taking ∧ lone47.editable ∧ lone47.canonical = true ∧ lone47.MapAgrees ∧ lone47.allFree = true ∧
      (lone47.sensor? 47).map (·.node) = some ⟨.a, 60⟩ ∧ (⟨.a, 60⟩ : Node) ≠ ⟨.b, 1⟩ ∧ lone47.occupant? ⟨.b, 1⟩ = none) :=
  ⟨by decide, (free _ rfl).1, ⟨by decide, rfl⟩, by decide, lone47_map, by decide⟩

theorem witness_SetFlowAndSetHealthWriteTheirField :
    (768 ≤ 768 ∧ ready.valve? 766 = none ∧ (ready.valve? 767).isSome ∧ ready.effectiveVelocity 767 = min 1500 5000) ∧
    (waiting.valve? 1 = some (actuated ⟨.a, 1⟩) ∧ waiting.effectiveVelocity 1 ≠ min 5001 5000 ∧
      waiting.entryIn 3 false 1 = some { haltedEntry with state := .pending }) ∧
    (ready.valve? 767 = some (actuated ⟨.b, 60⟩) ∧ health? 2 = some .inoperable ∧ health? 0 = some .sound ∧ health? 3 = none) := by
  decide

theorem witness_ReadsChangeNothing :
    (host (withSlot { state := .planned })).taking ∧ (withSlot { state := .planned }).ss.station ≠ .loading ∧
    (ready.valve? 767).isSome ∧ (ready.sensor? 47).isSome ∧ ((withSlot { state := .planned }).slot 3).state ≠ .free ∧
    ((withSlot { state := .planned }).slot 3).state ≠ .planning := ⟨(free _ rfl).1, by decide⟩

theorem witness_TableReadsReturnTheRecord :
    (ready.segment? 510 = none ∧ ready.segment? 511 = some { segment with zone := 15, source := true } ∧
      ready.sensor? 47 = some ⟨⟨.a, 60⟩, 1⟩) ∧
    ((ready.segment? 511).isSome = true ∧ (ready.valve? 767).isSome = true ∧ (ready.sensor? 47).isSome = true ∧
      (ready.segment? 510).isSome = false ∧ (ready.valve? 766).isSome = false ∧ (ready.sensor? 46).isSome = false) ∧
    ∀ m, (({ ss := { station := .blank } } : Station).segment? m).isSome = false :=
  ⟨by decide, by decide, fun _ => rfl⟩

theorem witness_ValveNodeAndWatchReadsReturnTheirFields :
    (host ready).taking ∧ ready.ss.station ≠ .loading ∧ ready.canonical = true ∧ ready.valve? 766 = none ∧
    ready.valve? 0 = some crew ∧ (ready.vsOf 0).position ≠ .closed ∧ crew.kind = .crew ∧ crew.health ≠ .inoperable ∧
    ready.valve? 767 = some (actuated ⟨.b, 60⟩) ∧ (ready.vsOf 767).position ≠ .closed ∧
    (ready.node ⟨.b, 60⟩).presence = .present ∧ (ready.sensor? 46) = none ∧ ready.sensor? 47 = some ⟨⟨.a, 60⟩, 1⟩ ∧
    ((host holding).taking ∧ (holding.zoneWatch 15).state = .hold ∧ (holding.zoneWatch 15).persist = false ∧
      (holding.zoneWatch 15).settleAt = some 7 ∧ clockReached holding.clock ((7 + 10 * 30) % 42949672960) = false ∧
      ((7 + 10 * 30) % 42949672960 + 42949672960 - 7) % 42949672960 % 10 = 0 ∧
      clockReached 400 ((7 + 10 * 30) % 42949672960) = true) :=
  ⟨(free _ rfl).1, by decide, by decide, by decide, by decide, by decide, by decide, by decide, by decide, by decide, by decide,
    by decide, by decide, (free _ rfl).1, by decide⟩

theorem witness_IncidentPlanAndMotionReadsReturnTheirFields :
    (host ready).taking ∧ ready.ss.station ≠ .loading ∧
    (let s : Station := { ready with ip := { queue := [1], flight := some { slot := 3, seed := [0] } } };
      (∃ f, s.ip.flight = some f ∧ f.slot = 3 ∧ f.cancel = false) ∧ 1 ∈ s.ip.queue ∧ 0 ∉ s.ip.queue) ∧
    (ready.slot 3).state ∈ ([.free, .planning] : List SlotState) ∧
    ((withSlot { state := .done }).slot 3).state ∈ ([.reopening, .done] : List SlotState) ∧
    max 1 ((([] : List Entry).length + 7) / 8) ≤ 1 ∧ 0 < max 1 ((([] : List Entry).length + 7) / 8) :=
  ⟨(free _ rfl).1, by decide, ⟨⟨_, rfl, by decide⟩, by decide⟩, by decide, by decide, by decide, by decide⟩

/-- Valve `v` is held. -/
def held (v : Nat) : Station := { ready with vs := ready.vs.put v { position := .closed, percent := some 0, holds := 1 } }

/-- An entry of crew valve 0 in CREW_WAIT. -/
def crewEntry : Entry := { valve := 0, kind := .crew, state := .crewWait }

theorem witness_ConfirmValveTakesTheReport :
    (ready.valve? 2 = none ∧ ready.valve? 0 = some crew ∧ crew.kind = .crew ∧ (ready.vsOf 0).holds = 0 ∧
      ready.valve? 767 = some (actuated ⟨.b, 60⟩) ∧ (actuated ⟨.b, 60⟩).kind = .actuated) ∧
    ((host (held 0)).taking ∧ (held 0).ss.station = .ready ∧ (held 0).canonical = true ∧ 0 < ((held 0).vsOf 0).holds) ∧
    (∀ w st, (host (withSlot { state := st, work := w })).taking) ∧
    ((withSlot { state := .closing, work := [crewEntry] }).canonical = true ∧
      entryOf? ((withSlot { state := .closing, work := [crewEntry] }).slot 3).work 0 = some crewEntry ∧
      (withSlot { state := .closing, work := [crewEntry, { crewEntry with valve := 2 }] }).canonical = true ∧
      (withSlot { state := .reopening, reopen := [crewEntry] }).canonical = true ∧
      entryOf? ((withSlot { state := .reopening, reopen := [crewEntry] }).slot 3).reopen 0 = some crewEntry) ∧
    (let e : Entry := { crewEntry with state := .opened }
     let s := withSlot { state := .reopening, reopen := [e, { crewEntry with valve := 2 }] };
      s.canonical = true ∧ entryOf? (s.slot 3).reopen 0 = some e) :=
  ⟨by decide, ⟨(free _ rfl).1, by decide⟩, fun _ _ => (free _ rfl).1, by decide, by decide⟩

theorem witness_MoveValveWaitsItsTurn :
    ready.owned 1 = false ∧ ready.owned 511 = false ∧ ready.motionWork 1 = false ∧ (ready.vsOf 1).stale = false ∧
    (ready.vsOf 1).position = .opened ∧ (moving 1).motionWork 1 = true ∧ 0 < ((held 1).vsOf 1).holds ∧
    ((host { ready with im := { owner := [(511, 0)] } }).taking ∧
      ({ ready with im := { owner := [(511, 0)] } } : Station).owned 511 = true) :=
  ⟨by decide, by decide, by decide, by decide, by decide, by decide, by decide, (free _ rfl).1, by decide⟩

theorem witness_HaltValveStopsAndLifts :
    (ready.stroke? 1 = none ∧ ready.move? 1 = none ∧ ready.exercise? 1 = none ∧
      ((moving 1).move? 1).map (·.waiting) = some true ∧
      (∀ k ∈ [0, 1, 2, 3], (ready.slot k).work ++ (ready.slot k).reopen = [])) ∧
    (let s := withSlot { state := .closing, work := [haltedEntry] };
      (host s).taking ∧ s.canonical = true ∧ s.stroke? 1 = none ∧ entryOf? (s.slot 3).work 1 = some haltedEntry ∧
      haltedEntry.halts.host = true ∧ ({ haltedEntry.halts with host := false } : HaltSet) = {}) ∧
    (let s := withSlot { state := .reopening, reopen := [haltedEntry] };
      (host s).taking ∧ s.canonical = true ∧ s.stroke? 1 = none ∧ entryOf? (s.slot 3).reopen 1 = some haltedEntry ∧
      (∀ k ∈ [0, 1, 2, 3], (s.slot k).work = []) ∧ (s.vsOf 1).percent = some 100 ∧ 98 ≤ 100) ∧
    (let s := withSlot { state := .reopening, reopen := [{ haltedEntry with state := .pending }] };
      s.canonical = true ∧ entryOf? (s.slot 3).reopen 1 = some { haltedEntry with state := .pending } ∧ s.stroke? 1 = none ∧
      ∀ k ∈ [0, 1, 2, 3], (s.slot k).work = []) ∧
    ((withStroke stroke).canonical = true ∧ (withStroke stroke).stroke? 1 = some stroke ∧ stroke.phase = .sending ∧
      stroke.pendingEnd = none ∧ (actuated ⟨.a, 1⟩).node = some ⟨.a, 1⟩ ∧ (withStroke stroke).lineA.onLine = none ∧
      (withStroke { stroke with phase := .moving }).stroke? 1 = some { stroke with phase := .moving }) :=
  ⟨by decide, ⟨(free _ rfl).1, by decide⟩, ⟨(free _ rfl).1, by decide⟩, by decide, by decide⟩

theorem witness_AHaltIsDecidedByThePhase :
    (withStroke stroke).stroke? 1 = some stroke ∧ (withStroke stroke).nodeOf? 1 = some ⟨.a, 1⟩ ∧
    (withStroke stroke).strokeOnLine 1 = false ∧
    ((withStroke stroke).modLine .a fun x => { x with onLine := some (.addressed 1 .stroke 3) }).strokeOnLine 1 = true ∧
    (withStroke { stroke with phase := .moving, accepted := some 5, timeout := some 400 }).stroke? 1 =
      some { stroke with phase := .moving, accepted := some 5, timeout := some 400 } ∧
    (withStroke { stroke with phase := .halting, pendingEnd := some (.halted .surge) }).stroke? 1 =
      some { stroke with phase := .halting, pendingEnd := some (.halted .surge) } ∧
    (∀ r ∈ ([{ stroke with phase := .halting, pendingEnd := some (.halted .surge) }, { stroke with phase := .moving }, stroke] :
        List Stroke),
      (stroked r).canonical = true ∧ (stroked r).stroke? 1 = some r ∧ (stroked r).nodeOf? 1 = some ⟨.a, 1⟩ ∧
      ((stroked r).vsOf 1).owner = some .move ∧
      (∀ j ∈ [0, 1, 2, 3], ((stroked r).slot j).reopen = []) ∧ (stroked r).strokeOnLine 1 = false) ∧
    (stroked stroke {} (calling .stroke 3)).strokeOnLine 1 = true := by decide

/-- The exercises of this many valves. -/
def exercises (n : Nat) : Station :=
  { ready with xu := (List.range n).map fun k => { valve := 100 + k, zone := 0, target := 50 } }

theorem witness_ExerciseValveJoinsTheSet :
    ready.valve? 1 = some (actuated ⟨.a, 1⟩) ∧ (actuated ⟨.a, 1⟩).normal = .normallyOpen ∧ (ready.vsOf 1).position = .opened ∧
    (ready.vsOf 1).owner = none ∧ ready.move? 1 = none ∧ (exercises 7).xu.length < 8 ∧ (exercises 7).exercise? 1 = none ∧
    8 ≤ (exercises 8).xu.length ∧ ((exercises 1).exercise? 100).isSome ∧ (moving 1).move? 1 ≠ none := by decide

theorem witness_ZoneAndTimingEditsStoreTheClampedFields :
    (16 ≤ (⟨16, 0, 0, 0, 0, 0, 0, 0⟩ : ZoneFields).zone ∧ (⟨15, 0, 0, 0, 0, 0, 0, 0⟩ : ZoneFields).zone < 16) ∧
    ((host { holding with clock := 400 }).taking ∧ ({ holding with clock := 400 } : Station).editable ∧
      ({ holding with clock := 400 } : Station).canonical = true ∧ (holding.zoneWatch 15).state = .hold ∧
      (holding.zoneWatch 15).persist = false ∧ (holding.zoneWatch 15).settleAt = some 7 ∧
      clockReached 400 ((7 + 10 * 5) % 42949672960) = true ∧ (holding.zoneWatch 0).state ≠ .hold) ∧
    ((host waiting).taking ∧ waiting.editable ∧ waiting.canonical = true ∧ (waiting.zoneRec 0).hmax ≠ 10 ∧
      (waiting.zoneWatch 0).state ≠ .hold ∧ (waiting.valve? 1).map (·.zone) = some 0 ∧
      waiting.entryIn 3 false 1 = some { haltedEntry with state := .pending }) :=
  ⟨by decide, ⟨(free _ rfl).1, ⟨by decide, rfl⟩, by decide⟩, (free _ rfl).1, ⟨by decide, rfl⟩, by decide⟩

/-- The same station with zone 0 in HOLD and a stroke of the zone sent its HALT. -/
def surge (x : Station) : Station :=
  { x with
    pw := { zones := [(0, { state := .hold, factor := 2, heldAt := some 0, settleAt := some 7 })] }
    md := { strokes := [{ stroke with phase := .halting, pendingEnd := some (.halted .surge) }], counts := [(0, 1)] } }

/-- An entry of valve 1 halted by SURGE, and by the host as well where `h`. -/
def surged (h : Bool) : Entry := { haltedEntry with halts := { surge := true, host := h } }

theorem witness_AZoneLeavesItsHold :
    (host holding).taking ∧ (host holding).up ∧ (holding.ss.station = .ready ∧ holding.canonical = true ∧
      (holding.zoneWatch 15).state = .hold ∧ (holding.zoneWatch 15).persist = false ∧
      (holding.zoneWatch 15).settleAt = some 7 ∧ holding.count 15 = 0 ∧ (holding.zoneWatch 0).state ≠ .hold) ∧
    (host (surge lone47)).taking ∧ (surge lone47).MapAgrees ∧
    (let s := surge lone47;
      s.canonical = true ∧ (s.zoneWatch 0).state = .hold ∧ s.count 0 = 1 ∧
      (∀ r ∈ s.md.strokes, r.zone = 0 → r.pendingEnd.isSome) ∧ s.nt.sensors = [(47, ⟨⟨.a, 60⟩, 1⟩)] ∧
      s.zoneOfSegment 1 = 0) ∧
    (∀ h, let s := surge (withSlot { state := .closing, work := [surged h] });
      let t := surge (withSlot { state := .reopening, reopen := [surged h] });
      s.canonical = true ∧ t.canonical = true ∧ s.valve? 1 = some (actuated ⟨.a, 1⟩) ∧
      s.entryIn 3 false 1 = some (surged h) ∧ t.entryIn 3 true 1 = some (surged h) ∧
      (∀ r, s.stroke? 1 = some r → r.pendingEnd.isSome) ∧ ∀ k ∈ [0, 1, 2, 3], (t.slot k).work = []) :=
  ⟨(free _ rfl).1, (free _ rfl).2, by decide, (free _ rfl).1,
    ⟨lone47_map.valves, lone47_map.sensors, lone47_map.valve, lone47_map.sensor⟩, by decide, fun h => by
      have d : ∀ r, (surge ready).stroke? 1 = some r → r.pendingEnd.isSome := by intro r e; cases e; rfl
      cases h <;> exact ⟨by decide, by decide, rfl, by decide, by decide, d, by decide⟩⟩

/-- A stroke of valve 1 in HALTING that the next broadcast HALT of its line ends. -/
def warnedStroke : Stroke := { stroke with phase := .halting, pendingEnd := some (.halted .supply), supplyWait := 1 }

theorem witness_BroadcastsAreQueuedAndActOnTheirLine :
    ((host ready).taking ∧ (∀ u, Broadcast.clear u ∉ ready.lineA.broadcasts) ∧
      (∀ u, Broadcast.clear u ∉ ready.lineB.broadcasts) ∧
      (∃ u, Broadcast.clear u ∈ (lineOn fun x => { x with broadcasts := [.halt, .clear false] }).lineA.broadcasts) ∧
      ∃ u, Broadcast.clear u ∈ (lineOn fun x => { x with broadcasts := [.clear true] }).lineA.broadcasts) ∧
    (∀ b : Broadcast, (host (lineOn fun x => { x with onLine := some (.broadcast b) })).up ∧
      (lineOn fun x => { x with onLine := some (.broadcast b) }).canonical = true ∧
      ((lineOn fun x => { x with onLine := some (.broadcast b) }).line .a).onLine = some (.broadcast b)) ∧
    ((ready.line .a).onLine ≠ some (.broadcast .halt) ∧ ∀ u, (ready.line .a).onLine ≠ some (.broadcast (.clear u))) ∧
    ((withStroke stroke).stroke? 1 = some stroke ∧ stroke.pendingEnd = none ∧ stroke.supplyWait ≠ 1 ∧
      (withStroke warnedStroke).stroke? 1 = some warnedStroke ∧ warnedStroke.pendingEnd = some (.halted .supply) ∧
      warnedStroke.supplyWait = 1 ∧
      (withStroke { stroke with pendingEnd := some (.failed .stall) }).stroke? 1 =
        some { stroke with pendingEnd := some (.failed .stall) }) ∧
    (∀ b : Broadcast, let s := (withStroke warnedStroke).modLine .a fun x => { x with onLine := some (.broadcast b) };
      (host s).up ∧ s.canonical = true ∧ (s.line .a).onLine = some (.broadcast b) ∧
      (s.nodeOf? 1).map (·.line) = some .a) ∧
    (let s := (withSlot { state := .closing, work := [haltedEntry] }).modLine .a fun x =>
        { x with onLine := some (.broadcast (.clear false)) };
      (host s).up ∧ s.canonical = true ∧ s.entryIn 3 false 1 = some haltedEntry ∧
      (s.nodeOf? 1).map (·.line) = some .a ∧ s.md.strokes = []) :=
  ⟨⟨(free _ rfl).1, by decide, by decide, ⟨false, by decide⟩, true, by decide⟩, fun _ => ⟨(free _ rfl).2, by rfl, rfl⟩,
    by decide, by decide, fun _ => ⟨(free _ rfl).2, by rfl, rfl, by rfl⟩, (free _ rfl).2, by decide⟩

/-- An entry of valve 1 ready for its stroke. -/
def pendingEntry : Entry := { valve := 1, kind := .actuated, state := .pending }

/-- Line A with these nodes. -/
def nodes (xs : Table NodeEntry) : Station := lineOn fun x => { x with nodes := xs }

/-- Address 2 of line A has been called with a SAMPLE. -/
def called : Station := lineOn fun x => { x with onLine := some (.addressed 2 .sample 6) }

/-- The answer of address 2, READY with head 0; its check is that of 02 00 00 00. -/
def answer : List Byte := [2#8, 0#8, 0#8, 0#8] ++ checkBytes [2#8, 0#8, 0#8, 0#8]

/-- Close entries of valve 1 wait in slots 0 and 1, slot 1 authorized first; a reopen entry of it waits in slot 2. -/
def queuedEntries : Station :=
  { ready with
    im := { slots := [(0, { state := .closing, authorized := some 4, work := [pendingEntry] }),
              (1, { state := .closing, authorized := some 2, work := [pendingEntry] }),
              (2, { state := .reopening, released := some 2, reopen := [pendingEntry] })]
            freeList := [3] }
    clock := 5 }

theorem witness_AGrantStartsAStroke :
    (queuedEntries.candidates 0 = [.closeEntry 1 1, .closeEntry 0 1, .reopenEntry 2 1] ∧
      queuedEntries.firstEligible 0 = some (.closeEntry 1 1)) ∧
    ((moving 1).eligible 0 (.move 1) = true ∧ (moving 1).firstEligible 0 = some (.move 1) ∧ ready.firstEligible 0 = none) ∧
    (ready.canonical = true ∧ ready.valve? 1 = some (actuated ⟨.a, 1⟩) ∧ (actuated ⟨.a, 1⟩).node = some ⟨.a, 1⟩ ∧
      (ready.vsOf 1).percent = some 100 ∧ 2 < 100 ∧ ((held 1).vsOf 1).percent = some 0) ∧
    (let s := withSlot { state := .closing, work := [pendingEntry] };
      s.canonical = true ∧ entryOf? (s.slot 3).work 1 = some pendingEntry ∧
      ∀ j ∈ [0, 1, 2, 3], ∀ f ∈ (s.slot j).reopen, f.state ≠ .stroking) ∧
    (let s := withSlot { state := .reopening, reopen := [pendingEntry] };
      s.canonical = true ∧ entryOf? (s.slot 3).reopen 1 = some pendingEntry) ∧
    ((moving 1).canonical = true ∧ (moving 1).move? 1 = some { valve := 1, closes := true, given := none }) ∧
    (let s : Station := { ready with xu := [{ valve := 1, zone := 0, target := 50 }] };
      s.canonical = true ∧ s.exercise? 1 = some { valve := 1, zone := 0, target := 50 } ∧ (s.vsOf 1).position = .opened ∧
      (s.vsOf 1).stale = false) := by decide

/-- Address 1 of line A has been called with this call, its valve in this stroke. -/
def strokeCalled (call : CallKind) (cls : Nat) (r : Stroke) : Station :=
  (withStroke r).modLine .a fun x => { x with onLine := some (.addressed 1 call cls) }

/-- An answer of address 1 with this state and payload, its check that of its bytes. -/
def answer1 (st : Byte) (p : List Byte) : List Byte := 1#8 :: st :: p ++ checkBytes (1#8 :: st :: p)

theorem witness_AnswersMoveAndJudgeAStroke :
    (let s := strokeCalled .stroke 3 stroke;
      (host s).up ∧ s.canonical = true ∧ (s.line .a).onLine = some (.addressed 1 .stroke 3) ∧ 3 ≠ 2 ∧
      s.occupant? ⟨.a, 1⟩ = some (.valve 1) ∧ (s.node ⟨.a, 1⟩).kind = .actuator ∧
      readAnswer? 1 .stroke .actuator (answer1 0#8 [3#8]) = some { state := .ready, payload := [3#8] }) ∧
    (∀ e, (withStroke { stroke with pendingEnd := e }).stroke? 1 = some { stroke with pendingEnd := e }) ∧
    ((withStroke stroke).nodeOf? 1 = some ⟨.a, 1⟩ ∧ stroke.sendings ≠ 2 ∧ stroke.missedSending = false ∧
      ({ stroke with sendings := 2, missedSending := true } : Stroke).sendings = 2) ∧
    ((withStroke { stroke with phase := .moving }).valve? 1 = some (actuated ⟨.a, 1⟩) ∧
      ({ stroke with phase := .moving } : Stroke).phase = .moving ∧ stroke.target = 0 ∧ stroke.phase ≠ .moving) :=
  ⟨⟨(free _ rfl).2, by decide⟩, fun _ => rfl, by decide, by decide⟩

theorem witness_AStrokeEndsByItsRules :
    (withStroke stroke).canonical = true ∧ (withStroke stroke).valve? stroke.valve = some (actuated ⟨.a, 1⟩) ∧
    (actuated ⟨.a, 1⟩).node = some ⟨.a, 1⟩ ∧ StrokeEnd.completed ≠ .failed .stall ∧ stroke.accepted = none ∧
    ((withStroke stroke).node ⟨.a, 1⟩).presence = .present ∧ stroke.owner ≠ .exercise ∧
    ((withStroke stroke).zoneWatch stroke.zone).state ≠ .watch ∧
    Cause.stall ∈ ([.stall, .timeout, .shortStroke, .nodeFault] : List Cause) ∧
    (let r := { stroke with accepted := some 5 }
     let s := (withStroke r).modLine .a fun x =>
       { x with nodes := [(1, { kind := .actuator, presence := .present, detailDue := some 4 })] };
      s.canonical = true ∧ s.stroke? 1 = some r ∧ (s.node ⟨.a, 1⟩).presence = .present ∧
      (s.node ⟨.a, 1⟩).detailDue = some 4) := by decide

/-- A station with an exercise of valve 1. -/
def exercising (p : ExercisePhase) (c : Option Cause) : Station :=
  { ready with xu := [{ valve := 1, zone := 0, target := 50, phase := p, result := c }] }

theorem witness_TheOutcomeReachesTheOwner :
    (∀ st, (withSlot { state := st, authorized := some 0, work := [{ pendingEntry with state := .stroking }] }).canonical = true ∧
      entryOf? ((withSlot { state := st, authorized := some 0, work := [{ pendingEntry with state := .stroking }] }).slot 3).work 1 =
        some { pendingEntry with state := .stroking }) ∧
    (let s := withSlot { state := .reopening, reopen := [{ pendingEntry with state := .stroking }] };
      s.canonical = true ∧ entryOf? (s.slot 3).reopen 1 = some { pendingEntry with state := .stroking }) ∧
    ((moving 1).canonical = true ∧ (moving 1).move? 1 = some { valve := 1, closes := true, given := none } ∧
      ready.valve? 1 = some (actuated ⟨.a, 1⟩) ∧ (ready.vsOf 1).holds = 0 ∧ ready.owned 1 = false ∧ ready.owned 511 = false ∧
      (ready.vsOf 1).percent = some 100 ∧ (∀ k ∈ [0, 1, 2, 3], (ready.slot k).work = [])) ∧
    (∀ p c, (exercising p c).canonical = true ∧ ((exercising p c).exercise? 1).map (·.phase) = some p ∧
      ((exercising p c).exercise? 1).map (·.result) = some c) ∧
    (let s := (exercising .outward none).modVs 1 fun d => { d with holds := 1 };
      s.canonical = true ∧ 0 < (s.vsOf 1).holds ∧ s.exercise? 1 = some { valve := 1, zone := 0, target := 50, phase := .outward }) ∧
    stroke.claimed = false ∧ ({ stroke with claimed := true } : Stroke).claimed = true := by
  refine ⟨fun st => by cases st <;> decide, by decide, by decide, fun _ _ => ⟨by rfl, rfl, rfl⟩, by decide, rfl, rfl⟩

theorem witness_ASampleIsJudged :
    ((host called).up ∧ called.canonical = true ∧ (called.line .a).onLine = some (.addressed 2 .sample 6) ∧ 6 ≠ 2 ∧
      called.occupant? ⟨.a, 2⟩ = some (.sensor 0) ∧ (called.node ⟨.a, 2⟩).kind = .sensor ∧
      readAnswer? 2 .sample .sensor answer = some { state := .ready, payload := [0#8, 0#8] }) ∧
    (ready.sensor? 0 = some ⟨⟨.a, 2⟩, 0⟩ ∧ ready.zoneOfSegment 0 = 0 ∧ (ready.zoneWatch 0).state ≠ .hold ∧
      (ready.zoneRec 0).ceiling < 4000 ∧ (ready.sensorWatch 0).baseline = none) ∧
    (let s : Station := { ready with pw := { zones := [(0, { state := .hold, settleAt := some 0 })]
                                             sensors := [(0, { baseline := some 400, lowRun := some 0 })] } };
      s.canonical = true ∧ (s.zoneWatch 0).state = .hold ∧ (s.zoneWatch 0).persist = false ∧
      (s.sensorWatch 0).baseline = some 400 ∧ (s.sensorWatch 0).suspicion = false ∧ s.owned 0 = false ∧
      0 + (s.zoneRec 0).drop ≤ 400 ∧ (s.sensorWatch 0).lowRun = some 0) ∧
    ((lone47.zoneWatch 0).state = .quiet ∧ lone47.sensor? 47 = some ⟨⟨.a, 60⟩, 1⟩ ∧ lone47.zoneOfSegment 1 = 0 ∧
      lone47.canonical = true ∧
      (let s : Station := { ready with pw := { zones := [(0, { state := .watch, factor := 8 })] } };
        s.canonical = true ∧ (s.zoneWatch 0).state = .watch ∧ 8 ≤ (s.zoneWatch 0).factor)) ∧
    (∀ p e, (withStroke { stroke with phase := p, pendingEnd := e }).stroke? 1 =
        some { stroke with phase := p, pendingEnd := e } ∧
      (withStroke { stroke with phase := p, pendingEnd := e }).nodeOf? 1 = some ⟨.a, 1⟩ ∧
      (withStroke { stroke with phase := p, pendingEnd := e }).canonical = true) ∧
    ((withStroke stroke).exercise? 1 = none ∧ (withStroke stroke).strokeOnLine 1 = false ∧
      (strokeCalled .stroke 3 stroke).strokeOnLine 1 = true ∧
      (∀ k ∈ [0, 1, 2, 3], ((withStroke stroke).slot k).work = []) ∧ stroke.zone = 0) ∧
    (let e : Entry := { haltedEntry with state := .pending, halts := {}, residual := some 150 }
     let s := withSlot { state := .closing, work := [e] }
     let t := withSlot { state := .reopening, reopen := [e] };
      s.canonical = true ∧ t.canonical = true ∧ s.entryIn 3 false 1 = some e ∧ t.entryIn 3 true 1 = some e ∧
      (s.zoneWatch 0).factor = 1 ∧ (∀ k ∈ [0, 1, 2, 3], (s.slot k).reopen = [] ∧ (t.slot k).work = [])) ∧
    (withSlot { state := .closing, work := [haltedEntry] }).entryIn 3 false 1 = some haltedEntry :=
  ⟨⟨(free _ rfl).2, by decide⟩, by decide, by decide, by decide, fun _ _ => ⟨rfl, rfl, by rfl⟩, by decide, by decide, by decide⟩

theorem witness_TheHandshakeFollowsTheMark :
    (let s := strokeCalled .acknowledge 2 stroke;
      (host s).up ∧ s.canonical = true ∧ (s.line .a).onLine = some (.addressed 1 .acknowledge 2) ∧
      (s.node ⟨.a, 1⟩).kind ≠ .none ∧
      readAnswer? 1 .acknowledge .actuator (answer1 3#8 []) = some { state := .attend, payload := [] } ∧
      readAnswer? 1 .acknowledge .actuator (answer1 0#8 []) = some { state := .ready, payload := [] }) ∧
    (let s := strokeCalled .stroke 3 stroke;
      (s.line .a).onLine = some (.addressed 1 .stroke 3) ∧ 3 ≠ 2 ∧ s.stroke? 1 = some stroke ∧ stroke.phase = .sending ∧
      readAnswer? 1 .stroke .actuator (answer1 0#8 [1#8]) = some { state := .ready, payload := [1#8] }) ∧
    (let s := strokeCalled .detail 2 stroke; (s.line .a).onLine = some (.addressed 1 .detail 2)) ∧
    (let marked (s : Station) : Station := (s.modNode ⟨.a, 1⟩ fun e => { e with attend := true }).modLine .a (calling .acknowledge 2)
     let e : Entry := { haltedEntry with halts := { clear := true } }
     let r : Stroke := { stroke with awaitsHandshake := true }
     let s := marked (withSlot { state := .closing, work := [e] })
     let t := marked (withSlot { state := .reopening, reopen := [e] })
     let u := marked (withStroke r);
      s.canonical = true ∧ t.canonical = true ∧ u.canonical = true ∧ (s.node ⟨.a, 1⟩).attend = true ∧
      s.occupant? ⟨.a, 1⟩ = some (.valve 1) ∧ s.valve? 1 = some (actuated ⟨.a, 1⟩) ∧ s.stroke? 1 = none ∧
      s.entryIn 3 false 1 = some e ∧ t.entryIn 3 true 1 = some e ∧ (∀ j ∈ [0, 1, 2, 3], (t.slot j).work = []) ∧
      u.stroke? 1 = some r ∧ (∀ k ∈ [0, 1, 2, 3], ∀ ro, u.entryIn k ro 1 = none) ∧ (u.line .a).onLine = some (.addressed 1 .acknowledge 2)) :=
  ⟨⟨(free _ rfl).2, by decide⟩, by decide, by decide, by decide⟩

theorem witness_PositionsFollowTheDetails :
    (∀ r, (host (strokeCalled .detail 4 r)).up ∧ (strokeCalled .detail 4 r).canonical = true ∧
      ((strokeCalled .detail 4 r).line .a).onLine = some (.addressed 1 .detail 4) ∧
      (strokeCalled .detail 4 r).occupant? ⟨.a, 1⟩ = some (.valve 1) ∧
      ((strokeCalled .detail 4 r).node ⟨.a, 1⟩).kind = .actuator) ∧
    readAnswer? 1 .detail .actuator (answer1 0#8 [100#8, 255#8, 0#8, 0#8]) =
      some { state := .ready, payload := [100#8, 255#8, 0#8, 0#8] } ∧
    (ready.canonical = true ∧ ready.valve? 1 = some (actuated ⟨.a, 1⟩) ∧ (ready.vsOf 1).owner = none) ∧
    ((held 1).canonical = true ∧ 0 < ((held 1).vsOf 1).holds ∧ ((held 1).vsOf 1).position = .closed ∧
      ((held 1).vsOf 1).holds ≤ 1 ∧ ((held 1).vsOf 1).percent = some 0) ∧
    (∀ r, (stroked r {} (calling .detail 4)).MapAgrees) ∧
    (let r : Stroke := { stroke with awaitsDetail := true }
     let m : Stroke := { stroke with phase := .moving, accepted := some 0, timeout := some 400 }
     let reading (s : Station) : Station :=
       s.takeDetailInMotion 1 { state := .moving, percent := 100, torque := 0, faults := 0, localMark := false }
     let judged (s : Station) : Option Stroke :=
       ((reading s).judgeStroke 1 { state := .moving, percent := 100, torque := 0, faults := 0, localMark := false }).stroke? 1;
      (stroked r).canonical = true ∧ ((stroked r).node ⟨.a, 1⟩).presence = .present ∧ ((stroked r).node ⟨.a, 1⟩).misses < 2 ∧
      (stroked r).valve? 1 = some (actuated ⟨.a, 1⟩) ∧ ((stroked r).vsOf 1).owner ≠ none ∧
      judged (stroked r) = some { r with gotPercent := true } ∧ judged (stroked m) = some { m with gotPercent := true } ∧
      (((reading (stroked m)).judgeStroke 1
        { state := .fault, percent := 100, torque := 0, faults := 0, localMark := false }).stroke? 1) = none) ∧
    (lone1.stroke? 1 = none ∧ (lone1.vsOf 1).owner = none ∧ (lone1.vsOf 1).request = false ∧
      readAnswer? 1 .poll .actuator (answer1 2#8 []) = some { state := .fault, payload := [] } ∧
      readAnswer? 1 .poll .actuator (answer1 0#8 []) = some { state := .ready, payload := [] }) :=
  ⟨fun _ => ⟨(free _ rfl).2, by rfl, rfl, by rfl, by rfl⟩, by decide, by decide, by decide,
    fun r => stroked_map r _ _, by decide, by decide⟩

/-- A slot in PLANNED with the burst segment 0. -/
def planned : Slot := { state := .planned, burst := [0], deadline := some 6000 }

theorem witness_OpenIncidentTakesTheHeadOfTheFreeList :
    ready.segment? 510 = none ∧ (ready.segment? 0).isSome ∧ (withSlot planned).owner? 0 = some 3 ∧ ready.owner? 0 = none ∧
    ready.im.freeList = [0, 1, 2, 3] ∧ ready.ip.flight = none ∧ ready.ip.queue = [] ∧ (∀ k, k < 4 → 0 ∉ (ready.slot k).burst) ∧
    (({ ready with im := { slots := [(3, planned)], freeList := [] } } : Station).im.freeList = [] ∧
      0 ∈ (({ ready with im := { slots := [(3, planned)], freeList := [] } } : Station).slot 3).burst ∧
      ∀ j, j < 3 → 0 ∉ (({ ready with im := { slots := [(3, planned)], freeList := [] } } : Station).slot j).burst) ∧
    (∃ f, ({ ready with ip := { flight := some { slot := 3, seed := [] } } } : Station).ip.flight = some f ∧ f.slot ≠ 0) := by
  refine ⟨by decide, by decide, by decide, by decide, by decide, by decide, by decide, by decide, by decide, ⟨_, rfl, by decide⟩⟩

/-- An entry that a barrier of the region needs no stroke for. -/
def closedEntry : Entry := { valve := 0, kind := .alreadyClosed, state := .alreadyClosed }

/-- An entry of actuated valve 767 that awaits its authorization. -/
def proposed : Entry := { valve := 767, kind := .actuated, state := .proposed, tcmd := 200 }

/-- Slot 3 in PLANNED over a closed crew valve 0. -/
def closedPlan : Station :=
  { withSlot { planned with work := [closedEntry] } with vs := [(0, { position := .closed, percent := some 0 })] }

theorem witness_AuthorizeSetsThePlanToWork :
    ((host (withSlot planned)).taking ∧ ((withSlot planned).slot 3).state = .planned ∧ (ready.slot 3).state ≠ .planned ∧
      (withSlot planned).canonical = true ∧ ((withSlot { planned with overrideRequired := true }).slot 3).overrideRequired = true) ∧
    (let s := withSlot { planned with work := [proposed, { closedEntry with offNormal := true }] };
      (host s).taking ∧ s.canonical = true ∧ (s.slot 3).Agrees ∧ proposed ∈ (s.slot 3).work ∧
      s.valve? 767 = some (actuated ⟨.b, 60⟩) ∧ s.valve? 0 = some crew ∧ (s.vsOf 0).position ≠ .closed ∧
      (s.vsOf 0).position ≠ .unknown) ∧
    (let s := withSlot { planned with work := [{ proposed with valve := 0, kind := .crew }] };
      (host s).taking ∧ s.canonical = true ∧ (s.slot 3).Agrees ∧ (s.slot 3).replanPending = false ∧
      ∃ e ∈ (s.slot 3).work, e.state = .proposed ∧ e.kind = .crew) ∧
    ((host closedPlan).taking ∧ closedPlan.ss.station = .ready ∧ closedPlan.canonical = true ∧
      (closedPlan.slot 3).state = .planned ∧ (closedPlan.slot 3).replanPending = false ∧
      (closedPlan.slot 3).overrideRequired = false ∧ closedEntry ∈ (closedPlan.slot 3).work ∧
      (∀ e ∈ (closedPlan.slot 3).work, e.state = .alreadyClosed ∧ e.offNormal = false ∧
        (closedPlan.vsOf e.valve).position = .closed) ∧ (closedPlan.slot 3).Agrees ∧ closedPlan.FactorsReturned) := by
  refine ⟨⟨(free _ rfl).1, by decide⟩, ⟨(free _ rfl).1, by decide, ?_, by decide⟩, ⟨(free _ rfl).1, by decide, ?_, by decide⟩,
    (free _ rfl).1, rfl, by decide, by decide, by decide, by decide, by decide, by decide, ?_, fun _ _ _ _ => rfl⟩ <;>
    constructor <;> decide

theorem witness_slot_states (st : SlotState) :
    (host (withSlot { state := st })).taking ∧ (withSlot { state := st }).ss.station = .ready ∧
    (st ≠ .free → (withSlot { state := st }).canonical = true ∧ ((withSlot { state := st }).slot 3).state = st) :=
  ⟨(free _ rfl).1, rfl, by cases st <;> decide⟩

theorem witness_AbortStopsAnIncident :
    SlotState.done ∈ ([.free, .isolated, .aborted, .done] : List SlotState) ∧
    SlotState.planned ∈ ([.planning, .planned] : List SlotState) ∧
    SlotState.closing ∈ ([.closing, .unisolable] : List SlotState) ∧
    (entryOf? ((withSlot { state := .closing, work := [crewEntry] }).slot 3).work 0 = some crewEntry ∧
      Station.inProgress crewEntry = true) ∧
    (entryOf? ((withSlot { state := .reopening, reopen := [haltedEntry] }).slot 3).reopen 1 = some haltedEntry ∧
      Station.inProgress haltedEntry = true) := by decide

/-- The phases in which ABORT and RELEASE find a stroke of slot 3, retained or not. -/
theorem witness_Drops :
    (∀ r q f, (stroked r q f).MapAgrees) ∧
    ∀ o ∈ ([.closeEntry 3, .reopenEntry 3] : List Owner), ∀ retained ∈ [false, true],
      let r : Stroke := { stroke with owner := o, retained }
      (∀ st ∈ ([.closing, .unisolable, .reopening, .isolated, .aborted] : List SlotState),
        (stroked r { state := st }).canonical = true ∧ ((stroked r { state := st }).slot 3).state = st) ∧
      (∀ x ∈ ([{ r with phase := .moving }, { r with phase := .halting, pendingEnd := some (.halted .surge) }, r] : List Stroke),
        (stroked x).stroke? 1 = some x ∧ (stroked x).nodeOf? 1 = some ⟨.a, 1⟩ ∧ (stroked x).strokeOnLine 1 = false) ∧
      (stroked r {} (calling .stroke 3)).strokeOnLine 1 = true ∧ ∀ q ∈ (stroked stroke).md.strokes, q.owner ≠ o :=
  ⟨stroked_map, by decide⟩

theorem witness_ReleaseBeginsTheReopening :
    (SlotState.isolated ∈ ([.isolated, .unisolable, .aborted] : List SlotState) ∧
      SlotState.closing ∉ ([.isolated, .unisolable, .aborted] : List SlotState) ∧
      ((withSlot { state := .unisolable }).slot 3).closedBy = [] ∧ ((withSlot { state := .unisolable }).slot 3).work = [] ∧
      ((withSlot { state := .unisolable }).slot 3).reopen = [] ∧ (withSlot { state := .unisolable }).md.strokes = [] ∧
      (withSlot { state := .unisolable }).ip.flight = none) ∧
    (let s := withSlot { state := .unisolable, authorized := some 0, work := [crewEntry], closedBy := [0, 767] };
      (host s).taking ∧ s.canonical = true ∧ (s.slot 3).Agrees ∧ crewEntry ∈ (s.slot 3).work ∧
      ∀ v ∈ (s.slot 3).closedBy, (s.valve? v).isSome = true) := by
  refine ⟨by decide, (free _ rfl).1, by decide, ?_, by decide⟩
  constructor <;> decide

theorem witness_CloseIncidentFreesTheSlot :
    ((host {}).taking ∧ ({} : Station).canonical = true ∧ ({} : Station).ss.station ≠ .ready) ∧
    ((withSlot { state := .aborted }).slot 3).closedBy = [] ∧
    ((withSlot { state := .aborted, closedBy := [0] }).slot 3).closedBy ≠ [] := ⟨⟨(free _ rfl).1, by decide⟩, by decide⟩

theorem witness_APlanExpiresAtItsDeadline :
    (host (withSlot planned)).up ∧ (withSlot planned).canonical = true ∧ ((withSlot planned).slot 3).state = .planned ∧
    ((withSlot planned).slot 3).deadline = some 6000 ∧ ((withSlot planned).slot 0).state ≠ .planned :=
  ⟨(free _ rfl).2, by decide⟩

/-- Slot 3 in PLANNING, its computation in flight. -/
def computing (f : Flight) (st : SlotState) (n : Nat) : Station :=
  { ready with im := { slots := [(3, { state := st, burst := [n], authorized := some 0 })], freeList := [0, 1, 2] }, ip := { flight := some f } }

/-- The computation is neither stale nor cancelled. -/
def flight (n : Nat) : Flight := { slot := 3, seed := [n] }

/-- A round ends with a plan. -/
def isPlan : RoundEnd → Bool
  | .plan _ => true
  | _ => false

/-- A round ends UNISOLABLE. -/
def isUnisolable : RoundEnd → Bool
  | .unisolable _ _ => true
  | _ => false

/-- Slot 2 in PLANNED over segment 1, slot 3 in PLANNING with a burst in the same segment. -/
def merging : Station :=
  { ready with
    im := { slots := [(2, { state := .planned, burst := [1], region := [1], overrideRequired := true }), (3, { state := .planning, burst := [1] })]
            freeList := [0, 1], owner := [(1, 2)] }
    ip := { flight := some (flight 1) } }

/-- A station whose table holds no valve, with this segment 0, these slots and no segment owned. -/
def bare (r : Segment) (slots : Table Slot) : Station := { nt := { segments := [(0, r)] }, im := { slots, freeList := [] } }

/-- This many crew valves, each open, between segments 0 and 1, and this closed-by list in slot 3. -/
def crews (n : Nat) (closed : List Nat) : Station :=
  { nt := { segments := [(0, segment), (1, segment)], valves := (List.range n).map fun v => (v, crew) }
    vs := (List.range n).map fun v => (v, { position := .opened, percent := some 100 })
    im := { slots := [(3, { state := .planning, burst := [0], closedBy := closed })], freeList := [0, 1, 2] } }

/-- Where no valve of the table is PASSABLE the region of ascending seeds is the seeds. -/
theorem region_is_seed (s : Station) (ns : List Nat) (hw : Table.wf s.nt.valves = true) (hn : ns.Pairwise (· < ·))
    (h : ∀ p ∈ s.nt.valves, usability? s p.1 ≠ some .passable) :
    Listed (s.Reaches (fun v => usability? s v = some .passable) (· ∈ ns)) ns :=
  Station.listed_starts hn fun v r hv => h _ ((Table.find_iff_mem _ hw v r).1 hv)

/-- The premise on what is cut off is met: with segment 0 isolated the source supplies segment 1 across valve 1 still. -/
theorem witness_nothing_is_cut_off :
    let s := computing (flight 0) .planning 0
    let passes (v : Nat) : Prop := (s.vsOf v).position ∈ ([.opened, .partway, .closing, .opening] : List Position)
    let shut (v : Nat) : Prop := ∃ r, s.valve? v = some r ∧
      (([0].contains r.sideA != [0].contains r.sideB) && decide (usability? s v = some .closable)) = true
    let supplied (n : Nat) : Prop := (∃ g, s.segment? n = some g ∧ g.source = true) ∧ s.owner? n = none
    Listed (fun n => s.Reaches passes supplied n ∧ ¬ s.Reaches (fun v => passes v ∧ ¬ shut v) supplied n ∧ n ∉ [0] ∧
      s.owner? n = none) [] := by
  intro s passes shut supplied
  have h0 : ∀ n, supplied n → n = 511 := fun n ⟨⟨g, hg, hs⟩, _⟩ => by
    have hm : (n, g) ∈ net.segments := (Table.find_iff_mem _ (by decide) n g).1 hg
    simp only [net, List.mem_cons, List.not_mem_nil, or_false, Prod.mk.injEq] at hm
    rcases hm with ⟨rfl, rfl⟩ | ⟨rfl, rfl⟩ | ⟨rfl, rfl⟩ | ⟨rfl, rfl⟩
    · exact absurd hs (by decide)
    · exact absurd hs (by decide)
    · exact absurd hs (by decide)
    · rfl
  have h1 : s.Reaches (fun v => passes v ∧ ¬ shut v) supplied 511 := .start ⟨⟨_, rfl, rfl⟩, rfl⟩
  refine ⟨List.Pairwise.nil, fun n => ⟨fun h => absurd h List.not_mem_nil, fun ⟨h, h2, h3, _⟩ => ?_⟩⟩
  have hs : n = 0 ∨ n = 1 ∨ n = 511 := Station.Reaches.within (P := fun n => n = 0 ∨ n = 1 ∨ n = 511)
    (fun n h => Or.inr (Or.inr (h0 n h))) (fun v r hv _ => by
    have hm : (v, r) ∈ net.valves := (Table.find_iff_mem _ (by decide) v r).1 hv
    simp only [net, List.mem_cons, List.not_mem_nil, or_false, Prod.mk.injEq] at hm
    rcases hm with ⟨rfl, rfl⟩ | ⟨rfl, rfl⟩ | ⟨rfl, rfl⟩ <;> decide) n h
  rcases hs with rfl | rfl | rfl
  · exact absurd (List.mem_singleton.2 rfl) h3
  · exact absurd (.across (v := 1) h1 rfl ⟨by decide, fun ⟨r, hr, hc⟩ => by cases hr; revert hc; decide⟩
      (.inr ⟨rfl, rfl⟩)) h2
  · exact absurd h1 h2

/-- An entry of a plan for this valve. -/
def planEntry (v : Nat) (k : EntryKind) : PlanEntry := { valve := v, kind := k, tcmd := 200, limited := true }

/-- A replan of slot 3 in CLOSING: one kept entry in each kind of state, one FAILED, one dropped in CREW_WAIT. -/
def replanning (r : List Stroke) : Station :=
  { withSlot { state := .closing, authorized := some 0, burst := [0], closedBy := [1]
               work := [{ pendingEntry with state := .stroking }, { pendingEntry with valve := 2, state := .halted, halts := { host := true } },
                 { pendingEntry with valve := 767, state := .failed }, crewEntry] }
    with md := { strokes := r } }

theorem witness_ACompletionDiscardsRequeuesOrApplies :
    ((host (computing (flight 0) .planning 0)).up ∧ (computing (flight 0) .planning 0).ip.flight = some (flight 0) ∧
      (flight 0).slot ∉ (computing (flight 0) .planning 0).ip.queue ∧
      ({ flight 0 with cancel := true } : Flight).cancel = true ∧ ({ flight 0 with stale := true } : Flight).stale = true ∧
      isPlan ((computing (flight 0) .planning 0).endedRound (flight 0)) = true ∧
      ((computing (flight 0) .planning 0).slot 3).state = .planning ∧
      isPlan ((computing (flight 0) .closing 0).endedRound (flight 0)) = true ∧
      ((computing (flight 0) .closing 0).slot 3).state = .closing ∧
      isUnisolable ((computing (flight 511) .planning 511).endedRound (flight 511)) = true) ∧
    ((host merging).up ∧ merging.endedRound (flight 1) = .merge 2) ∧ ready.canonical = true ∧
    (let s := replanning [];
      s.canonical = true ∧ (s.slot 3).state = .closing ∧ s.md.strokes = [] ∧
      ([planEntry 1 .actuated, planEntry 2 .actuated, planEntry 767 .actuated].map (·.valve)).Nodup ∧
      entryOf? (s.slot 3).work 0 = some crewEntry) ∧
    (let r : Stroke := { stroke with owner := .closeEntry 3 }
     let s := (replanning [r]).modVs 1 fun d => { d with owner := some (.closeEntry 3) };
      s.canonical = true ∧ s.stroke? 1 = some r ∧ (s.vsOf 1).owner = some r.owner ∧ s.exercise? 1 = none) :=
  ⟨⟨(free _ rfl).2, by decide⟩, ⟨(free _ rfl).2, by decide⟩, by decide, by decide, by decide⟩

/-- Each way in which a round ends: past 48 segments, past a union of 4 and at it, at a barred source, past 40 closable
valves, past 96 closed-by valves, and with a plan. -/
theorem witness_a_round_ends :
    (let s := bare segment [(3, { state := .planning })];
      s.canonical = true ∧ (∀ n, Listed (s.Reaches (fun v => usability? s v = some .passable) (· ∈ List.range n)) (List.range n)) ∧
      48 < (List.range 49).length ∧ (List.range 48).length ≤ 48) ∧
    (∀ ns ∈ ([[4, 5, 0], [4, 0]] : List (List Nat)),
      let s := bare segment [(2, { state := .planned, burst := ns }), (3, { state := .planning, burst := [0, 1, 2] })];
      s.canonical = true ∧ (flight 0).cancel = false ∧ 0 ∈ (s.slot 2).burst ∧ (s.slot 2).state = .planned ∧
      (∀ i ∈ [0, 1], (s.slot i).state = .free) ∧ (4 < (unionList ns [0, 1, 2]).length ↔ ns.length = 3)) ∧
    (let s := bare { segment with source := true } [(3, { state := .closing, authorized := some 0, burst := [0] })];
      s.canonical = true ∧ (s.slot 3).authorized.isSome ∧ (s.slot 3).overrideMark = false ∧
      ([0].countP fun n => (s.segment? n).any (·.source)) = 1) ∧
    (∀ p ∈ ([(41, []), (1, (List.range 96).map (· + 1))] : List (Nat × List Nat)), let s := crews p.1 p.2;
      s.canonical = true ∧ Listed (s.Reaches (fun v => usability? s v = some .passable) (· ∈ (flight 0).seed)) [0] ∧
      isUnisolable (s.round (flight 0)) = true) ∧
    (let s := computing (flight 0) .planning 0;
      s.canonical = true ∧ Listed (s.Reaches (fun v => usability? s v = some .passable) (· ∈ (flight 0).seed)) [0]) := by
  refine ⟨⟨by decide, fun _ => region_is_seed _ _ rfl List.pairwise_lt_range (by decide), by decide⟩, by decide, by decide, ?_, by decide, region_is_seed _ _ (by decide) (by decide) (by decide)⟩
  intro p hp
  simp only [List.mem_cons, List.not_mem_nil, or_false] at hp
  rcases hp with rfl | rfl
  · exact ⟨by decide, region_is_seed _ _ (by decide) (by decide) (by decide), by decide⟩
  · exact ⟨by decide, region_is_seed _ _ (by decide) (by decide) (by decide), by decide⟩

/-- The same with slot 3 withdrawn from the planner. -/
def mergingAborted : Station :=
  { merging with
    im := { merging.im with slots :=
      [(2, { state := .planned, burst := [1], region := [1] }), (3, { state := .aborted, burst := [1] })] } }

theorem witness_AMergeJoinsTwoSlots :
    ((host merging).up ∧ merging.canonical = true ∧ merging.ip.flight = some (flight 1) ∧ merging.round (flight 1) = .merge 2 ∧
      (merging.slot (flight 1).slot).state = .planning ∧ (merging.slot 2).closedBy.Nodup ∧
      (merging.slot 2).failed ++ (merging.slot 3).failed = [] ∧ merging.md.strokes = [] ∧
      (merging.slot 2).overrideRequired = true) ∧
    ((host mergingAborted).up ∧ mergingAborted.canonical = true ∧ mergingAborted.ip.flight = some (flight 1) ∧
      mergingAborted.round (flight 1) = .merge 2 ∧ (mergingAborted.slot (flight 1).slot).state ≠ .planning ∧
      (mergingAborted.slot (flight 1).slot).state ≠ .closing) :=
  ⟨⟨(free _ rfl).2, by decide⟩, (free _ rfl).2, by decide⟩

theorem witness_ASupplyWarningStopsStarts :
    (host ready).up ∧ ready.supplyWarning = false ∧
    ((host { ready with supplyWarning := true }).up ∧ ({ ready with supplyWarning := true } : Station).supplyWarning = true) ∧
    ((host (withStroke stroke)).up ∧ (withStroke stroke).canonical = true ∧ (withStroke stroke).stroke? 1 = some stroke ∧
      (withStroke stroke).nodeOf? 1 = some ⟨.a, 1⟩ ∧ (withStroke stroke).strokeOnLine 1 = false ∧
      ((withStroke stroke).modLine .a fun x => { x with onLine := some (.addressed 1 .stroke 3) }).strokeOnLine 1 = true ∧
      (withStroke { stroke with phase := .moving }).stroke? 1 = some { stroke with phase := .moving } ∧
      (withStroke warnedStroke).stroke? 1 = some warnedStroke ∧
      (withStroke { stroke with pendingEnd := some (.failed .stall) }).stroke? 1 =
        some { stroke with pendingEnd := some (.failed .stall) }) ∧
    (let e : Entry := { haltedEntry with halts := { supply := true } }
     let s : Station := { withSlot { state := .closing, work := [e] } with supplyWarning := true }
     let t : Station := { withSlot { state := .reopening, reopen := [e] } with supplyWarning := true }
     (host s).up ∧ (host t).up ∧ s.canonical = true ∧ t.canonical = true ∧ s.valve? 1 = some (actuated ⟨.a, 1⟩) ∧
      s.stroke? 1 = none ∧ entryOf? (s.slot 3).work 1 = some e ∧ entryOf? (t.slot 3).reopen 1 = some e ∧
      ∀ k ∈ [0, 1, 2, 3], (t.slot k).work = []) :=
  ⟨(free _ rfl).2, rfl, ⟨(free _ rfl).2, rfl⟩, ⟨(free _ rfl).2, by decide⟩, (free _ rfl).2, (free _ rfl).2, by decide⟩

/-- Zone 0 in WATCH, its sensors with no SAMPLE due time. -/
def watching : Station := { ready with pw := { zones := [(0, { state := .watch })] } }

/-- PUT_SENSOR onto a segment of a zone in WATCH: the sensor is called in class 5 (R133), and due a second later. -/
theorem test_sensor_placed_in_watch_is_sampled :
    ((watching.startCall .a).line .a).onLine = some (.addressed 2 .sample 5) ∧
    (((watching.startCall .a).completeCall ⟨.a, 2⟩ 5).node ⟨.a, 2⟩).sampleDue = some 10 := by decide

theorem witness_AFreeLineStartsTheFirstClass :
    ((host (lineOn fun x => { x with broadcasts := [.halt] })).up ∧ ready.lineA.started = true ∧ ready.lineA.onLine = none ∧
      ready.lineA.broadcasts = [] ∧ ready.lineA.halts = [] ∧ ready.supplyWarning = false) ∧
    ((lineOn fun x => { x with halts := [60] }).lineA.halts = [60] ∧
      ((nodes [(60, { presence := .present, attend := true })]).node ⟨.a, 60⟩).attend = true) ∧
    ((lineOn fun x => { x with strokes := [1] }).lineA.strokes = [] ++ 1 :: [] ∧
      ((lineOn fun x => { x with strokes := [1] }).node ⟨.a, 1⟩).attend = false) ∧
    (((nodes [(1, { kind := .actuator, presence := .present, detailDue := some 0 })]).node ⟨.a, 1⟩).detailDue.map
        (fun t => if clockReached 0 t ∧ 5 ≤ clockSince 0 t then 0 else t) = some 0 ∧ clockReached 0 0 = true) ∧
    ((watching.node ⟨.a, 2⟩).kind = .sensor ∧ watching.sampledFast ⟨.a, 2⟩ = true ∧
      (watching.node ⟨.a, 2⟩).sampleDue.getD 0 = 0 ∧
      ((nodes [(2, { kind := .sensor, rollDue := some 0 })]).node ⟨.a, 2⟩).rollDue = some 0 ∧
      ready.sampledFast ⟨.a, 2⟩ = false) ∧ ((host {}).up ∧ ¬ (({} : Station).lineA.started = true)) ∧
    ((host ready).up ∧ (ready.node ⟨.a, 1⟩).detailDue = none ∧
      ((nodes [(60, { detailDue := some 4, sampleDue := some 4, rollDue := some 4 })]).node ⟨.a, 60⟩).rollDue = some 4) :=
  ⟨⟨(free _ rfl).2, by decide⟩, by decide, by decide, by decide, by decide, ⟨(free _ rfl).2, by decide⟩, (free _ rfl).2, by decide⟩

/-- Sensor 47, of a zone in WATCH, has been called in class 5. -/
def sampling : Station :=
  ({ lone47 with pw := { zones := [(0, { state := .watch })] } } : Station).modLine .a fun x =>
    { x with onLine := some (.addressed 60 .sample 5) }

theorem witness_AnAnswerOrItsAbsenceIsTaken :
    ((host ready).up ∧ ∀ a call cls, (ready.line .a).onLine ≠ some (.addressed a call cls)) ∧
    ((host called).up ∧ called.canonical = true ∧ (called.line .a).onLine = some (.addressed 2 .sample 6) ∧
      (called.node ⟨.a, 2⟩).kind ≠ .none ∧ readAnswer? 2 .sample .sensor [] = none ∧
      readAnswer? 2 .sample .sensor answer = some { state := .ready, payload := [0#8, 0#8] }) ∧
    (((nodes [(2, { kind := .sensor, presence := .absent })]).node ⟨.a, 2⟩).presence = .absent ∧
      (called.node ⟨.a, 3⟩).kind = .none ∧ 2 ≤ ((nodes [(2, { kind := .sensor, misses := 2 })]).node ⟨.a, 2⟩).misses ∧
      ((nodes [(2, { kind := .sensor, misses := 2 })]).node ⟨.a, 2⟩).presence ≠ .absent) ∧
    ((host sampling).up ∧ sampling.canonical = true ∧ sampling.MapAgrees ∧
      (sampling.line .a).onLine = some (.addressed 60 .sample 5) ∧ sampling.sampledFast ⟨.a, 60⟩ = true ∧
      (sampling.node ⟨.a, 60⟩).kind ≠ .none) ∧
    (∀ call ∈ ([.halt, .stroke] : List CallKind), ∀ misses ∈ [0, 2],
      let r : Stroke := { stroke with phase := .halting, pendingEnd := some (.halted .host) }
      let s := (stroked r {} (calling call 0)).modNode ⟨.a, 1⟩ fun e => { e with misses };
      s.canonical = true ∧ (s.line .a).onLine = some (.addressed 1 call 0) ∧ s.occupant? ⟨.a, 1⟩ = some (.valve 1) ∧
      s.stroke? 1 = some r ∧ (s.node ⟨.a, 1⟩).misses = misses ∧ (s.node ⟨.a, 1⟩).presence = .present ∧
      (s.node ⟨.a, 1⟩).kind ≠ .none) ∧
    (lone1.stroke? 1 = none ∧ readAnswer? 1 .halt .actuator (answer1 1#8 []) = some { state := .moving, payload := [] } ∧
      (nodes [(2, { kind := .sensor, misses := 2 })]).occupant? ⟨.a, 2⟩ = some (.sensor 0)) :=
  ⟨⟨(free _ rfl).2, fun _ _ _ => by simp [ready, Station.line]⟩, ⟨(free _ rfl).2, by decide⟩, by decide,
    ⟨(free _ rfl).2, by decide, ⟨lone47_map.valves, lone47_map.sensors, lone47_map.valve, lone47_map.sensor⟩, by decide⟩,
    by decide, by decide⟩

/-- The ends of the ranges of R2, R4 and R145 meet the hypotheses on a stroke's inputs. -/
theorem witness_TheTwoBoundsOfAStrokeTime :
    1 ≤ 20000 ∧ 20000 ≤ 20000 ∧ 300 ≤ 1400 ∧ 1400 ≤ 1400 ∧ 5000 ≤ 5000 ∧ 10 ≤ 1000 ∧ 1000 ≤ 1000 := by decide

theorem witness_StrokeTimesAndTheirShares :
    (10 ≤ 36000 ∧ 36000 ≤ 36000 ∧ 8 ∈ ([1, 2, 4, 8] : List Nat) ∧ (profile 1 1400 0 1000 10 10 1).limited = false ∧
      (profile 20000 300 5000 10 10 10 8).limited = true ∧
      (profile 20000 300 0 10 10 10 1).tcmd < (profile 20000 300 0 10 10 10 1).tcrit) ∧
    (100 ≤ 100 ∧ 10 ≤ 10 ∧ 4000 ≤ 4000 ∧ (0 : Nat) ≤ 15 + 15 ∧ (15 : Nat) ≤ 0 + 15) := by decide

/-- The hypotheses of the seven statements on every step hold together at reset, and a step follows. -/
theorem witness_every_step : ∃ t, step State.reset = .next t ∧ State.reset.st.canonical = true ∧
    State.reset.st.factorsOk = true ∧ State.reset.linkOk = true ∧ State.reset.st.SlotsOk ∧ State.reset.st.HoldsCounted ∧
    State.reset.st.FactorsReturned ∧ State.reset.st.MapAgrees := by
  refine ⟨_, rfl, by decide, by decide, by decide, ?_, fun _ => rfl, fun _ _ _ _ => rfl, ?_⟩
  · have h : ∀ k, State.reset.st.slot k = {} := fun _ => rfl
    exact ⟨fun k => h k ▸ (by constructor <;> decide), fun k _ => h k, fun _ k => h k,
      fun k => by rw [h]; simp [State.reset]; omega, by decide⟩
  · constructor <;> simp [State.reset, Station.valve?, Station.sensor?, Station.occupant?, Table.find?]

end Sys2Proof.Tests
end

section
/-! Proofs of the profile arithmetic (04): the rounded-up quotient as the least sufficient number, and the two bounds of a
stroke time (R70) as instances of it. -/

namespace Sys2Proof.Machine

/-! The quotient rounded up. -/

/-- The defining equivalence of the rounded-up quotient: the facts below are its instances. -/
theorem ceilDiv_le_iff {x y u : Nat} (hy : 0 < y) : ceilDiv x y ≤ u ↔ x ≤ u * y := by
  unfold ceilDiv
  rw [Nat.div_le_iff_le_mul_add_pred hy, Nat.mul_comm y u]
  omega

theorem le_ceilDiv_mul (x : Nat) {y : Nat} (hy : 0 < y) : x ≤ ceilDiv x y * y :=
  (ceilDiv_le_iff hy).mp (Nat.le_refl _)

theorem ceilDiv_least (x : Nat) {y : Nat} (hy : 0 < y) :
    x ≤ ceilDiv x y * y ∧ ∀ u, x ≤ u * y → ceilDiv x y ≤ u :=
  ⟨le_ceilDiv_mul x hy, fun _ hu => (ceilDiv_le_iff hy).mpr hu⟩

theorem ceilDiv_pos {x y : Nat} (hx : 0 < x) (hy : 0 < y) : 0 < ceilDiv x y :=
  Nat.pos_of_mul_pos_right (Nat.lt_of_lt_of_le hx (le_ceilDiv_mul x hy))

theorem ceilDiv_zero_left {y : Nat} (hy : 0 < y) : ceilDiv 0 y = 0 :=
  Nat.le_zero.mp ((ceilDiv_le_iff hy).mpr (Nat.zero_le _))

/-! The critical period and the slow-closure time within the ranges of R2 and R4. -/

theorem criticalPeriod_pos {L a : Nat} (hL : 1 ≤ L) (ha : 300 ≤ a) : 1 ≤ criticalPeriod L a :=
  ceilDiv_pos (by omega) (by omega)

theorem criticalPeriod_le {L a : Nat} (hL : L ≤ 20000) (ha : 300 ≤ a) : criticalPeriod L a ≤ 1334 :=
  (ceilDiv_le_iff (by omega)).mpr (by omega)

/-- The range of the slow-closure time's numerator. -/
theorem slowClosure_numerator_le {L v : Nat} (hL : L ≤ 20000) (hv : v ≤ 5000) : 20 * L * v ≤ 2000000000 :=
  calc 20 * L * v ≤ (20 * 20000) * 5000 := Nat.mul_le_mul (Nat.mul_le_mul_left 20 hL) hv
    _ = 2000000000 := rfl

theorem slowClosure_le {L v hmax : Nat} (hL : L ≤ 20000) (hv : v ≤ 5000) (hh : 10 ≤ hmax) :
    slowClosure L v hmax ≤ 203874 := by
  have hnum := slowClosure_numerator_le hL hv
  exact (ceilDiv_le_iff (by omega)).mpr (by omega)

theorem slowClosure_at_rest (L : Nat) {hmax : Nat} (hh : 10 ≤ hmax) : slowClosure L 0 hmax = 0 :=
  ceilDiv_zero_left (by omega)

/-- Settles O52: both bounds are rounded-up quotients, so each is the least sufficient number of tenths, and a range's
upper end is shown by its product with the least divisor reaching the largest dividend. -/
theorem theTwoBoundsOfAStrokeTime : Obligations.TheTwoBoundsOfAStrokeTime := by
  unfold Obligations.TheTwoBoundsOfAStrokeTime
  intro L a v hmax hL1 hL ha1 ha hv hh1 hh least
  have hnum : 20 * L * v ≤ 2000000000 := slowClosure_numerator_le hL hv
  have hcrit : least (criticalPeriod L a) (20 * L) a := ceilDiv_least _ (by omega)
  have hslow : least (slowClosure L v hmax) (20 * L * v) (981 * hmax) := ceilDiv_least _ (by omega)
  exact ⟨hnum, by omega, by omega, by omega,
    hcrit, criticalPeriod_pos hL1 ha1, criticalPeriod_le hL ha1, rfl, by decide, by decide,
    hslow, slowClosure_le hL hv hh1, rfl, slowClosure_at_rest L hh1, by decide, by omega⟩

end Sys2Proof.Machine
end

section
/-! Proof of CLOSE_INCIDENT (05): what freeing a slot and clearing its ownership write and leave, the decision for each
kind of slot, and R104 as their assembly. -/

namespace Sys2Proof.Machine

namespace Station

variable {s : Station} {k : Nat}

/-! A slot is freed (R81, R82). -/

theorem slot_freeSlot (c : s.canonical = true) (j : Nat) : (s.freeSlot k).slot j = if j = k then {} else s.slot j :=
  slot_modSlot c k j fun _ => {}

@[simp] theorem freeSlot_freeList : (s.freeSlot k).im.freeList = s.im.freeList ++ [k] := rfl
@[simp] theorem freeSlot_owner? (m : Nat) : (s.freeSlot k).owner? m = s.owner? m := rfl
@[simp] theorem freeSlot_ip : (s.freeSlot k).ip = s.ip := rfl

/-- Freeing a slot writes the incident manager alone. -/
theorem freeSlot_eq : s.freeSlot k = { s with im := (s.freeSlot k).im } := rfl

/-! A slot's ownership is cleared (R83), and a computation in flight for another slot may become stale (R64). -/

theorem clearOwnership_cases (s : Station) (k : Nat) :
    s.clearOwnership k = (s.dropOwnership k).markStale ∨ s.clearOwnership k = s.dropOwnership k := by
  unfold clearOwnership
  exact ite_eq_or_eq _ _ _

/-- The segments of the slot leave the ownership map; beyond that only the planner can change. -/
theorem clearOwnership_eq : s.clearOwnership k = { s.dropOwnership k with ip := (s.clearOwnership k).ip } := by
  obtain h | h := clearOwnership_cases s k
  · rw [h]; rfl
  · rw [h]

@[simp] theorem clearOwnership_queue : (s.clearOwnership k).ip.queue = s.ip.queue := by
  obtain h | h := clearOwnership_cases s k
  · rw [h]; rfl
  · rw [h]; rfl

theorem clearOwnership_im : (s.clearOwnership k).im = (s.dropOwnership k).im := by
  rw [clearOwnership_eq]

@[simp] theorem clearOwnership_freeList : (s.clearOwnership k).im.freeList = s.im.freeList := by
  rw [clearOwnership_im, dropOwnership]

@[simp] theorem clearOwnership_slot (j : Nat) : (s.clearOwnership k).slot j = s.slot j := by
  rw [slot, clearOwnership_im, dropOwnership, slot]

theorem canonical_clearOwnership (c : s.canonical = true) : (s.clearOwnership k).canonical = true :=
  (Frame.clearOwnership k (Frame.refl (b := 2) s) (Nat.le_refl 2)).safe.canonical c

theorem owner?_clearOwnership (c : s.canonical = true) (m : Nat) :
    (s.clearOwnership k).owner? m = if s.owner? m = some k then none else s.owner? m := by
  have hw : Table.wf s.im.owner = true := by
    rw [canonical_iff] at c
    obtain ⟨-, -, -, -, -, -, -, howner, -⟩ := c
    exact howner
  rw [owner?, clearOwnership_im, dropOwnership, Table.find_filter _ hw, owner?]
  cases s.im.owner.find? m with
  | none => rfl
  | some j => by_cases hj : j = k <;> simp [Option.filter, hj]

/-! The decision (R104). -/

/-- The slot is finished: DONE, or ABORTED with no closed-by valve left. -/
def Finished (s : Station) (k : Nat) : Prop :=
  (s.slot k).state = .done ∨ ((s.slot k).state = .aborted ∧ (s.slot k).closedBy = [])

/-- The station once the ownership of an ABORTED slot has been cleared. -/
def disowned (s : Station) (k : Nat) : Station := if (s.slot k).state = .aborted then s.clearOwnership k else s

theorem disowned_cases (s : Station) (k : Nat) :
    ((s.slot k).state = .aborted ∧ s.disowned k = s.clearOwnership k) ∨ ((s.slot k).state ≠ .aborted ∧ s.disowned k = s) := by
  by_cases h : (s.slot k).state = .aborted
  · exact .inl ⟨h, if_pos h⟩
  · exact .inr ⟨h, if_neg h⟩

theorem canonical_disowned (c : s.canonical = true) : (s.disowned k).canonical = true := by
  obtain ⟨-, h⟩ | ⟨-, h⟩ := disowned_cases s k
  · rw [h]
    exact canonical_clearOwnership c
  · rw [h]
    exact c

@[simp] theorem disowned_slot (j : Nat) : (s.disowned k).slot j = s.slot j := by
  obtain ⟨-, h⟩ | ⟨-, h⟩ := disowned_cases s k <;> simp [h]

@[simp] theorem disowned_freeList : (s.disowned k).im.freeList = s.im.freeList := by
  obtain ⟨-, h⟩ | ⟨-, h⟩ := disowned_cases s k <;> simp [h]

@[simp] theorem disowned_queue : (s.disowned k).ip.queue = s.ip.queue := by
  obtain ⟨-, h⟩ | ⟨-, h⟩ := disowned_cases s k <;> simp [h]

theorem owner?_disowned (c : s.canonical = true) (m : Nat) : (s.disowned k).owner? m =
    if (s.slot k).state = .aborted ∧ s.owner? m = some k then none else s.owner? m := by
  obtain ⟨hst, h⟩ | ⟨hst, h⟩ := disowned_cases s k
  · simp [h, hst, owner?_clearOwnership c]
  · simp [h, hst]

theorem disowned_eq : s.disowned k = { s with im := (s.disowned k).im, ip := (s.disowned k).ip } := by
  obtain ⟨-, h⟩ | ⟨-, h⟩ := disowned_cases s k
  · rw [h, clearOwnership_eq]; rfl
  · rw [h]

/-- Closing writes the incident manager and the planner alone. -/
theorem freeSlot_disowned_rest : { (s.disowned k).freeSlot k with im := s.im, ip := s.ip } = s := by
  rw [freeSlot_eq, disowned_eq]

theorem closeIncident_not_ready (h : s.ss.station ≠ .ready) : s.closeIncident k = refuse .notReady s := by
  simp [closeIncident, isReady, h]

theorem closeIncident_beyond (h : s.ss.station = .ready) (hk : 4 ≤ k) : s.closeIncident k = refuse .outOfRange s := by
  simp [closeIncident, isReady, h, Config.slots, hk]

theorem closeIncident_unfinished (h : s.ss.station = .ready) (hk : k < 4) (hf : ¬ s.Finished k) :
    s.closeIncident k = refuse .wrongState s := by
  obtain ⟨hdone, hheld⟩ := not_or.mp hf
  simp only [closeIncident, isReady, h, Config.slots, Nat.not_le.mpr hk]
  cases hst : (s.slot k).state with
  | done => exact absurd hst hdone
  | aborted =>
    have hclosed : (s.slot k).closedBy ≠ [] := fun e => hheld ⟨hst, e⟩
    simp [hclosed]
  | _ => simp

theorem closeIncident_finished (h : s.ss.station = .ready) (hk : k < 4) (hf : s.Finished k) :
    s.closeIncident k = (.ok, [], (s.disowned k).freeSlot k) := by
  rcases hf with hst | ⟨hst, hempty⟩
  · simp [closeIncident, disowned, isReady, h, Config.slots, Nat.not_le.mpr hk, hst]
  · simp [closeIncident, disowned, isReady, h, Config.slots, Nat.not_le.mpr hk, hst, hempty]

end Station

variable {s : State} {tag : Byte} {k : Nat}

/-- At a free link a CLOSE_INCIDENT past LOADING replies with the incident manager's decision. -/
theorem exec_closeIncident (h : s.taking) (hl : s.st.ss.station ≠ .loading) {a : Status} {x : Station}
    (hd : s.st.closeIncident k = (a, [], x)) (ho : x.outbox = []) :
    exec (.closeIncident tag k) s = .next (s.replied tag 0x34 a [] x) :=
  exec_quiet _ tag (.closeIncident k) rfl h hl rfl hd ho

/-- Before READY the request is refused, by the link in LOADING and by the incident manager in BLANK. -/
theorem exec_closeIncident_not_ready (h : s.taking) (hr : s.st.ss.station ≠ .ready) :
    exec (.closeIncident tag k) s = .next (s.replied tag 0x34 .notReady [] s.st) := by
  obtain ⟨hup, -, -, ho⟩ := id h
  by_cases hl : s.st.ss.station = .loading
  · rw [exec_request (r := .closeIncident k) rfl hup, arrive_loading _ _ _ h hl rfl]
    rfl
  · exact exec_closeIncident h hl (Station.closeIncident_not_ready hr) ho

/-- Settles O45: each kind of slot has its decision, and a taken request clears the ownership of an ABORTED slot before it
frees the slot, so that each field is read through these two operations. -/
theorem closeIncidentFreesTheSlot : Obligations.CloseIncidentFreesTheSlot := by
  unfold Obligations.CloseIncidentFreesTheSlot
  intro s tag k ht hc refused st fit
  obtain ⟨-, -, -, ho⟩ := id ht
  have past_loading (hr : s.st.ss.station = .ready) : s.st.ss.station ≠ .loading := by rw [hr]; decide
  refine ⟨exec_closeIncident_not_ready ht, fun hr hk => ?_, fun hr hk hf => ?_, fun hr hk hf => ?_⟩
  · exact exec_closeIncident ht (past_loading hr) (Station.closeIncident_beyond hr hk) ho
  · exact exec_closeIncident ht (past_loading hr) (Station.closeIncident_unfinished hr hk hf) ho
  · have rest := Station.freeSlot_disowned_rest (s := s.st) (k := k)
    have slot := Station.slot_freeSlot (k := k) (Station.canonical_disowned (k := k) hc)
    have posted : ((s.st.disowned k).freeSlot k).outbox = [] := (congrArg Station.outbox rest).trans ho
    refine ⟨(s.st.disowned k).freeSlot k,
      exec_closeIncident ht (past_loading hr) (Station.closeIncident_finished hr hk hf) posted,
      ?_, fun j hj => ?_, ?_, Station.owner?_disowned hc, ?_, rest⟩
    · rw [slot, if_pos rfl]
    · rw [slot, if_neg hj, Station.disowned_slot]
    · rw [Station.freeSlot_freeList, Station.disowned_freeList]
    · rw [Station.freeSlot_ip, Station.disowned_queue]

end Sys2Proof.Machine
end

section
/-! Proof of the STARTED notice (11): what every reset leaves of the notice queue, the clock and the station state, and R186
for each command that resets the station. -/

namespace Sys2Proof.Machine

/-- A notice of an enabled class joins the end of a queue with room (R194). -/
theorem takeNotice_queued {l : Link} {n : Notice} (enabled : l.enables.of n.kind.classOf = true)
    (room : l.notices.length < Config.noticeCap) : l.takeNotice n = { l with notices := l.notices ++ [n] } := by
  rw [Link.takeNotice, if_pos enabled, if_pos room]

theorem attn_of_notices_cons {l : Link} {n : Notice} {ns : List Notice} (h : l.notices = n :: ns) : l.attn = true := by
  rw [Link.attn, h]
  rfl

/-! The station reset (R187). -/

/-- STARTED with this kind of reset is the one notice, and loading has not begun (R186). -/
def State.JustStarted (cause : Cause) (t : State) : Prop :=
  t.sl.notices = [{ kind := .started, clock := 0, cause := some cause }] ∧ t.sl.attn = true ∧
  t.sl.enables = ⟨true, true, true, true, true⟩ ∧ NoticeKind.started.classOf = .station ∧ t.st.clock = 0 ∧
  t.st.ss.station = .loading

variable {s : State} {cause : Cause} {rate : Bool} {w : Waiting}

/-- STARTED meets an emptied queue with its class enabled, so nothing drops or discards it. -/
theorem stationReset_sl : (stationReset s cause rate).sl =
    { rateHigh := rate, notices := [{ kind := .started, cause := some cause }] } :=
  takeNotice_queued (l := { rateHigh := rate }) (n := { kind := .started, cause := some cause }) rfl
    (show 0 < Config.noticeCap by decide)

@[simp] theorem stationReset_st : (stationReset s cause rate).st = s.st.atReset := rfl

theorem stationReset_justStarted : (stationReset s cause rate).JustStarted cause := by
  have queue : (stationReset s cause rate).sl.notices = [{ kind := .started, cause := some cause }] := by
    rw [stationReset_sl]
  have enables : (stationReset s cause rate).sl.enables = ⟨true, true, true, true, true⟩ := by
    rw [stationReset_sl]
  exact ⟨queue, attn_of_notices_cons queue, enables, rfl, rfl, rfl⟩

/-! RESET_STATION is taken (R187, R190). -/

@[simp] theorem takeReset_st : (takeReset s w).st = s.st.atReset := rfl

/-- Keeping the reply readable and counting the sample of RATE (log entries 4 and 5) writes nothing that R186 reads. -/
theorem takeReset_justStarted : (takeReset s w).JustStarted .resetStation :=
  stationReset_justStarted (s := s) (rate := Config.rateLevel s.rateSamples)

theorem takeRequest_resetStation (hw : w.content = .request .resetStation) (hl : s.st.ss.station ≠ .loading) :
    takeRequest s w = takeReset s w := by
  simp [takeRequest, hw, hl]

/-- A taken RESET_STATION leaves the station reset: it posts nothing beside STARTED, which is queued already. -/
theorem taken_resetStation_justStarted (hw : w.content = .request .resetStation) (hl : s.st.ss.station ≠ .loading) :
    (takePostings (takeRequest s w)).JustStarted .resetStation := by
  rw [takeRequest_resetStation hw hl, takePostings_nil (takeReset s w) rfl]
  exact takeReset_justStarted

/-! The commands that reset the station. -/

theorem exec_powerOn : exec (.powerOn rate) s = .next (stationReset { s with ratePin := rate } .powerOn rate) := rfl

theorem exec_resetPinRelease_low (h : s.nrstLow = true) :
    exec (.resetPinRelease rate) s = .next (stationReset { s with ratePin := rate } .resetPin rate) :=
  congrArg Host.Outcome.next (if_pos h)

/-- When the last byte of a reply has been sent, the oldest waiting request is taken (R190). -/
theorem exec_replySent_waiting {ws : List Waiting} (hup : s.up) (hs : s.sl.sending = true) (hb : s.sl.buffer = w :: ws) :
    exec .replySent s =
      .next (takePostings (takeRequest { s with sl := { s.sl with sending := false, buffer := ws } } w)) := by
  obtain ⟨released, -⟩ := hup
  show whileUp s replyIsSent = _
  simp [whileUp, released, replyIsSent, takeNext, hs, hb]

/-- Settles O3: each of the four commands is a station reset, by power, by the pin, or by a RESET_STATION that is taken on
arrival or once the reply before it has been sent. -/
theorem eachResetPostsStarted : Obligations.EachResetPostsStarted := by
  unfold Obligations.EachResetPostsStarted
  intro s rate tag kind ws started
  refine ⟨⟨_, exec_powerOn, stationReset_justStarted⟩, fun low => ?_, fun ht hl => ?_, fun hup hs hb hl => ?_⟩
  · exact ⟨_, exec_resetPinRelease_low low, stationReset_justStarted⟩
  · obtain ⟨released, -⟩ := id ht
    refine ⟨_, exec_request rfl released, ?_⟩
    rw [arrive_taking s tag .resetStation ht]
    exact taken_resetStation_justStarted rfl hl
  · exact ⟨_, exec_replySent_waiting hup hs hb, taken_resetStation_justStarted rfl hl⟩

end Sys2Proof.Machine
end

section
/-! Proof of SET_NOTICE_CLASSES (11): what the link makes of a mask within and beyond the five classes, and R196 for its row
at a free link. -/

namespace Sys2Proof.Machine

/-- A notice of a disabled class is dropped (R194). -/
theorem takeNotice_disabled {l : Link} {n : Notice} (disabled : l.enables.of n.kind.classOf = false) :
    l.takeNotice n = l := by
  simp [Link.takeNotice, disabled]

/-! The decision (R196). -/

variable {s : State} {w : Waiting} {tag : Byte} {mask : Nat}

theorem takeSetClasses_beyond (h : 32 ≤ mask) : takeSetClasses s w mask = respond s w .outOfRange [] := if_pos h

theorem takeSetClasses_within (h : mask < 32) : takeSetClasses s w mask =
    respond { s with sl := { s.sl with enables := ClassMarks.ofMask mask } } w .ok [] :=
  if_neg (Nat.not_le.mpr h)

@[simp] theorem takeSetClasses_st : (takeSetClasses s w mask).st = s.st := by
  obtain h | h := Nat.lt_or_ge mask 32
  · rw [takeSetClasses_within h, respond]
  · rw [takeSetClasses_beyond h, respond]

/-- The link decides the request in every station state: it is one of those taken in LOADING (R191). -/
theorem takeRequest_setNoticeClasses (hw : w.content = .request (.setNoticeClasses mask)) :
    takeRequest s w = takeSetClasses s w mask := by
  simp [takeRequest, hw, takenLoading]

/-- At a free link SET_NOTICE_CLASSES is the link's decision and posts nothing. -/
theorem exec_setNoticeClasses (h : s.taking) : exec (.setNoticeClasses tag mask) s =
    .next (takeSetClasses s { tag, kind := 0x71#8, content := .request (.setNoticeClasses mask) } mask) := by
  obtain ⟨released, -, -, posted⟩ := id h
  rw [exec_request (r := .setNoticeClasses mask) rfl released, arrive_taking s tag _ h, takeRequest_setNoticeClasses rfl,
    takePostings_nil _ (by rw [takeSetClasses_st, posted])]
  rfl

/-- Settles O13: a mask is decided by its bound alone; one within it becomes the enables, and a class whose bit is 0 then
has its notices dropped. -/
theorem setNoticeClassesSetsTheEnables : Obligations.SetNoticeClassesSetsTheEnables := by
  unfold Obligations.SetNoticeClassesSetsTheEnables
  intro s tag mask ht
  refine ⟨fun beyond => ?_, fun within => ⟨?_, fun n disabled => takeNotice_disabled disabled⟩⟩
  · rw [exec_setNoticeClasses ht, takeSetClasses_beyond beyond]
    rfl
  · rw [exec_setNoticeClasses ht, takeSetClasses_within within]
    rfl

end Sys2Proof.Machine
end

section
/-! What a command does, once: the effect of every row, and the two ways in which an invariant is shown of every step, of
the station alone and of the whole state. -/

namespace Sys2Proof.Machine

/-- The events inside the station; of one that ends in it, the arbiters' decision is part. -/
inductive IsEvent : (Station → Station) → Prop
  | loadingEnds (answers : Bool) : IsEvent fun x => x.loadingEnds answers
  | settleWaitEnds : IsEvent fun x => x.settleWaitEnds
  | eraseDone (error : Bool) : IsEvent fun x => x.eraseDone error
  | writeDone (error : Bool) : IsEvent fun x => x.writeDone error
  | verifyDone (differs : Bool) : IsEvent fun x => x.verifyDone differs
  | flashTimeout : IsEvent fun x => x.flashTimeout
  | warningQualifies : IsEvent fun x => x.warningQualifies.decideAll
  | warningClears : IsEvent fun x => x.warningClears.decideAll
  | startCall (l : Line) : IsEvent fun x => x.startCall l
  | detailDue (n : Node) : IsEvent fun x => x.reachDue (x.node n).detailDue
  | sampleDue (n : Node) : IsEvent fun x => x.reachDue (x.node n).sampleDue
  | rollDue (n : Node) : IsEvent fun x => x.reachDue (x.node n).rollDue
  | answerArrives (l : Line) (bytes : List Byte) : IsEvent fun x => (x.answerArrives l bytes).decideAll
  | answerMissing (l : Line) : IsEvent fun x => (x.answerMissing l).decideAll
  | clearIsSent (l : Line) : IsEvent fun x => (x.clearIsSent l).decideAll
  | broadcastIsSent (l : Line) : IsEvent fun x => (x.broadcastIsSent l).decideAll
  | timesOut (v : Nat) : IsEvent fun x => x.timesOut v
  | planExpires (k : Nat) : IsEvent fun x => x.planExpires k
  | settles (z : Nat) : IsEvent fun x => (x.settles z).decideAll
  | plannerMerges : IsEvent fun x => x.plannerMerges.decideAll
  | computationEnds : IsEvent fun x => x.computationEnds.decideAll

/-- The kinds of effect that the rows have: an event inside the station, the arrival of a request, bytes on LRX, an
abandoned frame, the end of a reply, and the three commands of the reset pin and the supply. -/
inductive Effect where
  | event (f : Station → Station) (h : IsEvent f)
  | request (tag : Byte) (r : Request)
  | bytes (bs : List Byte)
  | abandon
  | sent
  | hold
  | power (rate : Bool)
  | release (rate : Bool)

/-- The effect of a request row. -/
def Effect.arriving : Option (Byte × Request) → Effect
  | some (tag, r) => .request tag r
  | none => .abandon

/-- The effect of a row. -/
def effectOf (c : Instr) : Effect :=
  match c with
  | .powerOn rate => .power rate
  | .resetPinAssert => .hold
  | .resetPinRelease rate => .release rate
  | .loadingEnd answers => .event _ (.loadingEnds answers)
  | .settleWaitEnd => .event _ .settleWaitEnds
  | .storeEraseDone error => .event _ (.eraseDone error)
  | .storeWriteDone error => .event _ (.writeDone error)
  | .storeVerifyDone differs => .event _ (.verifyDone differs)
  | .flashOperationTimeout => .event _ .flashTimeout
  | .requestFrameReceived bytes => .bytes bytes
  | .frameGapTimeout | .breakReceived | .framingError => .abandon
  | .replySent => .sent
  | .supplyWarningQualified => .event _ .warningQualifies
  | .supplyWarningClears => .event _ .warningClears
  | .callStart line => .event _ (.startCall line)
  | .detailDue line address => .event _ (.detailDue ⟨line, address⟩)
  | .sampleDue line address => .event _ (.sampleDue ⟨line, address⟩)
  | .rollDue line address => .event _ (.rollDue ⟨line, address⟩)
  | .answerReceived line bytes => .event _ (.answerArrives line bytes)
  | .answerTimeout line => .event _ (.answerMissing line)
  | .clearSent line => .event _ (.clearIsSent line)
  | .broadcastHaltSent line => .event _ (.broadcastIsSent line)
  | .strokeTimeout valve => .event _ (.timesOut valve)
  | .planExpiry slot => .event _ (.planExpires slot)
  | .settleTimerExpiry zone => .event _ (.settles zone)
  | .plannerMerge => .event _ .plannerMerges
  | .computationCompletion => .event _ .computationEnds
  | i => .arriving i.request?

/-- What a row of an effect makes of the state. -/
def Effect.run (s : State) : Effect → Host.Outcome State Fault Refusal
  | .event f _ => whileUp s (onStation f)
  | .request tag r => whileUp s fun s => arrive s tag r
  | .bytes bs => whileUp s (receiveBytes bs)
  | .abandon => whileUp s abandonFrame
  | .sent => whileUp s replyIsSent
  | .hold => whileUp s holdInReset
  | .power rate => .next (stationReset { s with ratePin := rate } .powerOn rate)
  | .release rate => .next (if s.nrstLow then stationReset { s with ratePin := rate } .resetPin rate else s)

/-- Every row has the effect listed for it. -/
theorem exec_effect (c : Instr) (s : State) : exec c s = (effectOf c).run s := by
  cases c <;> rfl

theorem effectOf_request {i : Instr} {t : Byte} {r : Request} (hi : i.request? = some (t, r)) :
    effectOf i = .request t r := by
  cases i with
  | powerOn | resetPinAssert | resetPinRelease | loadingEnd | settleWaitEnd | storeEraseDone | storeWriteDone
  | storeVerifyDone | flashOperationTimeout | requestFrameReceived | frameGapTimeout | breakReceived | framingError
  | replySent | supplyWarningQualified | supplyWarningClears | callStart | detailDue | sampleDue | rollDue
  | answerReceived | answerTimeout | clearSent | broadcastHaltSent | strokeTimeout | planExpiry | settleTimerExpiry
  | plannerMerge | computationCompletion => exact absurd hi.symm (Option.some_ne_none _)
  | _ => exact congrArg Effect.arriving hi

/-- The row whose effect is a reset, or holds the part in reset. -/
def Effect.pinRow : Effect → Option Instr
  | .power rate => some (.powerOn rate)
  | .hold => some .resetPinAssert
  | .release rate => some (.resetPinRelease rate)
  | _ => none

theorem eq_of_pinRow {c d : Instr} (h : (effectOf c).pinRow = some d) : c = d := by
  cases c with
  | powerOn => exact Option.some.inj h
  | resetPinAssert => exact Option.some.inj h
  | resetPinRelease => exact Option.some.inj h
  | _ => exact nomatch (show none = some d from h)

/-- What `whileUp` answers. -/
theorem whileUp_next {s t : State} {f : State → State} (h : whileUp s f = .next t) :
    t = if s.nrstLow then s else f s := by
  cases h; rfl

/-! What a request that is taken leaves of the station. -/

theorem takeReadNotice_st {s : State} {w : Waiting} : (takeReadNotice s w).st = s.st := by
  unfold takeReadNotice
  split <;> rfl

/-- What the taking of a request can come to: the general checks or the owning block answer it, the link does, or it
resets the station (R190, R191). -/
inductive Taken (s : State) (w : Waiting) : State → Prop
  | refused (a : Status) : Taken s w (respond s w a [])
  | decided (r : Request) (awake : s.st.ss.station ≠ .loading) :
      Taken s w (respond { s with st := (decideRequest s.st r).2.2 } w (decideRequest s.st r).1 (decideRequest s.st r).2.1)
  | readNotice : Taken s w (takeReadNotice s w)
  | setClasses (m : Nat) : Taken s w (takeSetClasses s w m)
  | status : Taken s w (takeStatus s w)
  | identify : Taken s w (takeIdentify s w)
  | reset (h : w.content = .request .resetStation) : Taken s w (takeReset s w)

theorem Taken.ite {s : State} {w : Waiting} {c : Prop} {_ : Decidable c} {x y : State} (hx : Taken s w x)
    (hy : ¬ c → Taken s w y) : Taken s w (if c then x else y) := by
  split
  · exact hx
  · exact hy ‹_›

theorem takeRequest_taken (s : State) (w : Waiting) : Taken s w (takeRequest s w) := by
  unfold takeRequest
  cases hw : w.content with
  | unknownKind => exact .refused _
  | badLength => exact .refused _
  | request r =>
    refine Taken.ite (.refused _) fun free => ?_
    have awake (hr : takenLoading r = false) : s.st.ss.station ≠ .loading := fun h => free ⟨h, hr⟩
    cases r with
    | readNotice => exact .readNotice
    | setNoticeClasses m => exact .setClasses m
    | status => exact .status
    | identify => exact .identify
    | resetStation => exact .reset hw
    | _ => exact .decided _ (awake rfl)

/-- Taking a request leaves the station as it was, resets it, or takes the decision of the block that owns the request,
which is made outside LOADING alone (R190, R191). -/
theorem takeRequest_station (s : State) (w : Waiting) :
    (takeRequest s w).st = s.st ∨ (takeRequest s w).st = s.st.atReset ∨
    ∃ r, s.st.ss.station ≠ .loading ∧ (takeRequest s w).st = (decideRequest s.st r).2.2 := by
  have taken := takeRequest_taken s w
  generalize takeRequest s w = t at taken
  cases taken with
  | refused => exact .inl rfl
  | decided r awake => exact .inr (.inr ⟨r, awake, rfl⟩)
  | readNotice => exact .inl takeReadNotice_st
  | setClasses => exact .inl takeSetClasses_st
  | status => exact .inl rfl
  | identify => exact .inl rfl
  | reset => exact .inr (.inl rfl)

/-! An invariant of the station. -/

/-- A property of the station that every reset gives and that the taking of what was posted, the passing of time, every
decision of a request outside LOADING and every event keep. -/
structure Invariant (P : Station → Prop) : Prop where
  reset : ∀ s : Station, P s.atReset
  taken : ∀ s : Station, P s → P { s with outbox := [] }
  tick : ∀ s : Station, P s → P s.tick
  request : ∀ (s : Station) (r : Request), s.ss.station ≠ .loading → P s → P (decideRequest s r).2.2
  event : ∀ f : Station → Station, IsEvent f → ∀ s, P s → P (f s)

/-- What holds of a state and after each byte's effect on the receiver and each delivery holds after the bytes (R188). -/
theorem receiveBytes_keeps {Q : State → Prop} (heard : ∀ s b, Q s → Q (s.heard (receiveByte s.sl.receiver b).1))
    (delivered : ∀ s w, Q s → Q (deliver s w)) (bs : List Byte) (s : State) (h : Q s) : Q (receiveBytes bs s) := by
  induction bs generalizing s with
  | nil => exact h
  | cons b bs ih =>
    rw [receiveBytes_cons]
    have hb := heard s b h
    split
    · exact ih _ hb
    · split
      · exact delivered _ _ hb
      · exact ih _ (delivered _ _ hb)

namespace Invariant

variable {P : Station → Prop} (hP : Invariant P)
include hP

theorem takeRequest (s : State) (w : Waiting) (h : P s.st) : P (takeRequest s w).st := by
  obtain e | e | ⟨r, hl, e⟩ := takeRequest_station s w
  · rwa [e]
  · rw [e]; exact hP.reset _
  · rw [e]; exact hP.request _ r hl h

theorem takeNext (s : State) (h : P s.st) : P (takeNext s).st := by
  unfold Sys2Proof.Machine.takeNext
  split
  · exact h
  · split
    · exact h
    · exact hP.taken _ (hP.takeRequest _ _ h)

theorem deliver (s : State) (w : Waiting) (h : P s.st) : P (deliver s w).st := by
  unfold Sys2Proof.Machine.deliver
  split
  · exact hP.takeNext _ h
  · exact h

theorem effect (s : State) (e : Effect) {t : State}
    (ht : e.run s = .next t) (h : P s.st) : P t.st := by
  cases e with
  | event f hf =>
    rw [whileUp_next ht]
    split
    · exact h
    · exact hP.taken _ (hP.event f hf _ h)
  | request tag r =>
    rw [whileUp_next ht]
    split
    · exact h
    · exact hP.deliver _ _ h
  | bytes bs =>
    rw [whileUp_next ht]
    split
    · exact h
    · exact receiveBytes_keeps (Q := fun s => P s.st) (fun _ _ h => h) (fun s w h => hP.deliver s w h) bs s h
  | abandon =>
    rw [whileUp_next ht]
    split <;> exact h
  | sent =>
    rw [whileUp_next ht]
    split
    · exact h
    · unfold replyIsSent
      split
      · exact hP.takeNext _ h
      · exact h
  | hold =>
    rw [whileUp_next ht]
    split
    · exact h
    · exact hP.reset _
  | power rate => cases ht; exact hP.reset _
  | release rate =>
    cases ht
    split
    · exact hP.reset _
    · exact h

/-- An invariant of the station holds after every step. -/
theorem step {s t : State} (ht : step s = .next t) (h : P s.st) : P t.st := by
  unfold Sys2Proof.Machine.step at ht
  split at ht
  · cases ht
    unfold idle
    split
    · exact h
    · exact hP.tick _ h
  · rename_i c cs _
    rw [exec_effect] at ht
    exact hP.effect { s with pending := cs } _ ht h

end Invariant

end Sys2Proof.Machine
end

section
/-! Proofs of the tables' canonical form and of the range of the surge factors: both go through the frame of level 0, which
every request and every event keeps. -/

namespace Sys2Proof.Machine

/-- Every event keeps the tables and the surge factors sound. -/
theorem event_frame {f : Station → Station} (hf : IsEvent f) (s : Station) : Station.Frame 0 s (f s) := by
  cases hf <;> simp

/-- What the frame of level 0 carries along is an invariant, where a reset gives it and it does not see what was posted
and the clock. -/
theorem Invariant.of_frame {P : Station → Prop} (reset : ∀ s : Station, P s.atReset)
    (posted : ∀ s : Station, P s → P { s with outbox := [] })
    (frame : ∀ s t : Station, Station.Frame 0 s t → P s → P t) : Invariant P where
  reset := reset
  taken := posted
  tick s := frame _ _ (Station.Frame.tick (Station.Frame.refl s))
  request s r _ := frame _ _ (Station.Frame.decideRequest r (Station.Frame.refl s))
  event _ hf s := frame _ _ (event_frame hf s)

theorem invariant_canonical : Invariant fun s => s.canonical = true :=
  .of_frame Station.canonical_atReset (fun _ h => h) fun _ _ h => h.safe.canonical

theorem invariant_factors : Invariant fun s => s.factorsOk = true :=
  .of_frame Station.factorsOk_atReset (fun _ h => h) fun _ _ h => h.safe.factors

/-- Settles O54: the canonical form is part of the frame that every request and event keeps. -/
theorem everyStepKeepsTheTablesCanonical : Obligations.EveryStepKeepsTheTablesCanonical := by
  unfold Obligations.EveryStepKeepsTheTablesCanonical
  exact fun s t h ht => invariant_canonical.step ht h

/-- Settles O55: so is the range of the surge factors. -/
theorem everyStepKeepsTheSurgeFactors : Obligations.EveryStepKeepsTheSurgeFactors := by
  unfold Obligations.EveryStepKeepsTheSurgeFactors
  exact fun s t h ht => invariant_factors.step ht h

end Sys2Proof.Machine
end

section
/-! Proofs of what every command leaves alone: the queue, the pins, and the bounds of the link. -/

namespace Sys2Proof.Machine

/-! The queue and the pins. -/

/-- The queue of commands, the level of NRST and the level of RATE are the same. -/
structure SamePins (s t : State) : Prop where
  pending : t.pending = s.pending
  nrst : t.nrstLow = s.nrstLow
  rate : t.ratePin = s.ratePin

theorem SamePins.refl (s : State) : SamePins s s := ⟨rfl, rfl, rfl⟩

theorem SamePins.trans {s t u : State} (h : SamePins s t) (g : SamePins t u) : SamePins s u :=
  ⟨g.pending.trans h.pending, g.nrst.trans h.nrst, g.rate.trans h.rate⟩

/-- A request taken while NRST is high moves no pin: the reset it may make leaves NRST high (R187). -/
theorem takeRequest_pins (s : State) (w : Waiting) (up : s.nrstLow = false) : SamePins s (takeRequest s w) := by
  have taken := takeRequest_taken s w
  generalize takeRequest s w = t at taken
  cases taken with
  | readNotice => unfold takeReadNotice; split <;> exact ⟨rfl, rfl, rfl⟩
  | setClasses => unfold takeSetClasses; split <;> exact ⟨rfl, rfl, rfl⟩
  | reset => exact ⟨rfl, up.symm, rfl⟩
  | _ => exact ⟨rfl, rfl, rfl⟩

theorem takeNext_pins (s : State) (up : s.nrstLow = false) : SamePins s (takeNext s) := by
  unfold takeNext
  split
  · exact .refl s
  · split
    · exact .refl s
    · rename_i w ws _
      obtain ⟨p, n, r⟩ := takeRequest_pins { s with sl := { s.sl with buffer := ws } } w up
      exact ⟨p, n, r⟩

theorem deliver_pins (s : State) (w : Waiting) (up : s.nrstLow = false) : SamePins s (deliver s w) := by
  unfold deliver
  split
  · obtain ⟨p, n, r⟩ := takeNext_pins { s with sl := { s.sl with buffer := s.sl.buffer ++ [w] } } up
    exact ⟨p, n, r⟩
  · exact .refl s

theorem receiveBytes_pins (bs : List Byte) (s : State) (up : s.nrstLow = false) : SamePins s (receiveBytes bs s) :=
  receiveBytes_keeps (Q := SamePins s) (fun _ _ h => ⟨h.pending, h.nrst, h.rate⟩)
    (fun t w h => h.trans (deliver_pins t w (h.nrst.trans up))) bs s (.refl s)

theorem replyIsSent_pins (s : State) (up : s.nrstLow = false) : SamePins s (replyIsSent s) := by
  unfold replyIsSent
  split
  · obtain ⟨p, n, r⟩ := takeNext_pins { s with sl := { s.sl with sending := false } } up
    exact ⟨p, n, r⟩
  · exact .refl s

/-- What acts only while NRST is high and then moves no pin, moves none. -/
theorem whileUp_pins (s : State) (f : State → State) (h : s.nrstLow = false → SamePins s (f s)) :
    SamePins s (if s.nrstLow then s else f s) := by
  cases low : s.nrstLow with
  | false => exact h low
  | true => exact .refl s

/-- Every effect answers a next state that leaves the queue, and only that of a reset moves a pin. -/
theorem Effect.completes (s : State) (e : Effect) : ∃ t, e.run s = .next t ∧ t.pending = s.pending ∧
    ((∀ r, e ≠ .power r) → e ≠ .hold → (∀ r, e ≠ .release r) → t.nrstLow = s.nrstLow ∧ t.ratePin = s.ratePin) := by
  have still {f : State → State} (h : s.nrstLow = false → SamePins s (f s)) : ∃ t, whileUp s f = .next t ∧
      t.pending = s.pending ∧ ((∀ r, e ≠ .power r) → e ≠ .hold → (∀ r, e ≠ .release r) →
        t.nrstLow = s.nrstLow ∧ t.ratePin = s.ratePin) :=
    ⟨_, rfl, (whileUp_pins s f h).pending, fun _ _ _ => ⟨(whileUp_pins s f h).nrst, (whileUp_pins s f h).rate⟩⟩
  cases e with
  | event f _ => exact still fun _ => ⟨rfl, rfl, rfl⟩
  | request tag r => exact still (deliver_pins s _)
  | bytes bs => exact still (receiveBytes_pins bs s)
  | abandon => exact still fun _ => ⟨rfl, rfl, rfl⟩
  | sent => exact still (replyIsSent_pins s)
  | hold =>
    refine ⟨_, rfl, ?_, fun _ h => absurd rfl h⟩
    split <;> rfl
  | power rate => exact ⟨_, rfl, rfl, fun h => absurd rfl (h rate)⟩
  | release rate =>
    refine ⟨_, rfl, ?_, fun _ _ h => absurd rfl (h rate)⟩
    split <;> rfl

/-- Settles O2: every command has one of the effects, and a command that is no reset has no reset's effect. -/
theorem everyCommandCompletesAndLeavesTheQueue : Obligations.EveryCommandCompletesAndLeavesTheQueue := by
  unfold Obligations.EveryCommandCompletesAndLeavesTheQueue
  intro s c
  obtain ⟨t, ht, queue, pins⟩ := (effectOf c).completes s
  have named {e : Effect} {d : Instr} (he : effectOf c = e) (hd : e.pinRow = some d) : c = d := eq_of_pinRow (he ▸ hd)
  exact ⟨t, (exec_effect c s).trans ht, queue, fun power hold release => pins (fun r h => power r (named h rfl))
    (fun h => hold (named h rfl)) (fun r h => release r (named h rfl))⟩

/-- Settles O1: both sides of `step`, and what a tenth of a second does to the clock. -/
theorem stepRunsTheFrontCommand : Obligations.StepRunsTheFrontCommand := by
  unfold Obligations.StepRunsTheFrontCommand
  refine ⟨fun s c cs h => by simp only [step, h], fun s h => ⟨fun up => ?_, fun low => ?_⟩⟩
  · simp only [step, h, idle, up]
    rfl
  · simp [step, h, idle, low]

/-! The bounds of the link. -/

/-- The receiver's part of the bounds: a frame in assembly is shorter than the frame its length byte announces, which is
within the longest (R188). -/
def Receiver.bounded : Receiver → Prop
  | .hunting => True
  | .assembling [] => True
  | .assembling (n :: rest) => n.toNat ≤ Config.payloadCap ∧ rest.length < n.toNat + 4

theorem Receiver.bounded_iff (r : Receiver) : r.bounded ↔
    ∀ n rest, r = .assembling (n :: rest) → n.toNat ≤ Config.payloadCap ∧ rest.length < n.toNat + 4 := by
  cases r with
  | hunting => simp [Receiver.bounded]
  | assembling taken => cases taken <;> simp [Receiver.bounded]

/-- A byte leaves the receiver within its bounds: it abandons a frame that is too long and ends one that is complete. -/
theorem receiveByte_bounded (r : Receiver) (b : Byte) (h : r.bounded) : (receiveByte r b).1.bounded := by
  cases r with
  | hunting => simp only [receiveByte]; split <;> trivial
  | assembling taken =>
    cases taken with
    | nil =>
      simp only [receiveByte, List.nil_append]
      split
      · trivial
      · rename_i fits
        exact ⟨Nat.le_of_not_lt fits, Nat.succ_pos _⟩
    | cons n rest =>
      obtain ⟨cap, short⟩ := h
      have shape : n :: rest ++ [b] = n :: (rest ++ [b]) := rfl
      cases e : rest ++ [b] with
      | nil => simp at e
      | cons c cs =>
        have len : (c :: cs).length = rest.length + 1 := by rw [← e]; simp
        simp only [receiveByte, shape, e]
        split
        · trivial
        · exact ⟨cap, by omega⟩

/-- The bounds of the link without that of what was posted: what holds while a request is being taken. -/
structure LinkBounds (s : State) : Prop where
  notices : s.sl.notices.length ≤ Config.noticeCap
  buffer : s.sl.buffer.length ≤ Config.bufferCap
  waiting : s.sl.sending = true ∨ s.sl.buffer = []
  receiver : s.sl.receiver.bounded

theorem linkOk_iff_bounds (s : State) : s.linkOk = true ↔ LinkBounds s ∧ s.st.outbox = [] := by
  rw [linkOk_iff, ← Receiver.bounded_iff]
  exact ⟨fun ⟨a, b, c, d, e⟩ => ⟨⟨a, b, c, e⟩, d⟩, fun ⟨⟨a, b, c, e⟩, d⟩ => ⟨a, b, c, d, e⟩⟩

theorem LinkBounds.takePostings {s : State} (h : LinkBounds s) : (takePostings s).linkOk = true :=
  linkOk_takePostings s ((linkOk_iff_bounds _).mpr ⟨⟨h.notices, h.buffer, h.waiting, h.receiver⟩, rfl⟩)

/-- A request taken with no other left waiting leaves a reply being sent, or a link reset with one notice queued. -/
theorem takeRequest_bounds (s : State) (w : Waiting) (notices : s.sl.notices.length ≤ Config.noticeCap)
    (buffer : s.sl.buffer.length ≤ Config.bufferCap) (receiver : s.sl.receiver.bounded) :
    LinkBounds (takeRequest s w) := by
  have responded (st : Status) (data : List Byte) (x : Station) : LinkBounds (respond { s with st := x } w st data) :=
    ⟨notices, buffer, .inl rfl, receiver⟩
  have taken := takeRequest_taken s w
  generalize takeRequest s w = t at taken
  cases taken with
  | readNotice =>
    unfold takeReadNotice
    split
    · exact responded _ _ s.st
    · rename_i e
      rw [e, List.length_cons] at notices
      exact ⟨Nat.le_of_succ_le notices, buffer, .inl rfl, receiver⟩
  | setClasses =>
    unfold takeSetClasses
    split
    · exact responded _ _ s.st
    · exact ⟨notices, buffer, .inl rfl, receiver⟩
  | status => exact ⟨notices, buffer, .inl rfl, receiver⟩
  | reset => exact ⟨(by decide : 1 ≤ 32), Nat.zero_le _, .inr rfl, trivial⟩
  | refused | decided | identify => exact responded _ _ _

theorem takeNext_linkOk (s : State) (notices : s.sl.notices.length ≤ Config.noticeCap)
    (buffer : s.sl.buffer.length ≤ Config.bufferCap) (receiver : s.sl.receiver.bounded) (posted : s.st.outbox = []) :
    (takeNext s).linkOk = true := by
  unfold takeNext
  split
  · rename_i sending
    exact (linkOk_iff_bounds s).mpr ⟨⟨notices, buffer, .inl sending, receiver⟩, posted⟩
  · split
    · rename_i none
      exact (linkOk_iff_bounds s).mpr ⟨⟨notices, buffer, .inr none, receiver⟩, posted⟩
    · rename_i w ws e
      have rest : ws.length ≤ Config.bufferCap := by
        rw [e, List.length_cons] at buffer
        exact Nat.le_of_succ_le buffer
      exact (takeRequest_bounds { s with sl := { s.sl with buffer := ws } } w notices rest receiver).takePostings

theorem deliver_linkOk (s : State) (w : Waiting) (h : s.linkOk = true) : (deliver s w).linkOk = true := by
  unfold deliver
  split
  · rename_i room
    obtain ⟨⟨notices, -, -, receiver⟩, posted⟩ := (linkOk_iff_bounds s).mp h
    refine takeNext_linkOk _ notices ?_ receiver posted
    simpa using Nat.succ_le_of_lt room
  · exact h

theorem heard_linkOk (s : State) (b : Byte) (h : s.linkOk = true) :
    (s.heard (receiveByte s.sl.receiver b).1).linkOk = true := by
  obtain ⟨⟨notices, buffer, waiting, receiver⟩, posted⟩ := (linkOk_iff_bounds s).mp h
  exact (linkOk_iff_bounds _).mpr ⟨⟨notices, buffer, waiting, receiveByte_bounded _ b receiver⟩, posted⟩

/-- A reset leaves the link within its bounds. -/
theorem stationReset_linkOk (s : State) (cause : Cause) (rate : Bool) : (stationReset s cause rate).linkOk = true :=
  (linkOk_iff_bounds _).mpr ⟨⟨(by decide : 1 ≤ 32), Nat.zero_le _, .inr rfl, trivial⟩, rfl⟩

theorem Effect.keeps_link {s t : State} (e : Effect) (ht : e.run s = .next t) (h : s.linkOk = true) :
    t.linkOk = true := by
  have still {f : State → State} (ht : whileUp s f = .next t) (hf : (f s).linkOk = true) : t.linkOk = true := by
    rw [whileUp_next ht]
    split
    · exact h
    · exact hf
  obtain ⟨⟨notices, buffer, waiting, receiver⟩, posted⟩ := (linkOk_iff_bounds s).mp h
  cases e with
  | event f _ => exact still ht (linkOk_onStation f s h)
  | request tag r => exact still ht (deliver_linkOk s _ h)
  | bytes bs => exact still ht (receiveBytes_keeps heard_linkOk deliver_linkOk bs s h)
  | abandon => exact still ht ((linkOk_iff_bounds _).mpr ⟨⟨notices, buffer, waiting, trivial⟩, posted⟩)
  | sent =>
    refine still ht ?_
    unfold replyIsSent
    split
    · exact takeNext_linkOk _ notices buffer receiver posted
    · exact h
  | hold => exact still ht ((linkOk_iff_bounds _).mpr ⟨⟨Nat.zero_le _, Nat.zero_le _, .inr rfl, trivial⟩, rfl⟩)
  | power rate => cases ht; exact stationReset_linkOk _ _ _
  | release rate =>
    cases ht
    split
    · exact stationReset_linkOk _ _ _
    · exact h

/-- Settles O56: the clock's tick does not reach the link, and every effect keeps its bounds. -/
theorem everyStepKeepsTheLinkBounds : Obligations.EveryStepKeepsTheLinkBounds := by
  unfold Obligations.EveryStepKeepsTheLinkBounds
  intro s t h ht
  unfold step at ht
  split at ht
  · cases ht
    unfold idle
    split
    · exact h
    · exact (linkOk_iff_bounds _).mpr ((linkOk_iff_bounds s).mp h |>.imp (fun b => ⟨b.1, b.2, b.3, b.4⟩) id)
  · rename_i c cs _
    rw [exec_effect] at ht
    exact (effectOf c).keeps_link ht ((linkOk_iff_bounds _).mpr
      ((linkOk_iff_bounds s).mp h |>.imp (fun b => ⟨b.1, b.2, b.3, b.4⟩) id))

end Sys2Proof.Machine
end

section
/-! Proofs of the link (11): the receiver's abandoned frames, the receive buffer, the queue of notices, STATUS and
IDENTIFY. -/

namespace Sys2Proof.Machine

variable {s : State}

/-! The receiver (R188, R189). -/

theorem exec_bytes (up : s.nrstLow = false) (bs : List Byte) :
    exec (.requestFrameReceived bs) s = .next (receiveBytes bs s) := by
  show whileUp s (receiveBytes bs) = _
  simp [whileUp, up]

/-- A length byte above the longest payload abandons the frame (R189). -/
theorem receive_tooLong (b : Byte) (hr : s.sl.receiver = .assembling []) (long : 240 < b.toNat) :
    receiveBytes [b] s = s.heard .hunting := by
  refine receiveBytes_none b [] s .hunting ?_
  simp [hr, receiveByte, Config.payloadCap, long]

/-- Settles O9: the three events abandon the frame and nothing more; noise, a length too great and a wrong check end in
HUNTING with nothing delivered. -/
theorem anAbandonedFrameChangesNothingElse : Obligations.AnAbandonedFrameChangesNothingElse := by
  unfold Obligations.AnAbandonedFrameChangesNothingElse
  intro s up hunting
  have abandoned : whileUp s abandonFrame = .next hunting := by simp [whileUp, up, abandonFrame, hunting]
  refine ⟨abandoned, abandoned, abandoned, fun hr b long => ?_, fun hr => ⟨fun bytes clean => ?_, ?_⟩⟩
  · rw [exec_bytes up, receive_tooLong b hr long]
    rfl
  · rw [exec_bytes up, receive_noise bytes s hr clean]
  · intro kind tag c0 c1 p short wrong
    rw [exec_bytes up, receive_frame kind tag c0 c1 p s short hr, if_neg wrong]

/-! The receive buffer (R190). -/

/-- While a reply is being sent a request waits, if there is room. -/
theorem deliver_waits (w : Waiting) (sending : s.sl.sending = true) (room : s.sl.buffer.length < 2) :
    deliver s w = { s with sl := { s.sl with buffer := s.sl.buffer ++ [w] } } := by
  simp [deliver, takeNext, Config.bufferCap, room, sending]

theorem deliver_lost (w : Waiting) (full : 2 ≤ s.sl.buffer.length) : deliver s w = s := by
  simp [deliver, Config.bufferCap, Nat.not_lt.mpr full]

theorem exec_replySent (up : s.nrstLow = false) : exec .replySent s = .next (replyIsSent s) := by
  show whileUp s replyIsSent = _
  simp [whileUp, up]

/-- Settles O11. -/
theorem requestsWaitWhileAReplyIsSent : Obligations.RequestsWaitWhileAReplyIsSent := by
  unfold Obligations.RequestsWaitWhileAReplyIsSent
  intro s i tag r hup hi w
  obtain ⟨up, -⟩ := id hup
  refine ⟨fun sending room => ?_, fun _ full => ?_, fun idle => ?_, fun sending none => ?_, fun sending one => ?_,
    fun v vs sending some => exec_replySent_waiting hup sending some⟩
  · rw [exec_request hi up]
    exact congrArg Host.Outcome.next (deliver_waits w sending room)
  · rw [exec_request hi up]
    exact congrArg Host.Outcome.next (deliver_lost w full)
  · rw [exec_replySent up]
    simp [replyIsSent, idle]
  · rw [exec_replySent up]
    simp [replyIsSent, sending, takeNext, none]
  · rw [exec_replySent_waiting hup sending one, exec_request hi (by exact up)]
    refine congrArg Host.Outcome.next ?_
    exact (deliver_taking { s with sl := { s.sl with sending := false, buffer := [] } } w ⟨up, rfl, rfl, hup.2⟩).symm

/-! Frames and requests (R188, R191, R199). -/

/-- Every request row has its own proof that its frame carries its request back. -/
theorem roundTrip (i : Instr) (t : Byte) (r : Request) (hi : i.request? = some (t, r)) (hw : i.wf = true) :
    parseRequest (BitVec.ofNat 8 (requestCode r)) (requestPayload r) = .request r ∧
    (requestPayload r).length ≤ Config.payloadCap := by
  revert t r hi hw
  show Sys2Proof.Laws.RoundTrip.Statement i
  cases i with
  | putSegment t n z c p q name => exact Laws.RoundTrip.putSegment t n z c p q name
  | deleteSegment t n => exact Laws.RoundTrip.deleteSegment t n
  | putValve t f => exact Laws.RoundTrip.putValve t f
  | deleteValve t v => exact Laws.RoundTrip.deleteValve t v
  | putSensor t n l a g => exact Laws.RoundTrip.putSensor t n l a g
  | deleteSensor t n => exact Laws.RoundTrip.deleteSensor t n
  | putZone t f => exact Laws.RoundTrip.putZone t f
  | setTiming t p l k w => exact Laws.RoundTrip.setTiming t p l k w
  | setFlow t v q => exact Laws.RoundTrip.setFlow t v q
  | readSegment t n => exact Laws.RoundTrip.readSegment t n
  | readValve t v => exact Laws.RoundTrip.readValve t v
  | readZone t z => exact Laws.RoundTrip.readZone t z
  | readSensor t n => exact Laws.RoundTrip.readSensor t n
  | readTiming t => exact Laws.RoundTrip.readTiming t
  | nextRecord t k n => exact Laws.RoundTrip.nextRecord t k n
  | setHealth t v x => exact Laws.RoundTrip.setHealth t v x
  | confirmValve t v x => exact Laws.RoundTrip.confirmValve t v x
  | moveValve t v g d => exact Laws.RoundTrip.moveValve t v g d
  | haltValveStop t v => exact Laws.RoundTrip.haltValveStop t v
  | haltValveLift t v => exact Laws.RoundTrip.haltValveLift t v
  | readValveState t v => exact Laws.RoundTrip.readValveState t v
  | openIncident t n => exact Laws.RoundTrip.openIncident t n
  | authorize t k o => exact Laws.RoundTrip.authorize t k o
  | abort t k => exact Laws.RoundTrip.abort t k
  | release t k => exact Laws.RoundTrip.release t k
  | closeIncident t k => exact Laws.RoundTrip.closeIncident t k
  | readIncident t k => exact Laws.RoundTrip.readIncident t k
  | readPlan t k p => exact Laws.RoundTrip.readPlan t k p
  | readMotion t z => exact Laws.RoundTrip.readMotion t z
  | resumeZone t z => exact Laws.RoundTrip.resumeZone t z
  | readZoneWatch t z => exact Laws.RoundTrip.readZoneWatch t z
  | readSensorWatch t n => exact Laws.RoundTrip.readSensorWatch t n
  | fieldClear t l => exact Laws.RoundTrip.fieldClear t l
  | readNode t l a => exact Laws.RoundTrip.readNode t l a
  | exerciseValve t v g => exact Laws.RoundTrip.exerciseValve t v g
  | readExercises t => exact Laws.RoundTrip.readExercises t
  | commitTable t => exact Laws.RoundTrip.commitTable t
  | resetStation t => exact Laws.RoundTrip.resetStation t
  | readNotice t => exact Laws.RoundTrip.readNotice t
  | setNoticeClasses t m => exact Laws.RoundTrip.setNoticeClasses t m
  | status t => exact Laws.RoundTrip.status t
  | identify t => exact Laws.RoundTrip.identify t
  | _ => exact fun _ _ hi => nomatch hi

/-- A taken request is answered: the last reply echoes its tag and kind, and but for a reset it is being sent (R192). -/
theorem takeRequest_answers (s : State) (w : Waiting) : ∃ (st : Status) (data : List Byte),
    (takeRequest s w).sl.lastReply = some { tag := w.tag, kind := w.kind, status := st, data } ∧
    (w.content ≠ .request .resetStation → (takeRequest s w).sl.sending = true ∧
      (takeRequest s w).sl.buffer = s.sl.buffer ∧ (takeRequest s w).sl.receiver = s.sl.receiver) := by
  have taken := takeRequest_taken s w
  generalize takeRequest s w = t at taken
  cases taken with
  | readNotice => unfold takeReadNotice; split <;> exact ⟨_, _, rfl, fun _ => ⟨rfl, rfl, rfl⟩⟩
  | setClasses => unfold takeSetClasses; split <;> exact ⟨_, _, rfl, fun _ => ⟨rfl, rfl, rfl⟩⟩
  | reset isReset => exact ⟨_, _, rfl, fun other => absurd isReset other⟩
  | _ => exact ⟨_, _, rfl, fun _ => ⟨rfl, rfl, rfl⟩⟩

theorem takePostings_reply (s : State) : (takePostings s).sl.lastReply = s.sl.lastReply ∧
    (takePostings s).sl.sending = s.sl.sending ∧ (takePostings s).sl.buffer = s.sl.buffer ∧
    (takePostings s).sl.receiver = s.sl.receiver := by
  rw [takePostings_sl, foldl_takeNotice_rest]
  exact ⟨rfl, rfl, rfl, rfl⟩

/-- The frame of any kind and payload, received in HUNTING at a free link: what the general checks make of it (R191). -/
theorem exec_frameOf (kind tag : Byte) (p : List Byte) (ht : s.taking) (hr : s.sl.receiver = .hunting)
    (short : p.length ≤ 240) : exec (.requestFrameReceived (frameOf kind tag p)) s =
      .next (takePostings (takeRequest s { tag, kind, content := parseRequest kind p })) := by
  obtain ⟨up, -⟩ := id ht
  rw [exec_bytes up, ← deliver_taking s _ ht]
  have := receive_frame kind tag (BitVec.ofNat 8 (crc16 (frameBody kind tag p)).toNat)
    (BitVec.ofNat 8 ((crc16 (frameBody kind tag p)).toNat / 256)) p s short hr
  exact congrArg Host.Outcome.next (this.trans (if_pos rfl))

/-- A request row, also while NRST is low. -/
theorem exec_arrival {i : Instr} {t : Byte} {r : Request} (hi : i.request? = some (t, r)) (s : State) :
    exec i s = whileUp s fun s => arrive s t r := by
  rw [exec_effect, effectOf_request hi]
  rfl

/-- A reader that takes payloads of `n` bytes and no others, and whose requests have the property. -/
def Reads (P : Request → Prop) : Nat → (List Byte → Option Request) → Prop
  | 0, read => (∃ r, read [] = some r ∧ P r) ∧ ∀ a p, read (a :: p) = none
  | n + 1, read => read [] = none ∧ ∀ a, Reads P n fun p => read (a :: p)

theorem Reads.none {P : Request → Prop} {n : Nat} {read : List Byte → Option Request} (h : Reads P n read) {p : List Byte}
    (other : p.length ≠ n) : read p = none := by
  induction n generalizing read p with
  | zero =>
    cases p with
    | nil => exact absurd rfl other
    | cons a p => exact h.2 a p
  | succ n ih =>
    cases p with
    | nil => exact h.1
    | cons a p => exact ih (h.2 a) fun e => other (congrArg Nat.succ e)

theorem Reads.some {P : Request → Prop} {n : Nat} {read : List Byte → Option Request} (h : Reads P n read) {p : List Byte}
    (fits : p.length = n) : ∃ r, read p = some r ∧ P r := by
  induction n generalizing read p with
  | zero =>
    rw [List.eq_nil_of_length_eq_zero fits]
    exact h.1
  | succ n ih =>
    cases p with
    | nil => cases fits
    | cons a p => exact ih (h.2 a) (Nat.succ.inj fits)

/-- The requests of the kinds 70h to 73h are those taken in LOADING. -/
def TakenByKind (k : Nat) (r : Request) : Prop := takenLoading r = (decide (0x70 ≤ k) && decide (k ≤ 0x73))

/-- A kind of the table of R199 whose payload has a fixed length. -/
structure FixedLength (k n : Nat) : Prop where
  admits : ∀ p, kindAdmits k p = some (p.length == n)
  reads : Reads (TakenByKind k) n (readRequest? k)

theorem fixedLength (k : Nat) (known : knownKind k = true) (other : k ≠ 0x10) : ∃ n, FixedLength k n := by
  have table : ∀ x ∈ [0x11, 0x12, 0x13, 0x14, 0x15, 0x16, 0x17, 0x18, 0x19, 0x1A, 0x1B, 0x1C, 0x1D, 0x1E] ++
      ([0x20, 0x21, 0x22, 0x23, 0x24, 0x30, 0x31, 0x32, 0x33, 0x34, 0x35, 0x36, 0x40, 0x48, 0x49, 0x4A] ++
      [0x50, 0x51, 0x58, 0x59, 0x60, 0x61, 0x70, 0x71, 0x72, 0x73]), ∃ n, FixedLength x n := by
    refine List.forall_mem_append.mpr ⟨?_, List.forall_mem_append.mpr ⟨?_, ?_⟩⟩
    all_goals
      repeat' first
        | exact List.forall_mem_nil _
        | refine List.forall_mem_cons.mpr ⟨⟨_, fun _ => rfl, ?_⟩, ?_⟩
    all_goals
      iterate refine ⟨rfl, fun _ => ?_⟩
      exact ⟨⟨_, rfl, rfl⟩, fun _ _ => rfl⟩
  exact table k ((List.mem_cons.mp (List.contains_iff_mem.mp known)).resolve_left other)

/-- Below the last kind of the table, group by group. -/
theorem listed {k : Nat} (low : k < 0x74) : (∀ p, kindAdmits k p = none) ∨ knownKind k = true := by
  interval_cases k
  iterate 16 exact .inl fun _ => rfl
  iterate 15 exact .inr rfl
  exact .inl fun _ => rfl
  iterate 5 exact .inr rfl
  iterate 11 exact .inl fun _ => rfl
  iterate 7 exact .inr rfl
  iterate 9 exact .inl fun _ => rfl
  exact .inr rfl
  iterate 7 exact .inl fun _ => rfl
  iterate 3 exact .inr rfl
  iterate 5 exact .inl fun _ => rfl
  iterate 2 exact .inr rfl
  iterate 6 exact .inl fun _ => rfl
  iterate 2 exact .inr rfl
  iterate 6 exact .inl fun _ => rfl
  iterate 2 exact .inr rfl
  iterate 14 exact .inl fun _ => rfl
  iterate 4 exact .inr rfl

/-- The kinds that the table of lengths has not are those that are unknown (checks 1 and 2 of R191): by the ranges of the
table of R199. -/
theorem unlisted_or_known (k : Nat) : (∀ p, kindAdmits k p = none) ∨ knownKind k = true := by
  rcases Nat.lt_or_ge k 0x74 with low | high
  · exact listed low
  · obtain ⟨n, rfl⟩ := Nat.exists_eq_add_of_le' high
    exact .inl fun _ => rfl

/-- What the general checks and the readers make of a payload of a known kind. -/
def Checked (k : Nat) (p : List Byte) (b : Bool) : Prop :=
  kindAdmits k p = some b ∧ if b then ∃ r, readRequest? k p = some r ∧ TakenByKind k r else readRequest? k p = none

theorem FixedLength.checked {k n : Nat} (h : FixedLength k n) (p : List Byte) : Checked k p (p.length == n) := by
  refine ⟨h.admits p, ?_⟩
  by_cases fits : p.length = n
  · rw [if_pos (beq_iff_eq.mpr fits)]
    exact h.reads.some fits
  · rw [if_neg (beq_iff_eq.not.mpr fits)]
    exact h.reads.none fits

/-- The payload of PUT_SEGMENT: 8 bytes, of which the last is the length of the name that follows. -/
theorem checked_putSegment (p : List Byte) :
    Checked 0x10 p (decide (8 ≤ p.length ∧ p.length = 8 + (p.getD 7 0).toNat)) := by
  refine ⟨rfl, ?_⟩
  iterate 8
    rcases p with _ | ⟨_, p⟩
    · rfl
  rename_i len
  have fits : decide (8 ≤ p.length + 8 ∧ p.length + 8 = 8 + len.toNat) = decide (len.toNat = p.length) :=
    decide_eq_decide.mpr ⟨fun h => by omega, fun h => by omega⟩
  refine (congrArg (fun b : Bool => if b then _ else _) fits).mpr ?_
  by_cases same : len.toNat = p.length
  · rw [if_pos (decide_eq_true same)]
    exact ⟨_, if_pos same, rfl⟩
  · rw [if_neg (by simpa using same)]
    exact if_neg same

theorem checked_of_known {k : Nat} (known : knownKind k = true) (p : List Byte) : ∃ b, Checked k p b := by
  by_cases named : k = 0x10
  · subst named
    exact ⟨_, checked_putSegment p⟩
  · obtain ⟨n, h⟩ := fixedLength k known named
    exact ⟨_, h.checked p⟩

theorem knownKind_of_admits {k : Nat} {p : List Byte} {b : Bool} (h : kindAdmits k p = some b) : knownKind k = true := by
  obtain none | known := unlisted_or_known k
  · cases (none p).symm.trans h
  · exact known

theorem checked_of_admits {k : Nat} {p : List Byte} {b : Bool} (h : kindAdmits k p = some b) : Checked k p b := by
  obtain ⟨c, hc⟩ := checked_of_known (knownKind_of_admits h) p
  cases hc.1.symm.trans h
  exact hc

theorem parseRequest_unknown {kind : Byte} {p : List Byte} (h : kindAdmits kind.toNat p = none) :
    parseRequest kind p = .unknownKind := by
  have unknown : ¬ knownKind kind.toNat = true := fun known => by
    obtain ⟨b, hb, -⟩ := checked_of_known known p
    cases h.symm.trans hb
  exact if_neg unknown

theorem parseRequest_badLength {kind : Byte} {p : List Byte} (h : kindAdmits kind.toNat p = some false) :
    parseRequest kind p = .badLength := by
  obtain ⟨-, unread⟩ := checked_of_admits h
  have unread : readRequest? kind.toNat p = none := unread
  rw [parseRequest, if_pos (knownKind_of_admits h), unread]

theorem parseRequest_request {kind : Byte} {p : List Byte} (h : kindAdmits kind.toNat p = some true) :
    ∃ r, parseRequest kind p = .request r ∧ TakenByKind kind.toNat r := by
  obtain ⟨-, r, hr, range⟩ := checked_of_admits h
  exact ⟨r, by rw [parseRequest, if_pos (knownKind_of_admits h), hr], range⟩

/-- Settles O10: the receiver delivers the frame's request, which the row does on its own; and a frame that the general
checks refuse is answered with the status alone. -/
theorem aFrameIsItsRequest : Obligations.AFrameIsItsRequest := by
  unfold Obligations.AFrameIsItsRequest
  constructor
  · intro i tag r s hi hwf hr frame w
    obtain ⟨parsed, fits⟩ := roundTrip i tag r hi hwf
    have same : exec frame s = exec i s := by
      rw [exec_arrival hi]
      show whileUp s (receiveBytes _) = _
      simp only [whileUp, receive_request tag r s hr fits parsed]
    refine ⟨same, fun ht => ?_, fun hup sending room => ?_, fun hup sending full => ?_⟩
    · obtain ⟨up, _, empty, _⟩ := id ht
      obtain ⟨st, data, reply, rest⟩ := takeRequest_answers s w
      obtain ⟨pr, ps, pb, pc⟩ := takePostings_reply (takeRequest s w)
      refine ⟨takePostings (takeRequest s w), st, data, ?_, pr.trans reply, fun keeps => ?_⟩
      · rw [same, exec_request hi up, arrive_taking s tag r ht]
      · obtain ⟨rs, rb, rc⟩ := rest fun e => keeps (by simpa [w] using e)
        exact ⟨ps.trans rs, (pb.trans rb).trans empty, (pc.trans rc).trans hr⟩
    · rw [same, exec_request hi hup.1]
      exact congrArg Host.Outcome.next (deliver_waits w sending room)
    · rw [same, exec_request hi hup.1]
      exact congrArg Host.Outcome.next (deliver_lost w full)
  · intro s kind tag p ht hr short refused
    obtain ⟨_, _, _, posted⟩ := id ht
    have answered (st : Status) (h : takeRequest s { tag, kind, content := parseRequest kind p } =
        respond s { tag, kind, content := parseRequest kind p } st []) : refused st := by
      show exec _ s = _
      rw [exec_frameOf kind tag p ht hr short, h, takePostings_nil (respond s _ st []) posted]
      simp [respond, State.replied]
    refine ⟨fun unknown => answered _ ?_, fun bad => answered _ ?_, fun fits loading outside => answered _ ?_⟩
    · simp only [takeRequest, parseRequest_unknown unknown]
    · simp only [takeRequest, parseRequest_badLength bad]
    · obtain ⟨r, hreq, range⟩ := parseRequest_request fits
      have barred : takenLoading r = false := by
        rw [show takenLoading r = _ from range]
        simp only [Bool.and_eq_false_iff, decide_eq_false_iff_not]
        omega
      simp [takeRequest, hreq, loading, barred]

/-! Notices (R194, R195). -/

theorem takeNotice_room {l : Link} {n : Notice} (enabled : l.enables.of n.kind.classOf = true)
    (room : l.notices.length < 32) : l.takeNotice n = { l with notices := l.notices ++ [n] } := by
  simp [Link.takeNotice, enabled, Config.noticeCap, room]

theorem takeNotice_full {l : Link} {n : Notice} (enabled : l.enables.of n.kind.classOf = true)
    (full : 32 ≤ l.notices.length) : l.takeNotice n = { l with withheld := l.withheld.mark n.kind.classOf } := by
  simp [Link.takeNotice, enabled, Config.noticeCap, Nat.not_lt.mpr full]

/-- Setting a class's mark sets that mark and no other. -/
theorem mark_of (m : ClassMarks) (c d : NoticeClass) : (m.mark c).of d = if d = c then true else m.of d := by
  cases c <;> cases d <;> rfl

/-- A request that the link answers itself, at a free link, posts nothing where its answer leaves the station. -/
theorem exec_answered {i : Instr} {t : Byte} {r : Request} (hi : i.request? = some (t, r)) (h : s.taking) {x : State}
    (hx : takeRequest s { tag := t, kind := BitVec.ofNat 8 (requestCode r), content := .request r } = x)
    (hst : x.st = s.st) : exec i s = .next x := by
  obtain ⟨up, -, -, posted⟩ := id h
  rw [exec_request hi up, arrive_taking s t r h, hx, takePostings_nil _ (by rw [hst, posted])]

/-- Settles O12. -/
theorem noticesAreQueuedAndReadInOrder : Obligations.NoticesAreQueuedAndReadInOrder := by
  unfold Obligations.NoticesAreQueuedAndReadInOrder
  refine ⟨fun l n => ⟨takeNotice_disabled, takeNotice_room, fun enabled full => ?_, ?_⟩, fun s tag ht => ⟨fun none => ?_,
    fun n ns some => ⟨?_, fun x enabled room => ⟨?_, ?_⟩⟩⟩⟩
  · rw [takeNotice_full enabled full]
    exact ⟨rfl, by simp [mark_of], fun c hc => by simp [mark_of, hc]⟩
  · simp [Link.attn]
  · refine exec_answered (i := .readNotice tag) rfl ht ?_ rfl
    simp [takeRequest, takenLoading, takeReadNotice, none, respond, State.replied, requestCode]
  · refine exec_answered (i := .readNotice tag) rfl ht ?_ rfl
    simp [takeRequest, takenLoading, takeReadNotice, some, respond, State.replied, requestCode]
  · exact congrArg Link.notices (takeNotice_room (l := { s.sl with notices := ns }) enabled (Nat.lt_of_succ_lt room))
  · rw [takeNotice_room enabled (by rwa [some]), some]
    rfl

/-! STATUS and IDENTIFY (R197, R198). -/

theorem markByte_eq (b : Bool) : markByte b = byte1 b.toNat := by cases b <;> rfl

/-- Settles O14. -/
theorem statusAndIdentifyReport : Obligations.StatusAndIdentifyReport := by
  unfold Obligations.StatusAndIdentifyReport
  intro s tag ht none5 marks counts
  constructor
  · refine exec_answered (i := .status tag) rfl ht ?_ rfl
    simp [takeRequest, takenLoading, takeStatus, respond, State.replied, requestCode, statusData, markByte_eq, none5, marks,
      counts, lineStatus, presenceCount, ClassMarks.bytes, Station.slotNumbers, zoneNumbers, Config.zones]
  · refine exec_answered (i := .identify tag) rfl ht ?_ rfl
    simp [takeRequest, takenLoading, takeIdentify, respond, State.replied, requestCode, identifyData, Config.segments,
      Config.valves, Config.zones, Config.sensors, Config.slots, Config.noticeCap, Config.exerciseCap, Config.payloadCap,
      Config.imageFormat]

end Sys2Proof.Machine
end

section
/-! Proofs of resets, the settle wait and the store (10). -/

namespace Sys2Proof.Machine

variable {s : State}

/-! Resets (R187). -/

/-- With nothing listed, every record reads as the unlisted one. -/
theorem Table.readD_nil {α : Type} (d : α) (n : Nat) : Table.readD ([] : Table α) d n = d := rfl

theorem slot_atReset (s : Station) (k : Nat) : s.atReset.slot k = {} := rfl

/-- A slot with the FREE values agrees with its state. -/
theorem Slot.agrees_free : Slot.Agrees {} where
  free _ := rfl
  authorized := nofun
  working := nofun
  closed h := absurd rfl h
  reopening := nofun
  reopens h := absurd rfl h
  entries := List.nodup_nil
  once := List.nodup_nil

/-- A station at its reset values agrees with every invariant of slots, holds, factors and node map. -/
theorem slotsOk_atReset (s : Station) : s.atReset.SlotsOk where
  agrees _ := Slot.agrees_free
  beyond _ _ := rfl
  loading _ _ := rfl
  free k := by
    show k ∈ [0, 1, 2, 3] ↔ k < 4 ∧ SlotState.free = .free
    simp
    omega
  once := (by decide : [0, 1, 2, 3].Nodup)

theorem holdsCounted_atReset (s : Station) : s.atReset.HoldsCounted := fun _ => rfl

theorem factorsReturned_atReset (s : Station) : s.atReset.FactorsReturned := fun _ _ _ _ => rfl

theorem mapAgrees_atReset (s : Station) : s.atReset.MapAgrees where
  valves _ _ _ h := nomatch h
  sensors _ _ h := nomatch h
  valve _ _ _ _ := ⟨nofun, fun ⟨_, h, _⟩ => nomatch h⟩
  sensor _ _ _ _ := ⟨nofun, fun ⟨_, h, _⟩ => nomatch h⟩

theorem exec_resetPinRelease_high (rate : Bool) (h : s.nrstLow = false) : exec (.resetPinRelease rate) s = .next s :=
  congrArg Host.Outcome.next (if_neg (by simp [h]))

/-- A taken RESET_STATION is the reset with its reply kept readable. -/
theorem exec_resetStation (tag : Byte) (h : s.taking) (hl : s.st.ss.station ≠ .loading) :
    exec (.resetStation tag) s = .next (takeReset s { tag, kind := 0x61#8, content := .request .resetStation }) := by
  obtain ⟨up, -⟩ := id h
  rw [exec_request (r := .resetStation) rfl up, arrive_taking s tag _ h, takeRequest_resetStation rfl hl]
  rfl

/-- Settles O4: the reset's values stand in its definition; State.reset is one such state. -/
theorem aResetGivesTheResetValues : Obligations.AResetGivesTheResetValues := by
  unfold Obligations.AResetGivesTheResetValues
  refine ⟨?_, ?_⟩
  · intro s rate tag line after
    refine ⟨exec_powerOn, exec_resetPinRelease_low, exec_resetPinRelease_high rate, fun ht hl => ?_⟩
    obtain ⟨up, -⟩ := id ht
    refine ⟨Config.rateLevel s.rateSamples, ?_⟩
    rw [exec_resetStation tag ht hl]
    rfl
  · intro r
    refine ⟨rfl, rfl, rfl, rfl, slotsOk_atReset r.st, holdsCounted_atReset r.st, factorsReturned_atReset r.st,
      mapAgrees_atReset r.st, rfl, fun _ => rfl, fun _ => rfl, fun _ => rfl,
      fun _ => ⟨rfl, rfl, rfl, rfl, rfl, rfl, rfl⟩, fun _ => rfl, fun _ => rfl, fun _ => rfl, fun _ => rfl, fun n => ?_⟩
    obtain ⟨l, a⟩ := n
    cases l <;> rfl

/-- While NRST is low every row but a power-on and the pin's release leaves the state (log entry 13). -/
theorem Effect.held (e : Effect) (low : s.nrstLow = true) (hp : ∀ r, e ≠ .power r) (hr : ∀ r, e ≠ .release r) :
    e.run s = .next s := by
  have still (f : State → State) : whileUp s f = .next s := by simp [whileUp, low]
  cases e with
  | power r => exact absurd rfl (hp r)
  | release r => exact absurd rfl (hr r)
  | _ => exact still _

/-- Settles O5. -/
theorem theResetPinHoldsThePart : Obligations.TheResetPinHoldsThePart := by
  unfold Obligations.TheResetPinHoldsThePart
  refine fun s => ⟨fun up => ⟨holdInReset s, ?_, rfl, rfl, rfl, rfl, rfl⟩, fun low c hp hr => ?_⟩
  · show whileUp s holdInReset = _
    simp [whileUp, up]
  · rw [exec_effect]
    exact (effectOf c).held low (fun r h => hp r (eq_of_pinRow (by rw [h]; rfl))) fun r h => hr r (eq_of_pinRow (by rw [h]; rfl))

/-! The settle wait (R184). -/

/-- An event that posts nothing changes the station alone. -/
theorem exec_station_quiet {f : Station → Station} (h : s.up) (quiet : (f s.st).outbox = []) :
    whileUp s (onStation f) = .next { s with st := f s.st } := by
  rw [exec_station f s h, takePostings_nil _ quiet]

/-- An event that posts one notice. -/
theorem exec_station_told {f : Station → Station} (h : s.up) {x : Station} {n : Notice} (posted : f s.st = x.post n)
    (quiet : x.outbox = []) : whileUp s (onStation f) = .next (s.told n x) := by
  rw [exec_station f s h, posted]
  obtain ⟨c, ss, nt, vs, ip, im, md, pw, a, b, w, xu, o⟩ := x
  simp only at quiet
  subst quiet
  rfl

/-- What starting the lines does (R184). -/
theorem startLines_eq (x : Station) : x.startLines =
    { x with
      lineA := if x.ss.settling = true ∨ x.ss.station = .loading ∨ x.lineA.started = true then x.lineA
        else { x.lineA with started := true, broadcasts := .clear true :: x.lineA.broadcasts }
      lineB := if x.ss.settling = true ∨ x.ss.station = .loading ∨ x.lineB.started = true then x.lineB
        else { x.lineB with started := true, broadcasts := .clear true :: x.lineB.broadcasts } } := by
  unfold Station.startLines
  by_cases h : x.ss.settling = true ∨ x.ss.station = .loading
  · rw [if_pos h, if_pos (by rwa [← or_assoc, or_iff_left_of_imp]; exact fun _ => h), if_pos]
    rw [← or_assoc]
    exact .inl h
  · rw [if_neg h]
    simp only [← or_assoc, h, false_or]

/-- Settles O7. -/
theorem theSettleWaitEndsAtTwoSeconds : Obligations.TheSettleWaitEndsAtTwoSeconds := by
  unfold Obligations.TheSettleWaitEndsAtTwoSeconds
  refine fun s hup => ⟨fun ended => ?_, fun waits => ?_⟩
  · have still : s.st.settleWaitEnds = s.st := by simp [Station.settleWaitEnds, ended]
    show whileUp s (onStation Station.settleWaitEnds) = _
    rw [exec_station_quiet hup (by rw [still]; exact hup.2), still]
  · intro start
    have ended : s.st.settleWaitEnds = { s.st with
        clock := if clockReached s.st.clock 20 then s.st.clock else 20
        ss := { s.st.ss with settling := false }
        lineA := start s.st.lineA
        lineB := start s.st.lineB } := by
      simp [Station.settleWaitEnds, waits, Station.advanceTo_eq, startLines_eq, start]
    show whileUp s (onStation Station.settleWaitEnds) = _
    rw [exec_station_quiet hup (by rw [ended]; exact hup.2), ended]

/-! The store (R182, R183). -/

variable {x : Station}

/-- A request that a block refuses, at a free link, changes nothing. -/
theorem exec_refused {i : Instr} {t : Byte} {r : Request} (hi : i.request? = some (t, r)) (h : s.taking)
    (hl : s.st.ss.station ≠ .loading) (hr : Request.ofLink r = false) {st : Status}
    (hd : decideRequest s.st r = refuse st s.st) : exec i s = .next (s.replied t (requestCode r) st [] s.st) :=
  exec_quiet i t r hi h hl hr hd h.2.2.2

/-- In LOADING every request that a block decides is refused (R191). -/
theorem exec_loading {i : Instr} {t : Byte} {r : Request} (hi : i.request? = some (t, r)) (h : s.taking)
    (hl : s.st.ss.station = .loading) (hr : takenLoading r = false) :
    exec i s = .next (s.replied t (requestCode r) .notReady [] s.st) := by
  rw [exec_request hi h.1, arrive_loading s t r h hl hr]

theorem commitTable_busy (hl : x.ss.station ≠ .loading) (hs : x.ss.storing.isSome = true) :
    x.commitTable = refuse .busy x := by
  simp [Station.commitTable, hl, hs]

theorem commitTable_empty (hb : x.ss.station = .blank) (hs : x.ss.storing = none) (he : x.nt.segments = []) :
    x.commitTable = refuse .wrongState x := by
  simp [Station.commitTable, hb, hs, he]

theorem commitTable_taken (hs : x.ss.storing = none)
    (hc : x.ss.station = .ready ∨ (x.ss.station = .blank ∧ x.nt.segments ≠ [])) :
    x.commitTable = (.accepted, [], { x with ss := { x.ss with
      storing := some { image := x.imageOf, step := .erase, blank := decide (x.ss.station = .blank) }
      flash := Config.unknownFlash x.ss.fresh
      fresh := x.ss.fresh + 1 } }) := by
  obtain hr | ⟨hb, he⟩ := hc
  · simp [Station.commitTable, hr, hs]
  · simp [Station.commitTable, hb, hs, he]

/-- An event that leaves the station leaves the state. -/
theorem exec_station_idle {f : Station → Station} (h : s.up) (still : f s.st = s.st) :
    whileUp s (onStation f) = .next s := by
  rw [exec_station_quiet h (by rw [still]; exact h.2), still]

/-- Settles O8: the three checks of COMMIT_TABLE, and each step of the store with the event that ends it. -/
theorem aStorePassesItsThreeSteps : Obligations.AStorePassesItsThreeSteps := by
  unfold Obligations.AStorePassesItsThreeSteps
  refine ⟨?_, ?_⟩
  · intro s tag ht refused
    have hi : (Instr.commitTable tag).request? = some (tag, .commitTable) := rfl
    refine ⟨fun hl => exec_loading hi ht hl rfl, fun hl hs => exec_refused hi ht hl rfl (commitTable_busy hl hs),
      fun hb hs he => exec_refused hi ht (by simp [hb]) rfl (commitTable_empty hb hs he), fun hs hc =>
        ⟨Config.unknownFlash s.st.ss.fresh, s.st.ss.fresh + 1, ?_⟩⟩
    have hl : s.st.ss.station ≠ .loading := by
      obtain h | ⟨h, -⟩ := hc <;> simp [h]
    exact exec_quiet _ tag _ hi ht hl rfl (commitTable_taken hs hc) ht.2.2.2
  · intro s w hup hw next fails content check
    have failed (c : Cause) (f : Station → Station) (hf : f s.st = s.st.storeFails c) :
        whileUp s (onStation f) = .next (fails c) := exec_station_told hup hf hup.2
    have stepped (step : StoreStep) (f : Station → Station)
        (hf : f s.st = { s.st with ss := { s.st.ss with storing := some { w with step := step } } }) :
        whileUp s (onStation f) = .next (next step) := by
      rw [exec_station_quiet hup (by rw [hf]; exact hup.2), hf]
    refine ⟨fun he => ⟨stepped _ (·.eraseDone false) ?_, failed _ (·.eraseDone true) ?_, failed _ Station.flashTimeout ?_⟩,
      fun he => ⟨stepped _ (·.writeDone false) ?_, failed _ (·.writeDone true) ?_, failed _ Station.flashTimeout ?_⟩,
      fun he => ⟨failed _ (·.verifyDone true) ?_, exec_station_told (f := (·.verifyDone false)) hup ?_ ?_,
        exec_station_idle (f := Station.flashTimeout) hup ?_⟩,
      fun he e => exec_station_idle (f := (·.eraseDone e)) hup ?_,
      fun he e => exec_station_idle (f := (·.writeDone e)) hup ?_,
      fun he e => exec_station_idle (f := (·.verifyDone e)) hup ?_⟩
    case refine_8 =>
      simp only [Station.verifyDone, hw, he, ne_eq, not_true_eq_false, if_false, Bool.false_eq_true]
      rfl
    case refine_9 => exact hup.2
    all_goals simp [Station.eraseDone, Station.writeDone, Station.verifyDone, Station.flashTimeout, hw, he]

end Sys2Proof.Machine
end

section
/-! Proof of the arithmetic of strokes and samples (04, 07). -/

namespace Sys2Proof.Machine

/-- A residual time is the rounded-up share of the travel, raised to Tmin (R76). -/
theorem residualTime_eq (closes : Bool) (tcmd p tmin : Nat) :
    residualTime closes tcmd p tmin = max ((tcmd * (if closes then p else 100 - p) + 99) / 100) tmin := rfl

/-- A share of at most the whole is at most the time. -/
theorem share_le {tcmd q tmax : Nat} (hq : q ≤ 100) (ht : tcmd ≤ tmax) : (tcmd * q + 99) / 100 ≤ tmax := by
  have : tcmd * q ≤ tcmd * 100 := Nat.mul_le_mul_left _ hq
  omega

/-- A residual time lies within Tmin and Tmax. -/
theorem residualTime_range {closes : Bool} {tcmd p tmin tmax : Nat} (hp : p ≤ 100) (h1 : tmin ≤ tcmd) (h2 : tcmd ≤ tmax) :
    tmin ≤ residualTime closes tcmd p tmin ∧ residualTime closes tcmd p tmin ≤ tmax := by
  rw [residualTime_eq]
  have := share_le (q := if closes then p else 100 - p) (by split <;> omega) h2
  omega

/-- The baseline's step is the sixteenth of the difference, truncated toward zero (R135). -/
theorem trackBaseline_tdiv (b h : Nat) : (trackBaseline b h : Int) = b + ((h : Int) - b).tdiv 16 := by
  unfold trackBaseline
  split
  · rename_i le
    rw [Int.tdiv_eq_ediv_of_nonneg (by omega)]
    omega
  · rename_i lt
    rw [show ((h : Int) - b) = -((b : Int) - h) by omega, Int.neg_tdiv, Int.tdiv_eq_ediv_of_nonneg (by omega)]
    omega

/-- Settles O53. -/
theorem strokeTimesAndTheirShares : Obligations.StrokeTimesAndTheirShares := by
  unfold Obligations.StrokeTimesAndTheirShares
  refine ⟨?_, ?_, ?_, ?_, ?_⟩
  · intro L a v hmax tmin tmax f hL1 hL ha1 ha hv hh1 hh htm1 htm htx hf p base
    have crit := criticalPeriod_le (a := a) hL ha1
    have slow := slowClosure_le hL hv hh1
    have treq : p.treq = base * f := by simp [p, profile, base, max_assoc]
    have tcrit : p.tcrit = criticalPeriod L a := rfl
    have tcmd : p.tcmd = min p.treq tmax := rfl
    have limited : p.limited = decide (tmax < p.treq) := rfl
    have tminBase : tmin ≤ base := (le_max_right _ _).trans (le_max_right _ _)
    have critBase : criticalPeriod L a ≤ base := le_max_left _ _
    have low : 10 ≤ base := htm1.trans tminBase
    have high : base ≤ 203874 :=
      max_le (crit.trans (by decide)) (max_le slow (htm.trans (htx.trans (by decide))))
    have factor : 1 ≤ f ∧ f ≤ 8 := by
      simp only [List.mem_cons, List.not_mem_nil, or_false] at hf
      obtain rfl | rfl | rfl | rfl := hf <;> decide
    have grown : base ≤ p.treq := treq ▸ Nat.le_mul_of_pos_right _ factor.1
    have bound : p.treq ≤ 1630992 := treq ▸ Nat.mul_le_mul high factor.2
    refine ⟨low, high, tcrit, treq, low.trans grown, bound, fun h => ?_, fun h => ?_, fun h => ?_, ?_, ?_⟩
    · exact ⟨tcmd.trans (min_eq_left h), limited.trans (decide_eq_false (Nat.not_lt.mpr h))⟩
    · exact ⟨tcmd.trans (min_eq_right h.le), limited.trans (decide_eq_true h)⟩
    · have capped : tmax < p.treq := by
        by_contra within
        rw [tcmd, min_eq_left (Nat.not_lt.mp within)] at h
        exact absurd (critBase.trans grown) (Nat.not_le.mpr h)
      have whole := tcmd.trans (min_eq_right capped.le)
      exact ⟨whole, whole ▸ h, limited.trans (decide_eq_true capped)⟩
    · exact tcmd ▸ le_min (tminBase.trans grown) htm
    · exact tcmd ▸ min_le_right _ _
  · intro tcmd p tmin tmax hp _ h1 h2 _
    obtain ⟨c1, c2⟩ := residualTime_range (closes := true) hp h1 h2
    obtain ⟨o1, o2⟩ := residualTime_range (closes := false) hp h1 h2
    exact ⟨rfl, rfl, c1, c2, o1, o2⟩
  · exact fun p => ⟨by simp [withinTarget], by simp [withinTarget]⟩
  · intro t h1 h2
    have : strokeTimeout t = (t * 3 + 1) / 2 + 100 := rfl
    omega
  · intro b h hb hh
    refine ⟨trackBaseline_tdiv b h, ?_, fun h1 h2 => ?_⟩
    all_goals
      unfold trackBaseline
      split <;> omega

end Sys2Proof.Machine
end

section
/-! Proof that every step keeps the node map in agreement with the records (R7). Valves and sensors are treated as one:
what matters of a record is the place that it names. -/

namespace Sys2Proof.Machine

/-- An address of the line (R2, R5). -/
def Node.Placed (n : Node) : Prop := 1 ≤ n.address ∧ n.address ≤ 60

/-- Places have keys of their own. -/
theorem Node.key_inj {m n : Node} (hm : m.Placed) (hn : n.Placed) : m.key = n.key ↔ m = n := by
  obtain ⟨lm, am⟩ := m
  obtain ⟨ln, an⟩ := n
  obtain ⟨hm1, hm2⟩ := hm
  obtain ⟨hn1, hn2⟩ := hn
  cases lm <;> cases ln <;> simp only [Node.key, lineCode, Node.mk.injEq, true_and, reduceCtorEq, false_and,
    iff_false] at * <;> omega

theorem nodeOk_iff (n : Node) : nodeOk n = true ↔ n.Placed := by
  simp [nodeOk, Node.Placed, inRange]

/-- A record read of a table whose records were rewritten one by one. -/
theorem Table.find_map {α β : Type} (g : α → β) (t : Table α) (n : Nat) :
    Table.find? (t.map fun p => (p.1, g p.2)) n = (t.find? n).map g := by
  induction t with
  | nil => rfl
  | cons p t ih =>
    simp only [List.map_cons, Table.find?, ih]
    split
    · rfl
    · split <;> rfl

namespace Station

/-- The place that the record of an occupant names (R2, R5). -/
def place (s : Station) : Occupant → Option Node
  | .valve v => s.nodeOf? v
  | .sensor k => (s.sensor? k).map (·.node)

theorem nodeOf_eq_some {s : Station} {v : Nat} {n : Node} :
    s.nodeOf? v = some n ↔ ∃ r, s.valve? v = some r ∧ r.node = some n := by
  simp [nodeOf?, Option.bind_eq_some_iff]

theorem mapAgrees_iff {s : Station} : s.MapAgrees ↔
    (∀ o n, s.place o = some n → n.Placed) ∧
    ∀ (n : Node) (o : Occupant), n.Placed → (s.occupant? n = some o ↔ s.place o = some n) := by
  constructor
  · rintro ⟨hv, hk, mv, mk⟩
    constructor
    · rintro (v | k) n h
      · obtain ⟨r, hr, hn⟩ := nodeOf_eq_some.mp h
        exact hv v r n hr hn
      · obtain ⟨r, hr, hn⟩ := Option.map_eq_some_iff.mp h
        exact hn ▸ hk k r hr
    · rintro n (v | k) ⟨h1, h2⟩
      · exact (mv n h1 h2 v).trans nodeOf_eq_some.symm
      · exact (mk n h1 h2 k).trans Option.map_eq_some_iff.symm
  · rintro ⟨hp, ho⟩
    exact
      { valves := fun v r n hr hn => hp (.valve v) n (nodeOf_eq_some.mpr ⟨r, hr, hn⟩)
        sensors := fun k r hr => hp (.sensor k) r.node (Option.map_eq_some_iff.mpr ⟨r, hr, rfl⟩)
        valve := fun n h1 h2 v => (ho n (.valve v) ⟨h1, h2⟩).trans nodeOf_eq_some
        sensor := fun n h1 h2 k => (ho n (.sensor k) ⟨h1, h2⟩).trans Option.map_eq_some_iff }

/-! What leaves the fixed part of the network table leaves the agreement. -/

theorem place_of_fixed {s t : Station} (h : t.nt.fixed = s.nt.fixed) (o : Occupant) : t.place o = s.place o := by
  cases o with
  | valve v =>
    have hf : (t.valve? v).map Valve.fixed = (s.valve? v).map Valve.fixed := by
      have hv : t.nt.fixed.valves.find? v = s.nt.fixed.valves.find? v := by rw [h]
      simp only [Network.fixed, Table.find_map] at hv
      exact hv
    show (t.valve? v).bind (·.node) = (s.valve? v).bind (·.node)
    calc (t.valve? v).bind (·.node) = ((t.valve? v).map Valve.fixed).bind (·.node) := by cases t.valve? v <;> rfl
      _ = ((s.valve? v).map Valve.fixed).bind (·.node) := by rw [hf]
      _ = (s.valve? v).bind (·.node) := by cases s.valve? v <;> rfl
  | sensor k =>
    have hk : t.nt.fixed.sensors = s.nt.fixed.sensors := by rw [h]
    change t.nt.sensors = s.nt.sensors at hk
    simp only [place, sensor?, hk]

theorem occupant_of_fixed {s t : Station} (h : t.nt.fixed = s.nt.fixed) (n : Node) : t.occupant? n = s.occupant? n := by
  have hm : t.nt.fixed.nodeMap = s.nt.fixed.nodeMap := by rw [h]
  change t.nt.nodeMap = s.nt.nodeMap at hm
  simp only [occupant?, hm]

theorem MapAgrees.of_fixed {s t : Station} (h : t.nt.fixed = s.nt.fixed) (hs : s.MapAgrees) : t.MapAgrees := by
  rw [mapAgrees_iff] at hs ⊢
  simpa only [place_of_fixed h, occupant_of_fixed h] using hs

theorem MapAgrees.of_nt {s t : Station} (h : t.nt = s.nt) (hs : s.MapAgrees) : t.MapAgrees := hs.of_fixed (by rw [h])

theorem MapAgrees.of_frame {b : Nat} (hb : 1 ≤ b) {s t : Station} (h : Frame b s t) (hs : s.MapAgrees) : t.MapAgrees :=
  hs.of_fixed (h.keeps hb).network

theorem fixed_of_frame {s t : Station} (h : Frame 1 s t) : t.nt.fixed = s.nt.fixed := (h.keeps le_rfl).network

/-! The events that write the clock, the storage, the slots, or the supply warning as well. -/

theorem setKind_nt (s : Station) (n : Node) (k : NodeKind) : (s.setKind n k).nt = s.nt := by
  unfold setKind
  split
  · rfl
  · rw [modNode_lines, dropQueued_lines]

theorem advanceTo_nt (s : Station) (d : Nat) : (s.advanceTo d).nt = s.nt := by
  rw [advanceTo_eq]

theorem freeSlot_nt (s : Station) (k : Nat) : (s.freeSlot k).nt = s.nt := rfl

theorem reachDue_nt (s : Station) (d : Option Nat) : (s.reachDue d).nt = s.nt := by
  cases d with
  | none => rfl
  | some d => exact advanceTo_nt s d

theorem fixed_warningQualifies (s : Station) : s.warningQualifies.nt.fixed = s.nt.fixed := by
  unfold warningQualifies
  split
  · rfl
  · dsimp only
    refine (fixed_of_frame (Frame.addCause .supply (fun _ _ => true)
      (Frame.foldl _ supplyHalt (fun t v => Frame.supplyHalt v (.refl t)) (.refl _)))).trans ?_
    rfl

theorem fixed_warningClears (s : Station) : s.warningClears.nt.fixed = s.nt.fixed := by
  unfold warningClears
  split
  · have h : Frame 1 ({ s with supplyWarning := false }.post { kind := .supplyRestored }) _ :=
      Frame.endCause .supply (fun _ _ => true) (.refl _)
    exact (h.keeps le_rfl).network
  · rfl

theorem fixed_timesOut (s : Station) (v : Nat) : (s.timesOut v).nt.fixed = s.nt.fixed := by
  unfold timesOut
  split
  · split
    · rename_i r _ a t _ _ _
      have h : Frame 1 (s.advanceTo (clockAfter a t)) _ := Frame.decideHalt v (.failed .timeout) (.refl _)
      rw [(h.keeps le_rfl).network, advanceTo_nt]
    · rfl
  · rfl

theorem fixed_settles (s : Station) (z : Nat) : (s.settles z).nt.fixed = s.nt.fixed := by
  unfold settles
  split
  · rename_i due _
    have h : Frame 1 (s.advanceTo due) _ := Frame.leaveHold z .settled (.refl _) (by decide)
    rw [(h.keeps le_rfl).network, advanceTo_nt]
  · rfl

theorem fixed_planExpires (s : Station) (k : Nat) : (s.planExpires k).nt.fixed = s.nt.fixed := by
  unfold planExpires
  split
  · refine (fixed_of_frame (Frame.post _ (Frame.trigger k (Frame.modSlotAny k _ (.refl _) (by decide))))).trans ?_
    rw [advanceTo_nt]
  · rfl

/-- The failed valves of two slots together (R67). -/
def joinedFailed (s : Station) (a b : Nat) : List (Nat × Cause) :=
  (s.slot a).failed ++ (s.slot b).failed.filter fun p => !(s.slot a).failed.contains p

/-- The surviving slot's record of a merge, before its state (R67). -/
def joinedSlot (s : Station) (a b : Nat) (r : Slot) : Slot :=
  { r with
    burst := unionList (s.slot a).burst (s.slot b).burst
    closedBy := unionList (s.slot a).closedBy (s.slot b).closedBy
    failed := (s.joinedFailed a b).take Config.failedCap
    work := unitedWork (s.slot a).work (s.slot b).work
    expansions := max (s.slot a).expansions (s.slot b).expansions
    authorized := earlierOf s.clock (s.slot a).authorized (s.slot b).authorized
    overrideMark := (s.slot a).overrideMark || (s.slot b).overrideMark
    deadline := none
    reason := none }

/-- A merge up to the freeing of the lost slot (R67): the lists united, the holds that both had counted once, the strokes
and the region taken over. -/
def joinedBefore (s : Station) (a b : Nat) : Station :=
  ((((s.slot b).closedBy.filter (s.slot a).closedBy.contains).foldl lowerHold
    (s.modSlot a (s.joinedSlot a b))).renameStrokes a b).dropOwnership b

/-- A merge up to the new state of the surviving slot. -/
def joinedBase (s : Station) (a b : Nat) : Station :=
  ((s.joinedBefore a b).freeSlot b).post { kind := .merged, slot := some a, value := some b }

/-- A merge with each entry that waits taking the exercises of its zone (R118). -/
def joinedTakes (s : Station) (a : Nat) : Station :=
  (s.slot a).work.foldl (fun s e => if waits e then s.abandonExercises (s.zoneOfValve e.valve) else s) s

/-- A merge: its base, and the surviving slot's state. -/
theorem joinSlots_eq (s : Station) (a b : Nat) :
    s.joinSlots a b =
      if Config.failedCap < (s.joinedFailed a b).length then
        ((s.joinedBase a b).unisolable a .tooManyFailures (s.joinedFailed a b).length, true)
      else if decide ((s.slot a).state = .aborted ∨ (s.slot b).state = .aborted) then
        (((s.joinedBase a b).stopEntries a false).modSlot a fun r => { r with state := .aborted, replanPending := false },
          true)
      else if (earlierOf s.clock (s.slot a).authorized (s.slot b).authorized).isSome then
        (((s.joinedBase a b).modSlot a fun r => { r with state := .closing, replanPending := true }).joinedTakes a, false)
      else
        ((s.joinedBase a b).modSlot a fun r =>
          { r with state := .planning, replanPending := false, overrideRequired := false }, false) := rfl

theorem frame_joinedBefore (s : Station) (a b : Nat) : Frame 1 s (s.joinedBefore a b) :=
  Frame.dropOwnership b (Frame.renameStrokes a b (Frame.foldl _ _ (fun u v => Frame.lowerHold v (.refl u))
    (Frame.modSlotAny a _ (.refl s) (by decide)))) (by decide)

theorem frame_joinedTakes (s : Station) (a : Nat) : Frame 1 s (s.joinedTakes a) :=
  Frame.foldl _ _ (fun u _ => Frame.ite (Frame.abandonExercises _ (.refl u)) (.refl u)) (.refl s)

theorem fixed_joinedBase (s : Station) (a b : Nat) : (s.joinedBase a b).nt.fixed = s.nt.fixed := by
  unfold joinedBase
  rw [post_nt, freeSlot_nt]
  exact fixed_of_frame (frame_joinedBefore s a b)

theorem fixed_joinSlots (s : Station) (a b : Nat) : (s.joinSlots a b).1.nt.fixed = s.nt.fixed := by
  rw [joinSlots_eq, ← fixed_joinedBase s a b]
  split
  · exact fixed_of_frame (Frame.unisolable a _ _ (.refl _))
  · split
    · rw [modSlot_nt]
      exact fixed_of_frame (Frame.stopEntries a false (.refl _))
    · split
      · rw [fixed_of_frame (frame_joinedTakes _ a), modSlot_nt]
      · rw [modSlot_nt]

theorem fixed_plannerMerges (s : Station) : s.plannerMerges.nt.fixed = s.nt.fixed := by
  unfold plannerMerges
  split
  · rfl
  · split
    · split
      · exact fixed_joinSlots s _ _
      · rfl
    · rfl

/-- What ends in the arbiters' decision leaves the table as it left it before. -/
theorem fixed_decideAll (s : Station) : s.decideAll.nt.fixed = s.nt.fixed := fixed_of_frame (Frame.decideAll (.refl s))

theorem storeFails_nt (s : Station) (c : Cause) : (s.storeFails c).nt = s.nt := rfl

theorem eraseDone_nt (s : Station) (e : Bool) : (s.eraseDone e).nt = s.nt := by
  unfold eraseDone
  split
  · split
    · rfl
    · split <;> rfl
  · rfl

theorem writeDone_nt (s : Station) (e : Bool) : (s.writeDone e).nt = s.nt := by
  unfold writeDone
  split
  · split
    · rfl
    · split <;> rfl
  · rfl

theorem verifyDone_nt (s : Station) (e : Bool) : (s.verifyDone e).nt = s.nt := by
  unfold verifyDone
  split
  · split
    · rfl
    · split <;> rfl
  · rfl

theorem flashTimeout_nt (s : Station) : s.flashTimeout.nt = s.nt := by
  unfold flashTimeout
  split
  · split <;> rfl
  · rfl

theorem startLines_nt (s : Station) : s.startLines.nt = s.nt := by
  unfold startLines
  split <;> rfl

theorem settleWaitEnds_nt (s : Station) : s.settleWaitEnds.nt = s.nt := by
  unfold settleWaitEnds
  rw [advanceTo_eq]
  split
  · exact startLines_nt _
  · rfl

/-! A change of mapping. -/

/-- The occupants after a change of an occupant's place (R7). -/
theorem occupant_remap (s : Station) (c : s.canonical = true) (old new : Option Node) (o : Occupant) (k : NodeKind)
    (m : Node) (hm : m.Placed) (ho : ∀ n, old = some n → n.Placed) (hn : ∀ n, new = some n → n.Placed) :
    (s.remap old new o k).occupant? m =
      if old = new then s.occupant? m else if new = some m then some o else if old = some m then none
        else s.occupant? m := by
  have tidy : Table.wf s.nt.nodeMap = true := (canonical_netTidy c).2.2.2.2
  unfold remap
  split
  · rfl
  · rename_i hne
    have key (n : Node) (h : n.Placed) : m.key = n.key ↔ m = n := Node.key_inj hm h
    cases old <;> cases new <;> simp only [occupant?, setKind_nt] <;> grind [Table.find_put_same, Table.find_put_other, Table.find_drop_same, Table.find_drop_other, Table.wf_drop]

/-- The agreement after an occupant's record was written to name a place that is free or its own, and mapped there. -/
theorem MapAgrees.remap {s x : Station} (c : x.canonical = true) (hs : s.MapAgrees) {o : Occupant} {new : Option Node}
    {k : NodeKind} (hmap : x.nt.nodeMap = s.nt.nodeMap) (hown : x.place o = new)
    (hrest : ∀ p, p ≠ o → x.place p = s.place p) (hnew : ∀ n, new = some n → n.Placed)
    (hfree : ∀ n, new = some n → s.occupiedByOther n o = false) : (x.remap (s.place o) new o k).MapAgrees := by
  rw [mapAgrees_iff] at hs ⊢
  obtain ⟨hp, hocc⟩ := hs
  have hx (m : Node) : x.occupant? m = s.occupant? m := by simp only [occupant?, hmap]
  have hplace (p : Occupant) : (x.remap (s.place o) new o k).place p = x.place p := by
    obtain ⟨nm, -, he, -⟩ := remap_rest x c (s.place o) new o k
    rw [he]
    cases p <;> rfl
  have hfree' (n : Node) (h : new = some n) : s.occupant? n = none ∨ s.occupant? n = some o := by
    have := hfree n h
    unfold occupiedByOther at this
    split at this <;> simp_all
  constructor
  · intro p n h
    rw [hplace] at h
    by_cases hpo : p = o
    · subst hpo; exact hnew n (hown ▸ h)
    · exact hp p n (hrest p hpo ▸ h)
  · intro m p hm
    rw [hplace, occupant_remap x c _ _ _ _ m hm (hp o) hnew, hx]
    have h1 := hocc m p hm
    have h2 := hocc m o hm
    have h3 := hfree' m
    by_cases hpo : p = o
    · subst hpo
      rw [hown]
      grind
    · rw [hrest p hpo]
      grind

/-! The edits of valves and sensors. -/

/-- A refused edit, and one that stops at its bar, leaves the station. -/
theorem refuse_station (st : Status) (s : Station) : (refuse st s).2.2 = s := rfl

theorem editTaken_station (n : Nat) (s : Station) : (editTaken n s).2.2 = s := rfl

theorem place_placed {l a : Nat} {n : Node} (h : place? l a = some n) : n.Placed := by
  unfold place? at h
  split at h
  · split at h
    · cases h; assumption
    · cases h
  · cases h

theorem mapAgrees_storeValve {s : Station} (c : s.canonical = true) (hs : s.MapAgrees) (f : ValveFields) (nm : Normal)
    (kd : ValveKind) (node : Option Node) (hnode : ∀ n, node = some n → n.Placed) (hbad : s.badValve f node = false) :
    (s.storeValve f nm kd node).2.2.MapAgrees := by
  have hfree (n : Node) (h : node = some n) : s.occupiedByOther n (.valve f.valve) = false := by
    subst h
    simp only [badValve, Bool.or_eq_false_iff] at hbad
    exact hbad.2
  let record := (valveRecord f nm kd node (s.valve? f.valve)).1
  let x : Station := { s with nt := { s.nt with valves := s.nt.valves.put f.valve record } }
  have hx : x.canonical = true :=
    canonical_edit s c _ fun ⟨h1, h2, h3, h4, h5⟩ => ⟨h1, Table.wf_put _ _ _ h2, h3, h4, h5⟩
  have base : (x.remap (s.place (.valve f.valve)) node (.valve f.valve) .actuator).MapAgrees := by
    refine hs.remap hx rfl ?_ ?_ hnode hfree
    · show (Table.find? (s.nt.valves.put f.valve record) f.valve).bind (·.node) = node
      rw [Table.find_put_same]
      rfl
    · intro p hp
      cases p with
      | sensor k => rfl
      | valve v =>
        show (Table.find? (s.nt.valves.put f.valve record) v).bind (·.node) = _
        rw [Table.find_put_other _ _ _ _ (fun h => hp (by rw [h]))]
        rfl
  refine base.of_frame (b := 1) le_rfl ?_
  exact Frame.ite
    (Frame.retimeValve _ (Frame.markStale (Frame.ite (Frame.valveStateOnEdit _ _ _ (.refl _) (by decide)) (.refl _))))
    (Frame.ite (Frame.valveStateOnEdit _ _ _ (.refl _) (by decide)) (.refl _))

theorem mapAgrees_putValve {s : Station} (c : s.canonical = true) (hs : s.MapAgrees) (f : ValveFields) :
    (s.putValve f).2.2.MapAgrees := by
  unfold putValve
  split
  · exact hs
  · split
    · extract_lets place
      split
      · exact hs
      · rename_i node _ _
        split
        · exact hs
        · split
          · exact hs
          · split
            · exact hs
            · rename_i hbad
              refine mapAgrees_storeValve c hs f _ _ _ (fun n h => ?_) (by simpa using hbad)
              unfold node at h
              split at h
              · exact place_placed h
              · cases h
    · exact hs

theorem mapAgrees_deleteValve {s : Station} (c : s.canonical = true) (hs : s.MapAgrees) (v : Nat) :
    (s.deleteValve v).2.2.MapAgrees := by
  have hv := (canonical_netTidy c).2.1
  unfold deleteValve
  split
  · exact hs
  · split
    · exact hs
    · split
      · exact hs
      · rename_i r hr
        split
        · exact hs
        · split
          · exact hs
          · let x : Station := { s with nt := { s.nt with valves := s.nt.valves.drop v } }
            have hx : x.canonical = true :=
              canonical_edit s c _ fun ⟨h1, h2, h3, h4, h5⟩ => ⟨h1, Table.wf_drop _ _ h2, h3, h4, h5⟩
            have own : s.place (.valve v) = r.node := by simp [place, nodeOf?, hr]
            refine MapAgrees.of_frame (b := 1) le_rfl (Frame.modVsAny (b := 1) v (fun _ => {})
              (.refl (x.remap r.node none (.valve v) .none)) (by decide)) ?_
            rw [← own]
            refine hs.remap hx rfl ?_ ?_ (by simp) (by simp)
            · show (Table.find? (s.nt.valves.drop v) v).bind (·.node) = none
              rw [Table.find_drop_same _ _ hv]
              rfl
            · intro p hp
              cases p with
              | sensor k => rfl
              | valve w =>
                show (Table.find? (s.nt.valves.drop v) w).bind (·.node) = _
                rw [Table.find_drop_other _ _ _ hv (fun h => hp (by rw [h]))]
                rfl

theorem mapAgrees_putSensor {s : Station} (c : s.canonical = true) (hs : s.MapAgrees) (n l a g : Nat) :
    (s.putSensor n l a g).2.2.MapAgrees := by
  unfold putSensor
  split
  · exact hs
  · split
    · exact hs
    · rename_i node hnode
      split
      · exact hs
      · split
        · exact hs
        · split
          · exact hs
          · rename_i hbad
            dsimp only
            split
            · exact hs
            · let x : Station := { s with nt := { s.nt with sensors := s.nt.sensors.put n ⟨node, g⟩ } }
              have hx : x.canonical = true :=
                canonical_edit s c _ fun ⟨h1, h2, h3, h4, h5⟩ => ⟨h1, h2, h3, Table.wf_put _ _ _ h4, h5⟩
              refine MapAgrees.of_frame (b := 1) le_rfl (Frame.modSensorWatch (b := 1) n (fun _ => {})
                (.refl (x.remap (s.place (.sensor n)) (some node) (.sensor n) .sensor)) (by decide)) ?_
              refine hs.remap hx rfl ?_ ?_ ?_ ?_
              · show (Table.find? (s.nt.sensors.put n ⟨node, g⟩) n).map (·.node) = some node
                rw [Table.find_put_same]
                rfl
              · intro p hp
                cases p with
                | valve v => rfl
                | sensor m =>
                  show (Table.find? (s.nt.sensors.put n ⟨node, g⟩) m).map (·.node) = _
                  rw [Table.find_put_other _ _ _ _ (fun h => hp (by rw [h]))]
                  rfl
              · rintro m ⟨⟩
                exact place_placed hnode
              · rintro m ⟨⟩
                simp only [Bool.or_eq_true, not_or, Bool.not_eq_true] at hbad
                exact hbad.2

theorem mapAgrees_deleteSensor {s : Station} (c : s.canonical = true) (hs : s.MapAgrees) (n : Nat) :
    (s.deleteSensor n).2.2.MapAgrees := by
  have hk := (canonical_netTidy c).2.2.2.1
  unfold deleteSensor
  split
  · exact hs
  · split
    · exact hs
    · split
      · exact hs
      · rename_i r hr
        split
        · exact hs
        · let x : Station := { s with nt := { s.nt with sensors := s.nt.sensors.drop n } }
          have hx : x.canonical = true :=
            canonical_edit s c _ fun ⟨h1, h2, h3, h4, h5⟩ => ⟨h1, h2, h3, Table.wf_drop _ _ h4, h5⟩
          have own : s.place (.sensor n) = some r.node := by simp [place, hr]
          refine MapAgrees.of_frame (b := 1) le_rfl (Frame.modSensorWatch (b := 1) n (fun _ => {})
            (.refl (x.remap (some r.node) none (.sensor n) .none)) (by decide)) ?_
          rw [← own]
          refine hs.remap hx rfl ?_ ?_ (by simp) (by simp)
          · show (Table.find? (s.nt.sensors.drop n) n).map (·.node) = none
            rw [Table.find_drop_same _ _ hk]
            rfl
          · intro p hp
            cases p with
            | valve v => rfl
            | sensor m =>
              show (Table.find? (s.nt.sensors.drop n) m).map (·.node) = _
              rw [Table.find_drop_other _ _ _ hk (fun h => hp (by rw [h]))]
              rfl

end Station

/-! The load: what the tests of an image assure, and the tables that it becomes. -/

theorem rowsOk_iff {α : Type} (n : Nat) (ok : α → Bool) (rows : List (Nat × α)) :
    rowsOk n ok rows = true ↔ (rows.map (·.1)).Nodup ∧ ∀ p ∈ rows, p.1 < n ∧ ok p.2 = true := by
  simp only [rowsOk, Bool.and_eq_true, decide_eq_true_eq, List.all_eq_true]

/-- What the tests of R181 assure of the image that loads, as far as numbers and places go. -/
structure Image.Sound (i : Image) : Prop where
  segments : (i.segments.map (·.1)).Nodup
  valves : (i.valves.map (·.1)).Nodup
  sensors : (i.sensors.map (·.1)).Nodup
  zones : (i.zones.map (·.1)).Nodup
  valve : ∀ p ∈ i.valves, p.1 < Config.valves ∧ valveOk p.2 = true
  sensor : ∀ p ∈ i.sensors, p.1 < Config.sensors ∧ sensorOk p.2 = true
  keys : (nodeKeys i).Nodup

theorem sound_of_tests {i : Image} (hf : fieldsOk i = true) (ht : topologyOk i = true) : i.Sound := by
  simp only [fieldsOk, Bool.and_eq_true, rowsOk_iff] at hf
  simp only [topologyOk, Bool.and_eq_true, decide_eq_true_eq] at ht
  obtain ⟨⟨⟨⟨⟨hg, -⟩, hv, hvo⟩, hk, hko⟩, hz, -⟩, -⟩ := hf
  exact { segments := hg, valves := hv, sensors := hk, zones := hz, valve := hvo, sensor := hko, keys := ht.1.2 }

theorem sound_of_load {f : Flash} {i : Image} (h : loadTest f = .ok i) : i.Sound := by
  cases f with
  | erased => cases h
  | holds c w =>
    simp only [loadTest] at h
    split at h
    · cases h
    · split at h
      · cases h
      · split at h
        · cases h
        · split at h
          · cases h
          · rename_i hok
            cases h
            simp only [not_or, Bool.not_eq_false] at hok
            exact sound_of_tests hok.2.1 hok.2.2

theorem valveOk_place {r : Valve} {n : Node} (h : valveOk r = true) (hn : r.node = some n) : n.Placed := by
  have hk : (match r.kind, r.node with
      | .actuated, some n => nodeOk n
      | .crew, none => true
      | _, _ => false) = true := by
    simp only [valveOk, Bool.and_eq_true] at h
    exact h.1.1.1.1.1.1.1.1.1.2
  cases hkind : r.kind <;> simp only [hkind, hn, reduceCtorEq] at hk
  exact (nodeOk_iff n).mp hk

theorem sensorOk_place {r : Sensor} (h : sensorOk r = true) : r.node.Placed := by
  simp only [sensorOk, Bool.and_eq_true] at h
  exact (nodeOk_iff _).mp h.1

/-- The places that an image maps, with their occupants. -/
def placings (i : Image) : List (Nat × Occupant) :=
  (i.valves.filterMap fun p => p.2.node.map fun n => (n.key, .valve p.1)) ++
    i.sensors.map fun p => (p.2.node.key, .sensor p.1)

theorem placings_keys (i : Image) : (placings i).map (·.1) = nodeKeys i := by
  simp only [placings, nodeKeys, List.map_append, List.map_filterMap, List.map_map, Option.map_map]
  rfl

/-- The node map of an image gathers the places that it maps. -/
theorem networkOf_nodeMap (i : Image) : (networkOf i).nodeMap = Table.gather (placings i) := by
  simp only [networkOf, Table.gather, placings, List.foldl_append, List.foldl_filterMap, List.foldl_map]
  refine congrArg (fun m => i.sensors.foldl (fun (t : Table Occupant) p => t.put p.2.node.key (.sensor p.1)) m) ?_
  refine congrArg (fun f => i.valves.foldl f []) (funext₂ fun t p => ?_)
  cases p.2.node <;> rfl

namespace Image.Sound

variable {i : Image} (h : i.Sound)
include h

theorem find_valve (v : Nat) (r : Valve) : (networkOf i).valves.find? v = some r ↔ (v, r) ∈ i.valves :=
  Table.find_gather _ _ _ h.valves

theorem find_sensor (k : Nat) (r : Sensor) : (networkOf i).sensors.find? k = some r ↔ (k, r) ∈ i.sensors :=
  Table.find_gather _ _ _ h.sensors

/-- The node map of a good image names at a place the record that names the place. -/
theorem find_place (n : Node) (hn : n.Placed) (o : Occupant) :
    (networkOf i).nodeMap.find? n.key = some o ↔
      match o with
      | .valve v => ∃ r, (v, r) ∈ i.valves ∧ r.node = some n
      | .sensor k => ∃ r, (k, r) ∈ i.sensors ∧ r.node = n := by
  rw [networkOf_nodeMap, Table.find_gather _ _ _ (placings_keys i ▸ h.keys)]
  simp only [placings, List.mem_append, List.mem_filterMap, List.mem_map, Option.map_eq_some_iff, Prod.mk.injEq]
  cases o with
  | valve v =>
    constructor
    · rintro (⟨⟨w, r⟩, hp, m, hm, hk, hw⟩ | ⟨p, -, -, hw⟩)
      · cases hw
        have hm' := valveOk_place (h.valve _ hp).2 hm
        exact ⟨r, hp, by rw [hm, (Node.key_inj hm' hn).mp hk]⟩
      · cases hw
    · rintro ⟨r, hp, hm⟩
      exact .inl ⟨(v, r), hp, n, hm, rfl, rfl⟩
  | sensor k =>
    constructor
    · rintro (⟨p, -, m, -, -, hw⟩ | ⟨⟨j, r⟩, hp, hk, hw⟩)
      · cases hw
      · cases hw
        exact ⟨r, hp, (Node.key_inj (sensorOk_place (h.sensor _ hp).2) hn).mp hk⟩
    · rintro ⟨r, hp, hm⟩
      exact .inr ⟨(k, r), hp, by rw [hm], rfl⟩

theorem mapAgrees {s : Station} (hs : s.nt = networkOf i) : s.MapAgrees where
  valves v r n hr hn := valveOk_place (h.valve _ ((h.find_valve v r).mp (by rw [← hs]; exact hr))).2 hn
  sensors k r hr := sensorOk_place (h.sensor _ ((h.find_sensor k r).mp (by rw [← hs]; exact hr))).2
  valve n h1 h2 v := by
    simp only [Station.occupant?, Station.valve?, hs, h.find_place n ⟨h1, h2⟩ (.valve v), h.find_valve]
  sensor n h1 h2 k := by
    simp only [Station.occupant?, Station.sensor?, hs, h.find_place n ⟨h1, h2⟩ (.sensor k), h.find_sensor]

end Image.Sound

namespace Station

/-- After its tables, a load writes valve states and node kinds alone. -/
theorem frame_loaded (s : Station) (i : Image) :
    Frame 1 { s with nt := networkOf i, ss := { s.ss with station := .ready } } (s.loaded i) := by
  unfold loaded
  refine Frame.foldl _ _ (fun u p => Frame.deriveClass _ (.refl u)) ?_
  refine Frame.foldl _ _ (fun u p => Frame.modNodeAny _ _ (.refl u) le_rfl) ?_
  refine Frame.foldl _ _ (fun u p => ?_) (.refl _)
  dsimp only
  have h (f : VsRec → VsRec) : Frame 1 u (u.modVs p.1 f) := Frame.modVsAny p.1 f (.refl u) (by decide)
  cases p.2.node with
  | some n => exact Frame.modNodeAny _ _ (h _) le_rfl
  | none => exact h _

/-- The empty table maps nothing. -/
theorem mapAgrees_empty {s : Station} (h : s.nt = {}) : s.MapAgrees := by
  rw [mapAgrees_iff]
  constructor
  · intro o n ho
    cases o <;> simp [place, nodeOf?, valve?, sensor?, h, Table.find?] at ho
  · intro n o _
    cases o <;> simp [occupant?, place, nodeOf?, valve?, sensor?, h, Table.find?]

theorem mapAgrees_loadingEnds {s : Station} (hs : s.MapAgrees) (a : Bool) : (s.loadingEnds a).MapAgrees := by
  unfold loadingEnds
  split
  · exact hs
  · refine MapAgrees.of_nt (startLines_nt _) ?_
    split
    · rename_i i hi
      exact MapAgrees.of_frame le_rfl (frame_loaded s i) ((sound_of_load hi).mapAgrees rfl)
    · exact mapAgrees_empty rfl

theorem mapAgrees_event {f : Station → Station} (hf : IsEvent f) {s : Station} (hs : s.MapAgrees) : (f s).MapAgrees := by
  cases hf with
  | loadingEnds a => exact mapAgrees_loadingEnds hs a
  | settleWaitEnds => exact hs.of_nt (settleWaitEnds_nt s)
  | eraseDone e => exact hs.of_nt (eraseDone_nt s e)
  | writeDone e => exact hs.of_nt (writeDone_nt s e)
  | verifyDone d => exact hs.of_nt (verifyDone_nt s d)
  | flashTimeout => exact hs.of_nt (flashTimeout_nt s)
  | warningQualifies => exact hs.of_fixed ((fixed_decideAll _).trans (fixed_warningQualifies s))
  | warningClears => exact hs.of_fixed ((fixed_decideAll _).trans (fixed_warningClears s))
  | startCall l => exact hs.of_frame le_rfl (Frame.startCall l (.refl s) le_rfl)
  | detailDue n => exact hs.of_nt (reachDue_nt s _)
  | sampleDue n => exact hs.of_nt (reachDue_nt s _)
  | rollDue n => exact hs.of_nt (reachDue_nt s _)
  | answerArrives l bs => exact hs.of_frame le_rfl (Frame.decideAll (Frame.answerArrives l bs (.refl s) le_rfl))
  | answerMissing l => exact hs.of_frame le_rfl (Frame.decideAll (Frame.answerMissing l (.refl s) le_rfl))
  | clearIsSent l => exact hs.of_frame le_rfl (Frame.decideAll (Frame.clearIsSent l (.refl s) le_rfl))
  | broadcastIsSent l => exact hs.of_frame le_rfl (Frame.decideAll (Frame.broadcastIsSent l (.refl s) le_rfl))
  | timesOut v => exact hs.of_fixed (fixed_timesOut s v)
  | planExpires k => exact hs.of_fixed (fixed_planExpires s k)
  | settles z => exact hs.of_fixed ((fixed_decideAll _).trans (fixed_settles s z))
  | plannerMerges => exact hs.of_fixed ((fixed_decideAll _).trans (fixed_plannerMerges s))
  | computationEnds => exact hs.of_frame (b := 1) le_rfl (Frame.decideAll (Frame.computationEnds (.refl s) (by decide)))

/-! The requests: the edits of the places have their own lemmas, and nothing else touches the map. -/

theorem MapAgrees.of_records {s t : Station} (hs : s.MapAgrees) (hv : t.nt.valves = s.nt.valves)
    (hk : t.nt.sensors = s.nt.sensors) (hm : t.nt.nodeMap = s.nt.nodeMap) : t.MapAgrees := by
  have hp (o : Occupant) : t.place o = s.place o := by
    cases o <;> simp only [place, nodeOf?, valve?, sensor?, hv, hk]
  rw [mapAgrees_iff] at hs ⊢
  simpa only [hp, occupant?, hm] using hs

/-- Every sensor of a segment is set to the pace of its zone. -/
theorem frame_sampleSegment {b : Nat} (s : Station) (n : Nat) :
    Frame b s (s.nt.sensors.foldl (fun s p => if p.2.segment = n then s.sampleByZone p.1 else s) s) :=
  Frame.foldl _ _ (fun u _ => Frame.ite (Frame.sampleByZone _ (.refl u)) (.refl u)) (.refl s)

theorem mapAgrees_putSegment {s : Station} (hs : s.MapAgrees) (n z c p q : Nat) (name : List Byte) :
    (s.putSegment n z c p q name).2.2.MapAgrees := by
  unfold putSegment
  split
  · exact hs
  · split
    · rename_i source priority tag _ _ _
      split
      · exact hs
      · dsimp only
        split
        · exact hs
        · split
          · exact hs
          · let stored : Segment := { zone := z, source, connections := clamp 0 65535 p, priority, name := tag }
            let segments := s.nt.segments.put n stored
            let x : Station := { s with nt := { s.nt with segments := segments, sourceCount := countSources segments } }
            have hx := frame_sampleSegment (b := 1) x n
            refine MapAgrees.of_frame (b := 1) le_rfl ?_ (hs.of_records (t := x) rfl rfl rfl)
            exact Frame.ite (Frame.markStale (Frame.ite hx (.refl x))) (Frame.ite hx (.refl x))
    · exact hs

theorem mapAgrees_putZone {s : Station} (hs : s.MapAgrees) (f : ZoneFields) : (s.putZone f).2.2.MapAgrees := by
  unfold putZone
  split
  · exact hs
  · split
    · exact hs
    · let x : Station := { s with nt := { s.nt with zones := s.nt.zones.writeD {} f.zone (zoneRecord f).1 } }
      refine MapAgrees.of_frame (b := 1) le_rfl ?_ (hs.of_records (t := x) rfl rfl rfl)
      rw [editTaken_station]
      refine Frame.decideAll ?_
      have hx : Frame 1 x (if (s.zoneRec f.zone).hmax = (zoneRecord f).1.hmax then x else retimeZone false x.markStale f.zone) :=
        Frame.ite (.refl x) (Frame.retimeZone false f.zone (Frame.markStale (.refl x)))
      dsimp only
      split
      · exact Frame.ite (Frame.leaveHold _ _ hx (by decide)) hx
      · exact hx

theorem mapAgrees_deleteSegment {s : Station} (hs : s.MapAgrees) (n : Nat) : (s.deleteSegment n).2.2.MapAgrees := by
  unfold deleteSegment
  split
  · exact hs
  · split
    · exact hs
    · split
      · exact hs
      · split
        · exact hs
        · split
          · exact hs
          · exact hs.of_records rfl rfl rfl

theorem mapAgrees_setTiming {s : Station} (hs : s.MapAgrees) (p l k w : Nat) : (s.setTiming p l k w).2.2.MapAgrees := by
  unfold setTiming
  split
  · exact hs
  · exact hs.of_records rfl rfl rfl

theorem fixed_openIncident (s : Station) (n : Nat) : (s.openIncident n).2.2.nt.fixed = s.nt.fixed := by
  unfold openIncident
  split
  · rfl
  · split
    · rfl
    · split
      · rfl
      · split
        · rfl
        · rfl
        · exact (fixed_of_frame (Frame.noteOpened _ (Frame.trigger _ (.refl _)))).trans rfl

theorem fixed_abort (s : Station) (k : Nat) : (s.abort k).2.2.nt.fixed = s.nt.fixed := by
  have gone : (((s.withdraw k).clearOwnership k).freeSlot k).decideAll.nt.fixed = s.nt.fixed := by
    rw [fixed_decideAll, freeSlot_nt]
    exact fixed_of_frame (Frame.clearOwnership k (Frame.withdraw k (.refl s)) (by decide))
  have stopped (f : Slot → Slot) : (((s.stopEntries k false).modSlot k f).withdraw k).decideAll.nt.fixed = s.nt.fixed := by
    rw [fixed_decideAll]
    exact fixed_of_frame (Frame.withdraw k (Frame.modSlotAny k f (Frame.stopEntries k false (.refl s)) (by decide)))
  unfold abort
  split
  · rfl
  · split
    · rfl
    · split
      · dsimp only; exact gone
      · dsimp only; exact gone
      · dsimp only; exact stopped _
      · dsimp only; exact stopped _
      · dsimp only; exact fixed_of_frame (Frame.decideAll (Frame.testDone k (Frame.stopEntries k true (.refl s))))
      · rfl

theorem fixed_closeIncident (s : Station) (k : Nat) : (s.closeIncident k).2.2.nt.fixed = s.nt.fixed := by
  have gone : ((s.clearOwnership k).freeSlot k).nt.fixed = s.nt.fixed := by
    rw [freeSlot_nt]
    exact fixed_of_frame (Frame.clearOwnership k (.refl s) (by decide))
  unfold closeIncident
  split
  · rfl
  · split
    · rfl
    · split
      · exact congrArg Network.fixed (freeSlot_nt s k)
      · split
        · exact gone
        · rfl
      · rfl

theorem commitTable_nt (s : Station) : s.commitTable.2.2.nt = s.nt := by
  unfold commitTable
  split
  · rfl
  · split
    · rfl
    · split <;> rfl

theorem mapAgrees_request {s : Station} (c : s.canonical = true) (hs : s.MapAgrees) (r : Request) :
    (decideRequest s r).2.2.MapAgrees := by
  cases r <;> simp only [decideRequest]
  case putSegment n z c p q name => exact mapAgrees_putSegment hs n z c p q name
  case deleteSegment n => exact mapAgrees_deleteSegment hs n
  case putValve f => exact mapAgrees_putValve c hs f
  case deleteValve v => exact mapAgrees_deleteValve c hs v
  case putSensor n l a g => exact mapAgrees_putSensor c hs n l a g
  case deleteSensor n => exact mapAgrees_deleteSensor c hs n
  case putZone f => exact mapAgrees_putZone hs f
  case setTiming p l k w => exact mapAgrees_setTiming hs p l k w
  case setFlow v q => exact hs.of_frame le_rfl (Frame.setFlow v q (.refl s) (by decide))
  case setHealth v h => exact hs.of_frame le_rfl (Frame.putHealth v h (.refl s))
  case confirmValve v r => exact hs.of_frame le_rfl (Frame.confirmValve v r (.refl s))
  case moveValve v g d => exact hs.of_frame le_rfl (Frame.moveValve v g d (.refl s))
  case haltValve v m => exact hs.of_frame le_rfl (Frame.haltValve v m (.refl s))
  case openIncident n => exact hs.of_fixed (fixed_openIncident s n)
  case authorize k o => exact hs.of_frame le_rfl (Frame.authorize k o (.refl s) (by decide))
  case abort k => exact hs.of_fixed (fixed_abort s k)
  case release k => exact hs.of_frame le_rfl (Frame.release k (.refl s) (by decide))
  case closeIncident k => exact hs.of_fixed (fixed_closeIncident s k)
  case resumeZone z => exact hs.of_frame le_rfl (Frame.resumeZone z (.refl s) (by decide))
  case fieldClear l => exact hs.of_frame le_rfl (Frame.fieldClear l (.refl s) le_rfl)
  case exerciseValve v g => exact hs.of_frame le_rfl (Frame.exerciseValve v g (.refl s))
  case commitTable => exact hs.of_nt (commitTable_nt s)
  all_goals simpa using hs

theorem invariant_mapAgrees : Invariant fun s => s.canonical = true ∧ s.MapAgrees where
  reset s := ⟨canonical_atReset s, mapAgrees_atReset s⟩
  taken s h := ⟨h.1, MapAgrees.of_nt (s := s) rfl h.2⟩
  tick s h := ⟨invariant_canonical.tick s h.1, h.2.of_nt (tick_nt s)⟩
  request s r hl h := ⟨invariant_canonical.request s r hl h.1, mapAgrees_request h.1 h.2 r⟩
  event f hf s h := ⟨invariant_canonical.event f hf s h.1, mapAgrees_event hf h.2⟩

/-- Settles O59: the edits of valves and sensors and the load move the map with the records, and all else leaves both. -/
theorem everyStepKeepsTheNodeMap : Obligations.EveryStepKeepsTheNodeMap := by
  unfold Obligations.EveryStepKeepsTheNodeMap
  exact fun s t c h ht => (invariant_mapAgrees.step ht ⟨c, h⟩).2

end Station
end Sys2Proof.Machine
end

section
/-! What an operation on work makes of the slots and of the hold counts (R33, R81): a slot goes on, with its entries only
going out of progress, and the hold counts follow the closed-by lists. -/

namespace Sys2Proof.Machine

/-- The slot may have close entries in progress (R85, R91). -/
def Slot.Live (r : Slot) : Prop := r.authorized.isSome = true ∧ (r.state = .closing ∨ r.state = .unisolable)

/-- How a slot goes on where no request opens, plans, releases or frees it. At levels 0 and 1 a slot in CLOSING does not
become ISOLATED, so that it stays live. -/
structure Slot.Onward (b : Nat) (x y : Slot) : Prop where
  unused : x = {} → y = {}
  authorized : y.authorized = x.authorized
  state : y.state = x.state ∨
    ((x.state = .closing ∨ x.state = .isolated) ∧ (y.state = .closing ∨ y.state = .unisolable)) ∨
    (2 ≤ b ∧ x.state = .closing ∧ y.state = .isolated ∧ y.work.any Station.inProgress = false) ∨
    (x.state = .reopening ∧ y.state = .done ∧ y.reopen.any Station.inProgress = false)
  valves : y.work.map (·.valve) = x.work.map (·.valve)
  working : y.work.any Station.inProgress = true → x.work.any Station.inProgress = true
  reopening : y.reopen.any Station.inProgress = true → x.reopen.any Station.inProgress = true
  reopens : y.reopen ≠ [] → x.reopen ≠ []
  closed : y.closedBy = x.closedBy ∨
    (x.authorized.isSome = true ∧ (x.state = .closing ∨ x.state = .isolated ∨ x.state = .unisolable) ∧
      (x.closedBy.Nodup → y.closedBy.Nodup))

namespace Slot.Onward

variable {b : Nat} {x y z : Slot}

theorem refl (x : Slot) : Onward b x x :=
  ⟨id, rfl, .inl rfl, rfl, id, id, id, .inl rfl⟩

theorem trans (h : Onward b x y) (g : Onward b y z) : Onward b x z where
  unused e := g.unused (h.unused e)
  authorized := g.authorized.trans h.authorized
  valves := g.valves.trans h.valves
  working e := h.working (g.working e)
  reopening e := h.reopening (g.reopening e)
  reopens e := h.reopens (g.reopens e)
  state := by
    have hw := g.working
    have hr := g.reopening
    have hs := h.state
    have gs := g.state
    grind
  closed := by
    have ha := h.authorized
    have hs := h.state
    have hc := h.closed
    have gc := g.closed
    grind

/-- At the strict levels a live slot stays live. -/
theorem live (h : Onward b x y) (hb : b ≤ 1) (hx : x.Live) : y.Live := by
  obtain ⟨ha, hs⟩ := hx
  refine ⟨h.authorized ▸ ha, ?_⟩
  have := h.state
  grind

theorem free_iff (h : Onward b x y) : y.state = .free ↔ x.state = .free := by
  have := h.state
  grind

/-- A slot that goes on still agrees with its state. -/
theorem agrees (h : Onward b x y) (hx : x.Agrees) : y.Agrees := by
  obtain ⟨f1, f2, f3, f4, f5, f6, f7, f8⟩ := hx
  have hs := h.state
  have ha := h.authorized
  have hc := h.closed
  have hw := h.working
  have hr := h.reopening
  have hn := h.reopens
  exact
    { free := fun e => h.unused (f1 (h.free_iff.mp e))
      authorized := by grind
      working := by grind
      closed := by grind
      reopening := by grind
      reopens := by grind
      entries := by rw [h.valves]; exact f7
      once := by grind }

/-- A change of none of the fields that matter. -/
theorem of_same (hs : y.state = x.state) (ha : y.authorized = x.authorized) (hw : y.work = x.work)
    (hc : y.closedBy = x.closedBy) (hr : y.reopen = x.reopen) (hu : x = {} → y = {}) : Onward b x y :=
  ⟨hu, ha, .inl hs, by rw [hw], by rw [hw]; exact id, by rw [hr]; exact id, by rw [hr]; exact id, .inl hc⟩

end Slot.Onward

theorem map_valve_modEntry (es : List Entry) (v : Nat) (f : Entry → Entry) (hf : ∀ e, (f e).valve = e.valve) :
    (modEntry es v f).map (·.valve) = es.map (·.valve) := by
  simp only [modEntry, List.map_map]
  refine List.map_congr_left fun e _ => ?_
  simp only [Function.comp]
  split
  · exact hf e
  · rfl

/-- No entry of a list comes into progress by a rewrite that brings none into it, or where one is already. -/
theorem any_modEntry {es : List Entry} {v : Nat} {f : Entry → Entry}
    (hf : (∀ e, Station.inProgress (f e) = true → Station.inProgress e = true) ∨ es.any Station.inProgress = true)
    (h : (modEntry es v f).any Station.inProgress = true) : es.any Station.inProgress = true := by
  obtain hf | hf := hf
  · simp only [modEntry, List.any_map, List.any_eq_true, Function.comp] at h ⊢
    obtain ⟨e, he, hp⟩ := h
    refine ⟨e, he, ?_⟩
    split at hp
    · exact hf e hp
    · exact hp
  · exact hf

namespace Station

variable {b : Nat} {s t : Station}

/-- The number of slots whose closed-by list contains the valve (R33). -/
def held (s : Station) (v : Nat) : Nat := slotNumbers.countP fun k => (s.slot k).closedBy.contains v

theorem holdsCounted_iff : s.HoldsCounted ↔ ∀ v, (s.vsOf v).holds = s.held v := Iff.rfl

/-- What `Works` keeps. -/
structure Kept (b : Nat) (s t : Station) : Prop where
  slots : ∀ k, Slot.Onward b (s.slot k) (t.slot k)
  tally : ∀ v, (t.vsOf v).holds + s.held v = (s.vsOf v).holds + t.held v
  freeList : t.im.freeList = s.im.freeList
  loading : t.ss.station = .loading → s.ss.station = .loading

/-- Every slot goes on, and the hold counts follow the closed-by lists; at level 0 whatever the slots are, and at the
others where they agree with their states. -/
def Works (b : Nat) (s t : Station) : Prop :=
  s.canonical = true → (1 ≤ b → s.SlotsOk) → t.canonical = true ∧ Kept b s t

theorem Kept.refl (s : Station) : Kept b s s := ⟨fun _ => .refl _, fun _ => rfl, rfl, id⟩

theorem Kept.trans {u : Station} (h : Kept b s t) (g : Kept b t u) : Kept b s u where
  slots k := (h.slots k).trans (g.slots k)
  tally v := by
    have h1 := h.tally v
    have h2 := g.tally v
    omega
  freeList := g.freeList.trans h.freeList
  loading e := h.loading (g.loading e)

theorem Kept.slotsOk (h : Kept b s t) (hs : s.SlotsOk) : t.SlotsOk where
  agrees k := (h.slots k).agrees (hs.agrees k)
  beyond k hk := (h.slots k).unused (hs.beyond k hk)
  loading e k := (h.slots k).unused (hs.loading (h.loading e) k)
  free k := by rw [h.freeList, hs.free k, (h.slots k).free_iff]
  once := by rw [h.freeList]; exact hs.once

theorem Kept.holdsCounted (h : Kept b s t) (hs : s.HoldsCounted) : t.HoldsCounted := by
  rw [holdsCounted_iff] at hs ⊢
  intro v
  have := h.tally v
  have := hs v
  omega

@[simp, refl] theorem Works.refl (s : Station) : Works b s s := fun c _ => ⟨c, .refl s⟩

theorem Works.trans {u : Station} (h : Works b s t) (g : Works b t u) : Works b s u := by
  intro c o
  obtain ⟨c1, k1⟩ := h c o
  obtain ⟨c2, k2⟩ := g c1 fun hb => k1.slotsOk (o hb)
  exact ⟨c2, k1.trans k2⟩

@[simp] theorem Works.ite {c : Prop} {_ : Decidable c} {x y : Station} (hx : Works b s x) (hy : Works b s y) :
    Works b s (if c then x else y) := by
  split <;> assumption

@[simp] theorem Works.foldl {α : Type} (xs : List α) (f : Station → α → Station)
    (hf : ∀ (t : Station) (a : α), Works b t (f t a)) (h : Works b s t) : Works b s (xs.foldl f t) := by
  induction xs generalizing t with
  | nil => exact h
  | cons a xs ih => exact ih (h.trans (hf t a))

theorem held_of_slots {u : Station} (h : ∀ k, (u.slot k).closedBy = (t.slot k).closedBy) (v : Nat) : u.held v = t.held v := by
  simp only [held, h]

/-- An operation that leaves the slots, the hold counts and the station's state. -/
theorem Works.same {u : Station} (h : Works b s t) (hc : t.canonical = true → u.canonical = true)
    (hi : u.im.slots = t.im.slots := by rfl) (hf : u.im.freeList = t.im.freeList := by rfl)
    (hv : t.canonical = true → ∀ v, (u.vsOf v).holds = (t.vsOf v).holds := by intro _ _; rfl)
    (hs : u.ss.station = t.ss.station := by rfl) : Works b s u := by
  refine h.trans fun c _ => ⟨hc c, ?_⟩
  have e (k : Nat) : u.slot k = t.slot k := by simp only [slot, hi]
  exact
    { slots := fun k => by rw [e]; exact .refl _
      tally := fun v => by rw [hv c, held_of_slots (fun k => by rw [e])]
      freeList := hf
      loading := fun x => by rwa [hs] at x }

/-! The base operations. -/

@[simp] theorem Works.post (n : Notice) (h : Works b s t) : Works b s (t.post n) := h.same id

@[simp] theorem Works.modVs (v : Nat) (f : VsRec → VsRec) (h : Works b s t) (hf : ∀ d, (f d).holds = d.holds) :
    Works b s (t.modVs v f) := by
  refine h.same (canonical_modVs v f) (hv := fun c w => ?_)
  rw [vsOf_modVs c]
  split
  · rename_i e; rw [hf, e]
  · rfl

theorem Works.modSlot (k : Nat) (f : Slot → Slot) (h : Works b s t)
    (hf : t.canonical = true → Slot.Onward b (t.slot k) (f (t.slot k)))
    (hc : (f (t.slot k)).closedBy = (t.slot k).closedBy) : Works b s (t.modSlot k f) := by
  refine h.trans fun c _ => ⟨canonical_modSlot k f c, ?_⟩
  have hf := hf c
  have e (j : Nat) : (t.modSlot k f).slot j = if j = k then f (t.slot k) else t.slot j := slot_modSlot c k j f
  exact
    { slots := fun j => by
        rw [e]
        split
        · rename_i hj; exact hj ▸ hf
        · exact .refl _
      tally := fun v => by
        rw [held_of_slots (t := t) (u := t.modSlot k f) fun j => ?_]
        · rfl
        · rw [e]
          split
          · rename_i hj; rw [hj, hc]
          · rfl
      freeList := rfl
      loading := id }

theorem onward_modWork (v : Nat) (f : Entry → Entry) (r : Slot) (hv : ∀ e, (f e).valve = e.valve)
    (hf : (∀ e, inProgress (f e) = true → inProgress e = true) ∨ r.work.any inProgress = true) :
    Slot.Onward b r { r with work := modEntry r.work v f } where
  unused h := by subst h; rfl
  authorized := rfl
  state := .inl rfl
  valves := map_valve_modEntry _ _ _ hv
  working := any_modEntry hf
  reopening := id
  reopens := id
  closed := .inl rfl

theorem onward_modReopen (v : Nat) (f : Entry → Entry) (r : Slot)
    (hf : (∀ e, inProgress (f e) = true → inProgress e = true) ∨ r.reopen.any inProgress = true) :
    Slot.Onward b r { r with reopen := modEntry r.reopen v f } where
  unused h := by subst h; rfl
  authorized := rfl
  state := .inl rfl
  valves := rfl
  working := id
  reopening := any_modEntry hf
  reopens h e := h (by simp [e, modEntry])
  closed := .inl rfl

theorem Works.modWork (k v : Nat) (f : Entry → Entry) (h : Works b s t) (hv : ∀ e, (f e).valve = e.valve)
    (hf : (∀ e, inProgress (f e) = true → inProgress e = true) ∨ (t.slot k).work.any inProgress = true) :
    Works b s (t.modWork k v f) :=
  h.modSlot k _ (fun _ => onward_modWork v f _ hv hf) rfl

theorem Works.modReopen (k v : Nat) (f : Entry → Entry) (h : Works b s t)
    (hf : (∀ e, inProgress (f e) = true → inProgress e = true) ∨ (t.slot k).reopen.any inProgress = true) :
    Works b s (t.modReopen k v f) :=
  h.modSlot k _ (fun _ => onward_modReopen v f _ hf) rfl

/-- A rewrite that brings no entry into progress. -/
theorem Works.modIn (k : Nat) (ro : Bool) (v : Nat) (f : Entry → Entry) (h : Works b s t) (hv : ∀ e, (f e).valve = e.valve)
    (hf : ∀ e, inProgress (f e) = true → inProgress e = true) : Works b s (t.modIn k ro v f) := by
  unfold Station.modIn
  split
  · exact h.modReopen k v f (.inl hf)
  · exact h.modWork k v f hv (.inl hf)

@[simp] theorem Works.modValve (v : Nat) (f : Valve → Valve) (h : Works b s t) : Works b s (t.modValve v f) := by
  refine h.same (fun c => ?_) ?_ ?_ ?_ ?_
  · unfold Station.modValve
    split
    · exact canonical_edit t c _ fun ⟨h1, h2, h3, h4, h5⟩ => ⟨h1, Table.wf_put _ _ _ h2, h3, h4, h5⟩
    · exact c
  all_goals unfold Station.modValve; split <;> intros <;> rfl

@[simp] theorem Works.setCount (z n : Nat) (h : Works b s t) : Works b s (t.setCount z n) :=
  h.same (Frame.setCount (b := 0) z n (Frame.refl t)).safe.canonical

@[simp] theorem Works.modZoneWatch (z : Nat) (f : ZoneWatch → ZoneWatch) (h : Works b s t) :
    Works b s (t.modZoneWatch z f) :=
  h.same (canonical_modZoneWatch z f)

@[simp] theorem Works.modSensorWatch (n : Nat) (f : SensorWatch → SensorWatch) (h : Works b s t) :
    Works b s (t.modSensorWatch n f) :=
  h.same (Frame.modSensorWatch (b := 0) n f (Frame.refl t) (by decide)).safe.canonical

@[simp] theorem Works.modLine (l : Line) (f : FieldLine → FieldLine) (h : Works b s t)
    (hn : ∀ x, (f x).nodes = x.nodes) : Works b s (t.modLine l f) := by
  have c : t.canonical = true → (t.modLine l f).canonical = true := fun c => by
    cases l <;> simpa only [Station.modLine, canonical, hn] using c
  refine h.same c ?_ ?_ ?_ ?_ <;> cases l <;> intros <;> rfl

@[simp] theorem Works.modNode (n : Node) (f : NodeEntry → NodeEntry) (h : Works b s t) : Works b s (t.modNode n f) := by
  refine h.same (fun c => canonical_modNode t c n f) ?_ ?_ ?_ ?_ <;> obtain ⟨l, a⟩ := n <;> cases l <;> intros <;> rfl

/-- The motion controller's tables and the exercise requests are no part of a slot. -/
theorem Works.motion {u : Station} (h : Works b s t) 
    (e : u = { t with md := { u.md with counts := t.md.counts }, xu := u.xu }) : Works b s u := by
  rw [e]; exact h.same id

@[simp] theorem Works.modStroke (v : Nat) (f : Stroke → Stroke) (h : Works b s t) : Works b s (t.modStroke v f) := h.motion rfl
@[simp] theorem Works.addStroke (r : Stroke) (h : Works b s t) : Works b s (t.addStroke r) := h.motion rfl
@[simp] theorem Works.dropStroke (v : Nat) (h : Works b s t) : Works b s (t.dropStroke v) := h.motion rfl
@[simp] theorem Works.addReturn (v : Nat) (h : Works b s t) : Works b s (t.addReturn v) := h.motion rfl
@[simp] theorem Works.dropReturn (v : Nat) (h : Works b s t) : Works b s (t.dropReturn v) := h.motion rfl
@[simp] theorem Works.addMove (m : Move) (h : Works b s t) : Works b s (t.addMove m) := h.motion rfl
@[simp] theorem Works.modMove (v : Nat) (f : Move → Move) (h : Works b s t) : Works b s (t.modMove v f) := h.motion rfl
@[simp] theorem Works.dropMove (v : Nat) (h : Works b s t) : Works b s (t.dropMove v) := h.motion rfl
@[simp] theorem Works.addExercise (x : Exercise) (h : Works b s t) : Works b s (t.addExercise x) := h.motion rfl
@[simp] theorem Works.modExercise (v : Nat) (f : Exercise → Exercise) (h : Works b s t) : Works b s (t.modExercise v f) :=
  h.motion rfl
@[simp] theorem Works.dropExercise (v : Nat) (h : Works b s t) : Works b s (t.dropExercise v) := h.motion rfl

/-- The planner's queue and flight. -/
theorem Works.planner {u : Station} (h : Works b s t) (e : u = { t with ip := u.ip }) : Works b s u := by
  rw [e]; exact h.same id

@[simp] theorem Works.modFlight (f : Flight → Flight) (h : Works b s t) : Works b s (t.modFlight f) := h.planner rfl

@[simp] theorem Works.markStale (h : Works b s t) : Works b s t.markStale := h.modFlight _

@[simp] theorem Works.startNext (h : Works b s t) : Works b s t.startNext := by
  refine h.planner ?_
  unfold Station.startNext
  repeat' split
  all_goals rfl

@[simp] theorem Works.enqueue (k : Nat) (h : Works b s t) : Works b s (t.enqueue k) := by
  refine h.planner ?_
  unfold Station.enqueue
  split <;> rfl

@[simp] theorem Works.trigger (k : Nat) (h : Works b s t) : Works b s (t.trigger k) := by
  simp (maxDischargeDepth := 99) [Station.trigger, h]

@[simp] theorem Works.withdraw (k : Nat) (h : Works b s t) : Works b s (t.withdraw k) := h.planner rfl

@[simp] theorem Works.noteOpened (k : Nat) (h : Works b s t) : Works b s (t.noteOpened k) := by
  refine h.planner ?_
  unfold Station.noteOpened
  repeat' split
  all_goals rfl

/-! Failures and the tests of R93 and R102. -/

@[simp] theorem Works.failEntry (k v : Nat) (h : Works b s t) : Works b s (t.failEntry k v) :=
  h.modWork k v _ (fun _ => rfl) (.inl fun _ he => by simp [Entry.settle, inProgress] at he)

/-- The slot is watched by R93. -/
def Watched (s : Station) (k : Nat) : Prop := (s.slot k).state = .closing ∨ (s.slot k).state = .isolated

theorem slot_ne_free {r : Slot} (h : r.state ≠ .free) : r ≠ {} := fun e => h (by rw [e])

theorem Works.unisolable (k : Nat) (c : Cause) (n : Nat) (h : Works b s t) (hw : t.canonical = true → t.Watched k) :
    Works b s (t.unisolable k c n) := by
  refine Works.post _ (h.modSlot k _ (fun c => ?_) rfl)
  have hw := hw c
  exact
    { unused := fun e => absurd e (slot_ne_free fun e => by rcases hw with h | h <;> rw [h] at e <;> cases e)
      authorized := rfl
      state := .inr (.inl ⟨hw, .inr rfl⟩)
      valves := rfl
      working := id
      reopening := id
      reopens := id
      closed := .inl rfl }

theorem Works.tooManyFailures (k n : Nat) (h : Works b s t) (hw : t.canonical = true → t.Watched k) :
    Works b s (t.tooManyFailures k n) :=
  (h.unisolable k _ n hw).withdraw k

theorem Works.addFailed (k : Nat) (x : Nat × Cause) (h : Works b s t) (hk : t.canonical = true → (t.slot k).state ≠ .free) :
    Works b s (t.modSlot k fun r => { r with failed := r.failed ++ [x] }) :=
  h.modSlot k _ (fun c => .of_same rfl rfl rfl rfl rfl fun e => absurd e (slot_ne_free (hk c))) rfl

theorem Works.expand (k : Nat) (f : Slot → Nat) (h : Works b s t) (hw : t.canonical = true → t.Watched k) :
    Works b s (t.modSlot k fun r => { r with expansions := f r, replanPending := true, state := .closing }) := by
  refine h.modSlot k _ (fun c => ?_) rfl
  have hw := hw c
  exact
    { unused := fun e => absurd e (slot_ne_free fun e => by rcases hw with h | h <;> rw [h] at e <;> cases e)
      authorized := rfl
      state := .inr (.inl ⟨hw, .inl rfl⟩)
      valves := rfl
      working := id
      reopening := id
      reopens := id
      closed := .inl rfl }

theorem slot_failEntry (c : t.canonical = true) (k v : Nat) :
    (t.failEntry k v).slot k = { t.slot k with work := modEntry (t.slot k).work v fun e => e.settle .failed } := by
  unfold Station.failEntry Station.modWork
  rw [slot_modSlot c, if_pos rfl]

@[simp] theorem Works.recordFailure (k v : Nat) (c : Cause) (h : Works b s t) : Works b s (t.recordFailure k v c) := by
  refine h.trans fun can o => ?_
  have h1 : Works b t (t.failEntry k v) := (Works.refl t).failEntry k v
  have c1 : (t.failEntry k v).canonical = true := (h1 can o).1
  have st : ((t.failEntry k v).slot k).state = (t.slot k).state := by rw [slot_failEntry can]
  suffices Works b t (t.recordFailure k v c) from this can o
  simp only [Station.recordFailure]
  have watched (hk : t.Watched k) : Works b t
      (if Config.failedCap ≤ (t.slot k).failed.length then
          ((t.failEntry k v).post (t.failureNotice k v c)).tooManyFailures k (Config.failedCap + 1)
        else if (t.slot k).replanPending then
          (((t.failEntry k v).modSlot k fun r => { r with failed := r.failed ++ [(v, c)] }).trigger k).post
            (t.failureNotice k v c)
        else if Config.expansionCap ≤ (t.slot k).expansions then
          (((t.failEntry k v).modSlot k fun r => { r with failed := r.failed ++ [(v, c)] }).post
            (t.failureNotice k v c)).tooManyFailures k (Config.expansionCap + 1)
        else
          ((((t.failEntry k v).modSlot k fun r => { r with failed := r.failed ++ [(v, c)] }).modSlot k fun r =>
            { r with expansions := r.expansions + 1, replanPending := true, state := .closing }).trigger k).post
            (t.failureNotice k v c)) := by
    have w1 : (t.failEntry k v).Watched k := by unfold Watched; rw [st]; exact hk
    have hn : ((t.failEntry k v).slot k).state ≠ .free := fun e => by rcases w1 with h | h <;> rw [h] at e <;> cases e
    have h2 := h1.addFailed k (v, c) fun _ => hn
    have w2 : ((t.failEntry k v).modSlot k fun r => { r with failed := r.failed ++ [(v, c)] }).Watched k := by
      unfold Watched; rw [slot_modSlot c1, if_pos rfl]; exact w1
    exact Works.ite ((h1.post _).tooManyFailures k _ fun _ => w1) (Works.ite ((h2.trigger k).post _)
      (Works.ite ((h2.post _).tooManyFailures k _ fun _ => w2) (((h2.expand k _ fun _ => w2).trigger k).post _)))
  have noted (hk : (t.slot k).state ≠ .free) : Works b t
      (((t.failEntry k v).modSlot k fun r =>
        if r.failed.length < Config.failedCap then { r with failed := r.failed ++ [(v, c)] } else r).post
        (t.failureNotice k v c)) := by
    refine Works.post _ (h1.modSlot k _ (fun _ => ?_) (by split <;> rfl))
    split
    · exact .of_same rfl rfl rfl rfl rfl fun e => absurd e (slot_ne_free (st ▸ hk))
    · exact .refl _
  cases hs : (t.slot k).state <;> simp only [hs] at watched noted ⊢
  case closing => exact watched (.inl hs)
  case isolated => exact watched (.inr hs)
  case unisolable => exact noted (by simp)
  case aborted => exact noted (by simp)
  all_goals exact h1.post _

@[simp] theorem Works.testDone (k : Nat) (h : Works b s t) : Works b s (t.testDone k) := by
  simp only [Station.testDone]
  split
  · rename_i hd
    obtain ⟨hs, hn⟩ := hd
    refine Works.post _ (h.modSlot k _ (fun c => ?_) rfl)
    exact
      { unused := fun e => absurd e (slot_ne_free (by rw [hs]; simp))
        authorized := rfl
        state := .inr (.inr (.inr ⟨hs, rfl, by
          simp only [List.any_eq_false, List.all_eq_true, Bool.not_eq_true'] at hn ⊢
          exact fun e he => by simp [hn e he]⟩))
        valves := rfl
        working := id
        reopening := id
        reopens := id
        closed := .inl rfl }
  · exact h

/-! Valve State and the ends of strokes. -/

@[simp] theorem Works.refreshClass (v : Nat) (h : Works b s t) : Works b s (t.refreshClass v) := by
  unfold Station.refreshClass
  split
  · exact h
  · exact Works.ite h (Works.markStale (Works.modVs v _ h (by simp)))

@[simp] theorem Works.deriveClass (v : Nat) (h : Works b s t) : Works b s (t.deriveClass v) := h.modVs v _ fun _ => rfl

@[simp] theorem Works.watchLeft (v : Nat) (h : Works b s t) : Works b s (t.watchLeft v) :=
  Works.foldl _ _ (fun u k => Works.ite ((Works.refl u).recordFailure k v _) (Works.refl u)) h

@[simp] theorem Works.reposition (v : Nat) (f : VsRec → VsRec) (h : Works b s t) (hf : ∀ d, (f d).holds = d.holds) :
    Works b s (t.reposition v f) := by
  simp (maxDischargeDepth := 99) [Station.reposition, h, hf]

@[simp] theorem Works.positionFromPercent (v : Nat) (h : Works b s t) : Works b s (t.positionFromPercent v) :=
  h.reposition v _ fun d => by split <;> rfl

@[simp] theorem Works.requestPosition (v : Nat) (h : Works b s t) : Works b s (t.requestPosition v) := by
  simp only [Station.requestPosition]
  split <;> simp (maxDischargeDepth := 99) [h]

@[simp] theorem Works.nodeFound (v : Nat) (h : Works b s t) : Works b s (t.nodeFound v) := by
  simp (maxDischargeDepth := 99) [Station.nodeFound, h]

@[simp] theorem Works.setHealth (v : Nat) (x : Health) (h : Works b s t) : Works b s (t.setHealth v x) := by
  simp (maxDischargeDepth := 99) [Station.setHealth, h]

@[simp] theorem Works.nodeLost (v : Nat) (h : Works b s t) : Works b s (t.nodeLost v) := by
  refine h.reposition v _ fun d => ?_
  dsimp only
  repeat' split
  all_goals rfl

@[simp] theorem Works.reportDrift (v : Nat) (h : Works b s t) : Works b s (t.reportDrift v) :=
  Works.foldl _ _ (fun u k => Works.ite ((Works.refl u).recordFailure k v _) (Works.refl u)) h

@[simp] theorem Works.takeDetailAtRest (v : Nat) (a : DetailAnswer) (h : Works b s t) :
    Works b s (t.takeDetailAtRest v a) := by
  have unusable {u : Station} (hu : Works b s u) : Works b s (u.reposition v fun d =>
      if 0 < d.holds then { d with stale := true }
      else { d with position := .unknown, percent := none, stale := false }) :=
    hu.reposition v _ fun d => by split <;> rfl
  simp (maxDischargeDepth := 99) [Station.takeDetailAtRest, h, unusable]

@[simp] theorem Works.takeDetailInMotion (v : Nat) (a : DetailAnswer) (h : Works b s t) :
    Works b s (t.takeDetailInMotion v a) := by
  simp (maxDischargeDepth := 99) [Station.takeDetailInMotion, h]

@[simp] theorem Works.setSampleDue (z : Nat) (due : Option Nat) (h : Works b s t) : Works b s (t.setSampleDue z due) := by
  refine Works.foldl _ _ (fun u n => ?_) h
  split <;> simp

@[simp] theorem Works.raiseCount (z : Nat) (h : Works b s t) : Works b s (t.raiseCount z) := by
  simp (maxDischargeDepth := 99) [Station.raiseCount, h]

@[simp] theorem Works.lowerCount (z : Nat) (h : Works b s t) : Works b s (t.lowerCount z) := by
  simp (maxDischargeDepth := 99) [Station.lowerCount, h]

@[simp] theorem Works.factorReturn (z : Nat) (h : Works b s t) : Works b s (t.factorReturn z) := by
  simp (maxDischargeDepth := 99) [Station.factorReturn, h]

@[simp] theorem Works.returnFactors (h : Works b s t) : Works b s t.returnFactors :=
  Works.foldl _ _ (fun u z => (Works.refl u).factorReturn z) h

@[simp] theorem Works.dropQueued (n : Node) (h : Works b s t) : Works b s (t.dropQueued n) := by
  simp (maxDischargeDepth := 99) [Station.dropQueued, h]

@[simp] theorem Works.endPosition (r : Stroke) (e : StrokeEnd) (a : Bool) (h : Works b s t) :
    Works b s (t.endPosition r e a) := by
  simp (maxDischargeDepth := 99) [Station.endPosition, h]

@[simp] theorem Works.endCore (r : Stroke) (e : StrokeEnd) (a : Bool) (h : Works b s t) : Works b s (t.endCore r e a) := by
  simp only [Station.endCore]
  repeat' split
  all_goals simp (maxDischargeDepth := 99) [h]

@[simp] theorem Works.moveFailed (v : Nat) (c : Cause) (h : Works b s t) : Works b s (t.moveFailed v c) := by
  simp [Station.moveFailed, h]

@[simp] theorem Works.moveReturns (v : Nat) (m : Move) (c : Bool) (h : Works b s t) : Works b s (t.moveReturns v m c) := by
  simp only [Station.moveReturns]
  repeat' split
  all_goals simp (maxDischargeDepth := 99) [h]

@[simp] theorem Works.handMove (r : Stroke) (e : StrokeEnd) (h : Works b s t) : Works b s (t.handMove r e) := by
  simp only [Station.handMove]
  repeat' split
  all_goals simp [h]

@[simp] theorem Works.lowerHealth (v : Nat) (h : Works b s t) : Works b s (t.lowerHealth v) := by
  simp only [Station.lowerHealth]
  repeat' split
  all_goals simp [h]

@[simp] theorem Works.finishExercise (v : Nat) (h : Works b s t) : Works b s (t.finishExercise v) := by
  simp only [Station.finishExercise]
  split <;> simp (maxDischargeDepth := 99) [h]

@[simp] theorem Works.finishWith (v : Nat) (c : Cause) (h : Works b s t) : Works b s (t.finishWith v c) := by
  simp [Station.finishWith, h]

@[simp] theorem Works.beginReturn (v : Nat) (c : Bool) (h : Works b s t) : Works b s (t.beginReturn v c) := by
  simp (maxDischargeDepth := 99) [Station.beginReturn, h]

@[simp] theorem Works.handOutward (r : Stroke) (e : StrokeEnd) (h : Works b s t) : Works b s (t.handOutward r e) := by
  simp only [Station.handOutward]
  repeat' split
  all_goals simp (maxDischargeDepth := 99) [h]

@[simp] theorem Works.handReturn (r : Stroke) (e : StrokeEnd) (h : Works b s t) : Works b s (t.handReturn r e) := by
  simp only [Station.handReturn]
  repeat' split
  all_goals simp (maxDischargeDepth := 99) [h]

@[simp] theorem Works.handExercise (r : Stroke) (e : StrokeEnd) (h : Works b s t) : Works b s (t.handExercise r e) := by
  simp only [Station.handExercise]
  repeat' split
  all_goals simp [h]

/-- A list with an entry in progress, found by its valve. -/
theorem any_of_entryOf {es : List Entry} {v : Nat} {e : Entry} (h : entryOf? es v = some e) (hp : inProgress e = true) :
    es.any inProgress = true :=
  List.any_eq_true.mpr ⟨e, List.mem_of_find?_eq_some h, hp⟩

/-- An entry that settles is in progress no more, unless it is put in a state of progress. -/
theorem inProgress_settle (e : Entry) (st : EntryState) :
    inProgress (e.settle st) = true ↔ st = .pending ∨ st = .stroking ∨ st = .halted ∨ st = .crewWait := by
  cases st <;> simp [Entry.settle, inProgress]

theorem Works.settleReopen (k v : Nat) (st : EntryState) (h : Works b s t) (hs : inProgress ⟨0, .crew, st, 0, false, false, none, {}⟩ = false) :
    Works b s (t.modReopen k v fun x => x.settle st) := by
  refine h.modReopen k v _ (.inl fun e he => ?_)
  rw [inProgress_settle] at he
  rcases he with rfl | rfl | rfl | rfl <;> cases hs

theorem Works.settleWork (k v : Nat) (st : EntryState) (h : Works b s t) (hs : inProgress ⟨0, .crew, st, 0, false, false, none, {}⟩ = false) :
    Works b s (t.modWork k v fun x => x.settle st) := by
  refine h.modWork k v _ (fun _ => rfl) (.inl fun e he => ?_)
  rw [inProgress_settle] at he
  rcases he with rfl | rfl | rfl | rfl <;> cases hs

@[simp] theorem Works.handReopen (k : Nat) (r : Stroke) (e : StrokeEnd) (h : Works b s t) : Works b s (t.handReopen k r e) := by
  unfold Station.handReopen
  split
  · cases e <;> simp [h]
  · dsimp only
    split
    · exact h
    · rename_i x hx
      cases e with
      | completed => exact (h.settleReopen k _ _ rfl).testDone k
      | failed c => exact ((h.settleReopen k _ _ rfl).post _).testDone k
      | halted c =>
        dsimp only
        split
        · rename_i hs
          exact h.modReopen k _ _ (.inr (any_of_entryOf hx (by simp [inProgress, hs])))
        · exact h
      | dropped => exact h
      | taken c => exact h

@[simp] theorem Works.handOther (r : Stroke) (e : StrokeEnd) (h : Works b s t) : Works b s (t.handOther r e) := by
  simp only [Station.handOther]
  split <;> simp [h]

@[simp] theorem Works.endOther (r : Stroke) (e : StrokeEnd) (h : Works b s t) : Works b s (t.endOther r e) := by
  simp [Station.endOther, h]

@[simp] theorem Works.queueHalt (v : Nat) (h : Works b s t) : Works b s (t.queueHalt v) := by
  simp only [Station.queueHalt]
  split <;> simp [h]

@[simp] theorem Works.joinEnd (v : Nat) (p e : StrokeEnd) (h : Works b s t) : Works b s (t.joinEnd v p e) := by
  unfold Station.joinEnd
  split <;> simp [h]

theorem Works.decideHaltWith {finish : Station → Stroke → StrokeEnd → Station} (v : Nat) (e : StrokeEnd)
    (hf : ∀ (u : Station) (r : Stroke), Works b u (finish u r e)) (h : Works b s t) :
    Works b s (decideHaltWith finish t v e) := by
  unfold Station.decideHaltWith
  split
  · exact h
  · split
    · exact h.joinEnd v _ e
    · split
      · exact Works.ite (h.modStroke v _) (h.trans (hf _ _))
      · exact (h.modStroke v _).queueHalt v
      · exact h

@[simp] theorem Works.haltOther (v : Nat) (e : StrokeEnd) (h : Works b s t) : Works b s (t.haltOther v e) :=
  h.decideHaltWith v e fun u r => (Works.refl u).endOther r e

/-! What takes a valve from other work. -/

@[simp] theorem Works.crewCancel (k v : Nat) (h : Works b s t) : Works b s (t.crewCancel k v) := h.post _

@[simp] theorem Works.removeReopen (k v : Nat) (h : Works b s t) : Works b s (t.removeReopen k v) := by
  unfold Station.removeReopen
  split
  · exact h
  · rename_i e _
    dsimp only
    have halted : Works b s (if e.state = .stroking then
        (t.modStroke v fun r => { r with orphan := true }).haltOther v (.taken .preempted) else t) :=
      Works.ite ((h.modStroke v _).haltOther v _) h
    refine Works.ite (Works.testDone k (Works.modSlot k _ (Works.ite (halted.crewCancel k v) halted) (fun _ => ?_) rfl)) h
    exact
      { unused := fun e => by rw [e]; rfl
        authorized := rfl
        state := .inl rfl
        valves := rfl
        working := id
        reopening := fun h => by
          simp only [List.any_eq_true] at h ⊢
          obtain ⟨x, hx, hp⟩ := h
          exact ⟨x, (List.mem_filter.mp hx).1, hp⟩
        reopens := fun h e => h (by rw [e]; rfl)
        closed := .inl rfl }

@[simp] theorem Works.withdrawMove (v : Nat) (h : Works b s t) : Works b s (t.withdrawMove v) := by
  simp only [Station.withdrawMove]
  split <;> simp [h]

@[simp] theorem Works.endIdleExercise (v : Nat) (c : Cause) (h : Works b s t) : Works b s (t.endIdleExercise v c) := by
  simp only [Station.endIdleExercise]
  split <;> simp [h]

@[simp] theorem Works.abandonExercises (z : Nat) (h : Works b s t) : Works b s (t.abandonExercises z) :=
  Works.foldl _ _ (fun u _ => Works.ite ((Works.refl u).haltOther _ _) (Works.refl u)) h

@[simp] theorem Works.noteClaim (v : Nat) (h : Works b s t) : Works b s (t.noteClaim v) := h.modStroke v _

@[simp] theorem Works.closeWaits (k v : Nat) (h : Works b s t) : Works b s (t.closeWaits k v) := by
  simp only [Station.closeWaits]
  split <;> simp (maxDischargeDepth := 99) [h]

@[simp] theorem Works.ownedTakes (v : Nat) (h : Works b s t) : Works b s (t.ownedTakes v) := by
  simp only [Station.ownedTakes]
  split <;> simp (maxDischargeDepth := 99) [h]

@[simp] theorem Works.silence (xs : List Nat) (h : Works b s t) : Works b s (t.silence xs) :=
  Works.foldl _ _ (fun u _ => Works.ite ((Works.refl u).modSensorWatch _ _) (Works.refl u)) h

/-- The ownership map is no part of a slot. -/
theorem Works.owner (m : Table Nat) (h : Works b s t) (hm : Table.wf t.im.owner = true → Table.wf m = true) :
    Works b s { t with im := { t.im with owner := m } } :=
  h.same (Frame.owner (b := 0) m (Frame.refl t) hm (by decide)).safe.canonical

@[simp] theorem Works.writeOwnership (k : Nat) (r : List Nat) (h : Works b s t) : Works b s (t.writeOwnership k r) := by
  unfold Station.writeOwnership
  exact Works.silence _ (Works.foldl _ _ (fun u v => Works.ite ((Works.refl u).ownedTakes v) (Works.refl u))
    (h.owner _ fun hw => wf_foldl_put _ _ _ (Table.wf_filter _ _ hw)))

@[simp] theorem Works.dropOwnership (k : Nat) (h : Works b s t) : Works b s (t.dropOwnership k) :=
  h.owner _ (Table.wf_filter _ _)

@[simp] theorem Works.clearOwnership (k : Nat) (h : Works b s t) : Works b s (t.clearOwnership k) := by
  simp (maxDischargeDepth := 99) [Station.clearOwnership, h]

/-- The count of a valve's slots where the closed-by list of one slot is another. -/
theorem held_update {u : Station} {k : Nat} (hk : k < 4) {ns : List Nat}
    (e : ∀ j, (u.slot j).closedBy = if j = k then ns else (t.slot j).closedBy) (w : Nat) :
    u.held w + (if (t.slot k).closedBy.contains w then 1 else 0) = t.held w + if ns.contains w then 1 else 0 := by
  simp only [held, slotNumbers, List.countP_cons, List.countP_nil, e]
  obtain rfl | rfl | rfl | rfl : k = 0 ∨ k = 1 ∨ k = 2 ∨ k = 3 := by omega
  all_goals
    simp only [Nat.reduceEqDiff, if_true, if_false]
    omega

/-- A valve joins the closed-by list of a slot that may hold valves (R86). -/
theorem Works.joinClosedBy (k v : Nat) (h : Works b s t) (hk : k < 4) (hl : t.canonical = true → (t.slot k).Live) :
    Works b s (t.joinClosedBy k v) := by
  unfold Station.joinClosedBy
  split
  · exact h
  · rename_i hn
    refine Works.foldl _ _ (fun u j => (Works.refl u).removeReopen j v) (Works.endIdleExercise v _ (Works.withdrawMove v ?_))
    refine h.trans fun c _ => ?_
    have live := hl c
    have c1 := canonical_modSlot k (fun r => { r with closedBy := r.closedBy ++ [v] }) c
    refine ⟨canonical_modVs v _ c1, ?_⟩
    let u := (t.modSlot k fun r => { r with closedBy := r.closedBy ++ [v] }).modVs v fun d => { d with holds := d.holds + 1 }
    have e (j : Nat) : u.slot j = if j = k then { t.slot k with closedBy := (t.slot k).closedBy ++ [v] } else t.slot j :=
      slot_modSlot c k j fun r => { r with closedBy := r.closedBy ++ [v] }
    have hv : v ∉ (t.slot k).closedBy := by simpa using hn
    have goes : Slot.Onward b (t.slot k) { t.slot k with closedBy := (t.slot k).closedBy ++ [v] } :=
      { unused := fun e => by have := live.1; rw [e] at this; cases this
        authorized := rfl
        state := .inl rfl
        valves := rfl
        working := id
        reopening := id
        reopens := id
        closed := .inr ⟨live.1, live.2.imp_right .inr, fun h => by
          simpa [List.nodup_append, h] using fun a ha (e : a = v) => hv (e ▸ ha)⟩ }
    have count (w : Nat) : u.held w = t.held w + if w = v then 1 else 0 := by
      have := held_update (u := u) (t := t) hk (ns := (t.slot k).closedBy ++ [v])
        (fun j => by rw [e]; split <;> rfl) w
      by_cases hw : w = v
      · subst hw; simp_all
      · simp_all
    exact
      { slots := fun j => by
          show Slot.Onward b (t.slot j) (u.slot j)
          rw [e]
          split
          · rename_i hj; exact hj ▸ goes
          · exact .refl _
        tally := fun w => by
          show (u.vsOf w).holds + t.held w = (t.vsOf w).holds + u.held w
          have hu : u.vsOf w = if w = v then { t.vsOf v with holds := (t.vsOf v).holds + 1 } else t.vsOf w :=
            vsOf_modVs c1 v w _
          rw [count, hu]
          split
          · rename_i hw; rw [hw]; simp only; omega
          · omega
        freeList := rfl
        loading := id }

end Station
end Sys2Proof.Machine
end

section
/-! Motion and the slots (R33, R81): the ends of close entries' strokes, the returns from HALTED, new times and grants. A
slot in CLOSING may become ISOLATED here (level 2). -/

namespace Sys2Proof.Machine.Station

variable {b : Nat} {s t : Station}

/-- A step that needs to know that the slots agree with their states. -/
theorem Works.given {u : Station} (hb : 1 ≤ b) (h : Works b s t) (g : t.canonical = true → t.SlotsOk → Works b t u) :
    Works b s u :=
  h.trans fun c o => g c (o hb) c o

/-- What keeps a live slot live may also be said of the level at which a slot may become ISOLATED. -/
theorem Works.loose (h : Works 1 s t) : Works 2 s t := by
  intro can o
  obtain ⟨c1, k⟩ := h can fun _ => o (by decide)
  refine ⟨c1, ⟨fun j => ?_, k.tally, k.freeList, k.loading⟩⟩
  have hj := k.slots j
  refine { hj with state := ?_ }
  obtain e | e | ⟨hb, -⟩ | e := hj.state
  · exact .inl e
  · exact .inr (.inl e)
  · cases Nat.not_lt_of_le hb (by decide)
  · exact .inr (.inr (.inr e))

theorem Works.live {k : Nat} (h : Works 1 s t) (c : s.canonical = true) (o : s.SlotsOk) (hl : (s.slot k).Live) :
    (t.slot k).Live :=
  ((h c fun _ => o).2.slots k).live le_rfl hl

theorem SlotsOk.lt_of_ne {k : Nat} (o : s.SlotsOk) (h : s.slot k ≠ {}) : k < 4 :=
  Nat.lt_of_not_le fun hk => h (o.beyond k hk)

theorem Slot.Live.ne {r : Slot} (h : r.Live) : r ≠ {} := fun e => by
  have := h.1
  rw [e] at this
  cases this

/-- A slot with work in progress is live. -/
theorem SlotsOk.live {k : Nat} (o : s.SlotsOk) (h : (s.slot k).work.any inProgress = true) :
    k < 4 ∧ (s.slot k).Live := by
  have hl := (o.agrees k).working h
  exact ⟨o.lt_of_ne (Slot.Live.ne hl), hl⟩

theorem Works.testIsolated (k : Nat) (h : Works 2 s t) : Works 2 s (t.testIsolated k) := by
  simp only [Station.testIsolated]
  split
  · rename_i hd
    obtain ⟨hs, -, hn⟩ := hd
    refine Works.post _ (h.modSlot k _ (fun c => ?_) rfl)
    exact
      { unused := fun e => absurd e (slot_ne_free (by rw [hs]; simp))
        authorized := rfl
        state := .inr (.inr (.inl ⟨le_rfl, hs, rfl, by
          simp only [List.any_eq_false, List.all_eq_true, decide_eq_true_eq] at hn ⊢
          intro e he
          obtain hc | hc := hn e he <;> simp [inProgress, hc]⟩))
        valves := rfl
        working := id
        reopening := id
        reopens := id
        closed := .inl rfl }
  · exact h

/-! The ends of strokes. -/

/-- The end of a close entry's stroke, where it does not complete. -/
theorem Works.handClose (k : Nat) (r : Stroke) (e : StrokeEnd) (h : Works b s t) (he : e ≠ .completed) :
    Works b s (t.handClose k r e) := by
  unfold Station.handClose
  dsimp only
  split
  · cases e <;> simp [h]
  · split
    · cases e with
      | failed c => dsimp only; split <;> simp [h]
      | completed => exact absurd rfl he
      | _ => exact h
    · cases e with
      | completed => exact absurd rfl he
      | failed c => exact h.recordFailure k _ c
      | halted x =>
        dsimp only
        split
        · rename_i hx
          obtain ⟨y, hy, hs⟩ := Option.map_eq_some_iff.mp hx
          refine Works.closeWaits k _ (h.modWork k _ _ ?_ (.inr (any_of_entryOf hy (by simp [inProgress, hs]))))
          exact fun _ => rfl
        · exact h
      | dropped => exact h
      | taken c => exact h

theorem Works.handCompleted (k : Nat) (r : Stroke) (h : Works 2 s t) : Works 2 s (t.handClose k r .completed) := by
  unfold Station.handClose
  dsimp only
  exact Works.ite h (Works.ite h ((h.settleWork k _ _ rfl).testIsolated k))

@[simp] theorem Works.endStroke (a : Bool) (r : Stroke) (e : StrokeEnd) (h : Works b s t) (he : e ≠ .completed) :
    Works b s (endStroke a t r e) := by
  have hc := h.endCore r e a
  unfold Station.endStroke
  generalize t.endCore r e a = u at hc ⊢
  dsimp only
  split
  · exact hc.handClose _ r e he
  · exact hc.handOther r e

@[simp] theorem Works.endStrokeAny (a : Bool) (r : Stroke) (e : StrokeEnd) (h : Works 2 s t) :
    Works 2 s (Station.endStroke a t r e) := by
  by_cases he : e = .completed
  · subst he
    have hc := h.endCore r .completed a
    unfold Station.endStroke
    generalize t.endCore r .completed a = u at hc ⊢
    dsimp only
    split
    · exact hc.handCompleted _ r
    · exact hc.handOther r _
  · exact h.endStroke a r e he

@[simp] theorem Works.decideHalt (v : Nat) (e : StrokeEnd) (h : Works b s t) (he : e ≠ .completed) :
    Works b s (t.decideHalt v e) :=
  h.decideHaltWith v e fun u r => (Works.refl u).endStroke false r e he

/-! Entries: new times, completions, returns from HALTED and halts. -/

@[simp] theorem Works.surgeLimited (slot : Option Nat) (v n : Nat) (h : Works b s t) :
    Works b s (t.surgeLimited slot v n) := h.post _

@[simp] theorem Works.setTime (k : Nat) (ro : Bool) (v : Nat) (p : Profile) (h : Works b s t) :
    Works b s (t.setTime k ro v p) := by
  have timed : Works b s (t.modIn k ro v fun x => { x with tcmd := p.tcmd, limited := p.limited }) :=
    h.modIn k ro v _ (fun _ => rfl) fun _ he => he
  simp only [Station.setTime]
  split <;> simp [h, timed]

/-- An entry completes without a stroke; a close entry in a live slot. -/
theorem Works.completeEntry (k : Nat) (ro : Bool) (v : Nat) (h : Works 2 s t)
    (hl : ro = false → k < 4 ∧ (t.canonical = true → (t.slot k).Live)) : Works 2 s (t.completeEntry k ro v) := by
  unfold Station.completeEntry
  cases ro with
  | true => exact ((h.positionFromPercent v).settleReopen k v _ rfl).testDone k
  | false =>
    obtain ⟨hk, hl⟩ := hl rfl
    exact (((h.joinClosedBy k v hk hl).positionFromPercent v).settleWork k v _ rfl).testIsolated k

/-- The entry found in a list of a slot is in progress. -/
theorem any_of_entryIn {k v : Nat} {ro : Bool} {e : Entry} (h : t.entryIn k ro v = some e) (hp : inProgress e = true) :
    (if ro then (t.slot k).reopen else (t.slot k).work).any inProgress = true :=
  any_of_entryOf h hp

/-- A rewrite of an entry that is in progress, or is brought into progress by none. -/
theorem Works.modInAt (k : Nat) (ro : Bool) (v : Nat) (f : Entry → Entry) (h : Works b s t) (hv : ∀ e, (f e).valve = e.valve)
    (hp : t.canonical = true → (if ro then (t.slot k).reopen else (t.slot k).work).any inProgress = true) :
    Works b s (t.modIn k ro v f) := by
  refine h.trans fun c o => ?_
  have hp := hp c
  suffices Works b t (t.modIn k ro v f) from this c o
  unfold Station.modIn
  cases ro with
  | true => exact (Works.refl t).modReopen k v f (.inr hp)
  | false => exact (Works.refl t).modWork k v f hv (.inr hp)

theorem entryIn_setTime (c : t.canonical = true) (k : Nat) (ro : Bool) (v : Nat) (p : Profile) {e : Entry}
    (h : t.entryIn k ro v = some e) :
    (t.setTime k ro v p).entryIn k ro v = some { e with tcmd := p.tcmd, limited := p.limited } := by
  have hm : (t.modIn k ro v fun x => { x with tcmd := p.tcmd, limited := p.limited }).entryIn k ro v =
      some { e with tcmd := p.tcmd, limited := p.limited } := by
    rw [entryIn_modIn c k k ro ro v v (hf := by simp), h]
    simp
  unfold Station.setTime
  rw [h]
  dsimp only
  split
  · exact hm
  · exact hm

/-- A HALTED entry left with no cause (R76, R127). -/
theorem Works.pendEntry (k : Nat) (ro : Bool) (v : Nat) (e : Entry) (h : Works 2 s t) (he : t.entryIn k ro v = some e)
    (hp : inProgress e = true) : Works 2 s (t.pendEntry k ro v) := by
  refine h.given (by decide) fun c o => ?_
  unfold Station.pendEntry
  split
  · exact .refl t
  · rename_i r _
    have timed : Works 1 t (t.setTime k ro v (profileOf t v r)) := (Works.refl t).setTime k ro v _
    have prog (_ : (t.setTime k ro v (profileOf t v r)).canonical = true) :
        (if ro then ((t.setTime k ro v (profileOf t v r)).slot k).reopen
          else ((t.setTime k ro v (profileOf t v r)).slot k).work).any inProgress = true :=
      any_of_entryIn (entryIn_setTime c k ro v _ he) hp
    have waits (f : Entry → Entry) (hf : ∀ e, (f e).valve = e.valve) :
        Works 2 t (if ro then (t.setTime k ro v (profileOf t v r)).modIn k ro v f
          else ((t.setTime k ro v (profileOf t v r)).modIn k ro v f).closeWaits k v) :=
      Works.ite (timed.loose.modInAt k ro v f hf prog) ((timed.loose.modInAt k ro v f hf prog).closeWaits k v)
    dsimp only
    split
    · exact waits _ fun _ => rfl
    · refine Works.ite (timed.loose.completeEntry k ro v fun hro => ?_) (waits _ fun _ => rfl)
      subst hro
      have hl := o.live (any_of_entryIn he hp)
      exact ⟨hl.1, fun _ => timed.live c o hl.2⟩

@[simp] theorem Works.endCauseOf (c : HaltCause) (k : Nat) (ro : Bool) (v : Nat) (h : Works 2 s t) :
    Works 2 s (t.endCauseOf c k ro v) := by
  unfold Station.endCauseOf
  split
  · exact h
  · rename_i e he
    split
    · rename_i hh
      exact Works.ite (h.pendEntry k ro v e he (by simp [inProgress, hh.1])) (h.modIn k ro v _ (fun _ => rfl) fun _ hp => hp)
    · exact h

theorem Works.forEntriesOf (k : Nat) (f : Station → Bool → Nat → Station)
    (hf : ∀ (u : Station) (ro : Bool) (v : Nat), Works b u (f u ro v)) (h : Works b s t) :
    Works b s (t.forEntriesOf k f) :=
  Works.foldl _ _ (fun u e => hf u true e.valve) (Works.foldl _ _ (fun u e => hf u false e.valve) h)

theorem Works.forEntries (f : Station → Nat → Bool → Nat → Station)
    (hf : ∀ (u : Station) (k : Nat) (ro : Bool) (v : Nat), Works b u (f u k ro v)) (h : Works b s t) :
    Works b s (t.forEntries f) :=
  Works.foldl _ _ (fun u k => (Works.refl u).forEntriesOf k _ fun u ro v => hf u k ro v) h

@[simp] theorem Works.endCause (c : HaltCause) (m : Station → Nat → Bool) (h : Works 2 s t) : Works 2 s (t.endCause c m) :=
  h.forEntries _ fun u k ro v => Works.ite ((Works.refl u).endCauseOf c k ro v) (.refl u)

@[simp] theorem Works.addCause (c : HaltCause) (m : Station → Nat → Bool) (h : Works b s t) : Works b s (t.addCause c m) := by
  refine h.forEntries _ fun u k ro v => ?_
  split
  · exact Works.ite ((Works.refl u).modIn k ro v _ (fun _ => rfl) fun _ hp => hp) (.refl u)
  · exact .refl u

@[simp] theorem Works.retimeEntry (x : Bool) (k : Nat) (ro : Bool) (v : Nat) (h : Works 2 s t) :
    Works 2 s (retimeEntry x t k ro v) := by
  unfold Station.retimeEntry
  split
  · rename_i e r he _
    split
    · rename_i hw
      have hp : inProgress e = true := by rcases hw with hw | hw <;> simp [inProgress, hw]
      refine h.given (by decide) fun c o => ?_
      have timed : Works 1 t (t.setTime k ro v (profileOf t v r)) := (Works.refl t).setTime k ro v _
      dsimp only
      split
      · split
        · exact timed.loose.modIn k ro v _ (fun _ => rfl) fun _ hp => hp
        · refine Works.ite (timed.loose.completeEntry k ro v fun hro => ?_)
            (timed.loose.modIn k ro v _ (fun _ => rfl) fun _ hp => hp)
          subst hro
          have hl := o.live (any_of_entryIn he hp)
          exact ⟨hl.1, fun _ => timed.live c o hl.2⟩
      · exact timed.loose
    · exact h
  · exact h

@[simp] theorem Works.retimeValve (v : Nat) (h : Works 2 s t) : Works 2 s (t.retimeValve v) :=
  h.forEntries _ fun u k ro w => Works.ite ((Works.refl u).retimeEntry false k ro w) (.refl u)

@[simp] theorem Works.retimeZone (x : Bool) (z : Nat) (h : Works 2 s t) : Works 2 s (retimeZone x t z) :=
  h.forEntries _ fun u k ro w => Works.ite ((Works.refl u).retimeEntry x k ro w) (.refl u)

@[simp] theorem Works.hostHaltEntry (k : Nat) (ro : Bool) (v : Nat) (h : Works b s t) : Works b s (t.hostHaltEntry k ro v) := by
  unfold Station.hostHaltEntry
  split
  · exact h
  · rename_i e he
    split
    · rename_i hw
      have hp : inProgress e = true := by
        simp only [waits, decide_eq_true_eq] at hw
        rcases hw with hw | hw <;> simp [inProgress, hw]
      have halted := h.modInAt k ro v (fun x => { x with state := .halted, halts := x.halts.join .host }) (fun _ => rfl)
        fun _ => any_of_entryIn he hp
      exact Works.ite (halted.closeWaits k v) halted
    · exact h

/-! The grants and the arbiters' decision. -/

@[simp] theorem Works.openStroke (v : Nat) (o : Owner) (target time : Nat) (h : Works b s t) :
    Works b s (t.openStroke v o target time) := by
  simp (maxDischargeDepth := 99) [Station.openStroke, h]

@[simp] theorem Works.queueStroke (v : Nat) (h : Works b s t) : Works b s (t.queueStroke v) := by
  simp only [Station.queueStroke]
  split <;> simp [h]

theorem raiseCount_im (z : Nat) : (t.raiseCount z).im = t.im := by
  unfold Station.raiseCount
  dsimp only
  split
  · rw [setSampleDue_im]
    rfl
  · rfl

theorem openStroke_im (v : Nat) (o : Owner) (target time : Nat) : (t.openStroke v o target time).im = t.im := by
  unfold Station.openStroke
  dsimp only
  rw [modVs_im, addStroke_im, raiseCount_im]

theorem entryIn_of_im {u : Station} (h : u.im = t.im) (k : Nat) (ro : Bool) (v : Nat) : u.entryIn k ro v = t.entryIn k ro v := by
  simp only [entryIn, slot, h]

/-- The list of a slot that `ro` means. -/
def listOf (s : Station) (k : Nat) (ro : Bool) : List Entry := if ro then (s.slot k).reopen else (s.slot k).work

theorem any_setTime (c : t.canonical = true) (k : Nat) (ro : Bool) (v : Nat) (p : Profile) :
    ((t.setTime k ro v p).listOf k ro).any inProgress = (t.listOf k ro).any inProgress := by
  have hm : ((t.modIn k ro v fun x => { x with tcmd := p.tcmd, limited := p.limited }).listOf k ro).any inProgress =
      (t.listOf k ro).any inProgress := by
    have hf (es : List Entry) :
        (modEntry es v fun x => { x with tcmd := p.tcmd, limited := p.limited }).any inProgress = es.any inProgress := by
      simp only [modEntry, List.any_map]
      congr 1
      funext e
      simp only [Function.comp]
      split <;> rfl
    cases ro with
    | true =>
      simp only [listOf, Station.modIn, if_true, Station.modReopen, slot_modSlot c]
      exact hf _
    | false =>
      simp only [listOf, Station.modIn, Bool.false_eq_true, if_false, Station.modWork, slot_modSlot c, if_true]
      exact hf _
  unfold Station.setTime
  split
  · rfl
  · dsimp only
    split
    · exact hm
    · exact hm

theorem listOf_of_im {u : Station} (h : u.im = t.im) (k : Nat) (ro : Bool) : u.listOf k ro = t.listOf k ro := by
  simp only [listOf, slot, h]

/-- The grant of an entry of a list with an entry in progress (R115, R116). -/
theorem Works.grantEntry (k : Nat) (ro : Bool) (v : Nat) (h : Works 2 s t)
    (hp : (t.listOf k ro).any inProgress = true) : Works 2 s (t.grantEntry k ro v) := by
  refine h.given (by decide) fun c o => ?_
  unfold Station.grantEntry
  split
  · rename_i e r _ _
    have timed : Works 1 t (t.setTime k ro v (profileOf t v r)) := (Works.refl t).setTime k ro v _
    have hp1 := (any_setTime c k ro v (profileOf t v r)).trans hp
    dsimp only
    generalize t.setTime k ro v (profileOf t v r) = u at timed hp1 ⊢
    have live (hro : ro = false) : k < 4 ∧ (t.slot k).Live := by
      subst hro
      exact o.live hp
    refine Works.ite (timed.loose.completeEntry k ro v fun hro => ⟨(live hro).1, fun _ => timed.live c o (live hro).2⟩) ?_
    refine Works.queueStroke v ?_
    have stroked (w : Owner) (a b : Nat) (p : Option Nat) :
        Works 1 t ((u.openStroke v w a b).modIn k ro v fun x => { x with state := .stroking, residual := p }) :=
      (timed.openStroke v w a b).modInAt k ro v (fun x => { x with state := .stroking, residual := p }) (fun _ => rfl) fun _ =>
        (congrArg (List.any · inProgress) (listOf_of_im (openStroke_im v w a b) k ro)).trans hp1
    split
    · exact (stroked _ _ _ _).loose
    · rename_i hro
      have hro : ro = false := by simpa using hro
      exact ((stroked _ _ _ _).joinClosedBy k v (live hro).1 fun _ => (stroked _ _ _ _).live c o (live hro).2).loose
  · exact .refl t

@[simp] theorem Works.grantMove (v : Nat) (h : Works b s t) : Works b s (t.grantMove v) := by
  simp only [Station.grantMove]
  split <;> simp (maxDischargeDepth := 99) [h]

@[simp] theorem Works.grantExercise (v : Nat) (h : Works b s t) : Works b s (t.grantExercise v) := by
  simp only [Station.grantExercise]
  split <;> simp (maxDischargeDepth := 99) [h]

@[simp] theorem Works.grantReturn (v : Nat) (h : Works b s t) : Works b s (t.grantReturn v) := by
  simp only [Station.grantReturn]
  split <;> simp (maxDischargeDepth := 99) [h]

theorem any_of_pending {k v : Nat} {ro : Bool} (h : ∃ e ∈ t.listOf k ro, e.valve = v ∧ e.state = .pending) :
    (t.listOf k ro).any inProgress = true := by
  obtain ⟨e, he, -, hs⟩ := h
  exact List.any_eq_true.mpr ⟨e, he, by simp [inProgress, hs]⟩

/-- Selecting a candidate that the arbiter is offered. -/
theorem Works.select {z : Nat} {c : Candidate} (h : Works 2 s t) (ho : t.Offered z c) : Works 2 s (t.select c) := by
  cases c with
  | exerciseReturn v => exact h.grantReturn v
  | closeEntry k v =>
    obtain ⟨-, -, -, he, -⟩ := ho
    exact h.grantEntry k false v (any_of_pending he)
  | reopenEntry k v =>
    obtain ⟨-, -, he, -⟩ := ho
    exact h.grantEntry k true v (any_of_pending he)
  | move v => exact h.grantMove v
  | exercise v => exact h.grantExercise v

theorem Works.decideZone (n z : Nat) (h : Works 2 s t) : Works 2 s (decideZone n t z) := by
  induction n generalizing t with
  | zero => exact h.factorReturn z
  | succ n ih =>
    unfold Station.decideZone
    dsimp only
    split
    · rename_i c hc
      exact ih ((h.factorReturn z).select (offered_of_firstEligible hc))
    · exact h.factorReturn z

@[simp] theorem Works.decideAll (h : Works 2 s t) : Works 2 s t.decideAll :=
  Works.returnFactors (Works.foldl _ _ (fun u z => (Works.refl u).decideZone _ z) h)

end Sys2Proof.Machine.Station
end

section
/-! The slots through the ends of calls, samples and holds. -/

namespace Sys2Proof.Machine.Station

variable {s t : Station}

@[simp] theorem Works.sampleNotice (x : NoticeKind) (z n d : Nat) (h : Works 2 s t) : Works 2 s (t.sampleNotice x z n d) := by
  simp only [Station.sampleNotice]
  split <;> simp [h]

@[simp] theorem Works.haltZone (z : Nat) (h : Works 2 s t) : Works 2 s (t.haltZone z) := by
  simp (maxDischargeDepth := 99) [Station.haltZone, h]

/-- A rewrite of a line that keeps its table of nodes tidy. -/
theorem Works.modLineAny {b : Nat} (l : Line) (f : FieldLine → FieldLine) (h : Works b s t)
    (hf : ∀ x, Table.tidy {} x.nodes = true → Table.tidy {} (f x).nodes = true) : Works b s (t.modLine l f) := by
  refine h.same (Frame.modLineAny (b := 0) l f (.refl t) hf (by decide)).safe.canonical ?_ ?_ ?_ ?_ <;>
    cases l <;> intros <;> rfl

@[simp] theorem Works.bringForward (l : Line) (h : Works 2 s t) : Works 2 s (t.bringForward l) := by
  refine h.same (Frame.bringForward (b := 0) l (.refl t)).safe.canonical ?_ ?_ ?_ ?_ <;> cases l <;> intros <;> rfl

@[simp] theorem Works.startCall (l : Line) (h : Works 2 s t) : Works 2 s (t.startCall l) := by
  simp only [Station.startCall]
  repeat' split
  all_goals simp (maxDischargeDepth := 99) [h]

@[simp] theorem Works.completeCall (n : Node) (c : Nat) (h : Works 2 s t) : Works 2 s (t.completeCall n c) := by
  simp only [Station.completeCall]
  split <;> simp (maxDischargeDepth := 99) [h]

@[simp] theorem Works.toHalting (r : Stroke) (h : Works 2 s t) : Works 2 s (t.toHalting r) := by
  simp (maxDischargeDepth := 99) [Station.toHalting, h]

@[simp] theorem Works.acceptStroke (r : Stroke) (h : Works 2 s t) : Works 2 s (t.acceptStroke r) := by
  simp only [Station.acceptStroke]
  repeat' split
  all_goals simp (maxDischargeDepth := 99) [h]

@[simp] theorem Works.sendAgain (v : Nat) (h : Works 2 s t) : Works 2 s (t.sendAgain v) := by
  simp (maxDischargeDepth := 99) [Station.sendAgain, h]

@[simp] theorem Works.takeStrokeAnswer (n : Node) (v c : Nat) (h : Works 2 s t) : Works 2 s (t.takeStrokeAnswer n v c) := by
  simp only [Station.takeStrokeAnswer]
  split <;> simp (maxDischargeDepth := 99) [h]

@[simp] theorem Works.missStroke (n : Node) (v : Nat) (h : Works 2 s t) : Works 2 s (t.missStroke n v) := by
  simp only [Station.missStroke]
  repeat' split
  all_goals simp (maxDischargeDepth := 99) [h]

@[simp] theorem Works.haltCompleted (v : Nat) (h : Works 2 s t) : Works 2 s (t.haltCompleted v) := by
  simp only [Station.haltCompleted]
  repeat' split
  all_goals simp (maxDischargeDepth := 99) [h]

@[simp] theorem Works.judgeStroke (v : Nat) (a : DetailAnswer) (h : Works 2 s t) : Works 2 s (t.judgeStroke v a) := by
  simp only [Station.judgeStroke]
  repeat' split
  all_goals simp (maxDischargeDepth := 99) [h]

@[simp] theorem Works.rearmDetail (n : Node) (v : Nat) (p : Option Nat) (h : Works 2 s t) : Works 2 s (t.rearmDetail n v p) := by
  simp (maxDischargeDepth := 99) [Station.rearmDetail, h]

@[simp] theorem Works.takeDetail (v : Nat) (a : DetailAnswer) (h : Works 2 s t) : Works 2 s (t.takeDetail v a) := by
  simp only [Station.takeDetail]
  repeat' split
  all_goals simp (maxDischargeDepth := 99) [h]

@[simp] theorem Works.markCleared (n : Node) (h : Works 2 s t) : Works 2 s (t.markCleared n) := by
  simp only [Station.markCleared]
  repeat' split
  all_goals simp (maxDischargeDepth := 99) [h]

@[simp] theorem Works.takePresence (n : Node) (h : Works 2 s t) : Works 2 s (t.takePresence n) := by
  simp only [Station.takePresence]
  repeat' split
  all_goals simp (maxDischargeDepth := 99) [h]

@[simp] theorem Works.takeState (n : Node) (c : CallKind) (k : Nat) (st : AnswerState) (h : Works 2 s t) :
    Works 2 s (t.takeState n c k st) := by
  simp only [Station.takeState]
  repeat' split
  all_goals simp (maxDischargeDepth := 99) [h]

@[simp] theorem Works.advanceHandshake (n : Node) (c : CallKind) (st : AnswerState) (h : Works 2 s t) :
    Works 2 s (t.advanceHandshake n c st) := by
  simp only [Station.advanceHandshake]
  repeat' split
  all_goals simp (maxDischargeDepth := 99) [h]

@[simp] theorem Works.clearDetailDue (n : Node) (c : CallKind) (h : Works 2 s t) : Works 2 s (t.clearDetailDue n c) := by
  simp (maxDischargeDepth := 99) [Station.clearDetailDue, h]

@[simp] theorem Works.rearmAfter (n : Node) (c : CallKind) (p : Option Nat) (h : Works 2 s t) :
    Works 2 s (t.rearmAfter n c p) := by
  simp only [Station.rearmAfter]
  split <;> simp (maxDischargeDepth := 99) [h]

@[simp] theorem Works.missedCall (n : Node) (c : CallKind) (h : Works 2 s t) : Works 2 s (t.missedCall n c) := by
  simp only [Station.missedCall]
  repeat' split
  all_goals simp (maxDischargeDepth := 99) [h]

@[simp] theorem Works.clearStroke (v : Nat) (h : Works 2 s t) : Works 2 s (t.clearStroke v) := by
  simp only [Station.clearStroke]
  repeat' split
  all_goals simp (maxDischargeDepth := 99) [h]

@[simp] theorem Works.clearIsSent (l : Line) (h : Works 2 s t) : Works 2 s (t.clearIsSent l) := by
  simp only [Station.clearIsSent]
  split
  · have h1 : Works 2 s (t.modLine l fun x => { x with onLine := none }) := h.modLine l _ fun _ => rfl
    generalize t.modLine l (fun x => { x with onLine := none }) = u at h1 ⊢
    have h2 : Works 2 s (((u.strokesOn l).foldl Station.clearStroke u).addCause .clear (onLineOf l)) := by
      simp (maxDischargeDepth := 99) [h1]
    generalize ((u.strokesOn l).foldl Station.clearStroke u).addCause .clear (onLineOf l) = w at h2 ⊢
    refine Works.ite ?_ (Works.post _ ?_) <;>
      refine Works.modLineAny _ _ h2 fun x hx => Table.tidy_map _ _ _ (fun p => by split <;> rfl) (fun p hp => ?_) hx
    all_goals
      split
      · exact hp
      · rename_i hk
        exact fun he => hk (congrArg NodeEntry.kind he)
  · exact h

@[simp] theorem Works.broadcastStroke (v : Nat) (h : Works 2 s t) : Works 2 s (t.broadcastStroke v) := by
  simp only [Station.broadcastStroke]
  repeat' split
  all_goals simp (maxDischargeDepth := 99) [h]

@[simp] theorem Works.broadcastIsSent (l : Line) (h : Works 2 s t) : Works 2 s (t.broadcastIsSent l) := by
  simp only [Station.broadcastIsSent]
  split <;> simp (maxDischargeDepth := 99) [h]

@[simp] theorem Works.supplyHalt (v : Nat) (h : Works 2 s t) : Works 2 s (t.supplyHalt v) := by
  simp only [Station.supplyHalt]
  repeat' split
  all_goals simp (maxDischargeDepth := 99) [h]

@[simp] theorem Works.sensorLost (n : Nat) (h : Works 2 s t) : Works 2 s (t.sensorLost n) := by
  simp (maxDischargeDepth := 99) [Station.sensorLost, h]

@[simp] theorem Works.enterHold (z n d : Nat) (h : Works 2 s t) : Works 2 s (t.enterHold z n d) := by
  simp (maxDischargeDepth := 99) [Station.enterHold, h]

@[simp] theorem Works.judgeZone (z n d : Nat) (h : Works 2 s t) : Works 2 s (t.judgeZone z n d) := by
  simp only [Station.judgeZone]
  repeat' split
  all_goals simp [h]

@[simp] theorem Works.leaveHold (z : Nat) (c : Cause) (h : Works 2 s t) : Works 2 s (t.leaveHold z c) := by
  simp (maxDischargeDepth := 99) [Station.leaveHold, h]

@[simp] theorem Works.judgeSensor (z n d : Nat) (h : Works 2 s t) : Works 2 s (t.judgeSensor z n d) := by
  simp only [Station.judgeSensor]
  repeat' split
  all_goals simp (maxDischargeDepth := 99) [h]

@[simp] theorem Works.takeSample (n : Nat) (st : AnswerState) (d : Nat) (h : Works 2 s t) : Works 2 s (t.takeSample n st d) := by
  simp (maxDischargeDepth := 99) [Station.takeSample, h]

@[simp] theorem Works.deliver (n : Node) (c : CallKind) (a : Answer) (h : Works 2 s t) : Works 2 s (t.deliver n c a) := by
  simp only [Station.deliver]
  repeat' split
  all_goals simp (maxDischargeDepth := 99) [h]

@[simp] theorem Works.takeAnswer (n : Node) (c : CallKind) (k : Nat) (a : Answer) (h : Works 2 s t) :
    Works 2 s (t.takeAnswer n c k a) := by
  simp (maxDischargeDepth := 99) [Station.takeAnswer, h]

@[simp] theorem Works.declareAbsent (n : Node) (h : Works 2 s t) : Works 2 s (t.declareAbsent n) := by
  simp only [Station.declareAbsent]
  repeat' split
  all_goals simp (maxDischargeDepth := 99) [h]

@[simp] theorem Works.takeMiss (n : Node) (c : CallKind) (k : Nat) (h : Works 2 s t) : Works 2 s (t.takeMiss n c k) := by
  simp (maxDischargeDepth := 99) [Station.takeMiss, h]

@[simp] theorem Works.answerArrives (l : Line) (xs : List Byte) (h : Works 2 s t) : Works 2 s (t.answerArrives l xs) := by
  simp only [Station.answerArrives]
  repeat' split
  all_goals simp (maxDischargeDepth := 99) [h]

@[simp] theorem Works.answerMissing (l : Line) (h : Works 2 s t) : Works 2 s (t.answerMissing l) := by
  simp only [Station.answerMissing]
  split <;> simp (maxDischargeDepth := 99) [h]

end Sys2Proof.Machine.Station
end

section
/-! The slots through requests and plans: what opens, plans, authorizes, stops, releases and frees a slot. -/

namespace Sys2Proof.Machine.Station

variable {P : Prop} {b k : Nat} {s t : Station}

/-- The slots agree with their states, and, where `P` asks for it, the hold counts with the closed-by lists. -/
structure Orderly (P : Prop) (s : Station) : Prop where
  canonical : s.canonical = true
  slots : s.SlotsOk
  holds : P → s.HoldsCounted

theorem Orderly.works (h : Orderly P s) (w : Works b s t) : Orderly P t := by
  obtain ⟨c, k⟩ := w h.canonical fun _ => h.slots
  exact ⟨c, k.slotsOk h.slots, fun p => k.holdsCounted (h.holds p)⟩

theorem Orderly.post (n : Notice) (h : Orderly P s) : Orderly P (s.post n) := h.works ((Works.refl (b := 2) s).post n)

theorem Orderly.decideAll (h : Orderly P s) : Orderly P s.decideAll := h.works (Works.refl s).decideAll

theorem Orderly.free_of_ge (h : Orderly P s) (hs : (s.slot k).state ≠ .free) : k < 4 :=
  h.slots.lt_of_ne (slot_ne_free hs)

/-- A slot in use takes a record in use with the same closed-by list. -/
theorem Orderly.modSlot (f : Slot → Slot) (h : Orderly P s) (hs : (s.slot k).state ≠ .free)
    (ha : (f (s.slot k)).Agrees) (hf : (f (s.slot k)).state ≠ .free)
    (hc : (f (s.slot k)).closedBy = (s.slot k).closedBy) : Orderly P (s.modSlot k f) := by
  have e (j : Nat) : (s.modSlot k f).slot j = if j = k then f (s.slot k) else s.slot j := slot_modSlot h.canonical k j f
  have hk := h.free_of_ge hs
  have o := h.slots
  refine ⟨canonical_modSlot k f h.canonical, ?_, fun p v => ?_⟩
  · exact
      { agrees := fun j => by
          rw [e]; split
          · exact ha
          · exact o.agrees j
        beyond := fun j hj => by rw [e, if_neg (by omega)]; exact o.beyond j hj
        loading := fun l => absurd (o.loading l k) (slot_ne_free hs)
        free := fun j => by
          rw [e]
          split
          · rename_i hj
            subst hj
            exact ⟨fun hm => absurd ((o.free j).mp hm).2 hs, fun hm => absurd hm.2 hf⟩
          · exact o.free j
        once := o.once }
  · refine (h.holds p v).trans ?_
    refine (held_of_slots (t := s) (u := s.modSlot k f) (fun j => ?_) v).symm
    rw [e]
    split
    · rename_i hj; rw [hj, hc]
    · rfl

/-- A slot that has neither plan nor authorization works at nothing. -/
theorem Slot.Agrees.idle {r : Slot} (h : r.Agrees) (hs : r.state = .planning ∨ r.state = .planned) :
    r.work.any inProgress = false ∧ r.closedBy = [] ∧ r.reopen = [] := by
  obtain ⟨-, -, hw, hc, -, hr, -, -⟩ := h
  grind

/-- A live slot may hold any entries that name no valve twice. -/
theorem Slot.Agrees.of_live {r q : Slot} (h : r.Agrees) (hl : r.Live) (hs : q.state = r.state)
    (ha : q.authorized = r.authorized) (hc : q.closedBy = r.closedBy) (hr : q.reopen = r.reopen)
    (hw : (q.work.map (·.valve)).Nodup) : q.Agrees := by
  obtain ⟨ha', hs'⟩ := hl
  have hq : q.state = .closing ∨ q.state = .unisolable := hs ▸ hs'
  exact
    { free := fun e => by rcases hq with h | h <;> rw [h] at e <;> cases e
      authorized := fun _ => ha ▸ ha'
      working := fun _ => ⟨ha ▸ ha', hq⟩
      closed := fun _ => ⟨ha ▸ ha', by rcases hq with h | h <;> simp [h]⟩
      reopening := fun e => by rw [hs]; exact h.reopening (hr ▸ e)
      reopens := fun e => by rw [hs]; exact h.reopens (hr ▸ e)
      entries := hw
      once := hc ▸ h.once }

theorem Slot.Live.used {r : Slot} (h : r.Live) : r.state ≠ .free := fun e => by
  rcases h.2 with h | h <;> rw [h] at e <;> cases e

/-! A slot that is live while the entries of its list are gone through. -/

/-- As `Orderly`, with a slot that is live. -/
structure Driven (P : Prop) (k : Nat) (s : Station) : Prop extends Orderly P s where
  live : (s.slot k).Live

namespace Driven

theorem works (h : Driven P k s) (w : Works 1 s t) : Driven P k t :=
  ⟨h.toOrderly.works w, w.live h.canonical h.slots h.live⟩

theorem lt (h : Driven P k s) : k < 4 := h.slots.lt_of_ne (Slot.Live.ne h.live)

theorem joinClosedBy (h : Driven P k s) (v : Nat) : Driven P k (s.joinClosedBy k v) :=
  h.works ((Works.refl s).joinClosedBy k v h.lt fun _ => h.live)

/-- A live slot takes other entries. -/
theorem modSlot (f : Slot → Slot) (h : Driven P k s) (hs : (f (s.slot k)).state = (s.slot k).state)
    (ha : (f (s.slot k)).authorized = (s.slot k).authorized) (hc : (f (s.slot k)).closedBy = (s.slot k).closedBy)
    (hr : (f (s.slot k)).reopen = (s.slot k).reopen) (hw : ((f (s.slot k)).work.map (·.valve)).Nodup) :
    Driven P k (s.modSlot k f) := by
  refine ⟨h.toOrderly.modSlot f (Slot.Live.used h.live) (Slot.Agrees.of_live (h.slots.agrees k) h.live hs ha hc hr hw)
    (by rw [hs]; exact Slot.Live.used h.live) hc, ?_⟩
  rw [slot_modSlot h.canonical, if_pos rfl]
  exact ⟨ha ▸ h.live.1, hs ▸ h.live.2⟩

theorem modWork (v : Nat) (f : Entry → Entry) (h : Driven P k s) (hf : ∀ e, (f e).valve = e.valve) :
    Driven P k (s.modWork k v f) :=
  h.modSlot _ rfl rfl rfl rfl (by rw [map_valve_modEntry _ _ _ hf]; exact (h.slots.agrees k).entries)

theorem foldl {α : Type} (xs : List α) (f : Station → α → Station)
    (hf : ∀ (u : Station) (a : α), Driven P k u → Driven P k (f u a)) (h : Driven P k s) : Driven P k (xs.foldl f s) := by
  induction xs generalizing s with
  | nil => exact h
  | cons a xs ih => exact ih (hf s a h)

theorem ite {c : Prop} {_ : Decidable c} {x y : Station} (hx : Driven P k x) (hy : Driven P k y) :
    Driven P k (if c then x else y) := by
  split <;> assumption

theorem adoptEntry (h : Driven P k s) (e : Entry) : Driven P k (adoptEntry k s e) := ite (h.joinClosedBy _) h

theorem failOpened (h : Driven P k s) (e : Entry) : Driven P k (failOpened k s e) :=
  ite (h.works ((Works.refl s).recordFailure k _ _)) h

theorem startCrew (h : Driven P k s) (e : Entry) : Driven P k (startCrew k s e) := by
  unfold Station.startCrew
  split
  · have joined := (h.modWork e.valve (fun x => { x with state := .crewWait }) fun _ => rfl).joinClosedBy e.valve
    dsimp only
    exact joined.works (Works.post _ ((Works.refl _).setTime k false e.valve _))
  · exact h

theorem startActuated (h : Driven P k s) (e : Entry) : Driven P k (startActuated k s e) := by
  unfold Station.startActuated
  split
  · exact (h.modWork e.valve (fun x => { x with state := .pending }) fun _ => rfl).works ((Works.refl _).closeWaits k _)
  · exact h

end Driven

theorem Orderly.authorize (h : Orderly P s) (k o : Nat) : Orderly P (s.authorize k o).2.2 := by
  unfold Station.authorize
  split
  · exact h
  · split
    · exact h
    · split
      · exact h
      · rename_i hs
        split
        · exact h
        · have hs : (s.slot k).state = .planned := by simpa using hs
          have ha := h.slots.agrees k
          obtain ⟨hw, hc, hr⟩ := Slot.Agrees.idle ha (.inr hs)
          have begun : Driven P k (s.modSlot k fun r =>
              { r with authorized := some s.clock, overrideMark := decide (o = 1), deadline := none, state := .closing }) := by
            refine ⟨h.modSlot _ (by rw [hs]; simp) ?_ (by simp) rfl, ?_⟩
            · exact
                { free := by simp
                  authorized := by simp
                  working := by simp
                  closed := fun e => absurd hc e
                  reopening := by simp [hr]
                  reopens := by simp [hr]
                  entries := ha.entries
                  once := ha.once }
            · rw [slot_modSlot h.canonical, if_pos rfl]
              exact ⟨rfl, .inl rfl⟩
          dsimp only
          generalize s.modSlot k _ = x at begun ⊢
          have adopted := Driven.foldl (x.slot k).work (Station.adoptEntry k) (fun _ e hu => hu.adoptEntry e) begun
          have failed := Driven.foldl (x.slot k).work (Station.failOpened k) (fun _ e hu => hu.failOpened e) adopted
          have crews := Driven.foldl (x.slot k).work (Station.startCrew k) (fun _ e hu => hu.startCrew e)
            (failed.works (Works.refl _).returnFactors)
          have all := Driven.foldl (x.slot k).work (Station.startActuated k) (fun _ e hu => hu.startActuated e) crews
          exact all.toOrderly.works ((Works.refl _).testIsolated k).decideAll

end Sys2Proof.Machine.Station
end

section
/-! The slots through ABORT, CLOSE_INCIDENT, OPEN_INCIDENT, the expiry of a plan and RELEASE. -/

namespace Sys2Proof.Machine.Station

variable {P : Prop} {b k : Nat} {s t : Station}

/-! A slot's entries are stopped (R100, R101). -/

theorem inProgress_stopEntry (e : Entry) : inProgress (stopEntry e) = false := by
  unfold stopEntry
  split
  · simp [Entry.settle, inProgress]
  · rename_i h
    simpa using h

theorem stopEntry_valve (e : Entry) : (stopEntry e).valve = e.valve := by
  unfold stopEntry
  split <;> rfl

/-- A slot whose entries of one list are stopped. -/
def stopped (ro : Bool) (r : Slot) : Slot :=
  if ro then { r with reopen := r.reopen.map stopEntry } else { r with work := r.work.map stopEntry }

theorem onward_stopped (ro : Bool) (r : Slot) : Slot.Onward b r (stopped ro r) := by
  have none (es : List Entry) : (es.map stopEntry).any inProgress = false := by
    simp [inProgress_stopEntry]
  have valves (es : List Entry) : (es.map stopEntry).map (·.valve) = es.map (·.valve) := by
    simp [stopEntry_valve]
  cases ro with
  | true =>
    exact
      { unused := fun h => by subst h; rfl
        authorized := rfl
        state := .inl rfl
        valves := rfl
        working := id
        reopening := fun h => by rw [show (stopped true r).reopen = r.reopen.map stopEntry from rfl, none] at h; cases h
        reopens := fun h e => h (by simp [stopped, e])
        closed := .inl rfl }
  | false =>
    exact
      { unused := fun h => by subst h; rfl
        authorized := rfl
        state := .inl rfl
        valves := valves _
        working := fun h => by rw [show (stopped false r).work = r.work.map stopEntry from rfl, none] at h; cases h
        reopening := id
        reopens := id
        closed := .inl rfl }

/-- The strokes of a slot's entries are halted, and the crews told. -/
def stopStrokes (s : Station) (k : Nat) (ro : Bool) : Station :=
  let o : Owner := if ro then .reopenEntry k else .closeEntry k
  let vs := (s.md.strokes.filter fun r => decide (r.owner = o)).map (·.valve)
  let s := vs.foldl (fun s v => (s.modStroke v fun r => { r with orphan := true }).decideHalt v .dropped) s
  (if ro then (s.slot k).reopen else (s.slot k).work).foldl
    (fun s e => if e.state = .crewWait then s.crewCancel k e.valve else s) s

theorem stopEntries_eq (s : Station) (k : Nat) (ro : Bool) :
    s.stopEntries k ro = (s.stopStrokes k ro).modSlot k (stopped ro) := rfl

theorem Works.stopStrokes (k : Nat) (ro : Bool) (h : Works b s t) : Works b s (t.stopStrokes k ro) :=
  Works.foldl _ _ (fun u _ => Works.ite ((Works.refl u).crewCancel k _) (.refl u))
    (Works.foldl _ _ (fun u v => ((Works.refl u).modStroke v _).decideHalt v .dropped (by simp)) h)

@[simp] theorem Works.stopEntries (k : Nat) (ro : Bool) (h : Works b s t) : Works b s (t.stopEntries k ro) := by
  rw [stopEntries_eq]
  refine (h.stopStrokes k ro).modSlot k _ (fun _ => onward_stopped ro _) ?_
  cases ro <;> rfl

theorem canonical_stopStrokes (c : s.canonical = true) (k : Nat) (ro : Bool) : (s.stopStrokes k ro).canonical = true :=
  ((Works.refl (b := 0) s).stopStrokes k ro c (fun h => nomatch h)).1

theorem slot_stopEntries (c : s.canonical = true) (k : Nat) (ro : Bool) :
    (s.stopEntries k ro).slot k = stopped ro ((s.stopStrokes k ro).slot k) := by
  rw [stopEntries_eq, slot_modSlot (canonical_stopStrokes c k ro), if_pos rfl]

/-- No close entry is in progress when all are stopped. -/
theorem working_stopEntries (c : s.canonical = true) (k : Nat) :
    ((s.stopEntries k false).slot k).work.any inProgress = false := by
  rw [slot_stopEntries c]
  simp [stopped, inProgress_stopEntry]

/-! A slot is freed, or opened. -/

theorem Orderly.freeSlot (h : Orderly P s) (hs : (s.slot k).state ≠ .free) (hc : (s.slot k).closedBy = []) :
    Orderly P (s.freeSlot k) := by
  have e (j : Nat) : (s.freeSlot k).slot j = if j = k then {} else s.slot j := slot_freeSlot h.canonical j
  have hk := h.free_of_ge hs
  have o := h.slots
  have hn : k ∉ s.im.freeList := fun hm => hs ((o.free k).mp hm).2
  refine ⟨(Frame.freeSlot k (.refl s)).safe.canonical h.canonical, ?_, fun p v => ?_⟩
  · exact
      { agrees := fun j => by
          rw [e]; split
          · exact Slot.agrees_free
          · exact o.agrees j
        beyond := fun j hj => by rw [e, if_neg (by omega)]; exact o.beyond j hj
        loading := fun l => absurd (o.loading l k) (slot_ne_free hs)
        free := fun j => by
          rw [freeSlot_freeList, e, List.mem_append, List.mem_singleton, o.free j]
          split
          · rename_i hj; subst hj; simp [hk]
          · rename_i hj; simp [hj]
        once := by
          rw [freeSlot_freeList, List.nodup_append]
          exact ⟨o.once, by simp, fun a ha b hb => by rw [List.mem_singleton] at hb; exact fun e => hn (hb ▸ e ▸ ha)⟩ }
  · refine (h.holds p v).trans (held_of_slots (t := s) (u := s.freeSlot k) (fun j => ?_) v).symm
    rw [e]
    split
    · rename_i hj; rw [hj, hc]
    · rfl

theorem Orderly.closeIncident (h : Orderly P s) (k : Nat) : Orderly P (s.closeIncident k).2.2 := by
  unfold Station.closeIncident
  split
  · exact h
  · split
    · exact h
    · split
      · rename_i hs
        refine h.freeSlot (by rw [hs]; simp) ?_
        have := (h.slots.agrees k).closed
        grind
      · rename_i hs
        split
        · rename_i hc
          refine (h.works ((Works.refl (b := 2) s).clearOwnership k)).freeSlot ?_ ?_
          · rw [clearOwnership_slot, hs]; simp
          · rw [clearOwnership_slot]; simpa using hc
        · exact h
      · exact h

theorem Orderly.openIncident (h : Orderly P s) (n : Nat) : Orderly P (s.openIncident n).2.2 := by
  unfold Station.openIncident
  split
  · exact h
  · rename_i ready
    split
    · exact h
    · split
      · exact h
      · split
        · exact h
        · exact h
        · rename_i k rest _ hf
          have o := h.slots
          have hk := (o.free k).mp (by rw [hf]; exact List.mem_cons_self)
          have blank : s.slot k = {} := (o.agrees k).free hk.2
          have hr : s.ss.station ≠ .loading := by
            intro hl
            simp [isReady, hl] at ready
          have once : (k :: rest).Nodup := hf ▸ o.once
          let x : Station :=
            { s with im := { s.im with freeList := rest } }.modSlot k fun _ => { state := .planning, burst := [n] }
          have e (j : Nat) : x.slot j = if j = k then { state := .planning, burst := [n] } else s.slot j :=
            slot_modSlot h.canonical k j fun _ => { state := .planning, burst := [n] }
          have hx : Orderly P x := by
            refine ⟨canonical_modSlot k _ h.canonical, ?_, fun p v => ?_⟩
            · exact
                { agrees := fun j => by
                    rw [e]; split
                    · exact ⟨by simp, by simp, by simp, by simp, by simp, by simp, by simp, by simp⟩
                    · exact o.agrees j
                  beyond := fun j hj => by rw [e, if_neg (by omega)]; exact o.beyond j hj
                  loading := fun l => absurd l hr
                  free := fun j => by
                    have hj := o.free j
                    rw [hf, List.mem_cons] at hj
                    show j ∈ rest ↔ _
                    rw [e]
                    split
                    · rename_i hjk
                      subst hjk
                      simpa using (List.nodup_cons.mp once).1
                    · rename_i hjk
                      simpa [hjk] using hj
                  once := (List.nodup_cons.mp once).2 }
            · refine (h.holds p v).trans (held_of_slots (t := s) (u := x) (fun j => ?_) v).symm
              rw [e]
              split
              · rename_i hj; rw [hj, blank]
              · rfl
          exact hx.works (b := 2) (((Works.refl x).trigger k).noteOpened k)

/-! ABORT and the expiry of a plan. -/

/-- A slot that is stopped, or has no work, may be ABORTED. -/
theorem Slot.Agrees.aborted {r : Slot} (h : r.Agrees) (hs : r.state = .closing ∨ r.state = .isolated ∨ r.state = .unisolable ∨ r.state = .aborted)
    (hw : r.work.any inProgress = false) (f : Slot) (hf : f.state = .aborted) (ha : f.authorized = r.authorized)
    (hk : f.work = r.work) (hc : f.closedBy = r.closedBy) (hr : f.reopen = r.reopen) : f.Agrees := by
  obtain ⟨h1, h2, h3, h4, h5, h6, h7, h8⟩ := h
  exact ⟨by simp [hf], by simp [hf], by simp [hk, hw], by grind, by grind, by grind, by grind, by grind⟩

theorem Orderly.abort (h : Orderly P s) (k : Nat) : Orderly P (s.abort k).2.2 := by
  have gone (hs : (s.slot k).state = .planning ∨ (s.slot k).state = .planned) :
      Orderly P (((s.withdraw k).clearOwnership k).freeSlot k).decideAll := by
    obtain ⟨-, hc, -⟩ := Slot.Agrees.idle (h.slots.agrees k) hs
    have he : ((s.withdraw k).clearOwnership k).slot k = s.slot k := clearOwnership_slot k
    refine ((h.works (b := 2) (((Works.refl s).withdraw k).clearOwnership k)).freeSlot ?_ ?_).decideAll
    · rw [he]; rcases hs with hs | hs <;> simp [hs]
    · rw [he]; exact hc
  have stops (hs : (s.slot k).state = .closing ∨ (s.slot k).state = .unisolable) :
      Orderly P (((s.stopEntries k false).modSlot k fun r =>
        { r with state := .aborted, replanPending := false, reason := none }).withdraw k).decideAll := by
    have w : Works 1 s (s.stopEntries k false) := (Works.refl s).stopEntries k false
    have h1 := h.works w
    have hst : ((s.stopEntries k false).slot k).state = .closing ∨ ((s.stopEntries k false).slot k).state = .unisolable := by
      have := ((w h.canonical fun _ => h.slots).2.slots k).state
      grind
    refine ((h1.modSlot (fun r => { r with state := .aborted, replanPending := false, reason := none }) ?_ ?_ (by simp)
      rfl).works ((Works.refl (b := 2) _).withdraw k)).decideAll
    · rcases hst with e | e <;> simp [e]
    · exact Slot.Agrees.aborted (h1.slots.agrees k) (by grind) (working_stopEntries h.canonical k) _ rfl rfl rfl rfl rfl
  unfold Station.abort
  split
  · exact h
  · split
    · exact h
    · split
      · rename_i hs; dsimp only; exact gone (.inl hs)
      · rename_i hs; dsimp only; exact gone (.inr hs)
      · rename_i hs; dsimp only; exact stops (.inl hs)
      · rename_i hs; dsimp only; exact stops (.inr hs)
      · dsimp only; exact h.works (((Works.refl s).stopEntries k true).testDone k).decideAll
      · exact h

theorem Works.clock (n : Nat) (h : Works b s t) : Works b s { t with clock := n } := h.same id

@[simp] theorem Works.advanceTo (d : Nat) (h : Works b s t) : Works b s (t.advanceTo d) :=
  (advanceTo_eq t d).symm ▸ h.clock _

theorem advanceTo_im (s : Station) (d : Nat) : (s.advanceTo d).im = s.im := by
  rw [advanceTo_eq]

theorem slot_of_im (h : t.im = s.im) (k : Nat) : t.slot k = s.slot k := by simp only [slot, h]

/-- A slot that loses its plan waits for another. -/
theorem Orderly.unplan (h : Orderly P s) (hs : (s.slot k).state = .planned) (n : Notice) :
    Orderly P (((s.modSlot k fun r => { r with state := .planning, deadline := none, overrideRequired := false }).trigger
      k).post n) := by
  obtain ⟨hw, hc, hr⟩ := Slot.Agrees.idle (h.slots.agrees k) (.inr hs)
  obtain ⟨-, -, -, -, -, -, h7, h8⟩ := h.slots.agrees k
  refine (h.modSlot (fun r => { r with state := .planning, deadline := none, overrideRequired := false })
    (by rw [hs]; simp) ?_ (by simp) rfl).works (b := 2) (((Works.refl _).trigger k).post _)
  exact ⟨by simp, by simp, by simp [hw], by simp [hc], by simp [hr], by simp [hr], h7, h8⟩

theorem Orderly.planExpires (h : Orderly P s) (k : Nat) : Orderly P (s.planExpires k) := by
  unfold Station.planExpires
  split
  · rename_i due hs _
    have h1 : Orderly P (s.advanceTo due) := h.works (b := 2) ((Works.refl s).advanceTo due)
    have e : (s.advanceTo due).slot k = s.slot k := slot_of_im (advanceTo_im s due) k
    rw [← e] at hs
    dsimp only
    exact h1.unplan hs _
  · exact h

end Sys2Proof.Machine.Station
end

section
/-! The slots through RELEASE: while the valves leave the closed-by list one by one, the slot is in REOPENING and its list
is not yet empty. -/

namespace Sys2Proof.Machine.Station

variable {P : Prop} {b k : Nat} {s t : Station}

/-- As `Orderly`, for a slot in REOPENING whose closed-by list is still to be gone through. -/
structure Releasing (P : Prop) (k : Nat) (s : Station) : Prop where
  canonical : s.canonical = true
  lt : k < 4
  awake : s.ss.station ≠ .loading
  state : (s.slot k).state = .reopening
  own : ({ s.slot k with closedBy := [] } : Slot).Agrees
  once : (s.slot k).closedBy.Nodup
  others : ∀ j, j ≠ k → (s.slot j).Agrees
  beyond : ∀ j, 4 ≤ j → s.slot j = {}
  free : ∀ j, j ∈ s.im.freeList ↔ j < 4 ∧ (s.slot j).state = .free
  freeOnce : s.im.freeList.Nodup
  holds : P → s.HoldsCounted

theorem Slot.with_closedBy {r : Slot} (h : r.closedBy = []) : ({ r with closedBy := [] } : Slot) = r := by
  cases r; simp_all

namespace Releasing

/-- With the list gone through the slots are in order again. -/
theorem orderly (h : Releasing P k s) (hc : (s.slot k).closedBy = []) : Orderly P s where
  canonical := h.canonical
  slots :=
    { agrees := fun j => by
        by_cases hj : j = k
        · subst hj
          have := h.own
          rwa [Slot.with_closedBy hc] at this
        · exact h.others j hj
      beyond := h.beyond
      loading := fun l => absurd l h.awake
      free := h.free
      once := h.freeOnce }
  holds := h.holds

/-- A step that leaves the slot as it is. -/
theorem works (h : Releasing P k s) (w : Works 0 s t) (hk : t.slot k = s.slot k) : Releasing P k t := by
  obtain ⟨c, g⟩ := w h.canonical fun hb => nomatch hb
  exact
    { canonical := c
      lt := h.lt
      awake := fun l => h.awake (g.loading l)
      state := by rw [hk]; exact h.state
      own := by rw [hk]; exact h.own
      once := by rw [hk]; exact h.once
      others := fun j hj => (g.slots j).agrees (h.others j hj)
      beyond := fun j hj => (g.slots j).unused (h.beyond j hj)
      free := fun j => by rw [g.freeList, h.free j, (g.slots j).free_iff]
      freeOnce := by rw [g.freeList]; exact h.freeOnce
      holds := fun p => g.holdsCounted (h.holds p) }

/-- The slot takes a reopen entry. -/
theorem addReopen (h : Releasing P k s) (e : Entry) : Releasing P k (s.modSlot k fun r => { r with reopen := e :: r.reopen }) := by
  have he (j : Nat) : (s.modSlot k fun r => { r with reopen := e :: r.reopen }).slot j =
      if j = k then { s.slot k with reopen := e :: (s.slot k).reopen } else s.slot j :=
    slot_modSlot h.canonical k j fun r => { r with reopen := e :: r.reopen }
  obtain ⟨c, lt, awake, hs, own, once, others, beyond, free, freeOnce, holds⟩ := h
  exact
    { canonical := canonical_modSlot k _ c
      lt
      awake
      state := by rw [he, if_pos rfl]; exact hs
      own := by
        rw [he, if_pos rfl]
        obtain ⟨h1, h2, h3, h4, h5, h6, h7, h8⟩ := own
        exact ⟨by simp [hs], by simp [hs], h3, by simp, by simp [hs], by simp [hs], h7, h8⟩
      once := by rw [he, if_pos rfl]; exact once
      others := fun j hj => by rw [he, if_neg hj]; exact others j hj
      beyond := fun j hj => by rw [he, if_neg (by omega)]; exact beyond j hj
      free := fun j => by
        rw [he]
        split
        · rename_i hj; subst hj; exact free j
        · exact free j
      freeOnce
      holds := fun p v => by
        refine (holds p v).trans (held_of_slots (t := s) (fun j => ?_) v).symm
        rw [he]
        split
        · rename_i hj; rw [hj]
        · rfl }

/-- A valve leaves the closed-by list with its hold. -/
theorem leave (h : Releasing P k s) {v : Nat} (hv : v ∈ (s.slot k).closedBy) :
    Releasing P k ((s.modSlot k fun r => { r with closedBy := r.closedBy.filter fun w => decide (w ≠ v) }).modVs v
      fun d => { d with holds := d.holds - 1 }) := by
  have he (j : Nat) : ((s.modSlot k fun r => { r with closedBy := r.closedBy.filter fun w => decide (w ≠ v) }).modVs v
      fun d => { d with holds := d.holds - 1 }).slot j =
      if j = k then { s.slot k with closedBy := (s.slot k).closedBy.filter fun w => decide (w ≠ v) } else s.slot j :=
    slot_modSlot h.canonical k j fun r => { r with closedBy := r.closedBy.filter fun w => decide (w ≠ v) }
  have c1 := canonical_modSlot k (fun r => { r with closedBy := r.closedBy.filter fun w => decide (w ≠ v) }) h.canonical
  obtain ⟨c, lt, awake, hs, own, once, others, beyond, free, freeOnce, holds⟩ := h
  exact
    { canonical := canonical_modVs v _ c1
      lt
      awake
      state := by rw [he, if_pos rfl]; exact hs
      own := by rw [he, if_pos rfl]; exact own
      once := by rw [he, if_pos rfl]; exact once.filter _
      others := fun j hj => by rw [he, if_neg hj]; exact others j hj
      beyond := fun j hj => by rw [he, if_neg (by omega)]; exact beyond j hj
      free := fun j => by
        rw [he]
        split
        · rename_i hj; subst hj; exact free j
        · exact free j
      freeOnce
      holds := fun p w => by
        have count := held_update (t := s) lt (ns := (s.slot k).closedBy.filter fun w => decide (w ≠ v))
          (fun j => by rw [he]; split <;> rfl) w
        have hw := holds p w
        change _ = Station.held _ w at hw ⊢
        rw [vsOf_modVs c1]
        change (if w = v then { s.vsOf v with holds := (s.vsOf v).holds - 1 } else s.vsOf w).holds = _
        by_cases e : w = v
        · subst e
          simp_all
          omega
        · simp_all }

theorem releaseValve (h : Releasing P k s) {v : Nat} {vs : List Nat} (hv : (s.slot k).closedBy = v :: vs) :
    Releasing P k (releaseValve k s v) ∧ ((releaseValve k s v).slot k).closedBy = vs := by
  have left := h.leave (v := v) (by rw [hv]; exact List.mem_cons_self)
  have rest : (((s.modSlot k fun r => { r with closedBy := r.closedBy.filter fun w => decide (w ≠ v) }).modVs v
      fun d => { d with holds := d.holds - 1 }).slot k).closedBy = vs := by
    have once := h.once
    rw [hv, List.nodup_cons] at once
    have e := slot_modSlot h.canonical k k fun r => { r with closedBy := r.closedBy.filter fun w => decide (w ≠ v) }
    rw [if_pos rfl] at e
    refine (congrArg Slot.closedBy e).trans ?_
    simp only [hv]
    rw [List.filter_cons_of_neg (by simp), List.filter_eq_self]
    intro w hw
    simpa using fun e : w = v => once.1 (e ▸ hw)
  have lowered : Releasing P k ((s.modSlot k fun r =>
      { r with closedBy := r.closedBy.filter fun w => decide (w ≠ v) }).lowerHold v) ∧
      (((s.modSlot k fun r => { r with closedBy := r.closedBy.filter fun w => decide (w ≠ v) }).lowerHold v).slot
        k).closedBy = vs := by
    unfold Station.lowerHold
    dsimp only
    generalize (s.modSlot k fun r => { r with closedBy := r.closedBy.filter fun w => decide (w ≠ v) }).modVs v
      (fun d => { d with holds := d.holds - 1 }) = x at left rest ⊢
    split
    · have spared := (reposition_spares (s := x) (t := x) (k := k) ⟨left.canonical, rfl⟩
        ⟨by rw [left.state]; simp, by rw [left.state]; simp⟩ v
        (fun d => { d with position := .unknown, percent := none, stale := false }) fun _ => rfl).slot
      exact ⟨left.works ((Works.refl x).reposition v _ fun _ => rfl) spared, by rw [spared]; exact rest⟩
    · exact ⟨left, rest⟩
  unfold Station.releaseValve
  dsimp only
  generalize (s.modSlot k fun r => { r with closedBy := r.closedBy.filter fun w => decide (w ≠ v) }).lowerHold v = x
    at lowered ⊢
  split
  · refine ⟨lowered.1.addReopen _, ?_⟩
    rw [slot_modSlot lowered.1.canonical, if_pos rfl]
    exact lowered.2
  · exact lowered

theorem releaseAll (vs : List Nat) (h : Releasing P k s) (hv : (s.slot k).closedBy = vs) :
    Orderly P (vs.foldl (Station.releaseValve k) s) := by
  induction vs generalizing s with
  | nil => exact h.orderly hv
  | cons v vs ih =>
    obtain ⟨h1, h2⟩ := h.releaseValve hv
    exact ih h1 h2

end Releasing

theorem returnFactors_im (c : s.canonical = true) : s.returnFactors.im = s.im := by
  have hw : Table.wf s.pw.zones = true := by
    rw [canonical_iff] at c
    simp only [Table.tidy, Bool.and_eq_true] at c
    tauto
  rw [(returnFactors_spec s hw).1]

theorem Orderly.release (h : Orderly P s) (k : Nat) : Orderly P (s.release k).2.2 := by
  have go (hs : (s.slot k).state = .isolated ∨ (s.slot k).state = .unisolable ∨ (s.slot k).state = .aborted) (n : Nat) :
      Releasing P k ((((s.stopEntries k false).modSlot k fun r =>
        { r with released := some n, reason := none, state := .reopening }).returnFactors.clearOwnership k)) := by
    have hk := h.free_of_ge (k := k) (by rcases hs with e | e | e <;> simp [e])
    have w : Works 1 s (s.stopEntries k false) := (Works.refl s).stopEntries k false
    have still := working_stopEntries h.canonical k
    obtain ⟨c1, o1, holds⟩ := h.works w
    have on := (w h.canonical fun _ => h.slots).2.slots k
    have hs1 : ((s.stopEntries k false).slot k).state ≠ .free ∧ ((s.stopEntries k false).slot k).state ≠ .reopening ∧
        ((s.stopEntries k false).slot k).state ≠ .done := by
      have := on.state
      grind
    generalize s.stopEntries k false = x at c1 o1 holds on hs1 still ⊢
    let y := x.modSlot k fun r => { r with released := some n, reason := none, state := .reopening }
    have e (j : Nat) : y.slot j =
        if j = k then { x.slot k with released := some n, reason := none, state := .reopening } else x.slot j :=
      slot_modSlot c1 k j fun r => { r with released := some n, reason := none, state := .reopening }
    have ha := o1.agrees k
    have hy : Releasing P k y :=
      { canonical := canonical_modSlot k _ c1
        lt := hk
        awake := fun l => slot_ne_free hs1.1 (o1.loading l k)
        state := by rw [e, if_pos rfl]
        own := by
          rw [e, if_pos rfl]
          exact ⟨by simp, by simp, by simp [still], by simp, by simp, by simp, ha.entries, by simp⟩
        once := by rw [e, if_pos rfl]; exact ha.once
        others := fun j hj => by rw [e, if_neg hj]; exact o1.agrees j
        beyond := fun j hj => by rw [e, if_neg (by omega)]; exact o1.beyond j hj
        free := fun j => by
          rw [e]
          split
          · rename_i hj
            subst hj
            exact ⟨fun hm => absurd ((o1.free j).mp hm).2 hs1.1, fun hm => by cases hm.2⟩
          · exact o1.free j
        freeOnce := o1.once
        holds := fun p v => by
          refine (holds p v).trans (held_of_slots (t := x) (u := y) (fun j => ?_) v).symm
          rw [e]
          split
          · rename_i hj; rw [hj]
          · rfl }
    refine hy.works ((Works.refl y).returnFactors.clearOwnership k) ?_
    rw [clearOwnership_slot]
    exact slot_of_im (returnFactors_im hy.canonical) k
  have finish {x : Station} (hx : Releasing P k x) :
      Orderly P (((((x.slot k).closedBy.foldl (releaseValve k) x).slot k).reopen.foldl (startReopen k)
        ((x.slot k).closedBy.foldl (releaseValve k) x)).testDone k).decideAll := by
    refine (hx.releaseAll _ rfl).works (b := 2) (Works.decideAll (Works.testDone k (Works.foldl _ _ (fun u e => ?_) (.refl _))))
    unfold Station.startReopen
    dsimp only
    exact Works.ite (Works.post _ ((Works.refl u).setTime k true _ _)) ((Works.refl u).setTime k true _ _)
  unfold Station.release
  split
  · exact h
  · split
    · exact h
    · split
      · rename_i hs; dsimp only; exact finish (go (.inl hs) _)
      · rename_i hs; dsimp only; exact finish (go (.inr (.inl hs)) _)
      · rename_i hs; dsimp only; exact finish (go (.inr (.inr hs)) _)
      · exact h

end Sys2Proof.Machine.Station
end

section
/-! The slots through the results of the planner: first plans, replans, UNISOLABLE and the completion (R62, R65, R88, R96). -/

namespace Sys2Proof.Machine

/-! A plan names no valve twice. -/

theorem insertBy_perm {α : Type} (p : α → α → Bool) (x : α) (xs : List α) : (insertBy p x xs).Perm (x :: xs) := by
  induction xs with
  | nil => exact .refl _
  | cons y ys ih =>
    unfold insertBy
    split
    · exact (ih.cons y).trans (.swap x y ys)
    · exact .refl _

theorem sortBy_perm {α : Type} (p : α → α → Bool) (xs : List α) : (sortBy p xs).Perm xs := by
  have go (ys acc : List α) :
      (ys.foldl (fun ys x => insertBy (fun a b => !p b a) x ys) acc).Perm (acc ++ ys) := by
    induction ys generalizing acc with
    | nil => simp
    | cons y ys ih =>
      refine (ih _).trans (((insertBy_perm _ y acc).append_right ys).trans ?_)
      exact (List.perm_middle (l₁ := acc) (l₂ := ys) (a := y)).symm
  exact (go xs []).trans (by simp)

theorem Table.nodup_numbers {α : Type} (t : Table α) (h : Table.wf t = true) : (t.map (·.1)).Nodup := by
  induction t with
  | nil => exact List.nodup_nil
  | cons p t ih =>
    simp only [Table.wf, Bool.and_eq_true] at h
    rw [List.map_cons, List.nodup_cons]
    refine ⟨fun hm => ?_, ih h.2⟩
    obtain ⟨q, hq, e⟩ := List.mem_map.mp hm
    have := (Table.above_iff _ _).mp h.1 q hq
    omega

namespace Station

variable {P : Prop} {b k : Nat} {s t : Station}

theorem closingEntry_valve (s : Station) (x : Nat × Reading) : (s.closingEntry x).valve = x.1 := by
  unfold closingEntry
  split <;> rfl

theorem nodup_planEntries (hw : Table.wf s.nt.valves = true) (f : Flight) (region : List Nat) :
    ((s.planEntries f (s.boundaryOf region)).map (·.valve)).Nodup := by
  have once : ((s.boundaryOf region).map (·.1)).Nodup := ((Table.nodup_numbers _ hw).sublist (List.filter_sublist.map _))
  have closing : ((sortBy closesBefore ((s.closableOf (s.boundaryOf region)).map
      fun p => (p.1, s.readingOf f p.1 p.2))).map (s.closingEntry)).map (·.valve) |>.Perm
      ((s.closableOf (s.boundaryOf region)).map (·.1)) := by
    rw [List.map_map]
    have h := (sortBy_perm closesBefore ((s.closableOf (s.boundaryOf region)).map
      fun p => (p.1, s.readingOf f p.1 p.2))).map fun x => (s.closingEntry x).valve
    simpa only [Function.comp_def, closingEntry_valve, List.map_map] using h
  simp only [planEntries, List.map_append]
  rw [List.nodup_append]
  refine ⟨closing.nodup_iff.mpr (once.sublist (List.filter_sublist.map _)), ?_, fun a ha c hc => ?_⟩
  · rw [List.map_map]
    exact once.sublist (List.filter_sublist.map _)
  · have ha := closing.subset ha
    rw [List.map_map] at hc
    obtain ⟨p, hp, rfl⟩ := List.mem_map.mp ha
    obtain ⟨q, hq, rfl⟩ := List.mem_map.mp hc
    have h1 := (List.mem_filter.mp hp).2
    have h2 := (List.mem_filter.mp hq).2
    simp only [decide_eq_true_eq] at h1 h2
    rintro (e : p.1 = q.1)
    rw [e, h2] at h1
    cases h1

/-- The plan that a round ends with has the entries of its region's boundary. -/
theorem entries_of_round {f : Flight} {ns : List Nat} {p : Plan} (h : s.roundBefore f ns = .plan p) :
    ∃ region, p.entries = s.planEntries f (s.boundaryOf region) := by
  unfold roundBefore at h
  dsimp only at h
  split at h
  · cases h
  · split at h
    · split at h <;> cases h
    · unfold planRound at h
      dsimp only at h
      repeat' split at h
      all_goals cases h
      exact ⟨_, rfl⟩

theorem entries_of_endedRound {f : Flight} {p : Plan} (h : s.endedRound f = .plan p) :
    ∃ region, p.entries = s.planEntries f (s.boundaryOf region) := by
  unfold endedRound at h
  split at h
  · exact entries_of_round h
  · exact entries_of_round h

/-! Results. -/

theorem Orderly.unisolable (h : Orderly P s) (hs : (s.slot k).state = .planning ∨ (s.slot k).state = .closing) (c : Cause)
    (n : Nat) : Orderly P (s.unisolable k c n) := by
  have ha := h.slots.agrees k
  obtain ⟨h1, h2, h3, h4, h5, h6, h7, h8⟩ := ha
  refine (h.modSlot (fun r => { r with state := .unisolable, reason := some (c, n), replanPending := false })
    (by rcases hs with e | e <;> simp [e]) ?_ (by simp) rfl).post _
  exact
    { free := by simp
      authorized := by simp
      working := fun e => ⟨(h3 e).1, .inr rfl⟩
      closed := fun e => ⟨(h4 e).1, by simp⟩
      reopening := fun e => by have := h5 e; rcases hs with hs | hs <;> rw [hs] at this <;> cases this
      reopens := fun e => by have := h6 e; rcases hs with hs | hs <;> simp [hs] at this
      entries := h7
      once := h8 }

theorem Orderly.firstPlan (h : Orderly P s) (hs : (s.slot k).state = .planning) (p : Plan)
    (hp : (p.entries.map (·.valve)).Nodup) : Orderly P (s.firstPlan k p) := by
  have w : Works 1 s (s.writeOwnership k p.region) := (Works.refl s).writeOwnership k p.region
  have still : ((s.writeOwnership k p.region).slot k).state = .planning := by
    have := ((w h.canonical fun _ => h.slots).2.slots k).state
    grind
  have h1 := h.works w
  unfold Station.firstPlan
  dsimp only
  generalize s.writeOwnership k p.region = x at w still h1 ⊢
  obtain ⟨-, hc, hr⟩ := Slot.Agrees.idle (h1.slots.agrees k) (.inl still)
  have limited (u : Station) (e : PlanEntry) :
      Works 2 u (if e.limited then u.surgeLimited (some k) e.valve e.treq else u) :=
    Works.ite ((Works.refl u).surgeLimited _ _ _) (.refl u)
  refine (h1.modSlot _ (by rw [still]; simp) ?_ (by simp) rfl).works (Works.post _ (Works.foldl _ _ limited (.refl _)))
  have proposed (e : PlanEntry) : inProgress (proposedEntry e) = false := by
    unfold proposedEntry inProgress
    dsimp only
    split
    all_goals first | rfl | (rename_i he; split at he <;> cases he)
  exact
    { free := by simp
      authorized := by simp
      working := by simp [proposed]
      closed := by simp [hc]
      reopening := by simp [hr]
      reopens := by simp [hr]
      entries := by rw [List.map_map]; exact hp
      once := by simp [hc] }

/-! Replans. -/

theorem keptEntry_valve {old : List Entry} {v : Nat} {e : Entry} (h : keptEntry? old v = some e) : e.valve = v := by
  unfold keptEntry? at h
  split at h
  · rename_i x hx
    have hv : x.valve = v := by simpa using List.find?_some hx
    split at h
    all_goals first | cases h; exact hv | cases h
  · cases h

theorem replanEntry_valve (old : List Entry) (p : PlanEntry) : (replanEntry old p).valve = p.valve := by
  unfold replanEntry
  split
  · rename_i e he
    have hv : e.valve = p.valve := keptEntry_valve he
    split
    · exact hv
    · exact hv
  · rfl

theorem nodup_replanEntries (old : List Entry) (ps : List PlanEntry) (h : (ps.map (·.valve)).Nodup) :
    ((ps.map (replanEntry old)).map (·.valve)).Nodup := by
  simpa only [List.map_map, Function.comp_def, replanEntry_valve] using h

theorem nodup_keptEntries (old : List Entry) (p : Plan) (h : (p.entries.map (·.valve)).Nodup) :
    ((keptEntries old p).map (·.valve)).Nodup :=
  nodup_replanEntries old _ (h.sublist (List.filter_sublist.map _))

theorem Driven.keepAtReplan (h : Driven P k s) (old : List Entry) (p : PlanEntry) :
    Driven P k (keepAtReplan k old s p) := by
  unfold Station.keepAtReplan
  split
  · exact h
  · dsimp only
    have limited {c : Prop} {_ : Decidable c} (n : Nat) :
        Driven P k (if c then s.surgeLimited (some k) p.valve n else s) :=
      Driven.ite (h.works ((Works.refl s).surgeLimited _ _ _)) h
    have joined {x : Station} (hx : Driven P k x) {c : Prop} {_ : Decidable c} :
        Driven P k (if c then x.joinClosedBy k p.valve else x) := Driven.ite (hx.joinClosedBy _) hx
    exact Driven.ite ((joined (limited _)).works ((Works.refl _).abandonExercises _)) (joined (limited _))

theorem Works.dropAtReplan (k : Nat) (p : Plan) (e : Entry) (h : Works b s t) : Works b s (dropAtReplan k p t e) := by
  unfold Station.dropAtReplan
  split
  · exact h
  · split
    · exact h.crewCancel k _
    · exact h.modStroke _ _
    · exact h

theorem Driven.startAtReplan (h : Driven P k s) (old : List Entry) (p : PlanEntry) :
    Driven P k (startAtReplan k old s p) := by
  unfold Station.startAtReplan
  split
  · exact h
  · split
    · exact h.works ((Works.refl s).closeWaits k _)
    · dsimp only
      refine ((h.joinClosedBy p.valve).works (Works.post _ ?_))
      exact (Works.refl _).modWork k _ _ (fun _ => rfl) (.inl fun _ hp => hp)
    · exact Driven.ite (h.joinClosedBy _) h

theorem Works.reportNewMark (k : Nat) (old : List Entry) (p : PlanEntry) (h : Works b s t) :
    Works b s (reportNewMark k old t p) := by
  unfold Station.reportNewMark
  split
  · exact Works.ite (h.surgeLimited _ _ _) h
  · exact h

/-- A replan from the state in which the slot holds the kept entries alone. -/
def replanFrom (s : Station) (k : Nat) (p : Plan) (old : List Entry) : Station :=
  let s := p.entries.foldl (keepAtReplan k old) s
  let s := (old.foldl (dropAtReplan k p) s).returnFactors
  let s := s.modSlot k fun r => { r with work := p.entries.map (replanEntry old) }
  let s := p.entries.foldl (startAtReplan k old) s
  p.entries.foldl (reportNewMark k old) s

/-- A replan up to its kept entries. -/
def replanKept (s : Station) (k : Nat) (p : Plan) : Station :=
  (s.writeOwnership k p.region).modSlot k fun r =>
    { r with
      region := p.region, report := some p.report, overrideRequired := p.overrideRequired
      replanPending := false, work := keptEntries (s.slot k).work p }

theorem replan_eq (s : Station) (k : Nat) (p : Plan) :
    s.replan k p =
      (((s.replanKept k p).replanFrom k p (s.slot k).work).post
        { kind := .expanded, slot := some k, segment := prioritySegment p.report
          value := some p.report.cutOffConnections }).testIsolated k := rfl

theorem Driven.replanKept (h : Driven P k s) (p : Plan) (hp : (p.entries.map (·.valve)).Nodup) :
    Driven P k (s.replanKept k p) := by
  have owned : Driven P k (s.writeOwnership k p.region) := h.works ((Works.refl s).writeOwnership k p.region)
  exact owned.modSlot _ rfl rfl rfl rfl (nodup_keptEntries _ p hp)

theorem Driven.replanFrom (h : Driven P k s) (p : Plan) (old : List Entry) (hp : (p.entries.map (·.valve)).Nodup) :
    Driven P k (s.replanFrom k p old) := by
  have kept : Driven P k (p.entries.foldl (Station.keepAtReplan k old) s) :=
    Driven.foldl _ _ (fun _ e hu => hu.keepAtReplan old e) h
  have dropped : Driven P k (old.foldl (Station.dropAtReplan k p) (p.entries.foldl (Station.keepAtReplan k old) s)).returnFactors :=
    kept.works (Works.returnFactors (Works.foldl _ _ (fun u e => (Works.refl u).dropAtReplan k p e) (.refl _)))
  unfold Station.replanFrom
  dsimp only
  generalize (old.foldl (Station.dropAtReplan k p) (p.entries.foldl (Station.keepAtReplan k old) s)).returnFactors = x
    at dropped ⊢
  have taken := dropped.modSlot (fun r => { r with work := p.entries.map (replanEntry old) }) rfl rfl rfl rfl
    (nodup_replanEntries old _ hp)
  have started := Driven.foldl p.entries (Station.startAtReplan k old) (fun _ e hu => hu.startAtReplan old e) taken
  exact started.works (Works.foldl _ _ (fun u e => (Works.refl u).reportNewMark k old e) (.refl _))

theorem Orderly.replan (h : Orderly P s) (hs : (s.slot k).state = .closing) (p : Plan)
    (hp : (p.entries.map (·.valve)).Nodup) : Orderly P (s.replan k p) := by
  have live : Driven P k s := ⟨h, (h.slots.agrees k).authorized (.inl hs), .inl hs⟩
  rw [replan_eq]
  exact ((live.replanKept p hp).replanFrom p _ hp).toOrderly.works (Works.testIsolated k (Works.post _ (.refl _)))

/-! The completion. -/

theorem Orderly.applyResult (h : Orderly P s) (k : Nat) (e : RoundEnd)
    (he : ∀ p, e = .plan p → (p.entries.map (·.valve)).Nodup) : Orderly P (s.applyResult k e) := by
  unfold Station.applyResult
  split
  · split
    · rename_i hs
      refine h.unisolable ?_ _ _
      cases hst : (s.slot k).state <;> simp [hst, servedState] at hs ⊢
    · exact h
  · rename_i hs
    exact h.firstPlan hs _ (he _ rfl)
  · rename_i hs
    exact h.replan hs _ (he _ rfl)
  · exact h
  · exact h

theorem Orderly.planner (h : Orderly P s) (q : Planner) : Orderly P { s with ip := q } :=
  h.works (b := 2) ((Works.refl s).planner rfl)

theorem Orderly.computationEnds (h : Orderly P s) : Orderly P s.computationEnds := by
  have hw := (canonical_netTidy h.canonical).2.1
  have plain (f : Flight) (p : Plan) (e : s.endedRound f = .plan p) : (p.entries.map (·.valve)).Nodup := by
    obtain ⟨region, hr⟩ := entries_of_endedRound e
    rw [hr]
    exact nodup_planEntries hw f region
  unfold Station.computationEnds
  split
  · exact h
  · rename_i f _
    split
    · exact h
    · refine Orderly.works (b := 2) ?_ (Works.refl _).startNext
      unfold Station.completeWith
      dsimp only
      split
      · exact h.planner _
      · split
        · exact (h.planner _).works (b := 2) ((Works.refl _).enqueue _)
        · exact (h.planner _).applyResult _ _ fun p e => plain f p e

end Station
end Sys2Proof.Machine
end

section
/-! The slots through a merge (R105, R106): the survivor takes over what the absorbed slot had and gets its new state
last, so that in between its record need not agree with its state. -/

namespace Sys2Proof.Machine

/-! United lists. -/

theorem mem_unionList {xs ys : List Nat} {v : Nat} : v ∈ unionList xs ys ↔ v ∈ xs ∨ v ∈ ys := by
  unfold unionList
  induction ys generalizing xs with
  | nil => simp
  | cons y ys ih =>
    rw [List.foldl_cons, ih]
    split
    · rename_i h
      rw [List.contains_iff_mem] at h
      grind
    · grind

theorem nodup_unionList {xs ys : List Nat} (h : xs.Nodup) : (unionList xs ys).Nodup := by
  unfold unionList
  induction ys generalizing xs with
  | nil => exact h
  | cons y ys ih =>
    rw [List.foldl_cons]
    refine ih ?_
    split
    · exact h
    · rename_i hn
      simp only [List.contains_iff_mem] at hn
      rw [List.nodup_append]
      exact ⟨h, by simp, fun a ha b hb e => hn (by rw [List.mem_singleton] at hb; exact hb ▸ e ▸ ha)⟩

theorem nil_of_unionList {xs ys : List Nat} (h : unionList xs ys ≠ []) : xs ≠ [] ∨ ys ≠ [] := by
  obtain ⟨v, hv⟩ := List.exists_mem_of_ne_nil _ h
  rcases mem_unionList.mp hv with hv | hv
  · exact .inl (List.ne_nil_of_mem hv)
  · exact .inr (List.ne_nil_of_mem hv)

theorem mem_unitedWork {xs ys : List Entry} {e : Entry} (h : e ∈ Station.unitedWork xs ys) : e ∈ xs ∨ e ∈ ys := by
  unfold Station.unitedWork at h
  rcases List.mem_append.mp h with h | h
  · exact .inl (List.mem_of_mem_filter h)
  · exact .inr (List.mem_of_mem_filter h)

/-- In a list that names no valve twice a valve's entry is the one found. -/
theorem entryOf?_of_mem {es : List Entry} (h : (es.map (·.valve)).Nodup) {e : Entry} (he : e ∈ es) :
    entryOf? es e.valve = some e := by
  unfold entryOf?
  induction es with
  | nil => cases he
  | cons x es ih =>
    rw [List.map_cons, List.nodup_cons] at h
    rw [List.find?_cons]
    rcases List.mem_cons.mp he with rfl | he
    · simp
    · have hx : x.valve ≠ e.valve := fun hx => h.1 (hx ▸ List.mem_map_of_mem he)
      simp only [hx, decide_false]
      exact ih h.2 he

/-- The united work lists name no valve twice: of two entries of a valve one is dropped. -/
theorem nodup_unitedWork {xs ys : List Entry} (hx : (xs.map (·.valve)).Nodup) (hy : (ys.map (·.valve)).Nodup) :
    ((Station.unitedWork xs ys).map (·.valve)).Nodup := by
  unfold Station.unitedWork
  rw [List.map_append, List.nodup_append]
  refine ⟨hx.sublist (List.filter_sublist.map _), hy.sublist (List.filter_sublist.map _), fun v hv w hw => ?_⟩
  rintro rfl
  obtain ⟨x, hx', rfl⟩ := List.mem_map.mp hv
  obtain ⟨y, hy', e⟩ := List.mem_map.mp hw
  obtain ⟨mx, tx⟩ := List.mem_filter.mp hx'
  obtain ⟨my, ty⟩ := List.mem_filter.mp hy'
  have fy := entryOf?_of_mem hy my
  have fx := entryOf?_of_mem hx mx
  rw [e] at fy ty
  simp only [fy, decide_eq_true_eq] at tx
  simp only [fx, decide_eq_true_eq] at ty
  grind

/-! A survivor's record before its new state. -/

/-- What a slot's record must be for it to take one of the states that a merge gives. -/
structure Slot.Loose (r : Slot) : Prop where
  working : r.work.any Station.inProgress = true → r.authorized.isSome = true
  closed : r.closedBy ≠ [] → r.authorized.isSome = true
  reopens : r.reopen = []
  entries : (r.work.map (·.valve)).Nodup
  once : r.closedBy.Nodup

theorem Slot.Loose.onward {x y : Slot} (h : x.Loose) (g : Slot.Onward 0 x y) : y.Loose where
  working e := g.authorized ▸ h.working (g.working e)
  closed e := by
    rw [g.authorized]
    rcases g.closed with hc | hc
    · exact h.closed (hc ▸ e)
    · exact hc.1
  reopens := by
    by_contra e
    exact g.reopens e h.reopens
  entries := by rw [g.valves]; exact h.entries
  once := by
    rcases g.closed with hc | hc
    · rw [hc]; exact h.once
    · exact hc.2.2 h.once

/-- A record with a state that a merge gives it agrees with that state. -/
theorem Slot.Loose.agrees {r f : Slot} (h : r.Loose) (ha : f.authorized = r.authorized) (hw : f.work = r.work)
    (hc : f.closedBy = r.closedBy) (hr : f.reopen = r.reopen)
    (hs : f.state = .unisolable ∨ (f.state = .aborted ∧ r.work.any Station.inProgress = false) ∨
      (f.state = .closing ∧ r.authorized.isSome = true) ∨ (f.state = .planning ∧ r.authorized = none)) : f.Agrees := by
  obtain ⟨h1, h2, h3, h4, h5⟩ := h
  exact
    { free := by grind
      authorized := by grind
      working := by grind
      closed := by grind
      reopening := by simp [hr, h3]
      reopens := by simp [hr, h3]
      entries := by rw [hw]; exact h4
      once := by rw [hc]; exact h5 }

namespace Station

variable {P : Prop} {b k : Nat} {s t : Station}

/-! Closed-by lists through a valve's leaving CLOSED. -/

/-- The tables stay in form and no closed-by list changes. -/
def SameLists (s t : Station) : Prop :=
  s.canonical = true → t.canonical = true ∧ ∀ k, (t.slot k).closedBy = (s.slot k).closedBy

namespace SameLists

theorem refl (s : Station) : SameLists s s := fun c => ⟨c, fun _ => rfl⟩

theorem trans {u : Station} (h : SameLists s t) (g : SameLists t u) : SameLists s u := fun c => by
  obtain ⟨c1, h1⟩ := h c
  obtain ⟨c2, h2⟩ := g c1
  exact ⟨c2, fun k => (h2 k).trans (h1 k)⟩

theorem of_works {u : Station} (h : SameLists s t) (w : Works 0 t u) (e : u.im = t.im) : SameLists s u :=
  h.trans fun c => ⟨(w c fun hb => nomatch hb).1, fun k => by rw [slot_of_im e]⟩

theorem modSlot (k : Nat) (f : Slot → Slot) (h : SameLists s t) (hf : ∀ r, (f r).closedBy = r.closedBy) :
    SameLists s (t.modSlot k f) :=
  h.trans fun c => ⟨canonical_modSlot k f c, fun j => by
    rw [slot_modSlot c]
    split
    · rename_i hj; rw [hf, hj]
    · rfl⟩

theorem post (n : Notice) (h : SameLists s t) : SameLists s (t.post n) := h.of_works ((Works.refl t).post n) rfl
theorem trigger (k : Nat) (h : SameLists s t) : SameLists s (t.trigger k) :=
  h.of_works ((Works.refl t).trigger k) (trigger_im k)
theorem withdraw (k : Nat) (h : SameLists s t) : SameLists s (t.withdraw k) := h.of_works ((Works.refl t).withdraw k) rfl

theorem ite {c : Prop} {_ : Decidable c} {x y : Station} (hx : SameLists s x) (hy : SameLists s y) :
    SameLists s (if c then x else y) := by
  split <;> assumption

theorem tooManyFailures (k n : Nat) (h : SameLists s t) : SameLists s (t.tooManyFailures k n) :=
  ((h.modSlot k (fun r => { r with state := .unisolable, reason := some (Cause.tooManyFailures, n), replanPending := false })
    fun _ => rfl).post _).withdraw k

theorem recordFailure (k v : Nat) (c : Cause) (h : SameLists s t) : SameLists s (t.recordFailure k v c) := by
  have failed : SameLists s (t.failEntry k v) :=
    h.modSlot k (fun r => { r with work := modEntry r.work v fun e => e.settle .failed }) fun _ => rfl
  have watched : SameLists s
      (if Config.failedCap ≤ (t.slot k).failed.length then
          ((t.failEntry k v).post (t.failureNotice k v c)).tooManyFailures k (Config.failedCap + 1)
        else if (t.slot k).replanPending then
          (((t.failEntry k v).modSlot k fun r => { r with failed := r.failed ++ [(v, c)] }).trigger k).post
            (t.failureNotice k v c)
        else if Config.expansionCap ≤ (t.slot k).expansions then
          (((t.failEntry k v).modSlot k fun r => { r with failed := r.failed ++ [(v, c)] }).post
            (t.failureNotice k v c)).tooManyFailures k (Config.expansionCap + 1)
        else
          ((((t.failEntry k v).modSlot k fun r => { r with failed := r.failed ++ [(v, c)] }).modSlot k fun r =>
            { r with expansions := r.expansions + 1, replanPending := true, state := .closing }).trigger k).post
            (t.failureNotice k v c)) := by
    have added := failed.modSlot k (fun r => { r with failed := r.failed ++ [(v, c)] }) fun _ => rfl
    have expanded := added.modSlot k
      (fun r => { r with expansions := r.expansions + 1, replanPending := true, state := .closing }) fun _ => rfl
    exact ite ((failed.post _).tooManyFailures k _) (ite ((added.trigger k).post _)
      (ite ((added.post _).tooManyFailures k _) ((expanded.trigger k).post _)))
  have noted : SameLists s
      (((t.failEntry k v).modSlot k fun r =>
        if r.failed.length < Config.failedCap then { r with failed := r.failed ++ [(v, c)] } else r).post
        (t.failureNotice k v c)) :=
    (failed.modSlot k (fun r =>
      if r.failed.length < Config.failedCap then { r with failed := r.failed ++ [(v, c)] } else r)
      fun r => by split <;> rfl).post _
  simp only [Station.recordFailure]
  cases (t.slot k).state
  case closing | isolated => exact watched
  case unisolable | aborted => exact noted
  all_goals exact failed.post _

theorem watchLeft (v : Nat) (h : SameLists s t) : SameLists s (t.watchLeft v) := by
  unfold Station.watchLeft
  generalize slotNumbers = xs
  induction xs generalizing t with
  | nil => exact h
  | cons k xs ih => exact ih (ite (h.recordFailure k v _) h)

theorem lowerHold (v : Nat) (h : SameLists s t) : SameLists s (t.lowerHold v) := by
  have lowered : SameLists s (t.modVs v fun d => { d with holds := d.holds - 1 }) :=
    h.trans fun c => ⟨canonical_modVs v _ c, fun _ => rfl⟩
  unfold Station.lowerHold Station.reposition
  dsimp only
  generalize (t.modVs v fun d => { d with holds := d.holds - 1 }) = x at lowered ⊢
  refine ite ?_ lowered
  have written : SameLists s (x.modVs v fun d => { d with position := .unknown, percent := none, stale := false }) :=
    lowered.of_works ((Works.refl x).modVs v _ fun _ => rfl) rfl
  generalize (x.modVs v fun d => { d with position := .unknown, percent := none, stale := false }) = y at written ⊢
  have marked : SameLists s (if (x.vsOf v).position.passes = (y.vsOf v).position.passes then y else y.markStale) :=
    ite written (written.of_works (Works.refl y).markStale rfl)
  generalize (if (x.vsOf v).position.passes = (y.vsOf v).position.passes then y else y.markStale) = z at marked ⊢
  have classed : SameLists s (z.refreshClass v) := marked.of_works ((Works.refl z).refreshClass v) (refreshClass_im v)
  exact ite (classed.watchLeft v) classed

end SameLists

/-! Between the union and the new state. -/

/-- The slots while slot `b` is being joined into slot `a`; the holds of the valves `xs` are still counted twice. -/
structure Merging (P : Prop) (a b : Nat) (o : Option Nat) (xs : List Nat) (s : Station) : Prop where
  canonical : s.canonical = true
  lta : a < 4
  ltb : b < 4
  ne : a ≠ b
  awake : s.ss.station ≠ .loading
  used : (s.slot a).state ≠ .free
  gone : (s.slot b).state ≠ .free
  loose : (s.slot a).Loose
  authorized : (s.slot a).authorized = o
  others : ∀ j, j ≠ a → j ≠ b → (s.slot j).Agrees
  beyond : ∀ j, 4 ≤ j → s.slot j = {}
  free : ∀ j, j ∈ s.im.freeList ↔ j < 4 ∧ (s.slot j).state = .free
  freeOnce : s.im.freeList.Nodup
  holds : P → ∀ v, (s.vsOf v).holds + (if (s.slot b).closedBy.contains v then 1 else 0) = s.held v + xs.count v

/-- As `Orderly`, but for the state of slot `a`. -/
structure Remade (P : Prop) (a : Nat) (o : Option Nat) (s : Station) : Prop where
  canonical : s.canonical = true
  lt : a < 4
  awake : s.ss.station ≠ .loading
  used : (s.slot a).state ≠ .free
  loose : (s.slot a).Loose
  authorized : (s.slot a).authorized = o
  others : ∀ j, j ≠ a → (s.slot j).Agrees
  beyond : ∀ j, 4 ≤ j → s.slot j = {}
  free : ∀ j, j ∈ s.im.freeList ↔ j < 4 ∧ (s.slot j).state = .free
  freeOnce : s.im.freeList.Nodup
  holds : P → s.HoldsCounted

theorem Merging.works {a b : Nat} {o : Option Nat} {xs : List Nat} (h : Merging P a b o xs s) (w : Works 0 s t)
    (hb : (t.slot b).closedBy = (s.slot b).closedBy) : Merging P a b o xs t := by
  obtain ⟨c, g⟩ := w h.canonical fun hb => nomatch hb
  exact
    { h with
      canonical := c
      awake := fun l => h.awake (g.loading l)
      used := fun e => h.used ((g.slots a).free_iff.mp e)
      gone := fun e => h.gone ((g.slots b).free_iff.mp e)
      loose := h.loose.onward (g.slots a)
      authorized := (g.slots a).authorized.trans h.authorized
      others := fun j ha hb => (g.slots j).agrees (h.others j ha hb)
      beyond := fun j hj => (g.slots j).unused (h.beyond j hj)
      free := fun j => by rw [g.freeList, h.free j, (g.slots j).free_iff]
      freeOnce := by rw [g.freeList]; exact h.freeOnce
      holds := fun p v => by
        have h1 := h.holds p v
        have h2 := g.tally v
        rw [hb]
        omega }

theorem Remade.works {a : Nat} {o : Option Nat} (h : Remade P a o s) (w : Works 0 s t) : Remade P a o t := by
  obtain ⟨c, g⟩ := w h.canonical fun hb => nomatch hb
  exact
    { h with
      canonical := c
      awake := fun l => h.awake (g.loading l)
      used := fun e => h.used ((g.slots a).free_iff.mp e)
      loose := h.loose.onward (g.slots a)
      authorized := (g.slots a).authorized.trans h.authorized
      others := fun j ha => (g.slots j).agrees (h.others j ha)
      beyond := fun j hj => (g.slots j).unused (h.beyond j hj)
      free := fun j => by rw [g.freeList, h.free j, (g.slots j).free_iff]
      freeOnce := by rw [g.freeList]; exact h.freeOnce
      holds := fun p => g.holdsCounted (h.holds p) }

/-- A valve that both lists held loses the hold counted twice. -/
theorem Merging.lowerHold {a b v : Nat} {o : Option Nat} {xs : List Nat} (h : Merging P a b o (v :: xs) s) :
    Merging P a b o xs (s.lowerHold v) := by
  have lists := (SameLists.refl s).lowerHold v h.canonical
  have lowered : Merging P a b o xs (s.modVs v fun d => { d with holds := d.holds - 1 }) :=
    { h with
      canonical := canonical_modVs v _ h.canonical
      holds := fun p w => by
        have hw := h.holds p w
        rw [vsOf_modVs h.canonical]
        show (if w = v then { s.vsOf v with holds := (s.vsOf v).holds - 1 } else s.vsOf w).holds +
          (if (s.slot b).closedBy.contains w then 1 else 0) = s.held w + xs.count w
        rw [List.count_cons] at hw
        by_cases e : w = v
        · subst e
          have one : (if (s.slot b).closedBy.contains w then 1 else 0) ≤ s.held w := by
            unfold Station.held
            split
            · rename_i hc
              refine List.one_le_countP_iff.mpr ⟨b, ?_, hc⟩
              have := h.ltb
              simp [slotNumbers]
              omega
            · omega
          simp only [beq_self_eq_true, if_true] at hw ⊢
          omega
        · have : ¬ v = w := fun e' => e e'.symm
          simp only [e, if_false, beq_iff_eq, this] at hw ⊢
          exact hw }
  have same : ((s.lowerHold v).slot b).closedBy = (s.slot b).closedBy := lists.2 b
  refine lowered.works (t := s.lowerHold v) ?_ same
  unfold Station.lowerHold
  exact Works.ite ((Works.refl _).reposition v _ fun _ => rfl) (.refl _)

theorem Merging.lowerAll {a b : Nat} {o : Option Nat} (xs : List Nat) (h : Merging P a b o xs s) :
    Merging P a b o [] (xs.foldl Station.lowerHold s) := by
  induction xs generalizing s with
  | nil => exact h
  | cons v xs ih => exact ih h.lowerHold

theorem Works.renameStrokes (a c : Nat) (h : Works b s t) : Works b s (t.renameStrokes a c) :=
  Works.foldl _ _ (fun u _ => ((Works.refl u).modStroke _ _).modVs _ _ fun _ => rfl) h

theorem renameStrokes_im (s : Station) (a b : Nat) : (s.renameStrokes a b).im = s.im := by
  unfold renameStrokes
  dsimp only
  generalize List.filter _ s.md.strokes = rs
  induction rs generalizing s with
  | nil => rfl
  | cons r rs ih => exact ih _

/-- The united record has room for each state that a merge gives. -/
theorem loose_joinedSlot {a b : Nat} (h : s.SlotsOk) (ha : testedState (s.slot a).state = true) :
    (s.joinedSlot a b (s.slot a)).Loose := by
  obtain ⟨a1, a2, a3, a4, a5, a6, a7, a8⟩ := h.agrees a
  obtain ⟨b1, b2, b3, b4, b5, b6, b7, b8⟩ := h.agrees b
  have earlier : (s.slot a).authorized.isSome = true ∨ (s.slot b).authorized.isSome = true →
      (earlierOf s.clock (s.slot a).authorized (s.slot b).authorized).isSome = true := by
    cases (s.slot a).authorized <;> cases (s.slot b).authorized <;> simp [earlierOf]
    split <;> rfl
  exact
    { working := fun e => by
        obtain ⟨x, hx, hp⟩ := List.any_eq_true.mp e
        refine earlier ((mem_unitedWork hx).imp (fun m => (a3 ?_).1) fun m => (b3 ?_).1)
        · exact List.any_eq_true.mpr ⟨x, m, hp⟩
        · exact List.any_eq_true.mpr ⟨x, m, hp⟩
      closed := fun e => earlier ((nil_of_unionList e).imp (fun m => (a4 m).1) fun m => (b4 m).1)
      reopens := by
        show (s.slot a).reopen = []
        by_contra e
        rcases a6 e with e | e <;> simp [e, testedState] at ha
      entries := nodup_unitedWork a7 b7
      once := nodup_unionList a8 }

/-- A merge begins: the lists are united, with the holds of the valves that both lists have counted twice. -/
theorem Orderly.merging {a b : Nat} (h : Orderly P s) (ha : testedState (s.slot a).state = true)
    (hb : testedState (s.slot b).state = true) (hab : a ≠ b) :
    Merging P a b (earlierOf s.clock (s.slot a).authorized (s.slot b).authorized)
      ((s.slot b).closedBy.filter (s.slot a).closedBy.contains) (s.modSlot a (s.joinedSlot a b)) := by
  have used {j : Nat} (hj : testedState (s.slot j).state = true) : (s.slot j).state ≠ .free := fun e => by
    simp [e, testedState] at hj
  have e (j : Nat) : (s.modSlot a (s.joinedSlot a b)).slot j = if j = a then s.joinedSlot a b (s.slot a) else s.slot j :=
    slot_modSlot h.canonical a j _
  have state (j : Nat) : ((s.modSlot a (s.joinedSlot a b)).slot j).state = (s.slot j).state := by
    rw [e]
    split
    · rename_i hj; rw [hj]; rfl
    · rfl
  have o := h.slots
  exact
    { canonical := canonical_modSlot a _ h.canonical
      lta := h.free_of_ge (used ha)
      ltb := h.free_of_ge (used hb)
      ne := hab
      awake := fun l => slot_ne_free (used ha) (o.loading l a)
      used := by rw [state]; exact used ha
      gone := by rw [state]; exact used hb
      loose := by rw [e, if_pos rfl]; exact loose_joinedSlot o ha
      authorized := by rw [e, if_pos rfl]; rfl
      others := fun j hj _ => by rw [e, if_neg hj]; exact o.agrees j
      beyond := fun j hj => by rw [e, if_neg (by have := h.free_of_ge (used ha); omega)]; exact o.beyond j hj
      free := fun j => by rw [state]; exact o.free j
      freeOnce := o.once
      holds := fun p v => by
        have count := held_update (t := s) (u := s.modSlot a (s.joinedSlot a b)) (h.free_of_ge (used ha))
          (ns := unionList (s.slot a).closedBy (s.slot b).closedBy) (fun j => by rw [e]; split <;> rfl) v
        have hv : (s.vsOf v).holds = s.held v := h.holds p v
        rw [e, if_neg (Ne.symm hab)]
        show (s.vsOf v).holds + _ = _
        have once := (o.agrees b).once
        have both : ((s.slot b).closedBy.filter (s.slot a).closedBy.contains).count v =
            if v ∈ (s.slot b).closedBy ∧ v ∈ (s.slot a).closedBy then 1 else 0 := by
          simp only [(once.filter _).count, List.mem_filter, List.contains_iff_mem]
        simp only [List.contains_iff_mem, mem_unionList] at count ⊢
        rw [both]
        by_cases ma : v ∈ (s.slot a).closedBy <;> by_cases mb : v ∈ (s.slot b).closedBy <;>
          simp only [ma, mb, true_or, or_true, or_self, and_self, and_true, and_false, if_true, if_false] at count ⊢ <;>
          omega }

/-- The absorbed slot is freed: the holds are counted once. -/
theorem Merging.freed {a b : Nat} {o : Option Nat} (h : Merging P a b o [] s) : Remade P a o (s.freeSlot b) := by
  have e (j : Nat) : (s.freeSlot b).slot j = if j = b then {} else s.slot j := slot_freeSlot h.canonical j
  have hn : b ∉ s.im.freeList := fun hm => h.gone ((h.free b).mp hm).2
  exact
    { canonical := (Frame.freeSlot b (.refl s)).safe.canonical h.canonical
      lt := h.lta
      awake := h.awake
      used := by rw [e, if_neg h.ne]; exact h.used
      loose := by rw [e, if_neg h.ne]; exact h.loose
      authorized := by rw [e, if_neg h.ne]; exact h.authorized
      others := fun j hj => by
        rw [e]
        split
        · exact Slot.agrees_free
        · rename_i hb; exact h.others j hj hb
      beyond := fun j hj => by
        rw [e]
        split
        · rfl
        · exact h.beyond j hj
      free := fun j => by
        rw [freeSlot_freeList, e, List.mem_append, List.mem_singleton, h.free j]
        split
        · rename_i hj; subst hj; simp [h.ltb]
        · rename_i hj; simp [hj]
      freeOnce := by
        rw [freeSlot_freeList, List.nodup_append]
        exact ⟨h.freeOnce, by simp, fun x hx y hy => by rw [List.mem_singleton] at hy; exact fun e => hn (hy ▸ e ▸ hx)⟩
      holds := fun p v => by
        have count := held_update (t := s) (u := s.freeSlot b) h.ltb (ns := []) (fun j => by rw [e]; split <;> rfl) v
        have hv := h.holds p v
        show (s.vsOf v).holds = (s.freeSlot b).held v
        simp only [List.contains_nil, Bool.false_eq_true, if_false, List.count_nil] at count hv
        omega }

theorem Orderly.joinedBase {a b : Nat} (h : Orderly P s) (ha : testedState (s.slot a).state = true)
    (hb : testedState (s.slot b).state = true) (hab : a ≠ b) :
    Remade P a (earlierOf s.clock (s.slot a).authorized (s.slot b).authorized) (s.joinedBase a b) := by
  have lowered := (h.merging ha hb hab).lowerAll
  unfold Station.joinedBase Station.joinedBefore
  generalize ((s.slot b).closedBy.filter (s.slot a).closedBy.contains).foldl Station.lowerHold
    (s.modSlot a (s.joinedSlot a b)) = x at lowered ⊢
  have renamed := lowered.works ((Works.refl x).renameStrokes a b) (by rw [slot_of_im (renameStrokes_im x a b)])
  generalize x.renameStrokes a b = y at renamed ⊢
  have dropped : Merging P a b _ [] (y.dropOwnership b) := renamed.works ((Works.refl y).dropOwnership b) rfl
  exact dropped.freed.works ((Works.refl _).post _)

/-! The new state. -/

/-- The survivor gets its state. -/
theorem Remade.modSlot {a : Nat} {o : Option Nat} (h : Remade P a o s) (f : Slot → Slot) (ha : (f (s.slot a)).Agrees)
    (hf : (f (s.slot a)).state ≠ .free) (hc : (f (s.slot a)).closedBy = (s.slot a).closedBy) :
    Orderly P (s.modSlot a f) := by
  have e (j : Nat) : (s.modSlot a f).slot j = if j = a then f (s.slot a) else s.slot j := slot_modSlot h.canonical a j f
  refine ⟨canonical_modSlot a f h.canonical, ?_, fun p v => ?_⟩
  · exact
      { agrees := fun j => by
          rw [e]; split
          · exact ha
          · rename_i hj; exact h.others j hj
        beyond := fun j hj => by rw [e, if_neg (by have := h.lt; omega)]; exact h.beyond j hj
        loading := fun l => absurd l h.awake
        free := fun j => by
          rw [e]
          split
          · rename_i hj
            subst hj
            exact ⟨fun hm => absurd ((h.free j).mp hm).2 h.used, fun hm => absurd hm.2 hf⟩
          · exact h.free j
        once := h.freeOnce }
  · refine (h.holds p v).trans (held_of_slots (t := s) (u := s.modSlot a f) (fun j => ?_) v).symm
    rw [e]
    split
    · rename_i hj; rw [hj, hc]
    · rfl

theorem Works.joinedTakes (a : Nat) (h : Works b s t) : Works b s (t.joinedTakes a) := by
  have takes (u : Station) (e : Entry) :
      Works b u (if waits e then u.abandonExercises (u.zoneOfValve e.valve) else u) :=
    Works.ite ((Works.refl u).abandonExercises _) (.refl u)
  exact Works.foldl _ _ takes h

theorem Orderly.joinSlots {a b : Nat} (h : Orderly P s) (ha : testedState (s.slot a).state = true)
    (hb : testedState (s.slot b).state = true) (hab : a ≠ b) : Orderly P (s.joinSlots a b).1 := by
  have base := h.joinedBase ha hb hab
  have auth := base.authorized
  rw [joinSlots_eq]
  generalize s.joinedBase a b = x at base auth ⊢
  rw [← auth]
  have closing (authorized : (x.slot a).authorized.isSome = true) :
      Orderly P (x.modSlot a fun r => { r with state := .closing, replanPending := true }) :=
    base.modSlot (fun r => { r with state := .closing, replanPending := true })
      (base.loose.agrees rfl rfl rfl rfl (.inr (.inr (.inl ⟨rfl, authorized⟩)))) (by simp) rfl
  have planning (unauthorized : (x.slot a).authorized = none) :
      Orderly P (x.modSlot a fun r => { r with state := .planning, replanPending := false, overrideRequired := false }) :=
    base.modSlot (fun r => { r with state := .planning, replanPending := false, overrideRequired := false })
      (base.loose.agrees rfl rfl rfl rfl (.inr (.inr (.inr ⟨rfl, unauthorized⟩)))) (by simp) rfl
  split
  · exact (base.modSlot _ (base.loose.agrees rfl rfl rfl rfl (.inl rfl)) (by simp) rfl).post _
  · split
    · have stopped := base.works ((Works.refl x).stopEntries a false)
      have idle := working_stopEntries base.canonical a
      generalize x.stopEntries a false = y at stopped idle ⊢
      exact stopped.modSlot (fun r => { r with state := .aborted, replanPending := false }) (stopped.loose.agrees rfl rfl rfl rfl (.inr (.inl ⟨rfl, idle⟩))) (by simp) rfl
    · split
      · rename_i authorized
        exact (closing authorized).works (b := 2) ((Works.refl _).joinedTakes a)
      · rename_i unauthorized
        exact planning (by simpa using unauthorized)

/-- The slot that a round merges with is the one that the merge test finds. -/
theorem mergeSlot_of_round {f : Flight} {j : Nat} (h : s.round f = .merge j) :
    s.mergeSlot? f [] (s.regionOf f.seed) = some j := by
  unfold round roundBefore at h
  dsimp only at h
  split at h
  · cases h
  · split at h
    · rename_i i hi
      split at h
      · cases h
      · cases h
        split at hi
        · cases hi
        · exact hi
    · unfold planRound at h
      dsimp only at h
      repeat' split at h
      all_goals cases h

theorem Orderly.plannerMerges (h : Orderly P s) : Orderly P s.plannerMerges := by
  unfold Station.plannerMerges
  split
  · exact h
  · rename_i f _
    split
    · rename_i j hr
      split
      · rename_i served
        have merge := mergeSlot_of_round hr
        have found := List.find?_some merge
        simp only [Bool.and_eq_true, decide_eq_true_eq] at found
        obtain ⟨⟨⟨hne, -⟩, tested⟩, -⟩ := found
        have tested' : testedState (s.slot f.slot).state = true := by
          cases hs : (s.slot f.slot).state <;> simp [hs, servedState, testedState] at served ⊢
        have both : testedState (s.slot (min f.slot j)).state = true ∧ testedState (s.slot (max f.slot j)).state = true := by
          rcases Nat.le_total f.slot j with hle | hle
          · rw [Nat.min_eq_left hle, Nat.max_eq_right hle]; exact ⟨tested', tested⟩
          · rw [Nat.min_eq_right hle, Nat.max_eq_left hle]; exact ⟨tested, tested'⟩
        have joined := h.joinSlots both.1 both.2 (by omega)
        unfold Station.mergeWith
        dsimp only
        exact joined.planner _
      · exact h
    · exact h

end Station
end Sys2Proof.Machine
end

section
/-! The slots and the hold counts through the remaining events and requests: the load, the store, the supply warning, the
due times, the edits, and the requests on one valve, one zone or one line. -/

namespace Sys2Proof.Machine
namespace Station

variable {P : Prop} {b k : Nat} {s t : Station}

/-! The network table, storage and the lines. -/

theorem Works.network (n : Network) (h : Works b s t) (hn : netTidy t.nt → netTidy n) : Works b s { t with nt := n } :=
  h.same fun c => (Frame.edit n (.refl t) hn).safe.canonical c

theorem Works.storage (x : Storage) (h : Works b s t) (hl : x.station = .loading → t.ss.station = .loading) :
    Works b s { t with ss := x } :=
  h.trans fun c _ => ⟨c, ⟨fun _ => .refl _, fun _ => rfl, rfl, hl⟩⟩

@[simp] theorem Works.startLines (h : Works b s t) : Works b s t.startLines := by
  refine h.same (fun c => (Frame.startLines (.refl (b := 0) t)).safe.canonical c) ?_ ?_ (fun _ _ => ?_) ?_
  all_goals rw [startLines_eq]
  rfl

/-- The settle wait is over (R184). -/
def settled (s : Station) : Station := ({ s with ss := { s.ss with settling := false } } : Station).startLines

theorem settleWaitEnds_eq (s : Station) : s.settleWaitEnds = if s.ss.settling then (s.advanceTo 20).settled else s := rfl

theorem Works.settled (h : Works b s t) : Works b s t.settled := Works.startLines (h.storage _ id)

@[simp] theorem Works.settleWaitEnds (h : Works b s t) : Works b s t.settleWaitEnds := by
  rw [settleWaitEnds_eq]
  exact Works.ite (h.advanceTo 20).settled h

@[simp] theorem Works.storeFails (c : Cause) (h : Works b s t) : Works b s (t.storeFails c) :=
  Works.post _ (Works.storage _ h id)

@[simp] theorem Works.eraseDone (e : Bool) (h : Works b s t) : Works b s (t.eraseDone e) := by
  unfold Station.eraseDone
  split
  · exact Works.ite h (Works.ite (h.storeFails _) (h.storage _ id))
  · exact h

@[simp] theorem Works.writeDone (e : Bool) (h : Works b s t) : Works b s (t.writeDone e) := by
  unfold Station.writeDone
  split
  · exact Works.ite h (Works.ite (h.storeFails _) (h.storage _ id))
  · exact h

@[simp] theorem Works.verifyDone (e : Bool) (h : Works b s t) : Works b s (t.verifyDone e) := by
  unfold Station.verifyDone
  split
  · refine Works.ite h (Works.ite (h.storeFails _) (Works.post _ (h.storage _ fun l => ?_)))
    dsimp only at l
    split at l
    · cases l
    · exact l
  · exact h

@[simp] theorem Works.flashTimeout (h : Works b s t) : Works b s t.flashTimeout := by
  unfold Station.flashTimeout
  repeat' split
  all_goals simp [h]

@[simp] theorem Works.commitTable (h : Works b s t) : Works b s t.commitTable.2.2 := by
  unfold Station.commitTable
  split
  · exact h
  · split
    · exact h
    · split
      · exact h
      · exact h.storage _ id

/-! The supply warning and the due times. -/

@[simp] theorem Works.warningQualifies (h : Works 2 s t) : Works 2 s t.warningQualifies := by
  unfold Station.warningQualifies
  split
  · exact h
  · have warned : Works 2 s { t with supplyWarning := true } := h.same id
    refine Works.addCause _ _ (Works.foldl _ _ (fun u v => (Works.refl u).supplyHalt v) ?_)
    exact Works.modLine _ _ (Works.modLine _ _ (Works.post _ warned) fun _ => rfl) fun _ => rfl

@[simp] theorem Works.warningClears (h : Works 2 s t) : Works 2 s t.warningClears := by
  unfold Station.warningClears
  split
  · have cleared : Works 2 s { t with supplyWarning := false } := h.same id
    exact Works.endCause _ _ (Works.post _ cleared)
  · exact h

@[simp] theorem Works.reachDue (d : Option Nat) (h : Works b s t) : Works b s (t.reachDue d) := by
  unfold Station.reachDue
  split
  · exact h.advanceTo _
  · exact h

@[simp] theorem Works.timesOut (v : Nat) (h : Works b s t) : Works b s (t.timesOut v) := by
  unfold Station.timesOut
  split
  · split
    · exact Works.decideHalt _ _ (h.advanceTo _) (by simp)
    · exact h
  · exact h

@[simp] theorem Works.settles (z : Nat) (h : Works 2 s t) : Works 2 s (t.settles z) := by
  unfold Station.settles
  split
  · exact Works.leaveHold _ _ (h.advanceTo _)
  · exact h

/-! Edits that leave the hold counts. -/

@[simp] theorem Works.sampleByZone (n : Nat) (h : Works b s t) : Works b s (t.sampleByZone n) := by
  unfold Station.sampleByZone
  split
  · exact h
  · exact h.modNode _ _

@[simp] theorem Works.setKind (n : Node) (x : NodeKind) (h : Works b s t) : Works b s (t.setKind n x) :=
  Works.ite h ((h.dropQueued n).modNode _ _)

@[simp] theorem Works.remap (old new : Option Node) (o : Occupant) (x : NodeKind) (h : Works b s t) :
    Works b s (t.remap old new o x) := by
  have dropped (u : Station) (hu : Works b s u) (n : Node) :
      Works b s { u with nt := { u.nt with nodeMap := u.nt.nodeMap.drop n.key } } :=
    hu.network _ fun ⟨n1, n2, n3, n4, n5⟩ => ⟨n1, n2, n3, n4, Table.wf_drop _ _ n5⟩
  have put (u : Station) (hu : Works b s u) (n : Node) :
      Works b s { u with nt := { u.nt with nodeMap := u.nt.nodeMap.put n.key o } } :=
    hu.network _ fun ⟨n1, n2, n3, n4, n5⟩ => ⟨n1, n2, n3, n4, Table.wf_put _ _ _ n5⟩
  unfold Station.remap
  split
  · exact h
  · cases old with
    | none =>
      cases new with
      | none => exact h
      | some m => exact (put _ h m).setKind m x
    | some n =>
      cases new with
      | none => exact (dropped _ h n).setKind n _
      | some m => exact (put _ ((dropped _ h n).setKind n _) m).setKind m x

@[simp] theorem Works.putSegment (n z c p q : Nat) (x : List Byte) (h : Works b s t) :
    Works b s (t.putSegment n z c p q x).2.2 := by
  simp only [Station.putSegment]
  have put (y : Segment) : Works b s { t with nt :=
      { t.nt with segments := t.nt.segments.put n y, sourceCount := countSources (t.nt.segments.put n y) } } :=
    h.network _ fun ⟨a, b⟩ => ⟨Table.wf_put _ _ _ a, b⟩
  repeat' split
  all_goals simp (maxDischargeDepth := 99) [h, put, refuse, editTaken]

@[simp] theorem Works.deleteSegment (n : Nat) (h : Works b s t) : Works b s (t.deleteSegment n).2.2 := by
  simp only [Station.deleteSegment]
  have dropped : Works b s { t with nt :=
      { t.nt with segments := t.nt.segments.drop n, sourceCount := countSources (t.nt.segments.drop n) } } :=
    h.network _ fun ⟨a, b⟩ => ⟨Table.wf_drop _ _ a, b⟩
  repeat' split
  all_goals simp (maxDischargeDepth := 99) [h, dropped, refuse, editTaken]

@[simp] theorem Works.putSensor (n l a g : Nat) (h : Works b s t) : Works b s (t.putSensor n l a g).2.2 := by
  simp only [Station.putSensor]
  have put (y : Sensor) : Works b s { t with nt := { t.nt with sensors := t.nt.sensors.put n y } } :=
    h.network _ fun ⟨n1, n2, n3, n4, n5⟩ => ⟨n1, n2, n3, Table.wf_put _ _ _ n4, n5⟩
  repeat' split
  all_goals simp (maxDischargeDepth := 99) [h, put, refuse, editTaken]

@[simp] theorem Works.deleteSensor (n : Nat) (h : Works b s t) : Works b s (t.deleteSensor n).2.2 := by
  simp only [Station.deleteSensor]
  have dropped : Works b s { t with nt := { t.nt with sensors := t.nt.sensors.drop n } } :=
    h.network _ fun ⟨n1, n2, n3, n4, n5⟩ => ⟨n1, n2, n3, Table.wf_drop _ _ n4, n5⟩
  repeat' split
  all_goals simp (maxDischargeDepth := 99) [h, dropped, refuse, editTaken]

@[simp] theorem Works.putZone (f : ZoneFields) (h : Works 2 s t) : Works 2 s (t.putZone f).2.2 := by
  simp only [Station.putZone]
  have put (y : ZoneRec) : Works 2 s { t with nt := { t.nt with zones := t.nt.zones.writeD {} f.zone y } } :=
    h.network _ fun ⟨n1, n2, n3, n4⟩ => ⟨n1, n2, Table.tidy_writeD _ _ _ _ n3, n4⟩
  split
  · exact h
  · split
    · exact h
    · split <;> simp (maxDischargeDepth := 99) [put, editTaken]

@[simp] theorem Works.setTiming (p l e w : Nat) (h : Works b s t) : Works b s (t.setTiming p l e w).2.2 := by
  simp only [Station.setTiming]
  split
  · exact h
  · exact h.network _ id

@[simp] theorem Works.setFlow (v q : Nat) (h : Works 2 s t) : Works 2 s (t.setFlow v q).2.2 := by
  simp only [Station.setFlow]
  repeat' split
  all_goals simp (maxDischargeDepth := 99) [h, refuse, editTaken]

@[simp] theorem Works.putHealth (v x : Nat) (h : Works b s t) : Works b s (t.putHealth v x).2.2 := by
  simp only [Station.putHealth]
  repeat' split
  all_goals simp (maxDischargeDepth := 99) [h, refuse, editTaken]

/-! Requests on a valve, a zone or a line. -/

@[simp] theorem Works.crewClosed (v : Nat) (h : Works 2 s t) : Works 2 s (t.crewClosed v) := by
  refine Works.foldl _ _ (fun u k => ?_) h
  split
  · exact Works.ite (((Works.refl u).settleWork k v .closed rfl).testIsolated k) (.refl u)
  · exact .refl u

@[simp] theorem Works.crewOpened (v : Nat) (h : Works b s t) : Works b s (t.crewOpened v) := by
  refine Works.foldl _ _ (fun u k => ?_) h
  split
  · exact Works.ite (((Works.refl u).settleReopen k v .opened rfl).testDone k) (.refl u)
  · exact .refl u

@[simp] theorem Works.stuckClose (v k : Nat) (h : Works b s t) : Works b s (stuckClose v t k) := by
  unfold Station.stuckClose
  split
  · exact Works.ite (h.recordFailure k v _) h
  · exact h

@[simp] theorem Works.stuckReopen (v k : Nat) (h : Works b s t) : Works b s (stuckReopen v t k) := by
  unfold Station.stuckReopen
  split
  · exact Works.ite (Works.testDone k (Works.post _ (h.settleReopen k v .failed rfl))) h
  · exact h

@[simp] theorem Works.crewStuck (v : Nat) (h : Works b s t) : Works b s (t.crewStuck v) :=
  Works.foldl _ _ (fun u k => ((Works.refl u).stuckClose v k).stuckReopen v k) h

@[simp] theorem Works.confirmValve (v r : Nat) (h : Works 2 s t) : Works 2 s (t.confirmValve v r).2.2 := by
  simp only [Station.confirmValve]
  repeat' split
  all_goals simp (maxDischargeDepth := 99) [h, refuse]

@[simp] theorem Works.moveValve (v g d : Nat) (h : Works 2 s t) : Works 2 s (t.moveValve v g d).2.2 := by
  simp only [Station.moveValve]
  repeat' split
  all_goals simp (maxDischargeDepth := 99) [h, refuse]

@[simp] theorem Works.stopValve (v : Nat) (h : Works 2 s t) : Works 2 s (t.stopValve v) := by
  unfold Station.stopValve
  have halted : Works 2 s (t.forEntries fun s k ro w => if w = v then s.hostHaltEntry k ro w else s) :=
    Works.forEntries _ (fun u k ro w => Works.ite ((Works.refl u).hostHaltEntry k ro w) (.refl u)) h
  dsimp only
  refine Works.decideHalt _ _ (Works.endIdleExercise _ _ ?_) (by simp)
  split
  · exact Works.ite (halted.dropMove v) halted
  · exact halted

@[simp] theorem Works.haltValve (v m : Nat) (h : Works 2 s t) : Works 2 s (t.haltValve v m).2.2 := by
  simp only [Station.haltValve]
  repeat' split
  all_goals simp (maxDischargeDepth := 99) [h, refuse]

@[simp] theorem Works.resumeZone (z : Nat) (h : Works 2 s t) : Works 2 s (t.resumeZone z).2.2 := by
  simp only [Station.resumeZone]
  repeat' split
  all_goals simp (maxDischargeDepth := 99) [h, refuse]

@[simp] theorem Works.fieldClear (l : Nat) (h : Works b s t) : Works b s (t.fieldClear l).2.2 := by
  simp only [Station.fieldClear]
  repeat' split
  all_goals simp (maxDischargeDepth := 99) [h, refuse]

@[simp] theorem Works.exerciseValve (v g : Nat) (h : Works 2 s t) : Works 2 s (t.exerciseValve v g).2.2 := by
  simp only [Station.exerciseValve]
  repeat' split
  all_goals simp (maxDischargeDepth := 99) [h, refuse]

/-! What writes a Valve State record anew: a load, and an edit of the topology, while every slot is FREE. -/

/-- The slots are in order and every one of them is FREE. -/
structure Idle (P : Prop) (s : Station) : Prop extends Orderly P s where
  blank : ∀ k, s.slot k = {}

namespace Idle

theorem works (h : Idle P s) (w : Works b s t) : Idle P t := by
  obtain ⟨c, g⟩ := w h.canonical fun _ => h.slots
  exact ⟨⟨c, g.slotsOk h.slots, fun p => g.holdsCounted (h.holds p)⟩, fun k => (g.slots k).unused (h.blank k)⟩

/-- A record written anew holds nothing. -/
theorem modVs (h : Idle P s) (v : Nat) (f : VsRec → VsRec) (hf : ∀ d, (f d).holds = 0) : Idle P (s.modVs v f) := by
  have none (w : Nat) : s.held w = 0 := by simp [held, h.blank]
  have o := h.slots
  refine ⟨⟨canonical_modVs v f h.canonical, ⟨o.agrees, o.beyond, o.loading, o.free, o.once⟩, fun p => ?_⟩, h.blank⟩
  rw [holdsCounted_iff]
  intro w
  show ((s.modVs v f).vsOf w).holds = s.held w
  have hw : (s.vsOf w).holds = s.held w := h.holds p w
  rw [vsOf_modVs h.canonical]
  split
  · rw [hf, none]
  · exact hw

theorem foldl {α : Type} (xs : List α) (f : Station → α → Station)
    (hf : ∀ (u : Station) (a : α), Idle P u → Idle P (f u a)) (h : Idle P s) : Idle P (xs.foldl f s) := by
  induction xs generalizing s with
  | nil => exact h
  | cons a xs ih => exact ih (hf s a h)

end Idle

/-- With every slot FREE nothing is held. -/
theorem Orderly.idle (h : Orderly P s) (hf : s.allFree = true) : Idle P s := by
  refine ⟨h, fun k => ?_⟩
  by_cases hk : k < 4
  · simp only [allFree, slotNumbers, List.all_cons, List.all_nil, Bool.and_true, Bool.and_eq_true, decide_eq_true_eq] at hf
    obtain ⟨h0, h1, h2, h3⟩ := hf
    refine (h.slots.agrees k).free ?_
    obtain rfl | rfl | rfl | rfl : k = 0 ∨ k = 1 ∨ k = 2 ∨ k = 3 := by omega
    all_goals assumption
  · exact h.slots.beyond k (by omega)

theorem atNormal_holds (r : Valve) (d : VsRec) : (atNormal r d).holds = d.holds := by
  unfold atNormal
  split <;> rfl

theorem Idle.valveStateOnEdit (h : Idle P s) (v : Nat) (old : Option Valve) (new : Valve) :
    Idle P (s.valveStateOnEdit v old new) := by
  unfold Station.valveStateOnEdit
  cases old with
  | none =>
    refine (h.modVs v _ fun d => ?_).works (b := 0) ((Works.refl _).deriveClass v)
    split
    · exact atNormal_holds new {}
    · rfl
  | some o =>
    refine h.works (b := 0) (Works.ite ((Works.refl s).refreshClass v) (Works.reposition _ _ ((Works.refl s).modValve v _) fun d => ?_))
    split
    · exact (atNormal_holds _ _).trans rfl
    · rfl

theorem Orderly.storeValve (h : Orderly P s) (f : ValveFields) (n : Normal) (x : ValveKind) (p : Option Node)
    (hf : valveTopology f n x p (s.valve? f.valve) = true → s.allFree = true) : Orderly P (s.storeValve f n x p).2.2 := by
  unfold Station.storeValve
  dsimp only
  generalize (valveRecord f n x p (s.valve? f.valve)).1 = new
  have placed : Works 2 s (({ s with nt := { s.nt with valves := s.nt.valves.put f.valve new } } : Station).remap
      ((s.valve? f.valve).bind (·.node)) p (.valve f.valve) .actuator) :=
    Works.remap _ _ _ _ ((Works.refl s).network _ fun ⟨n1, n2, n3⟩ => ⟨n1, Table.wf_put _ _ _ n2, n3⟩)
  have settled : Orderly P (if valveTopology f n x p (s.valve? f.valve) = true
      then (({ s with nt := { s.nt with valves := s.nt.valves.put f.valve new } } : Station).remap
        ((s.valve? f.valve).bind (·.node)) p (.valve f.valve) .actuator).valveStateOnEdit f.valve (s.valve? f.valve) new
      else ({ s with nt := { s.nt with valves := s.nt.valves.put f.valve new } } : Station).remap
        ((s.valve? f.valve).bind (·.node)) p (.valve f.valve) .actuator) := by
    split
    · rename_i topology
      exact (((h.idle (hf topology)).works placed).valveStateOnEdit _ _ _).toOrderly
    · exact h.works placed
  unfold editTaken
  dsimp only
  split
  · exact settled.works ((Works.refl _).markStale.retimeValve _)
  · exact settled

theorem Orderly.putValve (h : Orderly P s) (f : ValveFields) : Orderly P (s.putValve f).2.2 := by
  have stored (n : Normal) (x : ValveKind) (p : Option Node) : Orderly P
      (if (valveTopology f n x p (s.valve? f.valve) && !s.allFree) = true then refuse .incidentActive s
        else if (valveTopology f n x p (s.valve? f.valve) && s.motionWork f.valve) = true then refuse .wrongState s
        else if s.badValve f p = true then refuse .badTopology s
        else s.storeValve f n x p).2.2 := by
    split
    · exact h
    · rename_i active
      split
      · exact h
      · split
        · exact h
        · exact h.storeValve _ _ _ _ fun topology => by simpa [topology] using active
  unfold Station.putValve
  split
  · exact h
  · split
    · dsimp only
      split
      · exact h
      · exact stored _ _ _
    · exact h

theorem Orderly.deleteValve (h : Orderly P s) (v : Nat) : Orderly P (s.deleteValve v).2.2 := by
  unfold Station.deleteValve
  split
  · exact h
  · split
    · exact h
    · split
      · exact h
      · split
        · exact h
        · rename_i r _ free
          split
          · exact h
          · have gone : Works 2 s (({ s with nt := { s.nt with valves := s.nt.valves.drop v } } : Station).remap r.node none
                (.valve v) .none) :=
              Works.remap _ _ _ _ ((Works.refl s).network _ fun ⟨n1, n2, n3⟩ => ⟨n1, Table.wf_drop _ _ n2, n3⟩)
            exact (((h.idle (by simpa using free)).works gone).modVs v (fun _ => {}) fun _ => rfl).toOrderly

/-! The load. -/

/-- A station in LOADING holds nothing; the end of the load leaves it so. -/
theorem Orderly.awakened (h : Orderly P s) (hl : s.ss.station = .loading) (n : Network) (hn : netTidy n) (x : StationState)
    (hx : x ≠ .loading) : Idle P { s with nt := n, ss := { s.ss with station := x } } := by
  have blank := h.slots.loading hl
  have named : Works 2 s { s with nt := n } := (Works.refl s).network n fun _ => hn
  have idle : Idle P { s with nt := n } := Idle.works ⟨h, blank⟩ named
  exact idle.works (b := 2) ((Works.refl _).storage _ fun e => absurd e hx)

theorem Orderly.loaded (h : Orderly P s) (hl : s.ss.station = .loading) (i : Image) : Orderly P (s.loaded i) := by
  have ready : Idle P { s with nt := networkOf i, ss := { s.ss with station := .ready } } :=
    h.awakened hl _ (netTidy_networkOf i) _ (by simp)
  unfold Station.loaded
  refine Idle.toOrderly (Idle.foldl _ _ (fun u p hu => hu.works ((Works.refl (b := 2) u).deriveClass p.1)) ?_)
  refine Idle.foldl _ _ (fun u p hu => hu.works ((Works.refl (b := 2) u).modNode p.2.node _)) ?_
  refine Idle.foldl _ _ (fun u p hu => ?_) ready
  have written : Idle P (u.modVs p.1 fun _ => if p.2.kind = .crew then atNormal p.2 {} else {}) := by
    refine hu.modVs p.1 _ fun _ => ?_
    split
    · exact atNormal_holds p.2 {}
    · rfl
  dsimp only
  split
  · exact written.works ((Works.refl (b := 2) _).modNode _ _)
  · exact written

theorem Orderly.loadingEnds (h : Orderly P s) (x : Bool) : Orderly P (s.loadingEnds x) := by
  unfold Station.loadingEnds
  split
  · exact h
  · rename_i hl
    have hl : s.ss.station = .loading := by simpa using hl
    refine Orderly.works (b := 2) ?_ (Works.refl _).startLines
    split
    · exact h.loaded hl _
    · exact (h.awakened hl {} ⟨rfl, rfl, rfl, rfl, rfl⟩ .blank (by simp)).toOrderly.post _

/-! Every step. -/

theorem Orderly.decideRequest (h : Orderly P s) (r : Request) : Orderly P (Machine.decideRequest s r).2.2 := by
  cases r
  case putValve f => exact h.putValve f
  case deleteValve v => exact h.deleteValve v
  case openIncident n => exact h.openIncident n
  case authorize k o => exact h.authorize k o
  case abort k => exact h.abort k
  case release k => exact h.release k
  case closeIncident k => exact h.closeIncident k
  all_goals exact h.works (b := 2) (by simp [Machine.decideRequest])

theorem invariant_orderly (P : Prop) : Invariant fun s => Orderly P s where
  reset s := ⟨canonical_atReset s, slotsOk_atReset s, fun _ => holdsCounted_atReset s⟩
  taken s h := h.works (b := 2) ((Works.refl s).same id)
  tick s h := h.works (b := 2) ((Works.refl s).clock _)
  request s r _ h := h.decideRequest r
  event f hf s h := by
    cases hf
    case loadingEnds x => exact h.loadingEnds x
    case planExpires k => exact h.planExpires k
    case plannerMerges => exact h.plannerMerges.decideAll
    case computationEnds => exact h.computationEnds.decideAll
    all_goals exact h.works (b := 2) (by simp)

end Station

/-- Settles O57. -/
theorem everyStepKeepsTheSlots : Obligations.EveryStepKeepsTheSlots := by
  unfold Obligations.EveryStepKeepsTheSlots
  intro s t c o next
  exact ((Station.invariant_orderly False).step next ⟨c, o, False.elim⟩).slots

/-- Settles O58. -/
theorem everyStepKeepsTheHoldCounts : Obligations.EveryStepKeepsTheHoldCounts := by
  unfold Obligations.EveryStepKeepsTheHoldCounts
  intro s t c o holds next
  exact ((Station.invariant_orderly True).step next ⟨c, o, fun _ => holds⟩).holds trivial

end Sys2Proof.Machine
end

section
/-! The return of the surge factors (R145): a decision of the arbiters ends with it, and what is not followed by one leaves
the zones and every waiting entry. -/

namespace Sys2Proof.Machine.Station

variable {b k : Nat} {s t u : Station}

theorem Works.canon (w : Works 0 s t) (c : s.canonical = true) : t.canonical = true := (w c fun hb => nomatch hb).1

theorem Frame.canon (h : Frame 0 s t) (c : s.canonical = true) : t.canonical = true := h.safe.canonical c

/-- An entry of the slot waits in the zone. -/
def slotWaits (s : Station) (z : Nat) (r : Slot) : Bool := r.work.any (s.waitsIn z) || r.reopen.any (s.waitsIn z)

theorem anyWaitingEntry_eq (s : Station) (z : Nat) :
    s.anyWaitingEntry z = slotNumbers.any fun k => s.slotWaits z (s.slot k) := rfl

/-- No entry waits where no slot has one in progress. -/
theorem slotWaits_of_idle {r : Slot} {z : Nat} (hw : r.work.any inProgress = false) (hr : r.reopen.any inProgress = false) :
    s.slotWaits z r = false := by
  have none (es : List Entry) (h : es.any inProgress = false) : es.any (s.waitsIn z) = false := by
    rw [List.any_eq_false] at h ⊢
    intro e he
    have := h e he
    rcases hs : e.state <;> simp [inProgress, waitsIn, hs] at this ⊢
  simp [slotWaits, none _ hw, none _ hr]

/-- The zones' watch stands and no entry stops waiting. -/
def Awaits (s t : Station) : Prop :=
  s.canonical = true → t.canonical = true ∧ t.pw.zones = s.pw.zones ∧
    ∀ z, s.anyWaitingEntry z = true → t.anyWaitingEntry z = true

theorem Awaits.returned (h : Awaits s t) (c : s.canonical = true) (f : s.FactorsReturned) : t.FactorsReturned := by
  obtain ⟨-, zones, waits⟩ := h c
  intro z hz quiet none
  have e : t.zoneWatch z = s.zoneWatch z := by simp only [zoneWatch, zones]
  rw [e] at quiet ⊢
  refine f z hz quiet ?_
  by_contra waiting
  rw [Bool.not_eq_false] at waiting
  rw [waits z waiting] at none
  cases none

/-- Where no entry waited the zones' watch alone decides. -/
theorem FactorsReturned.of_blank (f : s.FactorsReturned) (hs : ∀ k, s.slot k = {}) (hz : t.pw.zones = s.pw.zones) :
    t.FactorsReturned := by
  intro z lt quiet _
  have e : t.zoneWatch z = s.zoneWatch z := by simp only [zoneWatch, hz]
  rw [e] at quiet ⊢
  refine f z lt quiet ?_
  simp [anyWaitingEntry_eq, hs, slotWaits]

/-- A decision of the arbiters ends with the return of the factors. -/
theorem factorsReturned_decideAll (c : s.canonical = true) : s.decideAll.FactorsReturned := by
  have decided : Frame 0 s (zoneNumbers.foldl (fun s z => Station.decideZone (s.candidates z).length s z) s) :=
    Frame.foldl _ _ (fun u z => Frame.decideZone _ z (.refl u)) (.refl s)
  have c1 := decided.safe.canonical c
  unfold Station.decideAll
  generalize zoneNumbers.foldl (fun s z => Station.decideZone (s.candidates z).length s z) s = x at c1 ⊢
  have wf : Table.wf x.pw.zones = true := by
    rw [canonical_iff] at c1
    simp only [Table.tidy, Bool.and_eq_true] at c1
    tauto
  obtain ⟨rest, zones⟩ := returnFactors_spec x wf
  intro z hz quiet none
  have waits : x.returnFactors.anyWaitingEntry z = x.anyWaitingEntry z := by
    rw [rest]
    generalize x.returnFactors.pw.zones = m
    rfl
  rw [waits] at none
  rw [zones z hz] at quiet ⊢
  exact if_pos ⟨quiet, none⟩

namespace Awaits

@[simp, refl] theorem refl (s : Station) : Awaits s s := fun c => ⟨c, rfl, fun _ => id⟩

theorem trans (h : Awaits s t) (g : Awaits t u) : Awaits s u := fun c => by
  obtain ⟨c1, z1, w1⟩ := h c
  obtain ⟨c2, z2, w2⟩ := g c1
  exact ⟨c2, z2.trans z1, fun z hz => w2 z (w1 z hz)⟩

@[simp] theorem ite {c : Prop} {_ : Decidable c} {x y : Station} (hx : Awaits s x) (hy : Awaits s y) :
    Awaits s (if c then x else y) := by
  split <;> assumption

@[simp] theorem foldl {α : Type} (xs : List α) (f : Station → α → Station)
    (hf : ∀ (u : Station) (a : α), Awaits u (f u a)) (h : Awaits s t) : Awaits s (xs.foldl f t) := by
  induction xs generalizing t with
  | nil => exact h
  | cons a xs ih => exact ih (h.trans (hf t a))

/-- What leaves the slots, the zones' watch and the zones of the valves. -/
theorem same (h : Awaits s t) (hc : t.canonical = true → u.canonical = true) (hs : u.im.slots = t.im.slots := by rfl)
    (hz : u.pw.zones = t.pw.zones := by rfl) (hv : ∀ v, u.zoneOfValve? v = t.zoneOfValve? v := by intro _; rfl) :
    Awaits s u := by
  refine h.trans fun c => ⟨hc c, hz, fun z hw => ?_⟩
  have e (j : Nat) : u.slot j = t.slot j := by simp only [slot, hs]
  have i : u.slotWaits z = t.slotWaits z := by
    have each : u.waitsIn z = t.waitsIn z := by
      funext e
      simp only [waitsIn, hv]
    funext r
    simp only [slotWaits, each]
  rw [anyWaitingEntry_eq] at hw ⊢
  simp only [e, i]
  exact hw

@[simp] theorem post (n : Notice) (h : Awaits s t) : Awaits s (t.post n) := h.same id

/-- A slot whose entries that wait still wait. -/
theorem modSlot (k : Nat) (f : Slot → Slot) (h : Awaits s t)
    (hk : t.canonical = true → ∀ z, t.slotWaits z (t.slot k) = true → t.slotWaits z (f (t.slot k)) = true) :
    Awaits s (t.modSlot k f) := by
  refine h.trans fun c => ⟨canonical_modSlot k f c, rfl, fun z hw => ?_⟩
  rw [anyWaitingEntry_eq, List.any_eq_true] at hw ⊢
  obtain ⟨j, hj, hw⟩ := hw
  refine ⟨j, hj, ?_⟩
  show t.slotWaits z ((t.modSlot k f).slot j) = true
  rw [slot_modSlot c]
  split
  · rename_i e; exact hk c z (e ▸ hw)
  · exact hw

theorem modIn (k : Nat) (ro : Bool) (v : Nat) (f : Entry → Entry) (h : Awaits s t)
    (hf : ∀ e, (f e).valve = e.valve ∧ (f e).state = e.state) : Awaits s (t.modIn k ro v f) := by
  have same (z : Nat) (es : List Entry) : (modEntry es v f).any (t.waitsIn z) = es.any (t.waitsIn z) := by
    simp only [modEntry, List.any_map]
    congr 1
    funext e
    simp only [Function.comp]
    split
    · simp only [waitsIn, hf]
    · rfl
  unfold Station.modIn
  cases ro with
  | true => exact h.modSlot k (fun r => { r with reopen := modEntry r.reopen v f }) fun _ z hz =>
      (congrArg₂ or rfl (same z _)).trans hz
  | false => exact h.modSlot k (fun r => { r with work := modEntry r.work v f }) fun _ z hz =>
      (congrArg₂ or (same z _) rfl).trans hz

@[simp] theorem setTime (k : Nat) (ro : Bool) (v : Nat) (p : Profile) (h : Awaits s t) : Awaits s (t.setTime k ro v p) := by
  unfold Station.setTime
  split
  · exact h
  · have timed := h.modIn k ro v (fun x => { x with tcmd := p.tcmd, limited := p.limited }) fun _ => ⟨rfl, rfl⟩
    exact ite (timed.post _) timed

@[simp] theorem retimeEntry (k : Nat) (ro : Bool) (v : Nat) (h : Awaits s t) : Awaits s (t.retimeEntry false k ro v) := by
  unfold Station.retimeEntry
  split
  · refine ite ?_ h
    dsimp only
    rw [if_neg (by simp)]
    exact h.setTime k ro v _
  · exact h

@[simp] theorem retimeValve (v : Nat) (h : Awaits s t) : Awaits s (t.retimeValve v) := by
  have timed (k : Nat) (ro : Bool) (u : Station) (w : Nat) :
      Awaits u (if w = v then u.retimeEntry false k ro w else u) := ite ((refl u).retimeEntry k ro w) (refl u)
  exact foldl _ _ (fun u k => foldl _ _ (fun u e => timed k true u e.valve)
    (foldl _ _ (fun u e => timed k false u e.valve) (refl u))) h

@[simp] theorem markStale (h : Awaits s t) : Awaits s t.markStale := h.same (Works.refl t).markStale.canon

@[simp] theorem trigger (k : Nat) (h : Awaits s t) : Awaits s (t.trigger k) := by
  refine h.same ((Works.refl t).trigger k).canon (by rw [trigger_im]) ?_ fun v => ?_
  all_goals
    unfold Station.trigger Station.enqueue Station.startNext
    dsimp only
    repeat' split
    all_goals rfl

theorem modLine (l : Line) (f : FieldLine → FieldLine) (h : Awaits s t) (hc : t.canonical = true → (t.modLine l f).canonical = true) :
    Awaits s (t.modLine l f) := by
  cases l <;> exact h.same hc

@[simp] theorem modNode (n : Node) (f : NodeEntry → NodeEntry) (h : Awaits s t) : Awaits s (t.modNode n f) :=
  h.modLine _ _ ((Works.refl t).modNode n f).canon

@[simp] theorem sampleByZone (n : Nat) (h : Awaits s t) : Awaits s (t.sampleByZone n) := by
  unfold Station.sampleByZone
  split
  · exact h
  · exact h.modNode _ _

@[simp] theorem setKind (n : Node) (x : NodeKind) (h : Awaits s t) : Awaits s (t.setKind n x) :=
  ite h ((h.modLine _ _ ((Works.refl t).dropQueued n).canon).modNode _ _)

theorem nodeMap (m : Table Occupant) (h : Awaits s t) (hm : Table.wf t.nt.nodeMap = true → Table.wf m = true) :
    Awaits s { t with nt := { t.nt with nodeMap := m } } :=
  h.same ((Works.refl t).network { t.nt with nodeMap := m } fun ⟨n1, n2, n3, n4, n5⟩ => ⟨n1, n2, n3, n4, hm n5⟩).canon

@[simp] theorem remap (old new : Option Node) (o : Occupant) (x : NodeKind) (h : Awaits s t) :
    Awaits s (t.remap old new o x) := by
  unfold Station.remap
  split
  · exact h
  · cases old with
    | none =>
      cases new with
      | none => exact h
      | some m => exact (h.nodeMap _ (Table.wf_put _ _ _)).setKind m x
    | some n =>
      have dropped := (h.nodeMap (t.nt.nodeMap.drop n.key) (Table.wf_drop _ _)).setKind n .none
      cases new with
      | none => exact dropped
      | some m => exact (dropped.nodeMap _ (Table.wf_put _ _ _)).setKind m x

/-- What leaves the network, the slots and the watch of the zones. -/
theorem outside (h : Awaits s t) (hc : t.canonical = true → u.canonical = true)
    (e : u = { t with
      clock := u.clock, ss := u.ss, vs := u.vs, ip := u.ip, md := u.md, lineA := u.lineA, lineB := u.lineB
      xu := u.xu, outbox := u.outbox }) : Awaits s u :=
  h.same hc (by rw [e]) (by rw [e]) fun v => by rw [e]; rfl

@[simp] theorem modVs (v : Nat) (f : VsRec → VsRec) (h : Awaits s t) : Awaits s (t.modVs v f) :=
  h.same (canonical_modVs v f)

@[simp] theorem modSensorWatch (n : Nat) (f : SensorWatch → SensorWatch) (h : Awaits s t) :
    Awaits s (t.modSensorWatch n f) :=
  h.same ((Works.refl t).modSensorWatch n f).canon

@[simp] theorem noteOpened (k : Nat) (h : Awaits s t) : Awaits s (t.noteOpened k) := by
  refine h.outside ((Works.refl t).noteOpened k).canon ?_
  unfold Station.noteOpened
  repeat' split
  all_goals rfl

theorem clock (n : Nat) (h : Awaits s t) : Awaits s { t with clock := n } := h.same id

@[simp] theorem advanceTo (d : Nat) (h : Awaits s t) : Awaits s (t.advanceTo d) := (advanceTo_eq t d).symm ▸ h.clock _

@[simp] theorem reachDue (d : Option Nat) (h : Awaits s t) : Awaits s (t.reachDue d) := by
  unfold Station.reachDue
  split
  · exact h.advanceTo _
  · exact h

@[simp] theorem startCall (l : Line) (h : Awaits s t) : Awaits s (t.startCall l) := by
  refine h.outside (Frame.startCall l (.refl t) (by decide)).canon ?_
  unfold Station.startCall
  cases l
  all_goals
    dsimp only
    repeat' split
    all_goals rfl

@[simp] theorem refreshClass (v : Nat) (h : Awaits s t) : Awaits s (t.refreshClass v) := by
  unfold Station.refreshClass
  split
  · exact h
  · exact ite h (h.modVs _ _).markStale

/-- A change of a valve record that keeps its zone. -/
theorem modValve (v : Nat) (f : Valve → Valve) (h : Awaits s t) (hf : ∀ r, (f r).zone = r.zone) :
    Awaits s (t.modValve v f) := by
  refine h.same ((Works.refl t).modValve v f).canon (by rw [modValve_im]) ?_ fun w => ?_
  · unfold Station.modValve
    split <;> rfl
  · unfold Station.zoneOfValve?
    rw [valve_modValve]
    split
    · rename_i e
      rw [e]
      cases t.valve? v <;> simp [hf]
    · rfl

@[simp] theorem setHealth (v : Nat) (x : Health) (h : Awaits s t) : Awaits s (t.setHealth v x) :=
  (h.modValve v (fun r => { r with health := x }) fun _ => rfl).refreshClass v

/-! Events that no decision of the arbiters follows. -/

theorem settled (h : Awaits s t) : Awaits s t.settled := by
  refine h.outside (Works.refl _).settled.canon ?_
  unfold Station.settled
  rw [startLines_eq]

theorem settleWaitEnds (h : Awaits s t) : Awaits s t.settleWaitEnds := by
  rw [settleWaitEnds_eq]
  exact ite (h.advanceTo 20).settled h

theorem eraseDone (e : Bool) (h : Awaits s t) : Awaits s (t.eraseDone e) := by
  refine h.outside ((Works.refl t).eraseDone e).canon ?_
  unfold Station.eraseDone Station.storeFails
  repeat' split
  all_goals rfl

theorem writeDone (e : Bool) (h : Awaits s t) : Awaits s (t.writeDone e) := by
  refine h.outside ((Works.refl t).writeDone e).canon ?_
  unfold Station.writeDone Station.storeFails
  repeat' split
  all_goals rfl

theorem verifyDone (e : Bool) (h : Awaits s t) : Awaits s (t.verifyDone e) := by
  refine h.outside ((Works.refl t).verifyDone e).canon ?_
  unfold Station.verifyDone Station.storeFails
  repeat' split
  all_goals rfl

theorem flashTimeout (h : Awaits s t) : Awaits s t.flashTimeout := by
  refine h.outside (Works.refl t).flashTimeout.canon ?_
  unfold Station.flashTimeout Station.storeFails
  repeat' split
  all_goals rfl

theorem commitTable (h : Awaits s t) : Awaits s t.commitTable.2.2 := by
  refine h.outside (Works.refl t).commitTable.canon ?_
  unfold Station.commitTable refuse
  repeat' split
  all_goals rfl

/-- The halt of a stroke in MOVING ends nothing. -/
theorem haltMoving {v : Nat} {r : Stroke} (h : Awaits s t) (e : StrokeEnd) (hr : t.stroke? v = some r)
    (hp : r.phase = .moving) : Awaits s (t.decideHalt v e) := by
  refine h.outside (Frame.decideHalt v e (.refl t)).canon ?_
  unfold Station.decideHalt Station.decideHaltWith
  rw [hr]
  dsimp only
  split
  · unfold Station.joinEnd
    split <;> rfl
  · rw [hp]
    unfold Station.queueHalt
    dsimp only
    split
    · rename_i n _
      cases n.line <;> rfl
    · rfl

theorem advanceTo_md (t : Station) (d : Nat) : (t.advanceTo d).md = t.md := by
  rw [advanceTo_eq]

theorem stroke_of_md (h : u.md = t.md) (v : Nat) : u.stroke? v = t.stroke? v := by simp only [stroke?, h]

theorem timesOut (v : Nat) (h : Awaits s t) : Awaits s (t.timesOut v) := by
  unfold Station.timesOut
  split
  · rename_i r hr
    split
    · rename_i a d hp _ _
      exact (h.advanceTo _).haltMoving _ ((stroke_of_md (advanceTo_md t _) v).trans hr) hp
    · exact h
  · exact h

theorem unplan (k : Nat) (n : Notice) (h : Awaits s t) :
    Awaits s (((t.modSlot k fun r => { r with state := .planning, deadline := none, overrideRequired := false }).trigger
      k).post n) :=
  ((h.modSlot k _ fun _ _ => id).trigger k).post _

theorem planExpires (k : Nat) (h : Awaits s t) : Awaits s (t.planExpires k) := by
  unfold Station.planExpires
  split
  · dsimp only
    exact (h.advanceTo _).unplan k _
  · exact h

end Awaits
end Sys2Proof.Machine.Station
end

section
/-! The surge factors through the requests and the load (R145). -/

namespace Sys2Proof.Machine

namespace Station

variable {s t u : Station}

/-! Requests that no decision of the arbiters follows. -/

namespace Awaits

/-- An edit of the network that keeps the zones of the valves. -/
theorem network (n : Network) (h : Awaits s t) (hn : netTidy t.nt → netTidy n) (hv : n.valves = t.nt.valves) :
    Awaits s { t with nt := n } :=
  h.same ((Works.refl t).network n hn).canon rfl rfl fun v => by simp only [zoneOfValve?, valve?, hv]

theorem putSegment (n z c p q : Nat) (x : List Byte) (h : Awaits s t) : Awaits s (t.putSegment n z c p q x).2.2 := by
  simp only [Station.putSegment]
  have put (y : Segment) : Awaits s { t with nt :=
      { t.nt with segments := t.nt.segments.put n y, sourceCount := countSources (t.nt.segments.put n y) } } :=
    h.network _ (fun ⟨a, b⟩ => ⟨Table.wf_put _ _ _ a, b⟩) rfl
  repeat' split
  all_goals simp (maxDischargeDepth := 99) [h, put, refuse, editTaken]

theorem deleteSegment (n : Nat) (h : Awaits s t) : Awaits s (t.deleteSegment n).2.2 := by
  simp only [Station.deleteSegment]
  have dropped : Awaits s { t with nt :=
      { t.nt with segments := t.nt.segments.drop n, sourceCount := countSources (t.nt.segments.drop n) } } :=
    h.network _ (fun ⟨a, b⟩ => ⟨Table.wf_drop _ _ a, b⟩) rfl
  repeat' split
  all_goals simp (maxDischargeDepth := 99) [h, dropped, refuse, editTaken]

theorem putSensor (n l a g : Nat) (h : Awaits s t) : Awaits s (t.putSensor n l a g).2.2 := by
  simp only [Station.putSensor]
  have put (y : Sensor) : Awaits s { t with nt := { t.nt with sensors := t.nt.sensors.put n y } } :=
    h.network _ (fun ⟨n1, n2, n3, n4, n5⟩ => ⟨n1, n2, n3, Table.wf_put _ _ _ n4, n5⟩) rfl
  repeat' split
  all_goals simp (maxDischargeDepth := 99) [h, put, refuse, editTaken]

theorem deleteSensor (n : Nat) (h : Awaits s t) : Awaits s (t.deleteSensor n).2.2 := by
  simp only [Station.deleteSensor]
  have dropped : Awaits s { t with nt := { t.nt with sensors := t.nt.sensors.drop n } } :=
    h.network _ (fun ⟨n1, n2, n3, n4, n5⟩ => ⟨n1, n2, n3, Table.wf_drop _ _ n4, n5⟩) rfl
  repeat' split
  all_goals simp (maxDischargeDepth := 99) [h, dropped, refuse, editTaken]

theorem setTiming (p l e w : Nat) (h : Awaits s t) : Awaits s (t.setTiming p l e w).2.2 := by
  simp only [Station.setTiming]
  split
  · exact h
  · exact h.network _ id rfl

theorem setFlow (v q : Nat) (h : Awaits s t) : Awaits s (t.setFlow v q).2.2 := by
  simp only [Station.setFlow]
  repeat' split
  all_goals simp (maxDischargeDepth := 99) [h, refuse, editTaken]

theorem putHealth (v x : Nat) (h : Awaits s t) : Awaits s (t.putHealth v x).2.2 := by
  simp only [Station.putHealth]
  repeat' split
  all_goals simp (maxDischargeDepth := 99) [h, refuse, editTaken]

theorem fieldClear (l : Nat) (h : Awaits s t) : Awaits s (t.fieldClear l).2.2 := by
  refine h.outside ((Works.refl t).fieldClear l).canon ?_
  simp only [Station.fieldClear]
  split
  · rfl
  · split
    · rfl
    · rename_i x _
      cases x <;> (dsimp only; split <;> rfl)

/-- A slot that opens was FREE. -/
theorem openIncident (n : Nat) (h : Awaits s t) (o : t.SlotsOk) : Awaits s (t.openIncident n).2.2 := by
  simp only [Station.openIncident]
  repeat' split
  all_goals try exact h
  rename_i k rest _ hf
  have blank : t.slot k = {} := (o.agrees k).free ((o.free k).mp (by rw [hf]; exact List.mem_cons_self)).2
  have taken : Awaits s { t with im := { t.im with freeList := rest } } := h.same id
  refine ((taken.modSlot k (fun _ => { state := .planning, burst := [n] }) fun _ z hz => ?_).trigger k).noteOpened k
  change t.slotWaits z (t.slot k) = true at hz
  rw [blank] at hz
  cases hz

/-- A slot in which no entry is in progress is freed. -/
theorem freeSlot (k : Nat) (h : Awaits s t) (hw : (t.slot k).work.any inProgress = false)
    (hr : (t.slot k).reopen.any inProgress = false) : Awaits s (t.freeSlot k) := by
  have blank : Awaits s (t.modSlot k fun _ => {}) := h.modSlot k (fun _ => {}) fun _ z hz => by
    rw [slotWaits_of_idle hw hr] at hz
    cases hz
  exact blank.same id

theorem clearOwnership (k : Nat) (h : Awaits s t) : Awaits s (t.clearOwnership k) := by
  refine h.same ((Works.refl t).clearOwnership k).canon (by rw [clearOwnership_im]; rfl) ?_ fun v => ?_
  all_goals
    rw [clearOwnership_eq]
    rfl

theorem closeIncident (k : Nat) (h : Awaits s t) (o : t.SlotsOk) : Awaits s (t.closeIncident k).2.2 := by
  obtain ⟨-, -, working, -, reopening, -, -, -⟩ := o.agrees k
  have idle (hs : (t.slot k).state = .done ∨ (t.slot k).state = .aborted) :
      (t.slot k).work.any inProgress = false ∧ (t.slot k).reopen.any inProgress = false := by
    grind
  simp only [Station.closeIncident]
  split
  · exact h
  · split
    · exact h
    · split
      · rename_i hs
        obtain ⟨hw, hr⟩ := idle (.inl hs)
        exact h.freeSlot k hw hr
      · rename_i hs
        obtain ⟨hw, hr⟩ := idle (.inr hs)
        split
        · exact (h.clearOwnership k).freeSlot k (by rwa [clearOwnership_slot]) (by rwa [clearOwnership_slot])
        · exact h
      · exact h

/-- An edit of a valve that keeps its topology. -/
theorem storeValve (f : ValveFields) (n : Normal) (x : ValveKind) (p : Option Node) (h : Awaits s t)
    (hf : valveTopology f n x p (t.valve? f.valve) = false) : Awaits s (t.storeValve f n x p).2.2 := by
  obtain ⟨old, known, zone⟩ : ∃ old, t.valve? f.valve = some old ∧ old.zone = f.zone := by
    cases hv : t.valve? f.valve with
    | none => rw [hv] at hf; cases hf
    | some old =>
      refine ⟨old, rfl, ?_⟩
      rw [hv] at hf
      simp only [valveTopology, decide_eq_false_iff_not, not_or, not_not] at hf
      exact hf.2.2.2.2.1
  have put : Awaits s { t with nt :=
      { t.nt with valves := t.nt.valves.put f.valve (valveRecord f n x p (t.valve? f.valve)).1 } } := by
    refine h.same ((Works.refl t).network
      { t.nt with valves := t.nt.valves.put f.valve (valveRecord f n x p (t.valve? f.valve)).1 }
      fun ⟨n1, n2, n3⟩ => ⟨n1, Table.wf_put _ _ _ n2, n3⟩).canon rfl rfl fun v => ?_
    simp only [zoneOfValve?, valve?]
    by_cases e : v = f.valve
    · subst e
      rw [Table.find_put_same]
      change _ = Option.map _ (t.valve? f.valve)
      rw [known, Option.map_some, Option.map_some, zone]
      rfl
    · rw [Table.find_put_other _ _ _ _ e]
  simp only [Station.storeValve, hf, editTaken]
  simp (maxDischargeDepth := 99) [put]

end Awaits

/-! Every request. -/

/-- A request changes nothing or is followed by a decision of the arbiters. -/
inductive Decided (s : Station) : Station → Prop where
  | same : Decided s s
  | after (u : Station) (h : Frame 0 s u) : Decided s u.decideAll

@[simp] theorem Decided.refl (s : Station) : Decided s s := .same

@[simp] theorem Decided.decideAll (h : Frame 0 s u) : Decided s u.decideAll := .after u h

theorem Decided.returned (h : Decided s t) (c : s.canonical = true) (f : s.FactorsReturned) : t.FactorsReturned := by
  cases h with
  | same => exact f
  | after u hu => exact factorsReturned_decideAll (hu.canon c)

theorem decided_putZone (s : Station) (f : ZoneFields) : Decided s (s.putZone f).2.2 := by
  simp only [Station.putZone]
  have put (y : ZoneRec) : Frame 0 s { s with nt := { s.nt with zones := s.nt.zones.writeD {} f.zone y } } :=
    Frame.edit _ (.refl s) fun ⟨n1, n2, n3, n4⟩ => ⟨n1, n2, Table.tidy_writeD _ _ _ _ n3, n4⟩
  split
  · exact .same
  · split
    · exact .same
    · unfold editTaken
      dsimp only
      refine Decided.decideAll ?_
      split <;> simp (maxDischargeDepth := 99) [put]

theorem decided_confirmValve (s : Station) (v r : Nat) : Decided s (s.confirmValve v r).2.2 := by
  simp only [Station.confirmValve]
  repeat' split
  all_goals simp (maxDischargeDepth := 99) [refuse]

theorem decided_moveValve (s : Station) (v g d : Nat) : Decided s (s.moveValve v g d).2.2 := by
  simp only [Station.moveValve]
  repeat' split
  all_goals simp (maxDischargeDepth := 99) [refuse]

theorem decided_haltValve (s : Station) (v m : Nat) : Decided s (s.haltValve v m).2.2 := by
  simp only [Station.haltValve]
  repeat' split
  all_goals simp (maxDischargeDepth := 99) [refuse]

theorem decided_resumeZone (s : Station) (z : Nat) : Decided s (s.resumeZone z).2.2 := by
  simp only [Station.resumeZone]
  repeat' split
  all_goals simp (maxDischargeDepth := 99) [refuse]

theorem decided_exerciseValve (s : Station) (v g : Nat) : Decided s (s.exerciseValve v g).2.2 := by
  simp only [Station.exerciseValve]
  repeat' split
  all_goals simp (maxDischargeDepth := 99) [refuse]

theorem decided_authorize (s : Station) (k o : Nat) : Decided s (s.authorize k o).2.2 := by
  simp only [Station.authorize]
  repeat' split
  all_goals simp (maxDischargeDepth := 99) [refuse]

theorem decided_abort (s : Station) (k : Nat) : Decided s (s.abort k).2.2 := by
  simp only [Station.abort]
  repeat' split
  all_goals simp (maxDischargeDepth := 99) [refuse]

theorem decided_release (s : Station) (k : Nat) : Decided s (s.release k).2.2 := by
  simp only [Station.release]
  repeat' split
  all_goals simp (maxDischargeDepth := 99) [refuse]

/-! The load and the edits of a topology, while every slot is FREE. -/

theorem FactorsReturned.idle (f : s.FactorsReturned) (h : Idle False s) (hz : t.pw.zones = s.pw.zones) :
    t.FactorsReturned := f.of_blank h.blank hz

theorem refreshClass_pw (s : Station) (v : Nat) : (s.refreshClass v).pw = s.pw := by
  unfold Station.refreshClass
  repeat' split
  all_goals rfl

theorem modValve_pw (s : Station) (v : Nat) (f : Valve → Valve) : (s.modValve v f).pw = s.pw := by
  unfold Station.modValve
  split <;> rfl

theorem watchLeft_pw (s : Station) (v : Nat) : (s.watchLeft v).pw = s.pw := by
  rw [watchLeft_inner s v]

theorem reposition_pw (s : Station) (v : Nat) (f : VsRec → VsRec) : (s.reposition v f).pw = s.pw := by
  have marked (u : Station) {c : Prop} {_ : Decidable c} : (if c then u else u.markStale).pw = u.pw := by split <;> rfl
  unfold Station.reposition
  dsimp only
  split
  · rw [watchLeft_pw, refreshClass_pw, marked, modVs_pw]
  · rw [refreshClass_pw, marked, modVs_pw]

theorem valveStateOnEdit_pw (s : Station) (v : Nat) (old : Option Valve) (new : Valve) :
    (s.valveStateOnEdit v old new).pw = s.pw := by
  unfold Station.valveStateOnEdit
  split
  · rfl
  · split
    · rw [refreshClass_pw]
    · dsimp only
      rw [reposition_pw, modValve_pw]

theorem foldl_pw {α : Type} (xs : List α) (f : Station → α → Station) (hf : ∀ u a, (f u a).pw = u.pw) (s : Station) :
    (xs.foldl f s).pw = s.pw := by
  induction xs generalizing s with
  | nil => rfl
  | cons x xs ih => exact (ih _).trans (hf s x)

theorem loaded_pw (s : Station) (i : Image) : (s.loaded i).pw = s.pw := by
  unfold Station.loaded
  dsimp only
  rw [foldl_pw i.valves (fun s p => s.deriveClass p.1) fun _ _ => rfl,
    foldl_pw i.sensors _ fun _ _ => modNode_pw _ _, foldl_pw i.valves _ fun u p => ?_]
  split
  · rw [modNode_pw]
    rfl
  · rfl

theorem loadingEnds_pw (s : Station) (x : Bool) : (s.loadingEnds x).pw = s.pw := by
  unfold Station.loadingEnds
  split
  · rfl
  · rw [startLines_eq]
    dsimp only
    split
    · exact loaded_pw s _
    · rfl

/-- What `Orderly` and the factors make together. -/
structure Returned (s : Station) : Prop extends Orderly False s where
  factors : s.FactorsReturned

namespace Returned

theorem awaits (h : Returned s) (o : Orderly False t) (w : Awaits s t) : Returned t := ⟨o, w.returned h.canonical h.factors⟩

theorem decided (h : Returned s) (o : Orderly False t) (w : Decided s t) : Returned t := ⟨o, w.returned h.canonical h.factors⟩

theorem storeValve (h : Returned s) (f : ValveFields) (n : Normal) (x : ValveKind) (p : Option Node)
    (hf : valveTopology f n x p (s.valve? f.valve) = true → s.allFree = true) :
    (s.storeValve f n x p).2.2.FactorsReturned := by
  cases topology : valveTopology f n x p (s.valve? f.valve) with
  | false => exact (Awaits.storeValve f n x p (.refl s) topology).returned h.canonical h.factors
  | true =>
    have idle := h.idle (hf topology)
    let put : Station :=
      { s with nt := { s.nt with valves := s.nt.valves.put f.valve (valveRecord f n x p (s.valve? f.valve)).1 } }
    have placed : Works 2 s put := (Works.refl s).network _ fun ⟨n1, n2, n3⟩ => ⟨n1, Table.wf_put _ _ _ n2, n3⟩
    have idle1 : Idle False put := idle.works placed
    have mapped : Awaits put (put.remap ((s.valve? f.valve).bind (·.node)) p (.valve f.valve) .actuator) :=
      (Awaits.refl put).remap _ _ _ _
    have idle2 := idle1.works ((Works.refl (b := 2) put).remap ((s.valve? f.valve).bind (·.node)) p (.valve f.valve) .actuator)
    have factors2 := mapped.returned idle1.canonical (h.factors.idle idle rfl)
    simp only [Station.storeValve, topology, editTaken, if_true]
    generalize put.remap ((s.valve? f.valve).bind (·.node)) p (.valve f.valve) .actuator = y at idle2 factors2 ⊢
    have idle3 := idle2.valveStateOnEdit f.valve (s.valve? f.valve) (valveRecord f n x p (s.valve? f.valve)).1
    have factors3 := factors2.idle idle2
      (congrArg Watch.zones (valveStateOnEdit_pw y f.valve (s.valve? f.valve) (valveRecord f n x p (s.valve? f.valve)).1))
    refine Awaits.returned ?_ idle3.canonical factors3
    exact Awaits.ite ((Awaits.refl _).markStale.retimeValve _) (.refl _)

theorem putValve (h : Returned s) (f : ValveFields) : (s.putValve f).2.2.FactorsReturned := by
  simp only [Station.putValve]
  have stored (n : Normal) (x : ValveKind) (p : Option Node)
      (active : ¬(valveTopology f n x p (s.valve? f.valve) && !s.allFree) = true) :=
    h.storeValve f n x p fun topology => by simpa [topology] using active
  repeat' split
  all_goals try exact h.factors
  all_goals
    rename_i active _ _
    exact stored _ _ _ active

theorem deleteValve (h : Returned s) (v : Nat) : (s.deleteValve v).2.2.FactorsReturned := by
  simp only [Station.deleteValve]
  repeat' split
  all_goals try exact h.factors
  rename_i r _ free _
  have idle := h.idle (by simpa using free)
  let dropped : Station := { s with nt := { s.nt with valves := s.nt.valves.drop v } }
  have idle1 : Idle False dropped :=
    idle.works (b := 2) ((Works.refl s).network _ fun ⟨n1, n2, n3⟩ => ⟨n1, Table.wf_drop _ _ n2, n3⟩)
  have gone : Awaits dropped ((dropped.remap r.node none (.valve v) .none).modVs v fun _ => {}) :=
    ((Awaits.refl dropped).remap _ _ _ _).modVs v _
  exact gone.returned idle1.canonical (h.factors.idle idle rfl)

theorem loadingEnds (h : Returned s) (x : Bool) : (s.loadingEnds x).FactorsReturned := by
  by_cases hl : s.ss.station = .loading
  · exact h.factors.of_blank (h.slots.loading hl) (congrArg Watch.zones (loadingEnds_pw s x))
  · unfold Station.loadingEnds
    rw [if_pos hl]
    exact h.factors

theorem decideRequest (h : Returned s) (r : Request) : (Machine.decideRequest s r).2.2.FactorsReturned := by
  have c := h.canonical
  have f := h.factors
  cases r
  case putValve x => exact h.putValve x
  case deleteValve v => exact h.deleteValve v
  case putSegment => exact (Awaits.putSegment _ _ _ _ _ _ (.refl s)).returned c f
  case deleteSegment => exact (Awaits.deleteSegment _ (.refl s)).returned c f
  case putSensor => exact (Awaits.putSensor _ _ _ _ (.refl s)).returned c f
  case deleteSensor => exact (Awaits.deleteSensor _ (.refl s)).returned c f
  case putZone x => exact (decided_putZone s x).returned c f
  case setTiming => exact (Awaits.setTiming _ _ _ _ (.refl s)).returned c f
  case setFlow => exact (Awaits.setFlow _ _ (.refl s)).returned c f
  case setHealth => exact (Awaits.putHealth _ _ (.refl s)).returned c f
  case confirmValve => exact (decided_confirmValve s _ _).returned c f
  case moveValve => exact (decided_moveValve s _ _ _).returned c f
  case haltValve => exact (decided_haltValve s _ _).returned c f
  case openIncident => exact (Awaits.openIncident _ (.refl s) h.slots).returned c f
  case closeIncident => exact (Awaits.closeIncident _ (.refl s) h.slots).returned c f
  case authorize => exact (decided_authorize s _ _).returned c f
  case abort => exact (decided_abort s _).returned c f
  case release => exact (decided_release s _).returned c f
  case resumeZone => exact (decided_resumeZone s _).returned c f
  case exerciseValve => exact (decided_exerciseValve s _ _).returned c f
  case fieldClear => exact (Awaits.fieldClear _ (.refl s)).returned c f
  case commitTable => exact (Awaits.refl s).commitTable.returned c f
  all_goals simpa [Machine.decideRequest] using f

theorem event (h : Returned s) {g : Station → Station} (hg : IsEvent g) : (g s).FactorsReturned := by
  have c := h.canonical
  have f := h.factors
  cases hg
  case loadingEnds x => exact h.loadingEnds x
  case settleWaitEnds => exact (Awaits.refl s).settleWaitEnds.returned c f
  case eraseDone x => exact ((Awaits.refl s).eraseDone x).returned c f
  case writeDone x => exact ((Awaits.refl s).writeDone x).returned c f
  case verifyDone x => exact ((Awaits.refl s).verifyDone x).returned c f
  case flashTimeout => exact (Awaits.refl s).flashTimeout.returned c f
  case startCall l => exact ((Awaits.refl s).startCall l).returned c f
  case detailDue n => exact ((Awaits.refl s).reachDue _).returned c f
  case sampleDue n => exact ((Awaits.refl s).reachDue _).returned c f
  case rollDue n => exact ((Awaits.refl s).reachDue _).returned c f
  case timesOut v => exact ((Awaits.refl s).timesOut v).returned c f
  case planExpires k => exact ((Awaits.refl s).planExpires k).returned c f
  all_goals exact factorsReturned_decideAll (Frame.canon (by simp) c)

end Returned

theorem invariant_returned : Invariant Returned where
  reset s := ⟨(invariant_orderly False).reset s, factorsReturned_atReset s⟩
  taken s h := ⟨(invariant_orderly False).taken s h.toOrderly, h.factors⟩
  tick s h := ⟨(invariant_orderly False).tick s h.toOrderly, h.factors⟩
  request s r hr h := ⟨(invariant_orderly False).request s r hr h.toOrderly, h.decideRequest r⟩
  event f hf s h := ⟨(invariant_orderly False).event f hf s h.toOrderly, h.event hf⟩

end Station

/-- Settles O60. -/
theorem everyStepKeepsQuietFactorsAtOne : Obligations.EveryStepKeepsQuietFactorsAtOne := by
  unfold Obligations.EveryStepKeepsQuietFactorsAtOne
  intro s t c o f next
  exact (Station.invariant_returned.step next ⟨⟨c, o, False.elim⟩, f⟩).factors

end Sys2Proof.Machine
end

section
/-! What the station's state and the ranges of the operands refuse (R11, R12, R181, R191). -/

namespace Sys2Proof.Machine

variable {s : State} {x : Station}

theorem editBar_storing (hl : x.ss.station ≠ .loading) (hs : x.ss.storing.isSome = true) : x.editBar = some .busy := by
  simp [Station.editBar, hl, hs]

theorem editBar_editable (h : x.editable) : x.editBar = none := by
  obtain ⟨hl, hs⟩ := h
  simp [Station.editBar, hl, hs]

theorem takenLoading_edit {r : Request} (h : r.isEdit = true) : takenLoading r = false := by
  cases r <;> first | rfl | cases h

theorem ofLink_edit {r : Request} (h : r.isEdit = true) : Request.ofLink r = false := by
  cases r <;> first | rfl | cases h

/-- What bars edits bars every edit, first of all. -/
theorem decideRequest_barred {r : Request} (h : r.isEdit = true) {st : Status} (hb : x.editBar = some st) :
    decideRequest x r = refuse st x := by
  cases r
  case putSegment => simp only [decideRequest, Station.putSegment, hb]
  case deleteSegment => simp only [decideRequest, Station.deleteSegment, hb]
  case putValve => simp only [decideRequest, Station.putValve, hb]
  case deleteValve => simp only [decideRequest, Station.deleteValve, hb]
  case putSensor => simp only [decideRequest, Station.putSensor, hb]
  case deleteSensor => simp only [decideRequest, Station.deleteSensor, hb]
  case putZone => simp only [decideRequest, Station.putZone, hb]
  case setTiming => simp only [decideRequest, Station.setTiming, hb]
  case setFlow => simp only [decideRequest, Station.setFlow, hb]
  case setHealth => simp only [decideRequest, Station.putHealth, hb]
  all_goals cases h

/-- The requests that need READY (R181). -/
def needsReady : Request → Bool
  | .confirmValve .. | .moveValve .. | .haltValve .. | .openIncident _ | .authorize .. | .abort _ | .release _
  | .closeIncident _ | .resumeZone _ | .fieldClear _ | .exerciseValve .. => true
  | _ => false

theorem isReady_of_ne (h : x.ss.station ≠ .ready) : x.isReady = false := by simp [Station.isReady, h]

/-- Outside READY they are refused, first of all. -/
theorem decideRequest_unready {r : Request} (h : needsReady r = true) (hx : x.ss.station ≠ .ready) :
    decideRequest x r = refuse .notReady x := by
  have hr := isReady_of_ne hx
  cases r
  case confirmValve => simp only [decideRequest, Station.confirmValve, hr, if_true]
  case moveValve => simp only [decideRequest, Station.moveValve, hr, if_true]
  case haltValve => simp only [decideRequest, Station.haltValve, Station.haltBar, hr, if_true]
  case openIncident => simp only [decideRequest, Station.openIncident, hr, if_true]
  case authorize => simp only [decideRequest, Station.authorize, hr, if_true]
  case abort => simp only [decideRequest, Station.abort, hr, if_true]
  case release => simp only [decideRequest, Station.release, hr, if_true]
  case closeIncident => simp only [decideRequest, Station.closeIncident, hr, if_true]
  case resumeZone => simp only [decideRequest, Station.resumeZone, hr, if_true]
  case fieldClear => simp only [decideRequest, Station.fieldClear, hr, if_true]
  case exerciseValve => simp only [decideRequest, Station.exerciseValve, hr, if_true]
  all_goals cases h

theorem exec_unready {i : Instr} {t : Byte} {r : Request} (hi : i.request? = some (t, r)) (h : s.taking)
    (hr : needsReady r = true) (hx : s.st.ss.station ≠ .ready) :
    exec i s = .next (s.replied t (requestCode r) .notReady [] s.st) := by
  by_cases hl : s.st.ss.station = .loading
  · exact exec_loading hi h hl (by cases r <;> first | rfl | cases hr)
  · exact exec_refused hi h hl (by cases r <;> first | rfl | cases hr) (decideRequest_unready hr hx)

/-- An edit that the block refuses. -/
theorem exec_editRefused {i : Instr} {t : Byte} {r : Request} (hi : i.request? = some (t, r)) (h : s.taking)
    (he : s.st.editable) (hr : Request.ofLink r = false) {st : Status} (hd : decideRequest s.st r = refuse st s.st) :
    exec i s = .next (s.replied t (requestCode r) st [] s.st) :=
  exec_refused hi h he.1 hr hd

/-! The ranges. -/

theorem mark?_none {n : Nat} (h : 1 < n) : mark? n = none := by
  match n with
  | n + 2 => rfl

theorem normal?_none {n : Nat} (h : 1 < n) : normal? n = none := by
  match n with
  | n + 2 => rfl

theorem valveKind?_none {n : Nat} (h : 1 < n) : valveKind? n = none := by
  match n with
  | n + 2 => rfl

theorem lineOf?_none {l : Nat} (h : 1 < l) : lineOf? l = none := by
  match l with
  | l + 2 => rfl

theorem place?_none {l a : Nat} (h : 1 < l ∨ a = 0 ∨ 60 < a) : place? l a = none := by
  unfold place?
  split
  · rename_i m hm
    have inside : ¬ 1 < l := fun h => by rw [lineOf?_none h] at hm; cases hm
    rw [if_neg (by simp only [Config.addresses]; omega)]
  · rfl

theorem putSegment_range (he : x.editable) {n z src c pri : Nat} {name : List Byte}
    (h : 512 ≤ n ∨ 16 ≤ z ∨ 1 < src ∨ 1 < pri ∨ nameTag? name = none) :
    x.putSegment n z src c pri name = refuse .outOfRange x := by
  unfold Station.putSegment
  rw [editBar_editable he]
  dsimp only
  split
  · rename_i hs hp hn
    rw [if_pos]
    have h1 : ¬ 1 < src := fun h => by rw [mark?_none h] at hs; cases hs
    have h2 : ¬ 1 < pri := fun h => by rw [mark?_none h] at hp; cases hp
    rw [hn] at h
    simpa [h1, h2, Config.segments, Config.zones] using h
  · rfl

theorem putValve_range (he : x.editable) {f : ValveFields}
    (h : 768 ≤ f.valve ∨ 512 ≤ f.sideA ∨ 512 ≤ f.sideB ∨ 16 ≤ f.zone ∨ 1 < f.normal ∨ 1 < f.kind ∨
      (f.kind = 0 ∧ (1 < f.line ∨ f.address = 0 ∨ 60 < f.address))) :
    x.putValve f = refuse .outOfRange x := by
  unfold Station.putValve
  rw [editBar_editable he]
  dsimp only
  split
  · rename_i normal kind hn hk
    rw [if_pos]
    have h1 : ¬ 1 < f.normal := fun h => by rw [normal?_none h] at hn; cases hn
    have h2 : ¬ 1 < f.kind := fun h => by rw [valveKind?_none h] at hk; cases hk
    rcases h with h | h | h | h | h | h | ⟨h0, h⟩
    · exact .inl h
    · exact .inr (.inl h)
    · exact .inr (.inr (.inl h))
    · exact .inr (.inr (.inr (.inl h)))
    · exact absurd h h1
    · exact absurd h h2
    · rw [h0] at hk
      cases hk
      exact .inr (.inr (.inr (.inr ⟨rfl, by rw [place?_none h]; rfl⟩)))
  · rfl

theorem putSensor_range (he : x.editable) {n l a g : Nat} (h : 48 ≤ n ∨ 1 < l ∨ a = 0 ∨ 60 < a ∨ 512 ≤ g) :
    x.putSensor n l a g = refuse .outOfRange x := by
  unfold Station.putSensor
  rw [editBar_editable he]
  dsimp only
  split
  · rfl
  · rename_i p hp
    rw [if_pos]
    have inside : ¬ (1 < l ∨ a = 0 ∨ 60 < a) := fun h => by rw [place?_none h] at hp; cases hp
    simp only [Config.sensors, Config.segments]
    omega

theorem deleteSensor_range (he : x.editable) {n : Nat} (h : 48 ≤ n) : x.deleteSensor n = refuse .outOfRange x := by
  unfold Station.deleteSensor
  rw [editBar_editable he]
  exact if_pos h

/-- Settles O15. -/
theorem theStationStateAndTheRangesBarRequests : Obligations.TheStationStateAndTheRangesBarRequests := by
  unfold Obligations.TheStationStateAndTheRangesBarRequests
  refine ⟨fun s i tag r ht hi he => ⟨fun hl => ?_, fun hl hs => ?_⟩, ?_, ?_⟩
  · exact exec_loading hi ht hl (takenLoading_edit he)
  · exact exec_refused hi ht hl (ofLink_edit he) (decideRequest_barred he (editBar_storing hl hs))
  · intro s i tag r n a b ht hx hi mem
    simp only [List.mem_cons, List.not_mem_nil, or_false] at mem
    refine exec_unready hi ht ?_ hx
    rcases mem with rfl | rfl | rfl | rfl | rfl | rfl | rfl | rfl | rfl | rfl | rfl | rfl <;> cases hi <;> rfl
  · intro s tag ht he refused
    refine ⟨?_, ?_, ?_, ?_⟩
    · intro n z src c pri name h
      exact exec_editRefused (r := .putSegment n z src c pri name) rfl ht he rfl (putSegment_range he h)
    · intro f h
      exact exec_editRefused (r := .putValve f) rfl ht he rfl (putValve_range he h)
    · intro n l a g h
      exact exec_editRefused (r := .putSensor n l a g) rfl ht he rfl (putSensor_range he h)
    · intro n h
      exact exec_editRefused (r := .deleteSensor n) rfl ht he rfl (deleteSensor_range he h)

end Sys2Proof.Machine
end

section
/-! The reads: each leaves the station as it is (R199), and what the reads of the tables return. -/

namespace Sys2Proof.Machine

variable {s : State} {x : Station}

theorem unlessLoading_eq (hl : x.ss.station ≠ .loading) (d : Decision) : x.unlessLoading d = d := by
  simp [Station.unlessLoading, hl]

/-- A request that a block decides and that leaves the station. -/
theorem exec_read {i : Instr} {t : Byte} {r : Request} (hi : i.request? = some (t, r)) (h : s.taking)
    (hl : s.st.ss.station ≠ .loading) (hr : Request.ofLink r = false) (still : (decideRequest s.st r).2.2 = s.st) :
    exec i s = .next (s.replied t (requestCode r) (decideRequest s.st r).1 (decideRequest s.st r).2.1 s.st) :=
  exec_quiet i t r hi h hl hr (Prod.ext rfl (Prod.ext rfl still)) h.2.2.2

/-- A read that answers OK. -/
theorem exec_readOk {i : Instr} {t : Byte} {r : Request} (hi : i.request? = some (t, r)) (h : s.taking)
    (hl : s.st.ss.station ≠ .loading) (hr : Request.ofLink r = false) (still : (decideRequest s.st r).2.2 = s.st)
    (ok : (decideRequest s.st r).1 = .ok) : ∃ data, exec i s = .next (s.replied t (requestCode r) .ok data s.st) :=
  ⟨_, by rw [exec_read hi h hl hr still, ok]⟩

/-- The requests that read (R199). -/
def isRead : Request → Bool
  | .readSegment _ | .readValve _ | .readZone _ | .readSensor _ | .readTiming | .nextRecord .. | .readValveState _
  | .readIncident _ | .readPlan .. | .readMotion _ | .readZoneWatch _ | .readSensorWatch _ | .readNode ..
  | .readExercises => true
  | _ => false

theorem ofLink_of_isRead {r : Request} (h : isRead r = true) : Request.ofLink r = false := by
  cases r <;> first | rfl | cases h

theorem isRead_station (x : Station) {r : Request} (h : isRead r = true) : (decideRequest x r).2.2 = x := by
  cases r
  case readSegment n => exact Station.readSegment_station n
  case readValve v => exact Station.readValve_station v
  case readZone z => exact Station.readZone_station z
  case readSensor n => exact Station.readSensor_station n
  case readTiming => exact Station.readTiming_station
  case nextRecord k n => exact Station.nextRecord_station k n
  case readValveState v => exact Station.readValveState_station v
  case readIncident k => exact Station.readIncident_station k
  case readPlan k p => exact Station.readPlan_station k p
  case readMotion z => exact Station.readMotion_station z
  case readZoneWatch z => exact Station.readZoneWatch_station z
  case readSensorWatch n => exact Station.readSensorWatch_station n
  case readNode l a => exact Station.readNode_station l a
  case readExercises => exact Station.readExercises_station
  all_goals cases h

/-- A read with what it answers. -/
theorem exec_answer {i : Instr} {t : Byte} {r : Request} (hi : i.request? = some (t, r)) (h : s.taking)
    (hl : s.st.ss.station ≠ .loading) (hr : isRead r = true) {st : Status} {data : List Byte}
    (hd : decideRequest s.st r = (st, data, s.st)) : exec i s = .next (s.replied t (requestCode r) st data s.st) :=
  exec_quiet i t r hi h hl (ofLink_of_isRead hr) hd h.2.2.2

theorem place?_eq {l a : Nat} (hl : l ≤ 1) (h1 : 1 ≤ a) (h2 : a ≤ 60) : place? l a = some ⟨if l = 0 then .a else .b, a⟩ := by
  have ha : 1 ≤ a ∧ a ≤ Config.addresses := ⟨h1, h2⟩
  obtain rfl | rfl : l = 0 ∨ l = 1 := by omega
  · simp [place?, lineOf?, ha]
  · simp [place?, lineOf?, ha]

/-- Settles O23. -/
theorem readsChangeNothing : Obligations.ReadsChangeNothing := by
  unfold Obligations.ReadsChangeNothing
  refine ⟨?_, ?_⟩
  · intro s tag i ht hl mem
    have read {r : Request} (hi : i.request? = some (tag, r)) (hr : isRead r = true) :
        ∃ kind status data, exec i s = .next (s.replied tag kind status data s.st) :=
      ⟨_, _, _, exec_read hi ht hl (ofLink_of_isRead hr) (isRead_station s.st hr)⟩
    obtain mem | ⟨n, mem⟩ | ⟨n, m, mem⟩ := mem
    all_goals simp only [List.mem_cons, List.not_mem_nil, or_false] at mem
    · rcases mem with rfl | rfl <;> exact read rfl rfl
    · rcases mem with rfl | rfl | rfl | rfl | rfl | rfl | rfl | rfl | rfl <;> exact read rfl rfl
    · rcases mem with rfl | rfl | rfl <;> exact read rfl rfl
  · intro s tag ht hl ok
    have answers {i : Instr} {r : Request} (hi : i.request? = some (tag, r)) (hr : isRead r = true)
        (good : (decideRequest s.st r).1 = .ok) : ok i (requestCode r) :=
      exec_readOk hi ht hl (ofLink_of_isRead hr) (isRead_station s.st hr) good
    have seen := unlessLoading_eq hl
    refine ⟨fun v hv hs => ?_, fun n hn hs => ?_, fun k hk => ⟨?_, fun h1 h2 => ?_⟩, fun z hz => ?_, fun l a h0 h1 h2 => ?_, ?_⟩
    · obtain ⟨r, hr⟩ := Option.isSome_iff_exists.mp hs
      have hv : ¬ Config.valves ≤ v := Nat.not_le.mpr hv
      refine ⟨answers (r := .readValve v) rfl rfl ?_, answers (r := .readValveState v) rfl rfl ?_⟩
      · simp only [decideRequest, Station.readValve, seen, hv, if_false, hr]
      · simp only [decideRequest, Station.readValveState, seen, hv, if_false, hr]
    · obtain ⟨r, hr⟩ := Option.isSome_iff_exists.mp hs
      have hn : ¬ Config.sensors ≤ n := Nat.not_le.mpr hn
      refine answers (r := .readSensorWatch n) rfl rfl ?_
      simp only [decideRequest, Station.readSensorWatch, seen, hn, if_false, hr]
    · have hk : ¬ Config.slots ≤ k := Nat.not_le.mpr hk
      refine answers (r := .readIncident k) rfl rfl ?_
      simp only [decideRequest, Station.readIncident, seen, hk, if_false]
    · have hk : ¬ Config.slots ≤ k := Nat.not_le.mpr hk
      have first (es : List Entry) : ¬ max 1 (ceilDiv es.length 8) ≤ 0 := by omega
      refine answers (r := .readPlan k 0) rfl rfl ?_
      simp only [decideRequest, Station.readPlan, seen, hk, if_false]
      cases hs : (s.st.slot k).state
      case free => exact absurd hs h1
      case planning => exact absurd hs h2
      all_goals simp only [first, if_false]
    · have hz : ¬ Config.zones ≤ z := Nat.not_le.mpr hz
      refine ⟨answers (r := .readMotion z) rfl rfl ?_, answers (r := .readZoneWatch z) rfl rfl ?_⟩
      · simp only [decideRequest, Station.readMotion, seen, hz, if_false]
      · simp only [decideRequest, Station.readZoneWatch, seen, hz, if_false]
    · refine answers (r := .readNode l a) rfl rfl ?_
      simp only [decideRequest, Station.readNode, seen, place?_eq h0 h1 h2]
    · refine answers (r := .readExercises) rfl rfl ?_
      simp only [decideRequest, Station.readExercises, seen]

/-! The tables. -/

theorem lineCode_eq (l : Line) : lineCode l = if l = .a then 0 else 1 := by cases l <;> rfl

/-- What the walk over a table's numbers answers. -/
theorem walkData_some {α : Type} (t : Table α) (hw : Table.wf t = true) {start m : Nat} (hm : start ≤ m)
    (there : (t.find? m).isSome = true) (none : ∀ j, start ≤ j → j < m → (t.find? j).isSome = false) :
    Station.walkData t start = byte1 1 ++ byte2 m ++ byte2 t.length := by
  have next := (Table.next_iff t hw start m).mpr ⟨hm, there, fun j h1 h2 => by simpa using none j h1 h2⟩
  simp [Station.walkData, next, opt2, markByte_eq]

theorem walkData_none {α : Type} (t : Table α) (hw : Table.wf t = true) {start : Nat}
    (none : ∀ m, start ≤ m → (t.find? m).isSome = false) :
    Station.walkData t start = byte1 0 ++ byte2 0 ++ byte2 t.length := by
  have next : t.next? start = .none := by
    cases h : t.next? start with
    | none => rfl
    | some m =>
      obtain ⟨hm, there, -⟩ := (Table.next_iff t hw start m).mp h
      rw [none m hm] at there
      cases there
  simp [Station.walkData, next, opt2, markByte_eq]

/-- Settles O24. -/
theorem tableReadsReturnTheRecord : Obligations.TableReadsReturnTheRecord := by
  unfold Obligations.TableReadsReturnTheRecord
  refine ⟨fun s tag ht hl => ?_, fun s tag kind start ht hc => ?_⟩
  · have seen := unlessLoading_eq hl
    refine ⟨fun n hn => ?_, fun n hn none => ?_, fun n r hn hr => ?_, fun z hz => ?_, fun n r hn hr => ?_, ?_⟩
    · refine exec_answer (r := .readSegment n) rfl ht hl rfl ?_
      have hn : Config.segments ≤ n := hn
      simp only [decideRequest, Station.readSegment, seen, hn, if_true, refuse]
    · refine exec_answer (r := .readSegment n) rfl ht hl rfl ?_
      have hn : ¬ Config.segments ≤ n := Nat.not_le.mpr hn
      simp only [decideRequest, Station.readSegment, seen, hn, if_false, none, refuse]
    · refine exec_answer (r := .readSegment n) rfl ht hl rfl ?_
      have hn : ¬ Config.segments ≤ n := Nat.not_le.mpr hn
      have bytes (xs : List Byte) : xs.flatMap (fun c => [c]) = xs := List.flatMap_singleton' xs
      simp only [decideRequest, Station.readSegment, seen, hn, if_false, hr, markByte_eq, counted, bytes, List.append_assoc]
    · intro r
      refine exec_answer (r := .readZone z) rfl ht hl rfl ?_
      have hz : ¬ Config.zones ≤ z := Nat.not_le.mpr hz
      simp only [decideRequest, Station.readZone, seen, hz, if_false]
      rfl
    · refine exec_answer (r := .readSensor n) rfl ht hl rfl ?_
      have hn : ¬ Config.sensors ≤ n := Nat.not_le.mpr hn
      simp only [decideRequest, Station.readSensor, seen, hn, if_false, hr, lineCode_eq]
    · intro t
      refine exec_answer (r := .readTiming) rfl ht hl rfl ?_
      simp only [decideRequest, Station.readTiming, seen]
      rfl
  · intro refused answers
    obtain ⟨wsegments, wvalves, -, wsensors, -⟩ := Station.canonical_netTidy hc
    have walked {α : Type} (t : Table α) (hw : Table.wf t = true) (rest : List Byte)
        (hd : s.st.nextRecord kind start = (.ok, Station.walkData t start ++ rest, s.st)) (hl : s.st.ss.station ≠ .loading) :
        answers (fun n => (t.find? n).isSome) t.length rest := by
      have answer := exec_answer (i := .nextRecord tag kind start) (r := .nextRecord kind start) rfl ht hl rfl hd
      refine ⟨fun m hm there none => ?_, fun none => ?_⟩
      · rw [walkData_some t hw hm there none] at answer
        exact answer
      · rw [walkData_none t hw none] at answer
        exact answer
    have bad (hl : s.st.ss.station ≠ .loading) (hd : s.st.nextRecord kind start = refuse .outOfRange s.st) :
        refused .outOfRange := exec_answer (r := .nextRecord kind start) rfl ht hl rfl hd
    refine ⟨fun hl => exec_loading (r := .nextRecord kind start) rfl ht hl rfl, fun hl hk => ?_, fun hl hk => ?_,
      fun hl hk => ?_, fun hl hk => ?_⟩
    · refine bad hl ?_
      match kind with
      | k + 3 => simp only [Station.nextRecord, unlessLoading_eq hl]
    · subst hk
      refine ⟨fun hn => bad hl ?_, fun hn => walked s.st.nt.segments wsegments _ ?_ hl⟩
      · have hn : Config.segments ≤ start := hn
        simp only [Station.nextRecord, unlessLoading_eq hl, hn, if_true]
      · have hn : ¬ Config.segments ≤ start := Nat.not_le.mpr hn
        simp only [Station.nextRecord, unlessLoading_eq hl, hn, if_false]
    · subst hk
      refine ⟨fun hn => bad hl ?_, fun hn => walked s.st.nt.valves wvalves [] ?_ hl⟩
      · have hn : Config.valves ≤ start := hn
        simp only [Station.nextRecord, unlessLoading_eq hl, hn, if_true]
      · have hn : ¬ Config.valves ≤ start := Nat.not_le.mpr hn
        simp only [Station.nextRecord, unlessLoading_eq hl, hn, if_false, List.append_nil]
    · subst hk
      refine ⟨fun hn => bad hl ?_, fun hn => walked s.st.nt.sensors wsensors [] ?_ hl⟩
      · have hn : Config.sensors ≤ start := hn
        simp only [Station.nextRecord, unlessLoading_eq hl, hn, if_true]
      · have hn : ¬ Config.sensors ≤ start := Nat.not_le.mpr hn
        simp only [Station.nextRecord, unlessLoading_eq hl, hn, if_false, List.append_nil]

end Sys2Proof.Machine
end

section
/-! What the reads of valves, nodes, exercises, zones, sensors, slots, plans and motion return (R199). -/

namespace Sys2Proof.Machine

variable {s : State} {x : Station}

/-! The codes of the enumerations. -/

theorem normal_code (n : Normal) : n.code = if n = .normallyOpen then 0 else 1 := by cases n <;> rfl
theorem valveKind_code (k : ValveKind) : k.code = if k = .actuated then 0 else 1 := by cases k <;> rfl
theorem health_code (h : Health) : h.code = ([.sound, .suspect, .inoperable] : List Health).idxOf h := by cases h <;> rfl
theorem position_code (p : Position) :
    p.code = ([.opened, .closed, .partway, .closing, .opening, .unknown] : List Position).idxOf p := by cases p <;> rfl
theorem presence_code (p : Presence) : p.code = ([.unknown, .present, .absent] : List Presence).idxOf p := by
  cases p <;> rfl
theorem answer_code (a : AnswerState) : a.code = ([.ready, .moving, .fault, .attend] : List AnswerState).idxOf a := by
  cases a <;> rfl
theorem nodeKind_code (k : NodeKind) : k.code = ([.actuator, .sensor, .none] : List NodeKind).idxOf k := by
  cases k <;> rfl
theorem handshake_code (h : HandshakeStep) : h.code = if h = .needDetail then 0 else 1 := by cases h <;> rfl
theorem exercise_code (p : ExercisePhase) :
    p.code = ([.queued, .outward, .returnWait, .returning] : List ExercisePhase).idxOf p := by cases p <;> rfl
theorem zoneState_code (z : ZoneState) : z.code = ([.quiet, .watch, .hold] : List ZoneState).idxOf z := by
  cases z <;> rfl
theorem slotState_code (p : SlotState) :
    p.code = ([.free, .planning, .planned, .closing, .isolated, .unisolable, .aborted, .reopening, .done] :
      List SlotState).idxOf p := by cases p <;> rfl
theorem entryKind_code (k : EntryKind) : k.code = ([.actuated, .crew, .alreadyClosed] : List EntryKind).idxOf k := by
  cases k <;> rfl
theorem entryState_code (p : EntryState) :
    p.code = ([.proposed, .pending, .stroking, .halted, .crewWait, .closed, .opened, .alreadyClosed, .failed, .stopped] :
      List EntryState).idxOf p := by cases p <;> rfl
theorem phase_code (p : Phase) : p.code = ([.sending, .moving, .halting] : List Phase).idxOf p := by cases p <;> rfl

/-! What the bytes hold. -/

theorem flowInForce_eq (x : Station) (v : Nat) (q : Option Nat)
    (hq : q = match (x.vsOf v).flow with
      | some (q, t) => if (x.clock / 10 + 4294967296 - t) % 4294967296 ≤ x.nt.timing.lifetime then some q else none
      | none => none) : x.flowInForce v = q.isSome := by
  unfold Station.flowInForce
  rw [hq]
  cases (x.vsOf v).flow with
  | none => rfl
  | some f =>
    obtain ⟨q, t⟩ := f
    show decide ((x.clock / 10 + 4294967296 - t) % 4294967296 ≤ x.nt.timing.lifetime) = _
    dsimp only
    split <;> simp_all

theorem effectiveVelocity_eq (x : Station) (v : Nat) {r : Valve} (hr : x.valve? v = some r) (q : Option Nat)
    (hq : q = match (x.vsOf v).flow with
      | some (q, t) => if (x.clock / 10 + 4294967296 - t) % 4294967296 ≤ x.nt.timing.lifetime then some q else none
      | none => none) : x.effectiveVelocity v = q.getD r.velocity := by
  unfold Station.effectiveVelocity
  rw [hq, hr]
  cases (x.vsOf v).flow with
  | none => rfl
  | some f =>
    obtain ⟨q, t⟩ := f
    show (if (x.clock / 10 + 4294967296 - t) % 4294967296 ≤ x.nt.timing.lifetime then q else r.velocity) = _
    dsimp only
    split <;> rfl

theorem ownerPair_eq (o : Option Owner) : (ownerCode o, ownerSlot o) =
    match o with
    | none => (0, 0)
    | some (.closeEntry k) => (1, k)
    | some (.reopenEntry k) => (2, k)
    | some .move => (3, 0)
    | some .exercise => (4, 0) := by
  cases o with
  | none => rfl
  | some o => cases o <;> rfl

/-- The class of a present valve (R36). -/
theorem usability_code (x : Station) (v : Nat) {r : Valve} (hr : x.valve? v = some r) :
    ∃ c, usability? x v = some c ∧ ((x.vsOf v).position = .closed → c = .barrier) ∧
      ((x.vsOf v).position ≠ .closed →
        (r.health ≠ .inoperable ∧ (r.kind = .crew ∨ ∃ n, r.node = some n ∧ (x.node n).presence = .present ∧
          (x.vsOf v).localMark = false ∧ ∀ a t, (x.node n).last = some (a, t) → a ≠ .fault)) → c = .closable) ∧
      ((x.vsOf v).position ≠ .closed →
        ¬ (r.health ≠ .inoperable ∧ (r.kind = .crew ∨ ∃ n, r.node = some n ∧ (x.node n).presence = .present ∧
          (x.vsOf v).localMark = false ∧ ∀ a t, (x.node n).last = some (a, t) → a ≠ .fault)) → c = .passable) := by
  have lasting (n : Node) : (∀ a t, (x.node n).last = some (a, t) → a ≠ .fault) ↔ (x.node n).last.map (·.1) ≠ some .fault := by
    cases (x.node n).last with
    | none => simp
    | some p => obtain ⟨a, t⟩ := p; simp
  simp only [usability?, hr, lasting]
  by_cases hc : (x.vsOf v).position = .closed
  · exact ⟨.barrier, by simp [hc], fun _ => rfl, fun h => absurd hc h, fun h => absurd hc h⟩
  · by_cases hh : r.health = .inoperable
    · exact ⟨.passable, by simp [hc, hh], fun h => absurd h hc, fun _ h => absurd hh h.1, fun _ _ => rfl⟩
    · cases hk : r.kind with
      | crew => exact ⟨.closable, by simp [hc, hh], fun h => absurd h hc, fun _ _ => rfl, fun _ h => absurd ⟨hh, .inl rfl⟩ h⟩
      | actuated =>
        cases hn : r.node with
        | none =>
          refine ⟨.passable, by simp [hc, hh], fun h => absurd h hc, fun _ h => ?_, fun _ _ => rfl⟩
          simp at h
        | some n =>
          by_cases open_ : (x.node n).presence = .present ∧ (x.vsOf v).localMark = false ∧
              (x.node n).last.map (·.1) ≠ some .fault
          · exact ⟨.closable, by simp [hc, hh, open_], fun h => absurd h hc, fun _ _ => rfl,
              fun _ h => absurd ⟨hh, .inr ⟨n, rfl, open_⟩⟩ h⟩
          · refine ⟨.passable, by rw [if_neg hc, if_neg hh]; exact if_neg open_, fun h => absurd h hc, fun _ h => ?_,
              fun _ _ => rfl⟩
            obtain ⟨-, h | ⟨m, hm, h⟩⟩ := h
            · cases h
            · cases hm; exact absurd h open_

theorem numbers_countP (hw : Table.wf x.nt.sensors = true) (z : Nat) :
    (x.sensorsOfZone z).length = x.nt.sensors.countP fun p => decide (x.zoneOfSegment p.2.segment = z) := by
  unfold Station.sensorsOfZone Table.numbers
  rw [← List.countP_eq_length_filter, List.countP_map]
  refine List.countP_congr fun p hp => ?_
  have find : x.sensor? p.1 = some p.2 := (Table.find_iff_mem _ hw p.1 p.2).mpr hp
  simp [Station.zoneOfSensor, find]

theorem clockAfter_eq (t d : Nat) : clockAfter t d = (t + d) % 42949672960 := rfl

theorem clockSince_eq (now t : Nat) : clockSince now t = (now + 42949672960 - t) % 42949672960 := rfl

theorem occupantData_eq (o : Option Occupant) : Station.occupantData o =
    match o with
    | some (.valve v) => byte1 true.toNat ++ byte2 v
    | some (.sensor k) => byte1 true.toNat ++ byte1 k
    | none => byte1 false.toNat ++ byte2 0 := by
  cases o with
  | none => rfl
  | some o => cases o <;> rfl

/-- The seconds that READ_ZONE_WATCH gives, where a settle timer runs. -/
theorem settleLeft_eq {z start : Nat} (hs : (x.zoneWatch z).state = .hold) (hp : (x.zoneWatch z).persist = false)
    (ha : (x.zoneWatch z).settleAt = some start) :
    (clockReached x.clock ((start + 10 * (x.zoneRec z).settle) % 42949672960) = true → x.settleLeft z = 0) ∧
    (clockReached x.clock ((start + 10 * (x.zoneRec z).settle) % 42949672960) = false →
      ((start + 10 * (x.zoneRec z).settle) % 42949672960 + 42949672960 - x.clock) % 42949672960 % 10 = 0 →
      x.settleLeft z = ((start + 10 * (x.zoneRec z).settle) % 42949672960 + 42949672960 - x.clock) % 42949672960 / 10) := by
  have due : x.settleExpiry? z = some ((start + 10 * (x.zoneRec z).settle) % 42949672960) := by
    unfold Station.settleExpiry?
    simp only [hs, hp, ha, and_self, if_true, Option.map_some, clockAfter_eq]
  unfold Station.settleLeft
  rw [due]
  dsimp only
  refine ⟨fun h => by simp [h], fun h whole => ?_⟩
  rw [← clockSince_eq] at whole ⊢
  simp only [h, Bool.false_eq_true, if_false, whole, if_true]

/-- Settles O25. -/
theorem valveNodeAndWatchReadsReturnTheirFields : Obligations.ValveNodeAndWatchReadsReturnTheirFields := by
  unfold Obligations.ValveNodeAndWatchReadsReturnTheirFields
  intro s tag ht hl replies mark opt1 opt2 opt4 clock age answer presence health
  have seen := unlessLoading_eq hl
  have replied {i : Instr} {r : Request} {st : Status} {data : List Byte} (hi : i.request? = some (tag, r))
      (hr : isRead r = true) (hd : decideRequest s.st r = (st, data, s.st)) : replies i (requestCode r) st data :=
    exec_answer hi ht hl hr hd
  refine ⟨fun v hv => ⟨?_, ?_⟩, fun v hv none => ⟨?_, ?_⟩, ?_, ?_, ?_, ?_, ?_, ?_, ?_, ?_, ?_⟩
  · have hv : Config.valves ≤ v := hv
    exact replied (r := .readValve v) rfl rfl (by simp only [decideRequest, Station.readValve, seen, hv, if_true, refuse])
  · have hv : Config.valves ≤ v := hv
    exact replied (r := .readValveState v) rfl rfl
      (by simp only [decideRequest, Station.readValveState, seen, hv, if_true, refuse])
  · have hv : ¬ Config.valves ≤ v := Nat.not_le.mpr hv
    exact replied (r := .readValve v) rfl rfl
      (by simp only [decideRequest, Station.readValve, seen, hv, if_false, none, refuse])
  · have hv : ¬ Config.valves ≤ v := Nat.not_le.mpr hv
    exact replied (r := .readValveState v) rfl rfl
      (by simp only [decideRequest, Station.readValveState, seen, hv, if_false, none, refuse])
  · intro v r hv hr d place current owner e closable
    have hv : ¬ Config.valves ≤ v := Nat.not_le.mpr hv
    have line : (r.node.map fun n => lineCode n.line).getD 0 = place.1 := by
      cases hn : r.node <;> simp [place, hn, lineCode_eq]
    have address : (r.node.map (·.address)).getD 0 = place.2 := by
      cases hn : r.node <;> simp [place, hn]
    have owned : (ownerCode d.owner, ownerSlot d.owner) = owner := ownerPair_eq d.owner
    obtain ⟨c, hc, barrier, closes, passes⟩ := usability_code s.st v hr
    refine ⟨replied (r := .readValve v) rfl rfl ?_, c.code, replied (r := .readValveState v) rfl rfl ?_, fun h => ?_,
      fun h g => ?_, fun h g => ?_⟩
    · simp only [decideRequest, Station.readValve, seen, hv, if_false, hr, normal_code, valveKind_code, health_code,
        line, address, flowInForce_eq s.st v current rfl, effectiveVelocity_eq s.st v hr current rfl, markByte_eq,
        Machine.opt2, Machine.opt4]
      rfl
    · simp only [decideRequest, Station.readValveState, seen, hv, if_false, hr, position_code, presence_code, answer_code,
        health_code, markByte_eq, Machine.opt2, Machine.opt1, hc, Option.map_some, Option.getD_some, ← owned]
      rfl
    · rw [barrier h]; rfl
    · rw [closes h g]; rfl
    · rw [passes h g]; rfl
  · intro l a h
    exact replied (r := .readNode l a) rfl rfl (by simp only [decideRequest, Station.readNode, seen, place?_none h, refuse])
  · intro l a h0 h1 h2 n x e
    refine replied (r := .readNode l a) rfl rfl ?_
    have attends : (decide (e.presence = .present) && e.attend) = decide (e.presence = .present ∧ e.attend = true) := by
      simp
    simp only [decideRequest, Station.readNode, seen, place?_eq h0 h1 h2]
    refine Prod.ext rfl (Prod.ext ?_ rfl)
    simp only [nodeKind_code, occupantData_eq, presence_code, handshake_code, markByte_eq, Machine.opt1, optClock,
      Machine.opt4, answer_code]
    rw [attends] <;> rfl
  · refine replied (r := .readExercises) rfl rfl ?_
    simp only [decideRequest, Station.readExercises, seen, counted, exercise_code, markByte_eq, Machine.opt2, Machine.opt1]
    rfl
  · intro z hz
    have hz : Config.zones ≤ z := hz
    exact replied (r := .readZoneWatch z) rfl rfl
      (by simp only [decideRequest, Station.readZoneWatch, seen, hz, if_true, refuse])
  · intro z hz hc w
    have hz : ¬ Config.zones ≤ z := Nat.not_le.mpr hz
    obtain ⟨-, -, -, wf, -⟩ := Station.canonical_netTidy hc
    refine ⟨s.st.settleLeft z, replied (r := .readZoneWatch z) rfl rfl ?_, fun start h1 h2 h3 => settleLeft_eq h1 h2 h3⟩
    simp only [decideRequest, Station.readZoneWatch, seen, hz, if_false, zoneState_code, numbers_countP wf, markByte_eq,
      optClock, Machine.opt4]
    rfl
  · intro n hn
    have hn : Config.sensors ≤ n := hn
    exact replied (r := .readSensorWatch n) rfl rfl
      (by simp only [decideRequest, Station.readSensorWatch, seen, hn, if_true, refuse])
  · intro n hn none
    have hn : ¬ Config.sensors ≤ n := Nat.not_le.mpr hn
    exact replied (r := .readSensorWatch n) rfl rfl
      (by simp only [decideRequest, Station.readSensorWatch, seen, hn, if_false, none, refuse])
  · intro n r hn hr w z drop signed
    have hn : ¬ Config.sensors ≤ n := Nat.not_le.mpr hn
    refine replied (r := .readSensorWatch n) rfl rfl ?_
    simp only [decideRequest, Station.readSensorWatch, seen, hn, if_false, hr, markByte_eq, Machine.opt2, optClock,
      Machine.opt4]
    rfl

end Sys2Proof.Machine
end

section
/-! What the reads of incidents, plans and motion return (R199). -/

namespace Sys2Proof.Machine

variable {s : State} {x : Station}

/-! Motion: the lengths of the five classes. -/

/-- The PENDING entries of a list in a zone. -/
theorem length_pendingIn (x : Station) (z : Nat) (es : List Entry) : (x.pendingIn z es).length =
    es.countP fun e => decide (e.state = .pending) && decide (x.zoneOfValve? e.valve = some z) := by
  unfold Station.pendingIn
  rw [List.length_map, List.countP_eq_length_filter]
  rfl

/-- The entries of the slots in one state, whatever the order of the slots. -/
theorem length_slotsByAge {α : Type} (x : Station) (st : SlotState) (time : Slot → Option Nat) (f : Nat → List α) :
    ((x.slotsByAge st time).flatMap f).length =
      ((([0, 1, 2, 3] : List Nat).filter fun k => decide ((x.slot k).state = st)).map fun k => (f k).length).sum := by
  have perm : (x.slotsByAge st time).Perm (([0, 1, 2, 3] : List Nat).filter fun k => decide ((x.slot k).state = st)) :=
    sortBy_perm _ _
  rw [(perm.flatMap_right f).length_eq, List.length_flatMap]

theorem length_class0 (x : Station) (z : Nat) : (x.class0 z).length =
    x.md.returns.countP fun v => decide (x.zoneOfValve? v = some z) := by
  unfold Station.class0
  rw [List.length_map, List.countP_eq_length_filter]
  rfl

theorem length_class3 (x : Station) (z : Nat) : (x.class3 z).length =
    x.md.moves.countP fun m => m.waiting && decide (x.zoneOfValve? m.valve = some z) := by
  unfold Station.class3
  rw [List.length_map, List.countP_eq_length_filter]
  rfl

theorem length_class4 (x : Station) (z : Nat) : (x.class4 z).length =
    x.xu.countP fun y => decide (y.phase = .queued ∧ y.zone = z) := by
  unfold Station.class4
  rw [List.length_map, List.countP_eq_length_filter]

theorem length_class1 (x : Station) (z : Nat) : (x.class1 z).length =
    ((([0, 1, 2, 3] : List Nat).filter fun k => decide ((x.slot k).state = .closing)).map fun k =>
      (x.slot k).work.countP fun e => decide (e.state = .pending) && decide (x.zoneOfValve? e.valve = some z)).sum := by
  unfold Station.class1
  rw [length_slotsByAge]
  simp only [List.length_map, length_pendingIn]

theorem length_class2 (x : Station) (z : Nat) : (x.class2 z).length =
    ((([0, 1, 2, 3] : List Nat).filter fun k => decide ((x.slot k).state = .reopening)).map fun k =>
      (x.slot k).reopen.countP fun e => decide (e.state = .pending) && decide (x.zoneOfValve? e.valve = some z)).sum := by
  unfold Station.class2
  rw [length_slotsByAge]
  simp only [List.length_map, length_pendingIn]

/-! The place of a slot with the planner. -/

theorem computing_iff (x : Station) (k : Nat) : x.computing k = true ↔
    ∃ f, x.ip.flight = some f ∧ f.slot = k ∧ f.cancel = false := by
  unfold Station.computing
  cases x.ip.flight <;> simp

/-- A function that answers the second of each pair of a list answers that of a pair of the list. -/
theorem eq_of_listed {α β : Type} [DecidableEq β] (f : α → β) (l : List (α × β))
    (all : (l.all fun p => decide (f p.1 = p.2)) = true) {a : α} {b : β} (mem : (a, b) ∈ l) : f a = b :=
  of_decide_eq_true (List.all_eq_true.mp all (a, b) mem)

/-- Settles O26. -/
theorem incidentPlanAndMotionReadsReturnTheirFields : Obligations.IncidentPlanAndMotionReadsReturnTheirFields := by
  unfold Obligations.IncidentPlanAndMotionReadsReturnTheirFields
  refine ⟨fun c n mem => eq_of_listed Cause.code _ (by decide) mem, ?_⟩
  intro s tag ht hl replies mark opt2 clock numbers states counts
  have seen := unlessLoading_eq hl
  have replied {i : Instr} {r : Request} {st : Status} {data : List Byte} (hi : i.request? = some (tag, r))
      (hr : isRead r = true) (hd : decideRequest s.st r = (st, data, s.st)) : replies i (requestCode r) st data :=
    exec_answer hi ht hl hr hd
  refine ⟨fun k hk => ?_, ?_, fun k page hk => ?_, ?_, fun z hz => ?_, ?_⟩
  · have hk : Config.slots ≤ k := hk
    exact replied (r := .readIncident k) rfl rfl
      (by simp only [decideRequest, Station.readIncident, seen, hk, if_true, refuse])
  · intro k hk r live
    have hk : ¬ Config.slots ≤ k := Nat.not_le.mpr hk
    have planning : s.st.computing k = true ↔ live := computing_iff s.st k
    refine ⟨(s.st.plannerPosition k).1, (s.st.plannerPosition k).2, replied (r := .readIncident k) rfl rfl ?_,
      fun h => ?_, fun h hq => ?_, fun h hq => ?_⟩
    · simp only [decideRequest, Station.readIncident, seen, hk, if_false, slotState_code, markByte_eq, optClock,
        Machine.opt4, Option.isSome_map]
      rfl
    · rw [Station.plannerPosition, if_pos (planning.mpr h)]
      exact ⟨rfl, rfl⟩
    · rw [Station.plannerPosition, if_neg (h ∘ planning.mp), if_neg (by simpa using hq)]
      exact ⟨rfl, rfl⟩
    · rw [Station.plannerPosition, if_neg (h ∘ planning.mp), if_pos (by simpa using hq)]
      exact ⟨rfl, rfl⟩
  · have hk : Config.slots ≤ k := hk
    exact replied (r := .readPlan k page) rfl rfl
      (by simp only [decideRequest, Station.readPlan, seen, hk, if_true, refuse])
  · intro k page hk r entry report pages
    have hk : ¬ Config.slots ≤ k := Nat.not_le.mpr hk
    have paged (es : List Entry)
        (hd : s.st.readPlan k page = if max 1 (ceilDiv es.length 8) ≤ page then refuse .outOfRange s.st
          else (.ok, counted Station.entryData ((es.drop (8 * page)).take 8) ++
            (if page = 0 then byte2 es.length ++ Station.reportData (s.st.slot k).report else []), s.st)) : pages es := by
      have entered : Station.entryData = entry := by
        funext e
        simp only [Station.entryData, entryKind_code, entryState_code, markByte_eq, Machine.opt2, HaltSet.mask]
        rfl
      have reported : Station.reportData (s.st.slot k).report = report := by
        simp only [report, r]
        cases (s.st.slot k).report <;> simp only [Station.reportData, markByte_eq] <;> rfl
      have len : ceilDiv es.length 8 = (es.length + 7) / 8 := rfl
      rw [len, entered, reported] at hd
      refine ⟨fun hp => replied (r := .readPlan k page) rfl rfl (hd.trans (if_pos hp)), fun hp => ?_⟩
      exact replied (r := .readPlan k page) rfl rfl (hd.trans (if_neg (Nat.not_le.mpr hp)))
    refine ⟨fun h => ?_, fun h => ?_, fun h => ?_⟩
    · simp only [List.mem_cons, List.not_mem_nil, or_false] at h
      refine replied (r := .readPlan k page) rfl rfl ?_
      simp only [decideRequest, Station.readPlan, seen, hk, if_false]
      rcases h with h | h <;> simp only [r] at h <;> simp only [h, refuse]
    · simp only [List.mem_cons, List.not_mem_nil, or_false] at h
      refine paged r.reopen ?_
      simp only [Station.readPlan, seen, hk, if_false]
      rcases h with h | h <;> simp only [r] at h <;> simp only [h, r]
    · simp only [List.mem_cons, List.not_mem_nil, or_false] at h
      refine paged r.work ?_
      simp only [Station.readPlan, seen, hk, if_false]
      rcases h with h | h | h | h | h <;> simp only [r] at h <;> simp only [h, r]
  · have hz : Config.zones ≤ z := hz
    exact replied (r := .readMotion z) rfl rfl
      (by simp only [decideRequest, Station.readMotion, seen, hz, if_true, refuse])
  · intro z hz inside pending among owner stroke strokes first
    have hz : ¬ Config.zones ≤ z := Nat.not_le.mpr hz
    refine replied (r := .readMotion z) rfl rfl ?_
    simp only [decideRequest, Station.readMotion, seen, hz, if_false, markByte_eq, List.flatMap_cons, List.flatMap_nil,
      List.append_nil, length_class0, length_class1, length_class2, length_class3, length_class4, counted]
    have told : s.st.strokeData = stroke := by
      funext r
      have code : ownerCode (some r.owner) = (owner r.owner).1 := by cases r.owner <;> rfl
      have slot : ownerSlot (some r.owner) = (owner r.owner).2 := by cases r.owner <;> rfl
      simp only [Station.strokeData, phase_code, markByte_eq, Machine.opt2, code, slot]
      rfl
    refine Prod.ext rfl (Prod.ext ?_ rfl)
    rw [told]
    simp only [List.append_assoc]
    rfl

end Sys2Proof.Machine
end

section
/-! The segment edits (R13, R14; log entries 16 and 23). -/

namespace Sys2Proof.Machine

variable {s : State} {x : Station}

theorem mark?_toNat (b : Bool) : mark? b.toNat = some b := by cases b <;> rfl

/-- An edit that the block takes without a notice. -/
theorem exec_editTaken {i : Instr} {t : Byte} {r : Request} (hi : i.request? = some (t, r)) (h : s.taking)
    (he : s.st.editable) (hr : Request.ofLink r = false) {n : Nat} {y : Station}
    (hd : decideRequest s.st r = editTaken n y) (ho : y.outbox = []) :
    exec i s = .next (s.replied t (requestCode r) .ok (byte2 n) y) :=
  exec_quiet i t r hi h he.1 hr hd ho

namespace Station

/-- The station with the segment's record stored and the sources counted again. -/
def segmentPut (x : Station) (n : Nat) (r : Segment) : Station :=
  { x with nt := { x.nt with segments := x.nt.segments.put n r, sourceCount := countSources (x.nt.segments.put n r) } }

/-- Every sensor of a segment takes the pace of its zone (log entry 16). -/
def sampleSegment (x : Station) (n : Nat) : Station :=
  x.nt.sensors.foldl (fun s p => if p.2.segment = n then s.sampleByZone p.1 else s) x

/-- What the pace of a zone makes of the node entries named by some of the sensors of a segment. -/
structure Paced (x y : Station) (n : Nat) (ps : List (Nat × Sensor)) : Prop where
  rest : y = { x with lineA := y.lineA, lineB := y.lineB }
  canonical : y.canonical = true
  lines : ∀ l, ({ y.line l with nodes := [] } : FieldLine) = { x.line l with nodes := [] }
  nodes : ∀ m, y.node m = if ∃ p ∈ ps, p.2.segment = n ∧ p.2.node = m then
    { x.node m with sampleDue := if (x.zoneWatch (x.zoneOfSegment n)).state = .quiet then none else some x.clock }
    else x.node m

theorem Paced.step {x y : Station} {n : Nat} {ps : List (Nat × Sensor)} (h : Paced x y n ps) {p : Nat × Sensor}
    (hp : x.sensor? p.1 = some p.2) :
    Paced x (if p.2.segment = n then y.sampleByZone p.1 else y) n (ps ++ [p]) := by
  obtain ⟨rest, c, lines, nodes⟩ := h
  split
  · rename_i hn
    have hs : y.sensor? p.1 = some p.2 := by rw [rest]; exact hp
    have e : y.sampleByZone p.1 = y.modNode p.2.node fun e =>
        { e with sampleDue := if (x.zoneWatch (x.zoneOfSegment n)).state = .quiet then none else some x.clock } := by
      have hz : y.zoneWatch (y.zoneOfSegment p.2.segment) = x.zoneWatch (x.zoneOfSegment n) := by rw [rest, hn]; rfl
      have hc : y.clock = x.clock := by rw [rest]
      unfold Station.sampleByZone
      rw [hs]
      dsimp only
      rw [hz, hc]
      by_cases quiet : (x.zoneWatch (x.zoneOfSegment n)).state = .quiet <;> simp [quiet]
    rw [e]
    refine ⟨?_, canonical_modNode _ c _ _, fun l => ?_, fun m => ?_⟩
    · rw [modNode_lines, rest]
    · rw [← lines l]
      obtain ⟨l', a⟩ := p.2.node
      cases l' <;> cases l <;> rfl
    · rw [node_modNode c]
      by_cases hm : m = p.2.node
      · subst hm
        have named : ∃ q ∈ ps ++ [p], q.2.segment = n ∧ q.2.node = p.2.node := ⟨p, by simp, hn, rfl⟩
        rw [if_pos rfl, if_pos named, nodes]
        split <;> rfl
      · rw [if_neg hm, nodes]
        refine if_congr ⟨?_, ?_⟩ rfl rfl
        · rintro ⟨q, hq, h1, h2⟩
          exact ⟨q, by simp [hq], h1, h2⟩
        · rintro ⟨q, hq, h1, h2⟩
          simp only [List.mem_append, List.mem_singleton] at hq
          rcases hq with hq | rfl
          · exact ⟨q, hq, h1, h2⟩
          · exact absurd h2.symm hm
  · rename_i hn
    refine ⟨rest, c, lines, fun m => ?_⟩
    rw [nodes]
    refine if_congr ⟨?_, ?_⟩ rfl rfl
    · rintro ⟨q, hq, h1, h2⟩
      exact ⟨q, by simp [hq], h1, h2⟩
    · rintro ⟨q, hq, h1, h2⟩
      simp only [List.mem_append, List.mem_singleton] at hq
      rcases hq with hq | rfl
      · exact ⟨q, hq, h1, h2⟩
      · exact absurd h1 hn

theorem sampleSegment_paced (x : Station) (c : x.canonical = true) (n : Nat) :
    Paced x (x.sampleSegment n) n x.nt.sensors := by
  have listed (p : Nat × Sensor) (hp : p ∈ x.nt.sensors) : x.sensor? p.1 = some p.2 :=
    (Table.find_iff_mem _ (canonical_netTidy c).2.2.2.1 p.1 p.2).mpr hp
  have go (qs ps : List (Nat × Sensor)) (y : Station) (h : Paced x y n ps) (hq : ∀ p ∈ qs, x.sensor? p.1 = some p.2) :
      Paced x (qs.foldl (fun s p => if p.2.segment = n then s.sampleByZone p.1 else s) y) n (ps ++ qs) := by
    induction qs generalizing ps y with
    | nil => simpa using h
    | cons q qs ih =>
      rw [List.append_cons]
      exact ih _ _ (h.step (hq q (by simp))) fun p hp => hq p (by simp [hp])
  exact go x.nt.sensors [] x ⟨rfl, c, fun _ => rfl, fun _ => by simp⟩ listed

/-- What PUT_SEGMENT stores. -/
def segmentEdited (x : Station) (n : Nat) (r : Segment) : Station :=
  let y := if (∃ o, x.segment? n = some o ∧ o.zone ≠ r.zone) then (x.segmentPut n r).sampleSegment n else x.segmentPut n r
  if (x.segment? n).isSome ∧ (x.segment? n).map (fun o => (o.connections, o.priority)) ≠ some (r.connections, r.priority)
  then y.markStale else y

theorem putSegment_eq (he : x.editable) {n z c : Nat} {src pri : Bool} {name : List Byte} {tg : Option (List Byte)}
    (hn : n < 512) (hz : z < 16) (ht : nameTag? name = some tg) :
    x.putSegment n z src.toNat c pri.toNat name =
      (if (decide ((x.segment? n).map (·.zone) ≠ some z ∨ ((x.segment? n).map (·.source)).getD false ≠ src) &&
          !x.allFree) = true then refuse .incidentActive x
        else if (src && !((x.segment? n).map (·.source)).getD false && decide (24 ≤ x.nt.sourceCount)) = true then
          refuse .tableFull x
        else editTaken (if c ≤ 65535 then 0 else 1) (x.segmentEdited n
          { zone := z, source := src, connections := min c 65535, priority := pri, name := tg })) := by
  have range : ¬ (Config.segments ≤ n ∨ Config.zones ≤ z) := by simp only [Config.segments, Config.zones]; omega
  have kept : clamp 0 65535 c = min c 65535 := by simp [clamp]
  have counted : clampedOne c (min c 65535) = if c ≤ 65535 then 0 else 1 := by
    unfold clampedOne
    refine if_congr ?_ rfl rfl
    omega
  have moved (o : Option Segment) : ((o.map (·.zone)).isSome && decide (o.map (·.zone) ≠ some z)) = true ↔
      ∃ r, o = some r ∧ r.zone ≠ z := by
    cases o <;> simp
  unfold Station.putSegment
  rw [editBar_editable he, mark?_toNat, mark?_toNat, ht]
  simp only [if_neg range, kept, counted]
  simp only [moved]
  rfl

/-- What PUT_SEGMENT leaves and what it changes. -/
structure SegmentStored (x y : Station) (n : Nat) (r : Segment) (moved : Prop) : Prop where
  here : y.segment? n = some r
  others : ∀ m, m ≠ n → y.segment? m = x.segment? m
  sources : y.nt.sourceCount = y.nt.segments.countP (fun p => p.2.source)
  network : { y.nt with segments := x.nt.segments, sourceCount := x.nt.sourceCount } = x.nt
  rest : y = { x with nt := y.nt, ip := y.ip, lineA := y.lineA, lineB := y.lineB }
  lines : ∀ l, ({ y.line l with nodes := [] } : FieldLine) = { x.line l with nodes := [] }
  paced : moved → ∀ p ∈ x.nt.sensors, p.2.segment = n → y.node p.2.node =
    { x.node p.2.node with sampleDue := if (x.zoneWatch r.zone).state = .quiet then none else some x.clock }
  still : ∀ m, (moved → ∀ p ∈ x.nt.sensors, p.2.segment = n → p.2.node ≠ m) → y.node m = x.node m

theorem segmentPut_stored (x : Station) (n : Nat) (r : Segment) : SegmentStored x (x.segmentPut n r) n r False where
  here := Table.find_put_same n r x.nt.segments
  others m hm := Table.find_put_other n m r x.nt.segments hm
  sources := rfl
  network := rfl
  rest := rfl
  lines _ := rfl
  paced h := h.elim
  still _ _ := rfl

theorem sampleSegment_stored (c : x.canonical = true) (n : Nat) (r : Segment) :
    SegmentStored x ((x.segmentPut n r).sampleSegment n) n r True := by
  have stored := segmentPut_stored x n r
  have c1 : (x.segmentPut n r).canonical = true :=
    canonical_edit x c { x.nt with
      segments := x.nt.segments.put n r, sourceCount := countSources (x.nt.segments.put n r) }
      fun ⟨a, b⟩ => ⟨Table.wf_put _ _ _ a, b⟩
  have zone : (x.segmentPut n r).zoneOfSegment n = r.zone := by
    unfold Station.zoneOfSegment
    rw [stored.here]
    rfl
  obtain ⟨rest, -, lines, nodes⟩ := sampleSegment_paced _ c1 n
  rw [zone] at nodes
  generalize (x.segmentPut n r).sampleSegment n = y at rest lines nodes ⊢
  have net : y.nt = (x.segmentPut n r).nt := by rw [rest]
  exact
    { here := by unfold segment?; rw [net]; exact stored.here
      others := fun m hm => by unfold segment?; rw [net]; exact stored.others m hm
      sources := by rw [net]; rfl
      network := by rw [net]; rfl
      rest := by rw [rest]; rfl
      lines := lines
      paced := fun _ p hp hn => (nodes p.2.node).trans (if_pos ⟨p, hp, hn, rfl⟩)
      still := fun m h => (nodes m).trans (if_neg fun ⟨p, hp, hn, e⟩ => h trivial p hp hn e) }

theorem SegmentStored.iff {y : Station} {n : Nat} {r : Segment} {m m' : Prop} (h : SegmentStored x y n r m) (e : m ↔ m') :
    SegmentStored x y n r m' := propext e ▸ h

theorem SegmentStored.markStale {y : Station} {n : Nat} {r : Segment} {m : Prop} (h : SegmentStored x y n r m) :
    SegmentStored x y.markStale n r m := by
  obtain ⟨here, others, sources, network, rest, lines, paced, still⟩ := h
  refine ⟨here, others, sources, network, ?_, fun l => ?_, paced, still⟩
  · unfold Station.markStale Station.modFlight
    rw [rest]
  · rw [← lines l]
    cases l <;> rfl

theorem segmentEdited_stored (c : x.canonical = true) (n : Nat) (r : Segment) :
    SegmentStored x (x.segmentEdited n r) n r (∃ o, x.segment? n = some o ∧ o.zone ≠ r.zone) := by
  have base : SegmentStored x (if (∃ o, x.segment? n = some o ∧ o.zone ≠ r.zone) then (x.segmentPut n r).sampleSegment n
      else x.segmentPut n r) n r (∃ o, x.segment? n = some o ∧ o.zone ≠ r.zone) := by
    split
    · rename_i h; exact (sampleSegment_stored c n r).iff (iff_of_true trivial h)
    · rename_i h; exact (segmentPut_stored x n r).iff (iff_of_false id h)
  unfold segmentEdited
  dsimp only
  split
  · exact base.markStale
  · exact base

theorem segmentEdited_ip (c : x.canonical = true) (n : Nat) (r : Segment) : (x.segmentEdited n r).ip =
    if (x.segment? n).isSome ∧
      (x.segment? n).map (fun o => (o.connections, o.priority)) ≠ some (r.connections, r.priority)
    then x.markStale.ip else x.ip := by
  have base : (if (∃ o, x.segment? n = some o ∧ o.zone ≠ r.zone) then (x.segmentPut n r).sampleSegment n
      else x.segmentPut n r).ip = x.ip := by
    split
    · have c1 : (x.segmentPut n r).canonical = true :=
        canonical_edit x c { x.nt with
          segments := x.nt.segments.put n r, sourceCount := countSources (x.nt.segments.put n r) }
          fun ⟨a, b⟩ => ⟨Table.wf_put _ _ _ a, b⟩
      rw [(sampleSegment_paced _ c1 n).rest]
      rfl
    · rfl
  have marked (y : Station) (h : y.ip = x.ip) : y.markStale.ip = x.markStale.ip := by
    unfold Station.markStale Station.modFlight
    rw [h]
  unfold segmentEdited
  dsimp only
  split
  · exact marked _ base
  · exact base

theorem deleteSegment_eq (he : x.editable) {n : Nat} (hn : n < 512) {r : Segment} (hr : x.segment? n = some r) :
    x.deleteSegment n =
      if x.allFree = false then refuse .incidentActive x
      else if (x.nt.valves.any (fun p => decide (p.2.sideA = n ∨ p.2.sideB = n)) ||
          x.nt.sensors.any (fun p => decide (p.2.segment = n))) = true then refuse .badTopology x
      else editTaken 0 { x with nt := { x.nt with
        segments := x.nt.segments.drop n, sourceCount := countSources (x.nt.segments.drop n) } } := by
  have range : ¬ Config.segments ≤ n := Nat.not_le.mpr hn
  unfold Station.deleteSegment
  rw [editBar_editable he]
  dsimp only
  rw [if_neg range, hr]

end Station

/-- Settles O16. -/
theorem segmentEditsStoreAndRemoveTheRecord : Obligations.SegmentEditsStoreAndRemoveTheRecord := by
  unfold Obligations.SegmentEditsStoreAndRemoveTheRecord
  refine ⟨?_, ?_, ?_⟩
  · intro s tag n z src c pri name ht he h
    exact exec_editRefused (r := .putSegment n z src c pri name) rfl ht he rfl (putSegment_range he h)
  · intro s tag n z c src pri name tg ht he hc hn hz hname i old stored moved carried topology refused
    have decided := Station.putSegment_eq (x := s.st) he (src := src) (pri := pri) (c := c) hn hz hname
    have admits (h : topology → s.st.allFree = true) :
        (decide (old.map (·.zone) ≠ some z ∨ carried ≠ src) && !s.st.allFree) = false := by
      by_cases ht : topology
      · simp [h ht]
      · have : decide (old.map (·.zone) ≠ some z ∨ carried ≠ src) = false := decide_eq_false ht
        rw [this]
        rfl
    refine ⟨fun ht' hf => ?_, fun ha hs hc' hcount => ?_, fun ha hs => ?_⟩
    · refine exec_editRefused (r := .putSegment n z src.toNat c pri.toNat name) rfl ht he rfl (decided.trans (if_pos ?_))
      have : decide (old.map (·.zone) ≠ some z ∨ carried ≠ src) = true := decide_eq_true ht'
      rw [hf]
      exact (congrArg (· && true) this)
    · refine exec_editRefused (r := .putSegment n z src.toNat c pri.toNat name) rfl ht he rfl
        ((decided.trans (if_neg (by rw [admits ha]; simp))).trans (if_pos ?_))
      have : ((s.st.segment? n).map (·.source)).getD false = false := hc'
      simp [hs, this, hcount]
    · have room : ¬ (src && !((s.st.segment? n).map (·.source)).getD false && decide (24 ≤ s.st.nt.sourceCount)) = true := by
        intro h
        simp only [Bool.and_eq_true, Bool.not_eq_true', decide_eq_true_eq] at h
        have := hs h.1.1 h.1.2
        omega
      obtain ⟨here, others, sources, network, rest, lines, paced, still⟩ := Station.segmentEdited_stored hc n stored
      refine ⟨s.st.segmentEdited n stored, ?_, here, others, sources, network, ?_, ?_, ?_, ?_, ?_, ?_, ?_, ?_, ?_, lines,
        paced, still, Station.segmentEdited_ip hc n stored⟩
      · refine exec_editTaken (r := .putSegment n z src.toNat c pri.toNat name) rfl ht he rfl
          ((decided.trans (if_neg (by rw [admits ha]; simp))).trans (if_neg room)) ?_
        rw [rest]
        exact ht.2.2.2
      all_goals rw [rest]
      exact ht.2.2.2
  · intro s tag n ht he hc refused named
    have segs := (Station.canonical_netTidy hc).1
    have bad {st : Status} (hd : s.st.deleteSegment n = refuse st s.st) : refused st :=
      exec_editRefused (r := .deleteSegment n) rfl ht he rfl hd
    have bar := editBar_editable he
    have present (h : (s.st.segment? n).isSome = true) : ∃ r, s.st.segment? n = some r := Option.isSome_iff_exists.mp h
    have names : (s.st.nt.valves.any (fun p => decide (p.2.sideA = n ∨ p.2.sideB = n)) ||
        s.st.nt.sensors.any (fun p => decide (p.2.segment = n))) = true ↔ named := by
      simp only [Bool.or_eq_true, List.any_eq_true, decide_eq_true_eq]
      rfl
    refine ⟨fun hn => bad ?_, fun hn none => bad ?_, fun hn h hf => bad ?_, fun hn h hf hnamed => bad ?_,
      fun hn h hf hnamed => ?_⟩
    · have hn : Config.segments ≤ n := hn
      simp only [Station.deleteSegment, bar, hn, if_true]
    · have hn : ¬ Config.segments ≤ n := Nat.not_le.mpr hn
      simp only [Station.deleteSegment, bar, hn, if_false, none]
    · obtain ⟨r, hr⟩ := present h
      rw [Station.deleteSegment_eq he hn hr, if_pos hf]
    · obtain ⟨r, hr⟩ := present h
      rw [Station.deleteSegment_eq he hn hr, if_neg (by simp [hf]), if_pos (names.mpr hnamed)]
    · obtain ⟨r, hr⟩ := present h
      refine ⟨_, exec_editTaken (r := .deleteSegment n) rfl ht he rfl ((Station.deleteSegment_eq he hn hr).trans
        ((if_neg (by simp [hf])).trans (if_neg (hnamed ∘ names.mp)))) ht.2.2.2, Table.find_drop_same _ _ segs,
        fun m hm => Table.find_drop_other _ _ _ segs hm, rfl, rfl, rfl⟩

end Sys2Proof.Machine
end

section
/-! The new times of entries that wait (R22): what an edit of a planner input makes of each entry. -/

namespace Sys2Proof.Machine.Station

variable {s t u : Station} {k K v W : Nat} {ro RO : Bool} {p : Profile}

/-- The entry with the Tcmd and the mark of a profile. -/
def timed (p : Profile) (e : Entry) : Entry := { e with tcmd := p.tcmd, limited := p.limited }

/-- The notice of a mark newly gained. -/
def gained (s : Station) (k v : Nat) (p : Profile) : Notice :=
  { kind := .surgeLimited, clock := s.clock / 10, slot := some k, valve := some v, zone := s.zoneOfValve? v
    value := some p.treq }

/-- How far the entries have got their new times, seen at one entry; `b` says that its turn has been. -/
structure Retiming (s t : Station) (K : Nat) (RO : Bool) (W : Nat) (p : Profile) (b : Bool) : Prop where
  rest : t = { s with im := { s.im with slots := t.im.slots }, outbox := t.outbox }
  canonical : t.canonical = true
  slots : ∀ k, ({ t.slot k with work := [], reopen := [] } : Slot) = { s.slot k with work := [], reopen := [] }
  posted : ∃ ns, t.outbox = s.outbox ++ ns
  entry : t.entryIn K RO W = (s.entryIn K RO W).map fun e => if b = true ∧ waits e = true then timed p e else e
  told : b = true → ∀ e, s.entryIn K RO W = some e → waits e = true → p.limited = true → e.limited = false →
    s.gained K W p ∈ t.outbox

theorem Retiming.refl (c : s.canonical = true) : Retiming s s K RO W p false where
  rest := rfl
  canonical := c
  slots _ := rfl
  posted := ⟨[], by simp⟩
  entry := by cases s.entryIn K RO W <;> simp
  told h := nomatch h

/-- A list names a valve where it has an entry of it. -/
theorem any_valve_iff (es : List Entry) (v : Nat) : es.any (fun e => decide (e.valve = v)) = (entryOf? es v).isSome := by
  unfold entryOf?
  rw [Bool.eq_iff_iff, List.find?_isSome, List.any_eq_true]

theorem profileOf_of_rest (h : t = { s with im := { s.im with slots := t.im.slots }, outbox := t.outbox }) (v : Nat)
    (r : Valve) : profileOf t v r = profileOf s v r := by
  rw [h]
  rfl

theorem slots_modIn (c : t.canonical = true) (f : Entry → Entry) (j : Nat) :
    ({ (t.modIn k ro v f).slot j with work := [], reopen := [] } : Slot) = { t.slot j with work := [], reopen := [] } := by
  have e (g : Slot → Slot) (hg : ∀ r, ({ g r with work := [], reopen := [] } : Slot) = { r with work := [], reopen := [] }) :
      ({ (t.modSlot k g).slot j with work := [], reopen := [] } : Slot) = { t.slot j with work := [], reopen := [] } := by
    rw [slot_modSlot c]
    split
    · rename_i hj; rw [hg, hj]
    · rfl
  cases ro with
  | true => exact e (fun r => { r with reopen := modEntry r.reopen v f }) fun _ => rfl
  | false => exact e (fun r => { r with work := modEntry r.work v f }) fun _ => rfl

theorem rest_modIn (f : Entry → Entry) :
    t.modIn k ro v f = { t with im := { t.im with slots := (t.modIn k ro v f).im.slots } } := by
  cases ro <;> rfl

theorem canonical_modIn (c : t.canonical = true) (f : Entry → Entry) : (t.modIn k ro v f).canonical = true := by
  cases ro with
  | true => exact canonical_modSlot k (fun r => { r with reopen := modEntry r.reopen v f }) c
  | false => exact canonical_modSlot k (fun r => { r with work := modEntry r.work v f }) c

/-- Where the entry does not wait its turn changes nothing. -/
theorem Retiming.idle {b : Bool} (h : Retiming s t K RO W p b) (c : Bool)
    (idle : ∀ e, s.entryIn K RO W = some e → waits e = false) : Retiming s t K RO W p c where
  rest := h.rest
  canonical := h.canonical
  slots := h.slots
  posted := h.posted
  entry := by
    rw [h.entry]
    cases hs : s.entryIn K RO W with
    | none => rfl
    | some e => simp [idle e hs]
  told _ e he hw := by
    rw [idle e he] at hw
    cases hw

/-- A retimed entry, where its valve is present. -/
theorem retimeEntry_waiting {e : Entry} {r : Valve} (he : t.entryIn k ro v = some e) (hr : t.valve? v = some r)
    (hw : waits e = true) : t.retimeEntry false k ro v =
      if (profileOf t v r).limited ∧ e.limited = false then
        { t.modIn k ro v (timed (profileOf t v r)) with
          outbox := t.outbox ++ [t.gained k v (profileOf t v r)] }
      else t.modIn k ro v (timed (profileOf t v r)) := by
  have hw : e.state = .pending ∨ e.state = .halted := by simpa [waits] using hw
  unfold Station.retimeEntry Station.setTime
  simp only [he, hr, hw, if_true, Bool.false_eq_true, false_and, if_false]
  split
  · cases ro <;> rfl
  · rfl

theorem retimeEntry_other (h : t.entryIn k ro v = none ∨ t.valve? v = none ∨
    ∃ e, t.entryIn k ro v = some e ∧ waits e = false) : t.retimeEntry false k ro v = t := by
  unfold Station.retimeEntry
  split
  · rename_i e r he hr
    rcases h with h | h | ⟨e', h, hw⟩
    · rw [h] at he; cases he
    · rw [h] at hr; cases hr
    · rw [h] at he
      cases he
      rw [if_neg (by simpa [waits] using hw)]
  · rfl

theorem waits_timed (e : Entry) : waits (timed p e) = waits e := rfl

theorem timed_timed (e : Entry) : timed p (timed p e) = timed p e := rfl

/-- The entry of the turn in its new time. -/
theorem Retiming.rewritten {b : Bool} (h : Retiming s t K RO W p b) {e : Entry} (he : t.entryIn k ro v = some e)
    (hw : waits e = true) (q : Profile) (hq : v = W → q = p) (ns : List Notice)
    (hn : q.limited = true → e.limited = false → t.gained k v q ∈ ns) :
    Retiming s { t.modIn k ro v (timed q) with outbox := t.outbox ++ ns } K RO W p
      (b || decide (k = K ∧ ro = RO ∧ v = W)) := by
  obtain ⟨rest, c, slots, ⟨os, posted⟩, entry, told⟩ := h
  have found : (t.modIn k ro v (timed q)).entryIn K RO W =
      (t.entryIn K RO W).map fun e => if K = k ∧ RO = ro ∧ W = v then timed q e else e :=
    entryIn_modIn c k K ro RO v W (timed q) fun _ => rfl
  have gone (a : Nat) (r : Profile) : t.gained a v r = s.gained a v r := by rw [rest]; rfl
  refine ⟨?_, canonical_modIn c (timed q), fun j => (slots_modIn c (timed q) j).trans (slots j), ⟨os ++ ns, ?_⟩, ?_, ?_⟩
  · rw [rest_modIn, rest]
  · rw [posted, List.append_assoc]
  · refine found.trans ?_
    by_cases here : k = K ∧ ro = RO ∧ v = W
    · obtain ⟨rfl, rfl, rfl⟩ := here
      rw [hq rfl, entry]
      cases hs : s.entryIn k ro v with
      | none => rfl
      | some e0 =>
        rw [entry, hs, Option.map_some, Option.some_inj] at he
        have w0 : waits e0 = true := by
          rw [← he] at hw
          split at hw
          · exact hw
          · exact hw
        simp only [Option.map_some, w0, and_true, and_self, decide_true, Bool.or_true, if_true]
        split <;> rfl
    · have other : ¬ (K = k ∧ RO = ro ∧ W = v) := fun ⟨h1, h2, h3⟩ => here ⟨h1.symm, h2.symm, h3.symm⟩
      simp only [other, here, decide_false, Bool.or_false, if_false, Option.map_id']
      exact entry
  · intro turn e0 hs w0 limited unlimited
    show s.gained K W p ∈ t.outbox ++ ns
    rw [List.mem_append]
    by_cases before : b = true
    · exact .inl (told before e0 hs w0 limited unlimited)
    · simp only [before, Bool.false_or, decide_eq_true_eq] at turn
      obtain ⟨rfl, rfl, rfl⟩ := turn
      have same : e = e0 := by
        rw [entry, hs, Option.map_some, Option.some_inj] at he
        rw [← he, if_neg (fun h => before h.1)]
      have hp := hq rfl
      subst same hp
      exact .inr (gone k q ▸ hn limited unlimited)

/-- The turn of one entry. -/
theorem Retiming.retimeEntry {b : Bool} (h : Retiming s t K RO W p b) (k : Nat) (ro : Bool) (v : Nat)
    (hp : v = W → ∃ r, s.valve? W = some r ∧ p = profileOf s W r) :
    Retiming s (t.retimeEntry false k ro v) K RO W p (b || decide (k = K ∧ ro = RO ∧ v = W)) := by
  have valves (w : Nat) : t.valve? w = s.valve? w := by rw [h.rest]; rfl
  by_cases hw : ∃ e r, t.entryIn k ro v = some e ∧ t.valve? v = some r ∧ waits e = true
  · obtain ⟨e, r, he, hr, hw⟩ := hw
    have same : v = W → profileOf t v r = p := by
      rintro rfl
      obtain ⟨r', hr', rfl⟩ := hp rfl
      rw [valves, hr'] at hr
      cases hr
      exact profileOf_of_rest h.rest v r
    rw [retimeEntry_waiting he hr hw]
    split
    · exact h.rewritten he hw _ same _ fun _ _ => by simp
    · rename_i none
      have := h.rewritten he hw _ same [] fun h1 h2 => absurd ⟨h1, h2⟩ none
      rw [List.append_nil] at this
      cases ro <;> exact this
  · have other : t.retimeEntry false k ro v = t := by
      refine retimeEntry_other ?_
      cases he : t.entryIn k ro v with
      | none => exact .inl rfl
      | some e =>
        cases hr : t.valve? v with
        | none => exact .inr (.inl rfl)
        | some r =>
          refine .inr (.inr ⟨e, rfl, ?_⟩)
          by_contra w
          exact hw ⟨e, r, he, hr, by simpa using w⟩
    rw [other]
    by_cases here : k = K ∧ ro = RO ∧ v = W
    · obtain ⟨rfl, rfl, rfl⟩ := here
      refine h.idle _ fun e he => ?_
      obtain ⟨r, hr, -⟩ := hp rfl
      by_contra w
      have there : t.entryIn k ro v = some (if b = true ∧ waits e = true then timed p e else e) := by
        rw [h.entry, he, Option.map_some]
      refine hw ⟨_, r, there, (valves v).trans hr, ?_⟩
      split
      · exact (by simpa using w : waits e = true)
      · simpa using w
    · simpa only [here, decide_false, Bool.or_false] using h

/-- The turn of one entry of a valve that is, or is not, retimed; the entry of an absent valve stands. -/
theorem Retiming.turn {b : Bool} (h : Retiming s t K RO W p b) (m : Nat → Bool) (k : Nat) (ro : Bool) (v : Nat)
    (hp : m W = true → ∃ r, s.valve? W = some r ∧ p = profileOf s W r) {c : Prop} [Decidable c]
    (hc : (m v = true → c) ∧ (c → m v = true ∨ s.valve? v = none)) :
    Retiming s (if c then t.retimeEntry false k ro v else t) K RO W p
      (b || decide (k = K ∧ ro = RO ∧ v = W ∧ m W = true)) := by
  by_cases hm : m v = true
  · rw [if_pos (hc.1 hm)]
    have := h.retimeEntry k ro v fun e => hp (e ▸ hm)
    have same : (k = K ∧ ro = RO ∧ v = W ∧ m W = true) ↔ (k = K ∧ ro = RO ∧ v = W) := by
      constructor
      · rintro ⟨h1, h2, h3, -⟩; exact ⟨h1, h2, h3⟩
      · rintro ⟨h1, h2, h3⟩; exact ⟨h1, h2, h3, h3 ▸ hm⟩
    simpa only [same] using this
  · have none : ¬ (k = K ∧ ro = RO ∧ v = W ∧ m W = true) := fun h => hm (h.2.2.1 ▸ h.2.2.2)
    have still : (if c then t.retimeEntry false k ro v else t) = t := by
      split
      · rename_i hcv
        have absent : t.valve? v = .none := by
          rw [h.rest]
          exact (hc.2 hcv).resolve_left hm
        exact retimeEntry_other (.inr (.inl absent))
      · rfl
    rw [still]
    simpa only [none, decide_false, Bool.or_false] using h

section
variable {m : Nat → Bool} {c : Station → Nat → Prop} [∀ u v, Decidable (c u v)]

/-- The condition names the valves `m`, and of the present ones no other, as long as the network stands. -/
def Names (s : Station) (c : Station → Nat → Prop) (m : Nat → Bool) : Prop :=
  ∀ u v, u.nt = s.nt → (m v = true → c u v) ∧ (c u v → m v = true ∨ s.valve? v = none)

/-- Retime the entry where its valve is one of those named. -/
def retimeWhere (c : Station → Nat → Prop) [∀ u v, Decidable (c u v)] (s : Station) (k : Nat) (ro : Bool) (w : Nat) :
    Station := if c s w then s.retimeEntry false k ro w else s

/-- The turns of the entries of a list. -/
theorem Retiming.list (hp : m W = true → ∃ r, s.valve? W = some r ∧ p = profileOf s W r)
    (hc : Names s c m) (k : Nat) (ro : Bool) (es : List Entry) {b : Bool}
    (h : Retiming s t K RO W p b) :
    Retiming s (es.foldl (fun s e => retimeWhere c s k ro e.valve) t) K RO W p
      (b || (decide (k = K ∧ ro = RO ∧ m W = true) && (entryOf? es W).isSome)) := by
  induction es generalizing t b with
  | nil => simpa [entryOf?] using h
  | cons e es ih =>
    have first : Retiming s (retimeWhere c t k ro e.valve) K RO W p
        (b || decide (k = K ∧ ro = RO ∧ e.valve = W ∧ m W = true)) :=
      h.turn m k ro e.valve hp (hc t e.valve (by rw [h.rest]))
    have same : (b || decide (k = K ∧ ro = RO ∧ e.valve = W ∧ m W = true) ||
        (decide (k = K ∧ ro = RO ∧ m W = true) && (entryOf? es W).isSome)) =
        (b || (decide (k = K ∧ ro = RO ∧ m W = true) && (entryOf? (e :: es) W).isSome)) := by
      simp only [← any_valve_iff, List.any_cons]
      cases m W <;> by_cases hv : e.valve = W <;> by_cases hk : k = K <;> by_cases hr : ro = RO <;> simp [hv, hk, hr]
    have := ih first
    rw [same] at this
    exact this

theorem entryIn_isSome (h : Retiming s t K RO W p b) : (t.entryIn K RO W).isSome = (s.entryIn K RO W).isSome := by
  rw [h.entry, Option.isSome_map]

/-- The turns of the entries of a slot. -/
theorem Retiming.ofSlot (hp : m W = true → ∃ r, s.valve? W = some r ∧ p = profileOf s W r)
    (hc : Names s c m) (k : Nat) {b : Bool} (h : Retiming s t K RO W p b) :
    Retiming s (t.forEntriesOf k fun s ro v => retimeWhere c s k ro v) K RO W p
      (b || (decide (k = K ∧ m W = true) && (s.entryIn K RO W).isSome)) := by
  have closes := Retiming.list hp hc k false (t.slot k).work h
  have reopens := Retiming.list hp hc k true
    (((t.slot k).work.foldl (fun s e => retimeWhere c s k false e.valve) t).slot k).reopen closes
  have same : (b || (decide (k = K ∧ false = RO ∧ m W = true) && (entryOf? (t.slot k).work W).isSome) ||
      (decide (k = K ∧ true = RO ∧ m W = true) &&
        (entryOf? (((t.slot k).work.foldl (fun s e => retimeWhere c s k false e.valve) t).slot k).reopen W).isSome)) =
      (b || (decide (k = K ∧ m W = true) && (s.entryIn K RO W).isSome)) := by
    by_cases hk : k = K
    · subst hk
      cases RO with
      | false =>
        have : (entryOf? (t.slot k).work W).isSome = (s.entryIn k false W).isSome := entryIn_isSome h
        simp [this]
      | true =>
        have : (entryOf? (((t.slot k).work.foldl (fun s e => retimeWhere c s k false e.valve) t).slot k).reopen W).isSome =
            (s.entryIn k true W).isSome := entryIn_isSome closes
        simp [this]
    · simp [hk]
  rw [same] at reopens
  exact reopens

/-- The turns of all entries. -/
theorem Retiming.all (hp : m W = true → ∃ r, s.valve? W = some r ∧ p = profileOf s W r)
    (hc : Names s c m) (ks : List Nat) {b : Bool} (h : Retiming s t K RO W p b) :
    Retiming s (ks.foldl (fun s k => s.forEntriesOf k fun s ro v => retimeWhere c s k ro v) t) K RO W p
      (b || (decide (K ∈ ks ∧ m W = true) && (s.entryIn K RO W).isSome)) := by
  induction ks generalizing t b with
  | nil => simpa using h
  | cons k ks ih =>
    have := ih (h.ofSlot hp hc k)
    have same : (b || (decide (k = K ∧ m W = true) && (s.entryIn K RO W).isSome) ||
        (decide (K ∈ ks ∧ m W = true) && (s.entryIn K RO W).isSome)) =
        (b || (decide (K ∈ k :: ks ∧ m W = true) && (s.entryIn K RO W).isSome)) := by
      by_cases hk : k = K
      · subst hk; cases m W <;> cases (s.entryIn k RO W).isSome <;> simp
      · have hk' : ¬ K = k := fun e => hk e.symm
        simp [hk, hk']
    rw [same] at this
    exact this

end

/-- What a retiming leaves, and what it makes of the entries of the valves `m`. -/
structure RetimedAll (s t : Station) (m : Nat → Bool) : Prop where
  rest : t = { s with im := { s.im with slots := t.im.slots }, outbox := t.outbox }
  canonical : t.canonical = true
  slots : ∀ k, ({ t.slot k with work := [], reopen := [] } : Slot) = { s.slot k with work := [], reopen := [] }
  posted : ∃ ns, t.outbox = s.outbox ++ ns
  timed : ∀ v r, m v = true → s.valve? v = some r → s.Retimed t v (profileOf t v r)
  others : ∀ v, m v = false → s.EntriesStand t v

theorem retimeAll {m : Nat → Bool} {c : Station → Nat → Prop} [∀ u v, Decidable (c u v)] (can : s.canonical = true)
    (hm : ∀ w, m w = true → ∃ r, s.valve? w = some r) (hc : Names s c m) :
    RetimedAll s (s.forEntries fun s k ro w => retimeWhere c s k ro w) m := by
  have seen (K : Nat) (RO : Bool) (W : Nat) (p : Profile)
      (hp : m W = true → ∃ r, s.valve? W = some r ∧ p = profileOf s W r) :
      Retiming s (s.forEntries fun s k ro w => retimeWhere c s k ro w) K RO W p
        (decide (K ∈ slotNumbers ∧ m W = true) && (s.entryIn K RO W).isSome) := by
    have := Retiming.all hp hc slotNumbers (Retiming.refl (K := K) (RO := RO) (W := W) (p := p) can)
    rw [Bool.false_or] at this
    exact this
  generalize s.forEntries (fun s k ro w => retimeWhere c s k ro w) = t at seen ⊢
  have listed {k : Nat} (hk : k < 4) : k ∈ slotNumbers := by
    simp only [slotNumbers, List.mem_cons, List.not_mem_nil, or_false]
    omega
  obtain ⟨p, hp⟩ : ∃ p, m 0 = true → ∃ r, s.valve? 0 = some r ∧ p = profileOf s 0 r := by
    cases h : m 0 with
    | false => exact ⟨⟨0, 0, 0, false⟩, fun h => nomatch h⟩
    | true =>
      obtain ⟨r, hr⟩ := hm 0 h
      exact ⟨profileOf s 0 r, fun _ => ⟨r, hr, rfl⟩⟩
  obtain ⟨rest, canonical, slots, posted, -, -⟩ := seen 0 false 0 p hp
  refine ⟨rest, canonical, slots, posted, fun v r named hr k ro e hk he => ?_, fun v unnamed k ro hk => ?_⟩
  · rw [profileOf_of_rest rest]
    have turn := seen k ro v (profileOf s v r) fun _ => ⟨r, hr, rfl⟩
    have done : (decide (k ∈ slotNumbers ∧ m v = true) && (s.entryIn k ro v).isSome) = true := by
      simp [listed hk, named, he]
    rw [done] at turn
    refine ⟨?_, fun hw limited unlimited => ?_⟩
    · rw [turn.entry, he, Option.map_some]
      simp only [true_and]
      rfl
    · have told := turn.told rfl e he hw limited unlimited
      have same : s.gained k v (profileOf s v r) =
          { kind := .surgeLimited, clock := t.clock / 10, slot := some k, valve := some v, zone := t.zoneOfValve? v
            value := some (profileOf s v r).treq } := by
        rw [rest]
        rfl
      exact same ▸ told
  · have turn := seen k ro v p (fun h => by rw [unnamed] at h; cases h)
    have none : (decide (k ∈ slotNumbers ∧ m v = true) && (s.entryIn k ro v).isSome) = false := by simp [unnamed]
    rw [none] at turn
    rw [turn.entry]
    cases s.entryIn k ro v <;> simp

/-- The entries of one valve in their new times. -/
theorem retimeValve_all (can : s.canonical = true) (v : Nat) :
    RetimedAll s (s.retimeValve v) fun w => decide (w = v) && (s.valve? w).isSome := by
  refine retimeAll (c := fun _ w => w = v) can (fun w h => ?_) fun u w _ => ⟨fun h => ?_, fun h => ?_⟩
  · simp only [Bool.and_eq_true] at h
    exact Option.isSome_iff_exists.mp h.2
  · simp only [Bool.and_eq_true, decide_eq_true_eq] at h
    exact h.1
  · subst h
    cases s.valve? w <;> simp

/-- The entries of the valves of a zone in their new times. -/
theorem retimeZone_all (can : s.canonical = true) (z : Nat) :
    RetimedAll s (retimeZone false s z) fun w => decide (s.zoneOfValve? w = some z) := by
  refine retimeAll (c := fun u w => inZone z u w = true) can (fun w h => ?_) fun u w hu => ?_
  · have h : (s.valve? w).map (·.zone) = some z := of_decide_eq_true h
    cases hv : s.valve? w with
    | none => rw [hv] at h; cases h
    | some r => exact ⟨r, rfl⟩
  · have zone : u.zoneOfValve? w = s.zoneOfValve? w := by unfold zoneOfValve? valve?; rw [hu]
    have same : inZone z u w = true ↔ decide (s.zoneOfValve? w = some z) = true := by
      unfold inZone
      rw [decide_eq_true_iff, decide_eq_true_iff, zone]
    exact ⟨same.mpr, fun h => .inl (same.mp h)⟩

end Sys2Proof.Machine.Station
end

section
/-! SET_FLOW and SET_HEALTH (R21, R22, R36). -/

namespace Sys2Proof.Machine

variable {s : State} {x : Station}

theorem clamp_zero (hi n : Nat) : clamp 0 hi n = min n hi := by simp [clamp]

theorem clampedOne_min (n hi : Nat) : clampedOne n (min n hi) = if n ≤ hi then 0 else 1 := by
  unfold clampedOne
  refine if_congr ?_ rfl rfl
  omega

namespace Station

/-- The station with a velocity reading of the present second. -/
def flowPut (x : Station) (v q : Nat) : Station := x.modVs v fun d => { d with flow := some (q, x.seconds) }

theorem vsOf_flowPut (c : x.canonical = true) (v q w : Nat) :
    (x.flowPut v q).vsOf w = if w = v then { x.vsOf v with flow := some (q, x.clock / 10) } else x.vsOf w :=
  vsOf_modVs c v w fun d => { d with flow := some (q, x.seconds) }

theorem canonical_flowPut (c : x.canonical = true) (v q : Nat) : (x.flowPut v q).canonical = true :=
  canonical_modVs v (fun d => { d with flow := some (q, x.seconds) }) c

/-- A reading of the present second is in force. -/
theorem effectiveVelocity_flowPut (c : x.canonical = true) {v : Nat} {r : Valve} (hr : x.valve? v = some r) (q : Nat) :
    (x.flowPut v q).effectiveVelocity v = q := by
  have flow : ((x.flowPut v q).vsOf v).flow = some (q, x.clock / 10) := by
    rw [vsOf_flowPut c, if_pos rfl]
  rw [effectiveVelocity_eq _ v (show (x.flowPut v q).valve? v = some r from hr) _ rfl, flow]
  have fresh : ((x.flowPut v q).clock / 10 + 4294967296 - x.clock / 10) % 4294967296 = 0 := by
    show (x.clock / 10 + 4294967296 - x.clock / 10) % 4294967296 = 0
    omega
  simp only [fresh, Nat.zero_le, if_true, Option.getD_some]

/-- What a class derived again changes: the class kept, and the mark of the flight where the class is another. -/
theorem refreshClass_changes (c : x.canonical = true) {v : Nat} {r : Valve} (hr : x.valve? v = some r) :
    ((x.refreshClass v).vsOf v).kept = usability? (x.refreshClass v) v ∧
    ({ (x.refreshClass v).vsOf v with kept := none } : VsRec) = { x.vsOf v with kept := none } ∧
    (∀ w, w ≠ v → (x.refreshClass v).vsOf w = x.vsOf w) ∧
    (x.refreshClass v).ip = (if (x.vsOf v).kept = usability? (x.refreshClass v) v then x.ip else x.markStale.ip) ∧
    x.refreshClass v = { x with vs := (x.refreshClass v).vs, ip := (x.refreshClass v).ip } := by
  obtain ⟨cls, hcls⟩ := usability_some x v r hr
  obtain ⟨here, keeps, -⟩ := refreshClass_spec x c v cls hcls
  rw [here, keeps]
  refine ⟨rfl, rfl, fun w hw => ?_, ?_, ?_⟩
  all_goals
    unfold Station.refreshClass
    rw [hcls]
    dsimp only
    split
  · rfl
  · exact (vsOf_modVs c v w fun d => { d with kept := some cls }).trans (if_neg hw)
  all_goals rfl

theorem setFlow_eq (he : x.editable) (c : x.canonical = true) {v q : Nat} (hv : v < 768) {r : Valve}
    (hr : x.valve? v = some r) : x.setFlow v q =
      editTaken (if q ≤ 5000 then 0 else 1)
        (if x.effectiveVelocity v = min q 5000 then x.flowPut v (min q 5000)
          else (x.flowPut v (min q 5000)).markStale.retimeValve v) := by
  have range : ¬ Config.valves ≤ v := Nat.not_le.mpr hv
  unfold Station.setFlow
  rw [editBar_editable he]
  dsimp only
  rw [if_neg range, hr, clamp_zero, clampedOne_min]
  rw [if_neg (by simp)]
  have e := effectiveVelocity_flowPut c hr (min q 5000)
  unfold flowPut at e ⊢
  rw [e]

end Station

/-- Settles O22. -/
theorem setFlowAndSetHealthWriteTheirField : Obligations.SetFlowAndSetHealthWriteTheirField := by
  unfold Obligations.SetFlowAndSetHealthWriteTheirField
  refine ⟨?_, ?_⟩
  · intro s tag v q ht he hc refused
    have bar := editBar_editable he
    have bad {st : Status} (hd : s.st.setFlow v q = refuse st s.st) : refused st :=
      exec_editRefused (r := .setFlow v q) rfl ht he rfl hd
    refine ⟨fun hv => bad ?_, fun hv none => bad ?_, fun r hv hr => ?_⟩
    · have hv : Config.valves ≤ v := hv
      simp only [Station.setFlow, bar, hv, if_true]
    · have hv : ¬ Config.valves ≤ v := Nat.not_le.mpr hv
      simp only [Station.setFlow, bar, hv, if_false, none, Option.isNone_none, if_true]
    · have decided := Station.setFlow_eq he hc (q := q) hv hr
      have flow (w : Nat) : (s.st.flowPut v (min q 5000)).vsOf w =
          if w = v then { s.st.vsOf v with flow := some (min q 5000, s.st.clock / 10) } else s.st.vsOf w :=
        Station.vsOf_flowPut hc v _ w
      have c1 : (s.st.flowPut v (min q 5000)).markStale.canonical = true :=
        (Station.Works.refl _).markStale.canon (Station.canonical_flowPut hc v _)
      have all := Station.retimeValve_all c1 v
      by_cases same : s.st.effectiveVelocity v = min q 5000
      · rw [if_pos same] at decided
        have taken := exec_editTaken (i := .setFlow tag v q) (r := .setFlow v q) rfl ht he rfl decided ht.2.2.2
        refine ⟨_, exec_decided (.setFlow tag v q) tag (.setFlow v q) rfl ht he.1 rfl decided, ?_, ?_, rfl, rfl, rfl, rfl, rfl, rfl,
          fun _ => rfl, fun _ => rfl, fun ne => absurd same ne, fun _ _ _ _ _ => rfl, fun _ => rfl, fun _ => taken⟩
        · rw [flow, if_pos rfl]
        · intro w hw
          rw [flow, if_neg hw]
      · rw [if_neg same] at decided
        obtain ⟨rest, -, slots, -, timed, others⟩ := all
        refine ⟨_, exec_decided (.setFlow tag v q) tag (.setFlow v q) rfl ht he.1 rfl decided, ?_⟩
        generalize (s.st.flowPut v (min q 5000)).markStale.retimeValve v = y at rest slots timed others ⊢
        have flows (w : Nat) : y.vsOf w = (s.st.flowPut v (min q 5000)).vsOf w := by rw [rest]; rfl
        have named : (decide (v = v) && ((s.st.flowPut v (min q 5000)).markStale.valve? v).isSome) = true := by
          rw [show (s.st.flowPut v (min q 5000)).markStale.valve? v = some r from hr]
          simp
        refine ⟨?_, ?_, ?_, ?_, ?_, ?_, ?_, ?_, ?_, ?_, fun _ => ⟨?_, timed v r named hr⟩, ?_, slots, fun e => absurd e same⟩
        · rw [flows, flow, if_pos rfl]
        · intro w hw
          rw [flows, flow, if_neg hw]
        · rw [rest]; rfl
        · rw [rest]; rfl
        · rw [rest]; rfl
        · rw [rest]; rfl
        · rw [rest]; rfl
        · rw [rest]; rfl
        · intro z; rw [rest]; rfl
        · intro l; rw [rest]; cases l <;> rfl
        · rw [rest]; rfl
        · intro w hw
          exact others w (by simp [hw])
  · intro s tag v h ht he hc refused
    have bar := editBar_editable he
    have bad {st : Status} (hd : s.st.putHealth v h = refuse st s.st) : refused st :=
      exec_editRefused (r := .setHealth v h) rfl ht he rfl hd
    refine ⟨fun out => bad ?_, fun hv hh none => bad ?_, fun r new hv hnew hr => ?_⟩
    · simp only [Station.putHealth, bar]
      split
      · rfl
      · rename_i a ha
        have hv : Config.valves ≤ v := by
          refine out.resolve_right fun hh => ?_
          match h with
          | h + 3 => cases ha
        rw [if_pos hv]
    · have hv : ¬ Config.valves ≤ v := Nat.not_le.mpr hv
      obtain ⟨a, ha⟩ : ∃ a, health? h = some a := by
        match h with
        | 0 | 1 | 2 => exact ⟨_, rfl⟩
      simp only [Station.putHealth, bar, ha, hv, if_false, none, Option.isNone_none, if_true]
    · have range : ¬ Config.valves ≤ v := Nat.not_le.mpr hv
      have decided : s.st.putHealth v h = editTaken 0 (s.st.setHealth v new) := by
        simp only [Station.putHealth, bar, hnew, range, if_false, hr, Option.isNone_some, Bool.false_eq_true]
      have c1 : (s.st.modValve v fun r => { r with health := new }).canonical = true :=
        ((Station.Works.refl s.st).modValve v _).canon hc
      have valves (w : Nat) := Station.valve_modValve (s := s.st) v w fun r => { r with health := new }
      have net : (s.st.modValve v fun r => { r with health := new }).nt =
          { s.st.nt with valves := (s.st.modValve v fun r => { r with health := new }).nt.valves } ∧
          { s.st.modValve v fun r => { r with health := new } with nt := s.st.nt } = s.st := by
        unfold Station.modValve
        split <;> exact ⟨rfl, rfl⟩
      unfold Station.setHealth at decided
      generalize (s.st.modValve v fun r => { r with health := new }) = y at decided c1 valves net
      obtain ⟨net, still⟩ := net
      have hy : y.valve? v = some { r with health := new } := by rw [valves, if_pos rfl, hr, Option.map_some]
      obtain ⟨kept, others, stand, ip, rest⟩ := Station.refreshClass_changes c1 hy
      have records (w : Nat) : y.vsOf w = s.st.vsOf w := by rw [← still]; rfl
      have planner : y.ip = s.st.ip := by rw [← still]
      refine ⟨y.refreshClass v, exec_editTaken (r := .setHealth v h) rfl ht he rfl decided ?_, ?_, fun w hw => ?_, kept, ?_,
        fun w hw => ?_, ?_, ?_, ?_⟩
      · rw [rest]
        exact (congrArg Station.outbox still).trans ht.2.2.2
      · rw [rest]; exact hy
      · rw [rest]
        exact (valves w).trans (if_neg hw)
      · rw [others, records]
      · rw [stand w hw, records]
      · rw [ip, records]
        unfold Station.markStale Station.modFlight
        rw [planner]
      · rw [rest]; exact net
      · have values : y.vs = s.st.vs := by rw [← still]
        rw [rest, ← values, ← planner]
        exact still

end Sys2Proof.Machine
end

section
/-! PUT_ZONE and SET_TIMING (R9, R10, R22; log entries 12, 39 and 41). -/

namespace Sys2Proof.Machine

variable {s : State} {x : Station}

namespace Station

/-- The watch of a zone as it leaves its hold (R144). -/
def hushed (x : Station) (z : Nat) : Station :=
  x.modZoneWatch z fun w =>
    { w with heldAt := none, settleAt := none, persist := false
             state := if decide (x.count z = 0) then .quiet else .watch }

/-- The station as it leaves the hold of a zone, up to what its entries and the factor make of it. -/
def unheld (x : Station) (z : Nat) : Station :=
  if decide (x.count z = 0) then (x.hushed z).setSampleDue z none else x.hushed z

theorem zoneWatch_unheld (c : x.canonical = true) (z y : Nat) : (x.unheld z).zoneWatch y =
    if y = z then
      { x.zoneWatch z with
        heldAt := none, settleAt := none, persist := false
        state := if decide (x.count z = 0) then .quiet else .watch }
    else x.zoneWatch y := by
  have written : (x.hushed z).zoneWatch y = _ := zoneWatch_modZoneWatch c z y fun w =>
    { w with heldAt := none, settleAt := none, persist := false
             state := if decide (x.count z = 0) then .quiet else .watch }
  have watched {u t : Station} (h : u.pw = t.pw) : u.zoneWatch y = t.zoneWatch y := by simp only [zoneWatch, h]
  rw [← written]
  unfold unheld
  split
  · exact watched (setSampleDue_pw z none)
  · rfl

theorem unheld_listens (z : Nat) : x.Listens (x.unheld z) := by
  have h : Frame 2 x (x.hushed z) := Frame.zoneWatch z _ (.refl x) (fun hs => hs) (le_refl 2)
  have g : Frame 2 x (x.unheld z) := Frame.ite (h.setSampleDue z none) h
  exact g.listens (le_refl 2)

theorem unheld_im (z : Nat) : (x.unheld z).im = x.im := by
  unfold unheld
  split
  · rw [setSampleDue_im]; rfl
  · rfl

theorem unheld_sensors (z : Nat) : (x.unheld z).pw.sensors = x.pw.sensors := by
  unfold unheld
  split
  · rw [setSampleDue_pw]; rfl
  · rfl

theorem leaveHold_eq (z : Nat) (c : Cause) : x.leaveHold z c =
    (((x.unheld z).endCause .surge (inZone z)).factorReturn z).post
      { kind := .surgeResumed, zone := some z, cause := some c
        value := some ((((x.unheld z).endCause .surge (inZone z)).factorReturn z).zoneWatch z).factor } := rfl

theorem leaveHold_moves (z : Nat) (c : Cause) : (x.unheld z).Moves (x.leaveHold z c).decideAll := by
  rw [leaveHold_eq]
  generalize x.unheld z = y
  have h : Frame 3 y ((y.endCause .surge (inZone z)).factorReturn z) := Frame.factorReturn z (Frame.endCause _ _ (.refl y))
  exact (Frame.decideAll (Frame.post _ h)).moves (le_refl 3)

/-! The edit. -/

/-- The station with the zone's record stored. -/
def zonePut (x : Station) (z : Nat) (r : ZoneRec) : Station :=
  { x with nt := { x.nt with zones := x.nt.zones.writeD {} z r } }

/-- The station after the edit, before the settle time is looked at and the arbiters decide. -/
def zoneEdited (x : Station) (z : Nat) (r : ZoneRec) : Station :=
  if (x.zoneRec z).hmax = r.hmax then x.zonePut z r else retimeZone false (x.zonePut z r).markStale z

theorem canonical_zonePut (c : x.canonical = true) (z : Nat) (r : ZoneRec) : (x.zonePut z r).canonical = true :=
  canonical_edit x c _ fun ⟨n1, n2, n3, n4⟩ => ⟨n1, n2, Table.tidy_writeD _ _ _ _ n3, n4⟩

theorem zoneRec_zonePut (c : x.canonical = true) (z y : Nat) (r : ZoneRec) :
    (x.zonePut z r).zoneRec y = if y = z then r else x.zoneRec y := by
  have tidy := (canonical_netTidy c).2.2.1
  simp only [Table.tidy, Bool.and_eq_true] at tidy
  show (x.nt.zones.writeD {} z r).readD {} y = if y = z then r else x.nt.zones.readD {} y
  split
  · rename_i here
    rw [here]
    exact Table.readD_writeD_same _ _ _ _ tidy.1
  · rename_i other
    exact Table.readD_writeD_other _ _ _ _ _ tidy.1 other

/-- What an edit of a zone leaves and what it changes, up to the settle time and the arbiters. -/
structure ZoneEdited (x y : Station) (z : Nat) (r : ZoneRec) : Prop where
  rest : y = { x.zonePut z r with im := { x.im with slots := y.im.slots }, ip := y.ip, outbox := y.outbox }
  canonical : y.canonical = true
  ip : y.ip = if (x.zoneRec z).hmax ≠ r.hmax then x.markStale.ip else x.ip
  slots : ∀ k, ({ y.slot k with work := [], reopen := [] } : Slot) = { x.slot k with work := [], reopen := [] }
  timed : (x.zoneRec z).hmax ≠ r.hmax → ∀ v q, x.valve? v = some q → q.zone = z → x.Retimed y v (profileOf y v q)
  others : ∀ v, ((x.zoneRec z).hmax ≠ r.hmax → x.zoneOfValve? v ≠ some z) → x.EntriesStand y v

theorem zoneEdited_spec (c : x.canonical = true) (z : Nat) (r : ZoneRec) : ZoneEdited x (x.zoneEdited z r) z r := by
  have c1 := canonical_zonePut c z r
  unfold zoneEdited
  split
  · rename_i same
    exact
      { rest := rfl
        canonical := c1
        ip := by rw [if_neg (not_not.mpr same)]; rfl
        slots := fun _ => rfl
        timed := fun h => absurd same h
        others := fun _ _ _ _ _ => rfl }
  · rename_i differs
    have c2 : (x.zonePut z r).markStale.canonical = true := (Works.refl _).markStale.canon c1
    obtain ⟨rest, canonical, slots, -, timed, others⟩ := retimeZone_all c2 z
    generalize retimeZone false (x.zonePut z r).markStale z = y at rest canonical slots timed others ⊢
    exact
      { rest := by rw [rest]; rfl
        canonical := canonical
        ip := by rw [if_pos differs, rest]; rfl
        slots := slots
        timed := fun _ v q hq hz => timed v q (decide_eq_true (by
          show (x.valve? v).map (·.zone) = some z
          rw [hq, ← hz]
          rfl)) hq
        others := fun v hv => others v (decide_eq_false (hv differs)) }

/-- The settle time of a zone in HOLD has passed (R142). -/
def Settled (x : Station) (z : Nat) (settle : Nat) : Prop :=
  ∃ start, (x.zoneWatch z).state = .hold ∧ (x.zoneWatch z).persist = false ∧ (x.zoneWatch z).settleAt = some start ∧
    clockReached x.clock ((start + 10 * settle) % 42949672960) = true

open Classical in
theorem settleExpiry?_settled (z : Nat) :
    (match x.settleExpiry? z with
      | some due => if clockReached x.clock due then x.leaveHold z .settled else x
      | none => x) = if x.Settled z (x.zoneRec z).settle then x.leaveHold z .settled else x := by
  unfold settleExpiry?
  dsimp only
  by_cases held : (x.zoneWatch z).state = .hold ∧ (x.zoneWatch z).persist = false
  · rw [if_pos held]
    cases start : (x.zoneWatch z).settleAt with
    | none =>
      have unstarted : ¬ x.Settled z (x.zoneRec z).settle := fun ⟨t, _, _, h, _⟩ => nomatch start.symm.trans h
      rw [if_neg unstarted, Option.map_none]
    | some t =>
      simp only [Option.map_some, clockAfter_eq]
      have passed : clockReached x.clock ((t + 10 * (x.zoneRec z).settle) % 42949672960) = true ↔
          x.Settled z (x.zoneRec z).settle := by
        simp only [Settled, held, start, true_and, Option.some.injEq, exists_eq_left']
      simp only [passed]
  · have unheld : ¬ x.Settled z (x.zoneRec z).settle := fun ⟨_, h1, h2, _⟩ => held ⟨h1, h2⟩
    rw [if_neg held, if_neg unheld]

/-- What the looked-at settle time and the deciding arbiters leave and change. -/
structure ZoneDecided (y x : Station) (z : Nat) (settled : Prop) : Prop where
  listens : y.Listens x
  owner : x.im.owner = y.im.owner
  sensors : x.pw.sensors = y.pw.sensors
  left : settled → (x.zoneWatch z).hold = (false, none, none, false)
  stays : ¬ settled → (x.zoneWatch z).hold = (y.zoneWatch z).hold
  others : ∀ w, w ≠ z → (x.zoneWatch w).hold = (y.zoneWatch w).hold
  factor : ∀ w, (x.zoneWatch w).factor = (y.zoneWatch w).factor ∨ (x.zoneWatch w).factor = 1

theorem zoneDecided_left (c : x.canonical = true) (z : Nat) (cause : Cause) :
    ZoneDecided x (x.leaveHold z cause).decideAll z True := by
  have watch := zoneWatch_unheld c z
  have m := leaveHold_moves (x := x) z cause
  have c1 := (unheld_listens (x := x) z).canonical c
  exact
    { listens := (unheld_listens z).trans m.toListens
      owner := by rw [m.owner, unheld_im]
      sensors := by rw [m.sensors, unheld_sensors]
      left := fun _ => by
        rw [m.holds c1, watch, if_pos rfl]
        unfold ZoneWatch.hold
        split <;> rfl
      stays := fun h => absurd trivial h
      others := fun w hw => by rw [m.holds c1, watch, if_neg hw]
      factor := fun w => by
        have same : ((x.unheld z).zoneWatch w).factor = (x.zoneWatch w).factor := by
          rw [watch]
          split
          · rename_i h; rw [h]
          · rfl
        rw [← same]
        exact m.returns c1 w }

theorem zoneDecided_stays (c : x.canonical = true) (z : Nat) : ZoneDecided x x.decideAll z False := by
  have m : x.Moves x.decideAll := (Frame.decideAll (.refl x)).moves (le_refl 3)
  exact
    { listens := m.toListens
      owner := m.owner
      sensors := m.sensors
      left := False.elim
      stays := fun _ => m.holds c z
      others := fun w _ => m.holds c w
      factor := fun w => m.returns c w }

theorem ZoneDecided.iff {y : Station} {z : Nat} {p q : Prop} (h : ZoneDecided y x z p) (e : p ↔ q) : ZoneDecided y x z q :=
  propext e ▸ h

open Classical in
theorem putZone_eq (he : x.editable) (c : x.canonical = true) {f : ZoneFields} (hz : f.zone < 16) :
    x.putZone f = editTaken (zoneRecord f).2
      (if x.Settled f.zone (zoneRecord f).1.settle then
        ((x.zoneEdited f.zone (zoneRecord f).1).leaveHold f.zone .settled).decideAll
      else (x.zoneEdited f.zone (zoneRecord f).1).decideAll) := by
  have range : ¬ Config.zones ≤ f.zone := Nat.not_le.mpr hz
  have rest := (zoneEdited_spec c f.zone (zoneRecord f).1).rest
  have record : (x.zoneEdited f.zone (zoneRecord f).1).zoneRec f.zone = (zoneRecord f).1 := by
    have : (x.zonePut f.zone (zoneRecord f).1).zoneRec f.zone = _ := zoneRec_zonePut c f.zone f.zone (zoneRecord f).1
    rw [if_pos rfl] at this
    rw [rest]
    exact this
  have same : (x.zoneEdited f.zone (zoneRecord f).1).Settled f.zone (zoneRecord f).1.settle ↔
      x.Settled f.zone (zoneRecord f).1.settle := by rw [rest]; rfl
  have looked := settleExpiry?_settled (x := x.zoneEdited f.zone (zoneRecord f).1) f.zone
  rw [record] at looked
  unfold Station.putZone
  rw [editBar_editable he]
  dsimp only
  rw [if_neg range]
  refine congrArg (editTaken _) ?_
  refine Eq.trans (congrArg decideAll looked) ?_
  rw [apply_ite decideAll]
  exact if_congr same rfl rfl

theorem putZone_range (he : x.editable) {f : ZoneFields} (hz : 16 ≤ f.zone) : x.putZone f = refuse .outOfRange x := by
  have range : Config.zones ≤ f.zone := hz
  unfold Station.putZone
  rw [editBar_editable he]
  exact if_pos range

end Station

theorem clampedOne_eq (n m : Nat) : clampedOne n m = if n = m then 0 else 1 := rfl

theorem max_succ_min (c h : Nat) : max (clamp 0 2000 c) (h + 1) = if min c 2000 ≤ h then h + 1 else min c 2000 := by
  rw [clamp_zero]
  split <;> omega

/-- Settles O21. -/
theorem zoneAndTimingEditsStoreTheClampedFields : Obligations.ZoneAndTimingEditsStoreTheClampedFields := by
  unfold Obligations.ZoneAndTimingEditsStoreTheClampedFields
  refine ⟨?_, ?_⟩
  · intro s tag f ht he hc
    refine ⟨fun hz => exec_editRefused (r := .putZone f) rfl ht he rfl (Station.putZone_range he hz), ?_⟩
    intro hz clampTo hysteresis ceiling stored differs clamped w settled hmaxChanges
    have top : ceiling = max (clamp 0 2000 f.ceiling) (hysteresis + 1) := (max_succ_min _ _).symm
    have record : Station.zoneRecord f = (stored, clamped) := by
      unfold stored clamped
      rw [top]
      rfl
    have decided := Station.putZone_eq he hc hz
    rw [record] at decided
    dsimp only at decided
    obtain ⟨rest, canonical, ip, slots, timed, others⟩ := Station.zoneEdited_spec hc f.zone stored
    have zones (z : Nat) : (s.st.zoneEdited f.zone stored).zoneRec z = if z = f.zone then stored else s.st.zoneRec z := by
      rw [rest]
      exact Station.zoneRec_zonePut hc f.zone z stored
    have net : (s.st.zoneEdited f.zone stored).nt = (s.st.zonePut f.zone stored).nt := by rw [rest]
    have watch (z : Nat) : (s.st.zoneEdited f.zone stored).zoneWatch z = s.st.zoneWatch z := by rw [rest]; rfl
    have still : (s.st.zoneEdited f.zone stored).clock = s.st.clock ∧ (s.st.zoneEdited f.zone stored).ss = s.st.ss ∧
        (s.st.zoneEdited f.zone stored).im.freeList = s.st.im.freeList ∧
        (s.st.zoneEdited f.zone stored).im.owner = s.st.im.owner ∧
        (s.st.zoneEdited f.zone stored).pw.sensors = s.st.pw.sensors ∧
        ∀ l, ((s.st.zoneEdited f.zone stored).line l).calls = (s.st.line l).calls := by
      rw [rest]
      exact ⟨rfl, rfl, rfl, rfl, rfl, fun l => by cases l <;> rfl⟩
    obtain ⟨clock, storage, freeList, owner, sensors, calls⟩ := still
    generalize s.st.zoneEdited f.zone stored = y at *
    obtain ⟨x, hx, spec, now, later⟩ : ∃ x, s.st.putZone f = editTaken clamped x ∧ Station.ZoneDecided y x f.zone settled ∧
        (settled → x = (y.leaveHold f.zone .settled).decideAll) ∧ (¬ settled → x = y.decideAll) := by
      by_cases h : settled
      · exact ⟨_, decided.trans (congrArg _ (if_pos h)),
          (Station.zoneDecided_left canonical f.zone .settled).iff (iff_of_true trivial h), fun _ => rfl, fun n => absurd h n⟩
      · exact ⟨_, decided.trans (congrArg _ (if_neg h)),
          (Station.zoneDecided_stays canonical f.zone).iff (iff_of_false id h), fun n => absurd n h, fun _ => rfl⟩
    have returned : x.FactorsReturned := by
      by_cases h : settled
      · rw [now h]
        exact Station.factorsReturned_decideAll
          ((Station.Frame.leaveHold (b := 0) f.zone .settled (.refl y) (by decide)).canon canonical)
      · rw [later h]
        exact Station.factorsReturned_decideAll canonical
    have stand : x.nt.zones = y.nt.zones := by
      have := congrArg Network.zones spec.listens.network
      exact this
    refine ⟨y, x, exec_decided (.putZone tag f) tag (.putZone f) rfl ht he.1 rfl hx, now, later, ip, timed, others, slots,
      ?_, ?_, ?_, spec.left, ?_, ?_, ?_, returned, ?_, ?_, ?_, ?_, ?_, ?_⟩
    · unfold Station.zoneRec at zones ⊢
      rw [stand, zones, if_pos rfl]
    · intro z hz
      unfold Station.zoneRec at zones ⊢
      rw [stand, zones, if_neg hz]
    · rw [spec.listens.network, stand, net]
      rfl
    · intro h
      rw [spec.stays h, watch]
    · intro z hz
      rw [spec.others z hz, watch]
    · intro z
      rw [← watch z]
      exact spec.factor z
    · rw [spec.listens.clock, clock]
    · rw [spec.listens.storage, storage]
    · rw [spec.listens.freeList, freeList]
    · rw [spec.owner, owner]
    · rw [spec.sensors, sensors]
    · intro l
      rw [spec.listens.lines, calls]
  · intro s tag p l k w ht he clampTo t differs
    have decided : s.st.setTiming p l k w = editTaken
        (differs p t.validity + differs l t.lifetime + differs k t.exponent + differs w t.window)
        { s.st with nt := { s.st.nt with timing := t } } := by
      unfold Station.setTiming
      rw [editBar_editable he]
      simp only [clamp_zero]
      rfl
    exact exec_editTaken (i := .setTiming tag p l k w) (r := .setTiming p l k w) rfl ht he rfl decided ht.2.2.2

end Sys2Proof.Machine
end

section
/-! What a change of mapping makes of the node-table entries, and the sensor edits (R7, R19, R152). -/

namespace Sys2Proof.Machine

variable {s : State} {x : Station}

theorem place?_placed {l a : Nat} {p : Node} (h : place? l a = some p) : p.Placed := by
  unfold place? at h
  split at h
  · split at h
    · rename_i inside
      cases h
      exact inside
    · cases h
  · cases h

namespace Station

/-- A node-table entry when the address gets the kind: as it is where it has the kind already, afresh otherwise. -/
def kinded (clock : Nat) (k : NodeKind) (e : NodeEntry) : NodeEntry :=
  if e.kind = k then e else { kind := k, rollDue := if k = .none then none else some clock }

theorem kinded_kind (clock : Nat) (k : NodeKind) (e : NodeEntry) : (kinded clock k e).kind = k := by
  unfold kinded
  split
  · assumption
  · rfl

theorem setKind_kept {n : Node} {k : NodeKind} (h : (x.node n).kind = k) : x.setKind n k = x := if_pos h

theorem node_setKind (c : x.canonical = true) (n m : Node) (k : NodeKind) :
    (x.setKind n k).node m = if m = n then kinded x.clock k (x.node n) else x.node m := by
  unfold setKind kinded
  split
  · split
    · rename_i h; rw [h]
    · rfl
  · exact (node_modNode (canonical_dropQueued x c n) n m fun _ =>
      { kind := k, rollDue := if k = .none then none else some x.clock }).trans (by rw [dropQueued_node])

/-- A new kind withdraws the calls queued to the address. -/
theorem line_setKind {n : Node} {k : NodeKind} (h : (x.node n).kind ≠ k) (l : Line) :
    ({ (x.setKind n k).line l with nodes := [] } : FieldLine) =
      { x.line l with
        nodes := []
        strokes := (x.line l).strokes.filter fun a => decide (l ≠ n.line ∨ a ≠ n.address)
        halts := (x.line l).halts.filter fun a => decide (l ≠ n.line ∨ a ≠ n.address) } := by
  unfold setKind
  rw [if_neg h]
  obtain ⟨l', a⟩ := n
  cases l' <;> cases l <;> simp [dropQueued, modNode, modLine, line]

/-- What a change of mapping makes of the entries. -/
theorem node_remap (c : x.canonical = true) {old new : Option Node} (hne : old ≠ new) (o : Occupant) (k : NodeKind)
    (m : Node) : (x.remap old new o k).node m =
      if new = some m then kinded x.clock k (x.node m) else if old = some m then kinded x.clock .none (x.node m)
      else x.node m := by
  have gone (old : Option Node) : (x.remap old none o k).node m =
      if old = some m then kinded x.clock .none (x.node m) else x.node m := by
    cases old with
    | none => rfl
    | some n =>
      have c1 : ({ x with nt := { x.nt with nodeMap := x.nt.nodeMap.drop n.key } } : Station).canonical = true :=
        canonical_edit x c _ (fun h => ⟨h.1, h.2.1, h.2.2.1, h.2.2.2.1, Table.wf_drop _ _ h.2.2.2.2⟩)
      refine (node_setKind c1 n m .none).trans ?_
      by_cases here : m = n
      · subst here
        rw [if_pos rfl, if_pos rfl]
        rfl
      · rw [if_neg here, if_neg (fun e => here (Option.some.inj e).symm)]
        rfl
  cases new with
  | none =>
    rw [gone]
    simp only [reduceCtorEq, if_false]
  | some n =>
    obtain ⟨c1, rest, -, -⟩ := remap_gone x c old o k
    have clock : (x.remap old none o k).clock = x.clock := by rw [rest]
    rw [remap_eq x old n o k hne]
    have gone := gone old
    generalize x.remap old none o k = y at *
    have c2 : ({ y with nt := { y.nt with nodeMap := y.nt.nodeMap.put n.key o } } : Station).canonical = true :=
      canonical_edit y c1 _ (fun h => ⟨h.1, h.2.1, h.2.2.1, h.2.2.2.1, Table.wf_put _ _ _ h.2.2.2.2⟩)
    refine (node_setKind c2 n m k).trans ?_
    by_cases here : m = n
    · subst here
      have unnamed : ¬ old = some m := hne
      rw [if_neg unnamed] at gone
      rw [if_pos rfl, if_pos rfl, ← gone, ← clock]
      rfl
    · rw [if_neg here, if_neg (fun e => here (Option.some.inj e).symm)]
      exact gone

/-- A place taken away is free. -/
theorem occupant_remap_gone (c : x.canonical = true) (n : Node) (o : Occupant) (k : NodeKind) :
    (x.remap (some n) none o k).occupant? n = none := by
  obtain ⟨-, rest, -, -⟩ := remap_gone x c (some n) o k
  have map : (x.remap (some n) none o k).nt.nodeMap = x.nt.nodeMap.drop n.key := by rw [rest]
  unfold occupant?
  rw [map]
  exact Table.find_drop_same _ _ (canonical_netTidy c).2.2.2.2

/-! The sensor edits. -/

theorem occupiedByOther_iff (n : Node) (o : Occupant) :
    x.occupiedByOther n o = true ↔ ∃ p, x.occupant? n = some p ∧ p ≠ o := by
  unfold occupiedByOther
  split <;> simp_all

/-- The station with the sensor's record stored. -/
def sensorPut (x : Station) (n : Nat) (r : Sensor) : Station := { x with nt := { x.nt with sensors := x.nt.sensors.put n r } }

/-- What PUT_SENSOR stores where it changes the record. -/
def sensorEdited (x : Station) (n : Nat) (r : Sensor) : Station :=
  ((x.sensorPut n r).remap ((x.sensor? n).map (·.node)) (some r.node) (.sensor n) .sensor).modSensorWatch n fun _ => {}

theorem putSensor_eq (he : x.editable) {n line address g : Nat} {place : Node} (hn : n < 48) (hg : g < 512)
    (hp : place? line address = some place) : x.putSensor n line address g =
      if x.allFree = false then refuse .incidentActive x
      else if ((x.segment? g).isNone || x.occupiedByOther place (.sensor n)) = true then refuse .badTopology x
      else if x.sensor? n = some ⟨place, g⟩ then editTaken 0 x
      else editTaken 0 (x.sensorEdited n ⟨place, g⟩) := by
  have range : ¬ (Config.sensors ≤ n ∨ Config.segments ≤ g) := by simp only [Config.sensors, Config.segments]; omega
  unfold Station.putSensor
  rw [editBar_editable he, hp]
  dsimp only
  rw [if_neg range]
  rfl

theorem deleteSensor_eq (he : x.editable) {n : Nat} (hn : n < 48) {r : Sensor} (hr : x.sensor? n = some r)
    (free : x.allFree = true) : x.deleteSensor n =
      editTaken 0 ((({ x with nt := { x.nt with sensors := x.nt.sensors.drop n } } : Station).remap (some r.node) none
        (.sensor n) .none).modSensorWatch n fun _ => {}) := by
  have range : ¬ Config.sensors ≤ n := Nat.not_le.mpr hn
  have taken : ¬ x.allFree = false := by simp [free]
  unfold Station.deleteSensor
  rw [editBar_editable he]
  dsimp only
  rw [if_neg range, hr]
  dsimp only
  rw [if_neg taken]

theorem modSensorWatch_rest (n : Nat) (f : SensorWatch → SensorWatch) :
    x.modSensorWatch n f = { x with pw := { x.pw with sensors := (x.modSensorWatch n f).pw.sensors } } := rfl

/-- A sensor's watch record set to its initial values. -/
theorem sensorWatch_cleared (c : x.canonical = true) (n m : Nat) :
    (x.modSensorWatch n fun _ => {}).sensorWatch m = if m = n then {} else x.sensorWatch m :=
  sensorWatch_modSensorWatch c n m fun _ => {}

end Station

/-- Settles O20. -/
theorem sensorEditsPlaceAndRemoveTheRecord : Obligations.SensorEditsPlaceAndRemoveTheRecord := by
  unfold Obligations.SensorEditsPlaceAndRemoveTheRecord
  intro s tag n line address g ht he hc hn
  have sensors : Table.wf s.st.nt.sensors = true := (Station.canonical_netTidy hc).2.2.2.1
  refine ⟨?_, ?_, ?_⟩
  · intro place hp hg refused bad old
    have decided := Station.putSensor_eq he hn hg hp
    have placed := place?_placed hp
    have bad_iff : ((s.st.segment? g).isNone || s.st.occupiedByOther place (.sensor n)) = true ↔ bad := by
      simp only [Bool.or_eq_true, Option.isNone_iff_eq_none, Station.occupiedByOther_iff]
      rfl
    have no {st : Status} (hd : s.st.putSensor n line address g = refuse st s.st) : refused st :=
      exec_editRefused (r := .putSensor n line address g) rfl ht he rfl hd
    have taken {y : Station} (hd : s.st.putSensor n line address g = editTaken 0 y) (ho : y.outbox = []) :
        exec (.putSensor tag n line address g) s = .next (s.replied tag 0x14 .ok (byte2 0) y) :=
      exec_editTaken (r := .putSensor n line address g) rfl ht he rfl hd ho
    refine ⟨fun hf => no (decided.trans (if_pos hf)), ?_, ?_, ?_⟩
    · intro hf hb
      rw [if_neg (by simp [hf]), if_pos (bad_iff.mpr hb)] at decided
      exact no decided
    · intro hf hb same
      rw [if_neg (by simp [hf]), if_neg (hb ∘ bad_iff.mp), if_pos same] at decided
      exact taken decided ht.2.2.2
    · intro hf hb differs
      rw [if_neg (by simp [hf]), if_neg (hb ∘ bad_iff.mp), if_neg differs] at decided
      have c1 : (s.st.sensorPut n ⟨place, g⟩).canonical = true :=
        Station.canonical_edit s.st hc _ (fun h => ⟨h.1, h.2.1, h.2.2.1, Table.wf_put _ _ _ h.2.2.2.1, h.2.2.2.2⟩)
      obtain ⟨map, c2, rest, calls⟩ := Station.remap_rest _ c1 old (some place) (.sensor n) .sensor
      have node := fun hne => Station.node_remap c1 (old := old) (new := some place) hne (.sensor n) .sensor
      have here := Station.remap_some _ c1 old place (.sensor n) .sensor
      have stays (h : old = some place) :
          (s.st.sensorPut n ⟨place, g⟩).remap old (some place) (.sensor n) .sensor = s.st.sensorPut n ⟨place, g⟩ := by
        unfold Station.remap
        rw [if_pos h]
      have free := Station.occupant_remap _ c1 old (some place) (.sensor n) .sensor
      unfold Station.sensorEdited at decided
      change s.st.putSensor n line address g = editTaken 0
        (((s.st.sensorPut n ⟨place, g⟩).remap old (some place) (.sensor n) .sensor).modSensorWatch n fun _ => {}) at decided
      generalize (s.st.sensorPut n ⟨place, g⟩).remap old (some place) (.sensor n) .sensor = y at *
      have watch := Station.sensorWatch_cleared c2 n
      change y = { s.st with
        nt := { s.st.nt with sensors := s.st.nt.sensors.put n ⟨place, g⟩, nodeMap := map }
        lineA := y.lineA
        lineB := y.lineB } at rest
      refine ⟨_, taken decided (by rw [Station.modSensorWatch_rest, rest]; exact ht.2.2.2), ?_, ?_, ?_, ?_, ?_, ?_, ?_, ?_,
        ?_, ?_, ?_, ?_, ?_, ?_, ?_, ?_, ?_, ?_⟩
      · show y.sensor? n = _
        rw [rest]
        exact Table.find_put_same _ _ _
      · intro m hm
        show y.sensor? m = _
        rw [rest]
        exact Table.find_put_other _ _ _ _ hm
      · rw [watch, if_pos rfl]
      · intro m hm
        rw [watch, if_neg hm, rest]
        rfl
      · intro hne
        refine ⟨(here hne).1, (node hne place).trans ?_⟩
        rw [if_pos rfl]
        rfl
      · intro m hm hne agrees
        obtain ⟨r, hr, hrm⟩ := Option.map_eq_some_iff.mp hm
        have away : old ≠ some place := fun e => hne (Option.some.inj (hm.symm.trans e))
        have elsewhere : ¬ (some place : Option Node) = some m := fun e => hne (Option.some.inj e).symm
        have hplaced : m.Placed := hrm ▸ agrees.sensors n r hr
        constructor
        · refine (free m hplaced (fun k hk => ?_) (fun k hk => ?_)).trans ?_
          · exact Option.some.inj (hm.symm.trans hk) ▸ hplaced
          · exact Option.some.inj hk ▸ placed
          · rw [if_neg away, if_neg elsewhere, if_pos hm]
        · refine (congrArg NodeEntry.kind (node away m)).trans ?_
          rw [if_neg elsewhere, if_pos hm]
          exact Station.kinded_kind _ _ _
      · intro h
        rw [stays h]
        exact ⟨rfl, fun l => rfl⟩
      all_goals rw [Station.modSensorWatch_rest, rest]
      exact ht.2.2.2
  · intro r hr hf
    have decided := Station.deleteSensor_eq he hn hr hf
    have c1 : ({ s.st with nt := { s.st.nt with sensors := s.st.nt.sensors.drop n } } : Station).canonical = true :=
      Station.canonical_edit s.st hc _ (fun h => ⟨h.1, h.2.1, h.2.2.1, Table.wf_drop _ _ h.2.2.2.1, h.2.2.2.2⟩)
    obtain ⟨c2, rest, calls, kind⟩ := Station.remap_gone _ c1 (some r.node) (.sensor n) .none
    have free := Station.occupant_remap_gone c1 r.node (.sensor n) .none
    generalize Station.remap _ (some r.node) none (.sensor n) .none = y at *
    have watch := Station.sensorWatch_cleared c2 n
    refine ⟨_, exec_editTaken (i := .deleteSensor tag n) (r := .deleteSensor n) rfl ht he rfl decided
        (by rw [Station.modSensorWatch_rest, rest]; exact ht.2.2.2), ?_, ?_, ?_, ?_, free, kind _ rfl, ?_, ?_, ?_, ?_, ?_,
        ?_, ?_, ?_, ?_, ?_⟩
    · show y.sensor? n = _
      rw [rest]
      exact Table.find_drop_same _ _ sensors
    · intro m hm
      show y.sensor? m = _
      rw [rest]
      exact Table.find_drop_other _ _ _ sensors hm
    · rw [watch, if_pos rfl]
    · intro m hm
      rw [watch, if_neg hm, rest]
      rfl
    all_goals rw [Station.modSensorWatch_rest, rest]
    exact ht.2.2.2
  · intro absent
    have range : ¬ Config.sensors ≤ n := Nat.not_le.mpr hn
    refine exec_editRefused (r := .deleteSensor n) rfl ht he rfl (?_ : s.st.deleteSensor n = _)
    simp only [Station.deleteSensor, editBar_editable he, range, if_false, absent]

end Sys2Proof.Machine
end

section
/-! DELETE_VALVE, and PUT_VALVE of a new valve (R16 to R18; log entry 23). -/

namespace Sys2Proof.Machine

variable {s : State} {x : Station}

namespace Station

/-- The station with the valve's record stored. -/
def valvePut (x : Station) (v : Nat) (r : Valve) : Station := { x with nt := { x.nt with valves := x.nt.valves.put v r } }

theorem canonical_valvePut (c : x.canonical = true) (v : Nat) (r : Valve) : (x.valvePut v r).canonical = true :=
  canonical_edit x c _ fun h => ⟨h.1, Table.wf_put _ _ _ h.2.1, h.2.2.1, h.2.2.2.1, h.2.2.2.2⟩

theorem deleteValve_eq (he : x.editable) {v : Nat} (hv : v < 768) {r : Valve} (hr : x.valve? v = some r) :
    x.deleteValve v =
      if x.allFree = false then refuse .incidentActive x
      else if x.motionWork v = true then refuse .wrongState x
      else editTaken 0 ((({ x with nt := { x.nt with valves := x.nt.valves.drop v } } : Station).remap r.node none
        (.valve v) .none).modVs v fun _ => {}) := by
  have range : ¬ Config.valves ≤ v := Nat.not_le.mpr hv
  unfold Station.deleteValve
  rw [editBar_editable he]
  dsimp only
  rw [if_neg range, hr]

theorem modVs_rest (v : Nat) (f : VsRec → VsRec) : x.modVs v f = { x with vs := (x.modVs v f).vs } := rfl

/-- A valve's state set to the same record whatever it was. -/
theorem vsOf_replaced (c : x.canonical = true) (v w : Nat) (d : VsRec) :
    (x.modVs v fun _ => d).vsOf w = if w = v then d else x.vsOf w :=
  vsOf_modVs c v w fun _ => d

end Station

/-- Settles O19. -/
theorem deleteValveRemovesTheRecord : Obligations.DeleteValveRemovesTheRecord := by
  unfold Obligations.DeleteValveRemovesTheRecord
  intro s tag v ht he hc refused
  have valves : Table.wf s.st.nt.valves = true := (Station.canonical_netTidy hc).2.1
  have bar := editBar_editable he
  have no {st : Status} (hd : s.st.deleteValve v = refuse st s.st) : refused st :=
    exec_editRefused (r := .deleteValve v) rfl ht he rfl hd
  have present (h : (s.st.valve? v).isSome = true) : ∃ r, s.st.valve? v = some r := Option.isSome_iff_exists.mp h
  refine ⟨fun hv => no ?_, fun hv absent => no ?_, fun hv h hf => no ?_, fun hv h hf hm => no ?_, fun r hv hr hf hm => ?_⟩
  · have range : Config.valves ≤ v := hv
    simp only [Station.deleteValve, bar, range, if_true]
  · have range : ¬ Config.valves ≤ v := Nat.not_le.mpr hv
    simp only [Station.deleteValve, bar, range, if_false, absent]
  · obtain ⟨r, hr⟩ := present h
    rw [Station.deleteValve_eq he hv hr, if_pos hf]
  · obtain ⟨r, hr⟩ := present h
    rw [Station.deleteValve_eq he hv hr, if_neg (by simp [hf]), if_pos hm]
  · have decided := Station.deleteValve_eq he hv hr
    rw [if_neg (by simp [hf]), if_neg (by simp [hm])] at decided
    have c1 : ({ s.st with nt := { s.st.nt with valves := s.st.nt.valves.drop v } } : Station).canonical = true :=
      Station.canonical_edit s.st hc _ fun h => ⟨h.1, Table.wf_drop _ _ h.2.1, h.2.2.1, h.2.2.2.1, h.2.2.2.2⟩
    obtain ⟨c2, rest, -, kind⟩ := Station.remap_gone _ c1 r.node (.valve v) .none
    have free (n : Node) (hn : r.node = some n) :
        (({ s.st with nt := { s.st.nt with valves := s.st.nt.valves.drop v } } : Station).remap r.node none
          (.valve v) .none).occupant? n = none := by
      rw [hn]
      exact Station.occupant_remap_gone c1 n (.valve v) .none
    generalize Station.remap _ r.node none (.valve v) .none = y at *
    have record (w : Nat) := Station.vsOf_replaced c2 v w {}
    refine ⟨_, exec_editTaken (i := .deleteValve tag v) (r := .deleteValve v) rfl ht he rfl decided
      (by rw [Station.modVs_rest, rest]; exact ht.2.2.2), ?_, ?_, ?_, ?_, fun n hn => ⟨free n hn, kind n hn⟩, ?_, ?_, ?_,
      ?_, ?_, ?_, ?_, ?_, ?_, ?_, ?_⟩
    · show y.valve? v = none
      rw [rest]
      exact Table.find_drop_same _ _ valves
    · intro w hw
      show y.valve? w = _
      rw [rest]
      exact Table.find_drop_other _ _ _ valves hw
    · rw [record, if_pos rfl]
    · intro w hw
      rw [record, if_neg hw, rest]
      rfl
    all_goals rw [Station.modVs_rest, rest]
    exact ht.2.2.2

namespace Station

/-! What PUT_VALVE decides. -/

/-- A PUT_VALVE's record is invalid where it lies (R16). -/
theorem badValve_iff (f : ValveFields) (kind : ValveKind) (place : Node) :
    x.badValve f (if kind = .actuated then some place else none) = true ↔
      x.segment? f.sideA = none ∨ x.segment? f.sideB = none ∨ f.sideA = f.sideB ∨
        (kind = .actuated ∧ ∃ o, x.occupant? place = some o ∧ o ≠ .valve f.valve) := by
  unfold badValve
  by_cases h : kind = .actuated <;> simp [h, occupiedByOther_iff, or_assoc]

theorem putValve_eq (he : x.editable) {f : ValveFields} {normal : Normal} {kind : ValveKind}
    (hn : normal? f.normal = some normal) (hk : valveKind? f.kind = some kind) (hv : f.valve < 768) (ha : f.sideA < 512)
    (hb : f.sideB < 512) (hz : f.zone < 16) (hp : kind = .actuated → f.line ≤ 1 ∧ 1 ≤ f.address ∧ f.address ≤ 60)
    {node : Option Node} (hnode : node = if kind = .actuated then some ⟨if f.line = 0 then .a else .b, f.address⟩ else none)
    {topology : Bool} (ht : valveTopology f normal kind node (x.valve? f.valve) = topology) :
    x.putValve f =
      if (topology && !x.allFree) = true then refuse .incidentActive x
      else if (topology && x.motionWork f.valve) = true then refuse .wrongState x
      else if x.badValve f node = true then refuse .badTopology x
      else x.storeValve f normal kind node := by
  have place (h : kind = .actuated) : place? f.line f.address = some ⟨if f.line = 0 then .a else .b, f.address⟩ :=
    place?_eq (hp h).1 (hp h).2.1 (hp h).2.2
  have named : (if kind = .actuated then place? f.line f.address else none) = node := by
    rw [hnode]
    split
    · rename_i h; exact place h
    · rfl
  have range : ¬ (Config.valves ≤ f.valve ∨ Config.segments ≤ f.sideA ∨ Config.segments ≤ f.sideB ∨ Config.zones ≤ f.zone ∨
      (kind = .actuated ∧ (place? f.line f.address).isNone = true)) := by
    rintro (h | h | h | h | ⟨h, e⟩)
    · exact absurd hv (Nat.not_lt.mpr h)
    · exact absurd ha (Nat.not_lt.mpr h)
    · exact absurd hb (Nat.not_lt.mpr h)
    · exact absurd hz (Nat.not_lt.mpr h)
    · rw [place h] at e
      cases e
  unfold Station.putValve
  rw [editBar_editable he, hn, hk]
  dsimp only
  rw [if_neg range, named, ht]

/-- The state of a new valve: a crew valve stands in its normal position, an actuated one is unknown (R17). -/
def freshState (r : Valve) : VsRec := if r.kind = .crew then atNormal r {} else {}

theorem freshState_eq (r : Valve) : freshState r =
    { position := if r.kind = .actuated then .unknown else if r.normal = .normallyOpen then .opened else .closed
      percent := if r.kind = .actuated then none else if r.normal = .normallyOpen then some 100 else some 0
      stale := false, holds := 0, localMark := false, faults := none, owner := none, request := false
      flow := none, kept := none } := by
  unfold freshState atNormal
  cases r.kind <;> cases r.normal <;> rfl

/-- What a new valve's state is, with its class derived. -/
theorem newValveState (c : x.canonical = true) (v : Nat) (d : VsRec) :
    (((x.modVs v fun _ => d).deriveClass v).vsOf v =
      { d with kept := usability? ((x.modVs v fun _ => d).deriveClass v) v }) ∧
    ∀ w, w ≠ v → ((x.modVs v fun _ => d).deriveClass v).vsOf w = x.vsOf w := by
  have c1 : (x.modVs v fun _ => d).canonical = true := canonical_modVs v _ c
  have record (w : Nat) := vsOf_replaced c v w d
  unfold deriveClass
  generalize x.modVs v (fun _ => d) = y at *
  have derived (w : Nat) : (y.modVs v fun e => { e with kept := usability? y v }).vsOf w = _ :=
    vsOf_modVs c1 v w fun e => { e with kept := usability? y v }
  refine ⟨?_, fun w hw => ?_⟩
  · rw [usability_kept y c1, derived, if_pos rfl, record, if_pos rfl]
  · rw [derived, if_neg hw, record, if_neg hw]

end Station
end Sys2Proof.Machine
end

section
/-! PUT_VALVE of a new valve (R16, R17; log entry 23). -/

namespace Sys2Proof.Machine

variable {s : State} {x : Station}

namespace Station

/-- A new valve's record at its place in the node map. -/
def valvePlaced (x : Station) (v : Nat) (r : Valve) (old : Option Node) : Station :=
  (x.valvePut v r).remap old r.node (.valve v) .actuator

/-- What a valve's record and its place make of the tables. -/
structure ValvePlaced (x y : Station) (v : Nat) (r : Valve) (old : Option Node) : Prop where
  rest : ∃ map, y = { x with nt := { x.nt with valves := x.nt.valves.put v r, nodeMap := map }, lineA := y.lineA, lineB := y.lineB }
  canonical : y.canonical = true
  here : y.valve? v = some r
  others : ∀ w, w ≠ v → y.valve? w = x.valve? w
  calls : ∀ l, (y.line l).calls = (x.line l).calls
  stays : old = r.node → y.nt.nodeMap = x.nt.nodeMap ∧ ∀ l, y.line l = x.line l
  node : old ≠ r.node → ∀ m, y.node m =
    if r.node = some m then kinded x.clock .actuator (x.node m) else if old = some m then kinded x.clock .none (x.node m)
    else x.node m
  takes : ∀ n, old ≠ r.node → r.node = some n → y.occupant? n = some (.valve v)
  occupant : (∀ n, old = some n → n.Placed) → (∀ n, r.node = some n → n.Placed) → old ≠ r.node → ∀ m : Node, m.Placed →
    y.occupant? m = if r.node = some m then some (.valve v) else if old = some m then none else x.occupant? m

theorem valvePlaced_spec (c : x.canonical = true) (v : Nat) (r : Valve) (old : Option Node) :
    ValvePlaced x (x.valvePlaced v r old) v r old := by
  have c1 := canonical_valvePut c v r
  obtain ⟨map, c2, rest, calls⟩ := remap_rest _ c1 old r.node (.valve v) .actuator
  have same (h : old = r.node) : (x.valvePut v r).remap old r.node (.valve v) .actuator = x.valvePut v r := if_pos h
  have node := fun h => node_remap (x := x.valvePut v r) c1 (old := old) (new := r.node) h (.valve v) .actuator
  have takes (n : Node) (h : old ≠ r.node) (hn : r.node = some n) :
      ((x.valvePut v r).remap old r.node (.valve v) .actuator).occupant? n = some (.valve v) := by
    rw [hn] at h ⊢
    exact (remap_some _ c1 old n (.valve v) .actuator h).1
  have occupant := fun m hm ho hn => occupant_remap _ c1 old r.node (.valve v) .actuator m hm ho hn
  unfold valvePlaced
  generalize (x.valvePut v r).remap old r.node (.valve v) .actuator = y at *
  exact
    { rest := ⟨map, rest⟩
      canonical := c2
      here := by rw [rest]; exact Table.find_put_same _ _ _
      others := fun w hw => by rw [rest]; exact Table.find_put_other _ _ _ _ hw
      calls := calls
      stays := fun h => by rw [same h]; exact ⟨rfl, fun l => rfl⟩
      node := node
      takes := takes
      occupant := fun ho hn h m hm => (occupant m hm ho hn).trans (if_neg h) }

theorem storeValve_new {f : ValveFields} {normal : Normal} {kind : ValveKind} {node : Option Node}
    (absent : x.valve? f.valve = none) : x.storeValve f normal kind node =
      editTaken (valveRecord f normal kind node none).2
        (((x.valvePlaced f.valve (valveRecord f normal kind node none).1 none).modVs f.valve
          fun _ => freshState (valveRecord f normal kind node none).1).deriveClass f.valve) := by
  unfold storeValve
  dsimp only
  rw [absent]
  rfl

/-- A place taken anew: its entry afresh where it was no actuator's, and the calls queued to it withdrawn. -/
theorem line_valvePlaced {v : Nat} {r : Valve} {place : Node} (h : r.node = some place)
    (hk : (x.node place).kind ≠ .actuator) (l : Line) :
    ({ (x.valvePlaced v r none).line l with nodes := [] } : FieldLine) =
      { x.line l with
        nodes := []
        strokes := (x.line l).strokes.filter fun a => decide (l ≠ place.line ∨ a ≠ place.address)
        halts := (x.line l).halts.filter fun a => decide (l ≠ place.line ∨ a ≠ place.address) } := by
  unfold valvePlaced
  rw [h, remap_eq _ none place _ _ nofun]
  exact line_setKind (x := { x.valvePut v r with
    nt := { (x.valvePut v r).nt with nodeMap := (x.valvePut v r).nt.nodeMap.put place.key (.valve v) } }) hk l

theorem line_valvePlaced_kept {v : Nat} {r : Valve} {place : Node} (h : r.node = some place)
    (hk : (x.node place).kind = .actuator) (l : Line) : (x.valvePlaced v r none).line l = x.line l := by
  unfold valvePlaced
  rw [h, remap_eq _ none place _ _ nofun]
  exact congrArg (·.line l) (setKind_kept (x := { x.valvePut v r with
    nt := { (x.valvePut v r).nt with nodeMap := (x.valvePut v r).nt.nodeMap.put place.key (.valve v) } }) hk)

end Station

/-- Settles O17. -/
theorem putValveCreatesAValve : Obligations.PutValveCreatesAValve := by
  unfold Obligations.PutValveCreatesAValve
  intro s tag f normal kind ht he hc absent hn hk hv ha hb hz hp place node refused bad
  have topology : Station.valveTopology f normal kind node (s.st.valve? f.valve) = true := by rw [absent]; rfl
  have decided := Station.putValve_eq he hn hk hv ha hb hz hp (node := node) rfl topology
  have bad_iff : s.st.badValve f node = true ↔ bad := Station.badValve_iff f kind place
  have no {st : Status} (hd : s.st.putValve f = refuse st s.st) : refused st :=
    exec_editRefused (r := .putValve f) rfl ht he rfl hd
  refine ⟨fun hf => no ?_, fun hf hm => no ?_, fun hf hm hbad => no ?_, fun hf hm hgood => ?_⟩
  · rw [decided, if_pos (by simp [hf])]
  · rw [decided, if_neg (by simp [hf]), if_pos (by simp [hm])]
  · rw [decided, if_neg (by simp [hf]), if_neg (by simp [hm]), if_pos (bad_iff.mpr hbad)]
  · intro clampTo tmin tmax stall stored differs clamped
    have velocity : clamp 0 5000 f.velocity = min f.velocity 5000 := clamp_zero _ _
    have record : Station.valveRecord f normal kind node none = (stored, clamped) := by
      unfold Station.valveRecord
      rw [velocity]
      rfl
    rw [if_neg (by simp [hf]), if_neg (by simp [hm]), if_neg (hgood ∘ bad_iff.mp), Station.storeValve_new absent, record]
      at decided
    dsimp only at decided
    have placed := Station.valvePlaced_spec hc f.valve stored none
    have withdrawn := fun h hk l => Station.line_valvePlaced (x := s.st) (v := f.valve) (r := stored) (place := place) h hk l
    have kept := fun h hk l => Station.line_valvePlaced_kept (x := s.st) (v := f.valve) (r := stored) (place := place) h hk l
    obtain ⟨⟨map, rest⟩, c1, here, others, -, stays, nodes, takes, occupant⟩ := placed
    have state := Station.newValveState c1 f.valve (Station.freshState stored)
    have taken := fun (y : Station) (hd : s.st.putValve f = editTaken clamped y) (ho : y.outbox = []) =>
      exec_editTaken (i := .putValve tag f) (r := .putValve f) rfl ht he rfl hd ho
    generalize s.st.valvePlaced f.valve stored none = y at *
    have derived : ∃ vs, (y.modVs f.valve fun _ => Station.freshState stored).deriveClass f.valve = { y with vs := vs } :=
      ⟨_, rfl⟩
    obtain ⟨vs, derived⟩ := derived
    generalize (y.modVs f.valve fun _ => Station.freshState stored).deriveClass f.valve = t at *
    obtain ⟨fresh, old⟩ := state
    have taken := taken t decided (by rw [derived, rest]; exact ht.2.2.2)
    refine ⟨t, taken, ?_, ?_, ?_, ?_, ?_, ?_, fun hcrew => ?_, fun hact => ?_, ?_, ?_, ?_, ?_, ?_, ?_, ?_, ?_, ?_, ?_, ?_⟩
    · rw [derived]
      exact here
    · intro w hw
      rw [derived]
      exact others w hw
    · rw [derived, rest]
    · rw [derived, rest]
    · rw [derived, rest]
    · rw [derived, rest]
    · have unplaced : none = stored.node := by
        show none = if kind = .actuated then some place else none
        rw [if_neg (by simp [hcrew])]
      rw [derived]
      exact stays unplaced
    · have named : stored.node = some place := if_pos hact
      have away : none ≠ stored.node := by rw [named]; nofun
      have atPlace (n : Node) (h : stored.node = some n) : n.Placed := by
        rw [named] at h
        exact Option.some.inj h ▸ (hp hact).2
      have entry (m : Node) : t.node m = y.node m := by rw [derived]; rfl
      have lines (l : Line) : t.line l = y.line l := by rw [derived]; rfl
      have occupants (m : Node) : t.occupant? m = y.occupant? m := by rw [derived]; rfl
      refine ⟨?_, fun m hm h1 h2 => ?_, fun hkind l => ?_, fun hkind => ⟨?_, fun m hm => ?_, fun l => ?_⟩⟩
      · rw [occupants]
        exact takes place away named
      · have elsewhere : ¬ stored.node = some m := fun h => hm (Option.some.inj (named.symm.trans h)).symm
        rw [occupants, occupant nofun atPlace away m ⟨h1, h2⟩, if_neg elsewhere, if_neg nofun]
      · rw [lines]
        exact kept named hkind l
      · rw [entry, nodes away, if_pos named]
        exact if_neg hkind
      · have elsewhere : ¬ stored.node = some m := fun h => hm (Option.some.inj (named.symm.trans h)).symm
        rw [entry, nodes away, if_neg elsewhere, if_neg nofun]
      · rw [lines]
        exact withdrawn named hkind l
    · rw [fresh, Station.freshState_eq]
    · intro w hw
      rw [old w hw, rest]
      rfl
    all_goals rw [derived, rest]
    exact ht.2.2.2

end Sys2Proof.Machine
end

section
/-! PUT_VALVE of a present valve (R13, R16, R17, R22). -/

namespace Sys2Proof.Machine

variable {s : State} {x : Station}

namespace Station

theorem Retimed.of_slots {y t : Station} {v : Nat} {p : Profile} (h : y.Retimed t v p) (e : y.im.slots = x.im.slots) :
    x.Retimed t v p := by
  have same (k : Nat) (ro : Bool) (w : Nat) : y.entryIn k ro w = x.entryIn k ro w := by
    simp only [entryIn, slot, e]
  intro k ro a hk ha
  exact h k ro a hk ((same k ro v).trans ha)

theorem EntriesStand.of_slots {y t : Station} {v : Nat} (h : y.EntriesStand t v) (e : y.im.slots = x.im.slots) :
    x.EntriesStand t v := by
  have same (k : Nat) (ro : Bool) (w : Nat) : y.entryIn k ro w = x.entryIn k ro w := by
    simp only [entryIn, slot, e]
  intro k ro hk
  exact (h k ro hk).trans (same k ro v)

/-- No slot watches a valve while every slot is FREE (R93). -/
theorem watchLeft_free (h : x.allFree = true) (v : Nat) : x.watchLeft v = x := by
  have unwatched (k : Nat) (hk : k ∈ slotNumbers) : x.watchedBy k v = false := by
    have free : (x.slot k).state = .free := of_decide_eq_true (List.all_eq_true.mp h k hk)
    simp [watchedBy, free]
  have idle (ks : List Nat) (hks : ∀ k ∈ ks, x.watchedBy k v = false) :
      ks.foldl (fun s k => if s.watchedBy k v then s.recordFailure k v (s.leftCause v) else s) x = x := by
    induction ks with
    | nil => rfl
    | cons k ks ih =>
      have here : ¬ x.watchedBy k v = true := by simp [hks k (by simp)]
      rw [List.foldl_cons, if_neg here]
      exact ih fun j hj => hks j (by simp [hj])
  exact idle slotNumbers unwatched

theorem reposition_free (h : x.allFree = true) (v : Nat) (f : VsRec → VsRec) :
    x.reposition v f = (x.modVs v f).refreshClass v ∨ x.reposition v f = (x.modVs v f).markStale.refreshClass v := by
  have quiet (y : Station) (hy : y.im = x.im) (p : Prop) [Decidable p] :
      (if p then (y.refreshClass v).watchLeft v else y.refreshClass v) = y.refreshClass v := by
    have free : (y.refreshClass v).allFree = true := by
      unfold allFree slot at h ⊢
      rw [refreshClass_im, hy]
      exact h
    rw [watchLeft_free free]
    split <;> rfl
  by_cases passage : (x.vsOf v).position.passes = ((x.modVs v f).vsOf v).position.passes
  · refine .inl (Eq.trans ?_ (quiet (x.modVs v f) rfl
      ((x.vsOf v).position = .closed ∧ ((x.modVs v f).vsOf v).position ≠ .closed)))
    unfold reposition
    simp only [if_pos passage]
  · refine .inr (Eq.trans ?_ (quiet (x.modVs v f).markStale rfl
      ((x.vsOf v).position = .closed ∧ ((x.modVs v f).vsOf v).position ≠ .closed)))
    unfold reposition
    simp only [if_neg passage]

/-- The actuator's state of a valve whose kind or place has changed (R17). -/
def movedState (r : Valve) (d : VsRec) : VsRec :=
  if r.kind = .crew then atNormal r (forgetNode d)
  else { forgetNode d with position := .unknown, percent := none, stale := false }

theorem movedState_eq (r : Valve) (d : VsRec) : movedState r d =
    { d with
      position := if r.kind = .actuated then .unknown else if r.normal = .normallyOpen then .opened else .closed
      percent := if r.kind = .actuated then none else if r.normal = .normallyOpen then some 100 else some 0
      stale := false, localMark := false, faults := none, request := false } := by
  unfold movedState atNormal forgetNode
  cases r.kind <;> cases r.normal <;> rfl

/-- What the class derived again, or the state set afresh, makes of a valve while every slot is FREE. -/
structure ClassDerived (x y : Station) (v : Nat) (d : VsRec) : Prop where
  rest : y = { x with vs := y.vs, ip := y.ip }
  record : y.vsOf v = { d with kept := usability? y v }
  others : ∀ w, w ≠ v → y.vsOf w = x.vsOf w
  queue : y.ip.queue = x.ip.queue
  stale : y.markStale.ip = x.markStale.ip
  canonical : y.canonical = true

theorem markStale_markStale_ip : x.markStale.markStale.ip = x.markStale.ip := by
  unfold markStale modFlight
  cases x.ip.flight <;> rfl

theorem markStale_ip_of {y : Station} (h : y.ip = x.ip) : y.markStale.ip = x.markStale.ip := by
  unfold markStale modFlight
  rw [h]

theorem refreshClass_derived (c : x.canonical = true) {v : Nat} {r : Valve} (hr : x.valve? v = some r) :
    ClassDerived x (x.refreshClass v) v (x.vsOf v) := by
  obtain ⟨kept, still, others, ip, rest⟩ := refreshClass_changes c hr
  have canonical : (x.refreshClass v).canonical = true := ((Works.refl x).refreshClass v).canon c
  generalize x.refreshClass v = y at *
  refine ⟨rest, ?_, others, ?_, ?_, canonical⟩
  · have whole : y.vsOf v = { ({ y.vsOf v with kept := none } : VsRec) with kept := (y.vsOf v).kept } := rfl
    rw [whole, still, kept]
  · rw [ip]
    split <;> rfl
  · split at ip
    · exact markStale_ip_of ip
    · exact (markStale_ip_of ip).trans markStale_markStale_ip

theorem reposition_derived (c : x.canonical = true) (h : x.allFree = true) {v : Nat} {r : Valve} (hr : x.valve? v = some r)
    (f : VsRec → VsRec) : ClassDerived x (x.reposition v f) v (f (x.vsOf v)) := by
  have c1 : (x.modVs v f).canonical = true := canonical_modVs v f c
  have record (w : Nat) := vsOf_modVs c v w f
  have direct : ClassDerived x ((x.modVs v f).refreshClass v) v (f (x.vsOf v)) := by
    obtain ⟨rest, here, others, queue, stale, canonical⟩ := refreshClass_derived c1 (v := v) (r := r) hr
    rw [record, if_pos rfl] at here
    exact ⟨rest, here, fun w hw => (others w hw).trans ((record w).trans (if_neg hw)), queue, stale, canonical⟩
  have marked : ClassDerived x ((x.modVs v f).markStale.refreshClass v) v (f (x.vsOf v)) := by
    have c2 : (x.modVs v f).markStale.canonical = true := (Works.refl _).markStale.canon c1
    obtain ⟨rest, here, others, queue, stale, canonical⟩ := refreshClass_derived c2 (v := v) (r := r) hr
    have same (w : Nat) : (x.modVs v f).markStale.vsOf w = (x.modVs v f).vsOf w := rfl
    rw [same, record, if_pos rfl] at here
    exact ⟨rest, here, fun w hw => (others w hw).trans ((record w).trans (if_neg hw)), queue,
      stale.trans markStale_markStale_ip, canonical⟩
  rcases reposition_free h v f with e | e
  · rw [e]; exact direct
  · rw [e]; exact marked

/-! The edit. -/

/-- The valve's record as it stands in the end: without measured stroke and exercise time where its kind or place has
changed (R17). -/
def afterMove (old r : Valve) : Valve :=
  if old.kind = r.kind ∧ old.node = r.node then r else { r with measured := none, exercised := none }

/-- What a topology edit of a present valve makes of its state, every slot being FREE (R17). -/
structure StateEdited (x y : Station) (v : Nat) (old r : Valve) : Prop where
  rest : ∃ vals, y = { x with nt := { x.nt with valves := vals }, vs := y.vs, ip := y.ip }
  here : y.valve? v = some (afterMove old r)
  valves : ∀ w, w ≠ v → y.valve? w = x.valve? w
  record : y.vsOf v = { (if old.kind = r.kind ∧ old.node = r.node then x.vsOf v else movedState r (x.vsOf v)) with
    kept := usability? y v }
  others : ∀ w, w ≠ v → y.vsOf w = x.vsOf w
  queue : y.ip.queue = x.ip.queue
  stale : y.markStale.ip = x.markStale.ip
  canonical : y.canonical = true

theorem valveStateOnEdit_edited (c : x.canonical = true) (h : x.allFree = true) {v : Nat} {old r : Valve}
    (hr : x.valve? v = some r) : StateEdited x (x.valveStateOnEdit v (some old) r) v old r := by
  by_cases same : old.kind = r.kind ∧ old.node = r.node
  · have e : x.valveStateOnEdit v (some old) r = x.refreshClass v := if_pos same
    obtain ⟨rest, record, others, queue, stale, canonical⟩ := refreshClass_derived c hr
    rw [e]
    generalize x.refreshClass v = y at *
    exact
      { rest := ⟨x.nt.valves, rest⟩
        here := by rw [rest, afterMove, if_pos same]; exact hr
        valves := fun w _ => by rw [rest]; rfl
        record := by rw [if_pos same]; exact record
        others, queue, stale, canonical }
  · have e : x.valveStateOnEdit v (some old) r =
        (x.modValve v fun r => { r with measured := none, exercised := none }).reposition v (movedState r) := if_neg same
    have c1 : (x.modValve v fun r => { r with measured := none, exercised := none }).canonical = true :=
      ((Works.refl x).modValve v _).canon c
    have written (w : Nat) := valve_modValve (s := x) v w fun r => { r with measured := none, exercised := none }
    have net : ∃ vals, (x.modValve v fun r => { r with measured := none, exercised := none }) =
        { x with nt := { x.nt with valves := vals } } := by
      unfold modValve
      split
      · exact ⟨_, rfl⟩
      · exact ⟨x.nt.valves, rfl⟩
    rw [e]
    generalize (x.modValve v fun r => { r with measured := none, exercised := none }) = t at *
    obtain ⟨vals, net⟩ := net
    have here : t.valve? v = some { r with measured := none, exercised := none } := by
      rw [written, if_pos rfl, hr, Option.map_some]
    have free : t.allFree = true := by rw [net]; exact h
    have before (w : Nat) : t.vsOf w = x.vsOf w := by rw [net]; rfl
    obtain ⟨rest, record, others, queue, stale, canonical⟩ := reposition_derived c1 free here (movedState r)
    generalize t.reposition v (movedState r) = y at *
    exact
      { rest := ⟨vals, by rw [rest, net]⟩
        here := by rw [rest, afterMove, if_neg same]; exact here
        valves := fun w hw => by rw [rest]; exact (written w).trans (if_neg hw)
        record := by rw [if_neg same, ← before]; exact record
        others := fun w hw => (others w hw).trans (before w)
        queue := by rw [queue, net]
        stale := by rw [stale]; exact markStale_ip_of (by rw [net])
        canonical }

theorem storeValve_present {f : ValveFields} {normal : Normal} {kind : ValveKind} {node : Option Node} {old r : Valve}
    {n : Nat} {topology : Bool} (present : x.valve? f.valve = some old)
    (record : valveRecord f normal kind node (some old) = (r, n)) (hr : r.node = node)
    (ht : valveTopology f normal kind node (some old) = topology) :
    x.storeValve f normal kind node = editTaken n
      (let y := x.valvePlaced f.valve r old.node
       let z := if topology = true then y.valveStateOnEdit f.valve (some old) r else y
       if valveInputs old ≠ valveInputs r then z.markStale.retimeValve f.valve else z) := by
  subst hr
  unfold storeValve
  dsimp only
  rw [present, record, ht]
  dsimp only [Option.bind_some, Option.isSome_some, Option.map_some]
  exact congrArg (editTaken n) (if_congr (by simp) rfl rfl)

/-- What a PUT_VALVE of a present valve makes of its state. -/
def valveStated (x : Station) (v : Nat) (old r : Valve) (topology : Bool) : Station :=
  if topology = true then x.valveStateOnEdit v (some old) r else x

/-- What a new profile makes of a valve's entries where a planner input changes (R22). -/
def valveTimed (x : Station) (v : Nat) (inputs : Prop) [Decidable inputs] : Station :=
  if inputs then x.markStale.retimeValve v else x

/-- What the new times leave and what they change. -/
structure ValveTimed (x y : Station) (v : Nat) (r : Valve) (inputs : Prop) : Prop where
  rest : y = { x with im := { x.im with slots := y.im.slots }, ip := y.ip, outbox := y.outbox }
  queue : y.ip.queue = x.ip.queue
  ip : inputs → y.ip = x.markStale.ip
  slots : ∀ k, ({ y.slot k with work := [], reopen := [] } : Slot) = { x.slot k with work := [], reopen := [] }
  timed : inputs → x.Retimed y v (profileOf y v r)
  others : ∀ w, (inputs → w ≠ v) → x.EntriesStand y w

theorem valveTimed_spec (c : x.canonical = true) {v : Nat} {r : Valve} (hr : x.valve? v = some r) (inputs : Prop)
    [Decidable inputs] : ValveTimed x (x.valveTimed v inputs) v r inputs := by
  unfold valveTimed
  split
  · rename_i changed
    have c1 : x.markStale.canonical = true := (Works.refl _).markStale.canon c
    have named : (decide (v = v) && (x.markStale.valve? v).isSome) = true := by
      rw [show x.markStale.valve? v = some r from hr]
      simp
    obtain ⟨rest, -, slots, -, timed, others⟩ := retimeValve_all c1 v
    generalize x.markStale.retimeValve v = y at *
    exact
      { rest := by rw [rest]; rfl
        queue := by rw [rest]; rfl
        ip := fun _ => by rw [rest]
        slots := slots
        timed := fun _ => timed v r named hr
        others := fun w hw => others w (by simp [hw changed]) }
  · rename_i same
    exact
      { rest := rfl
        queue := rfl
        ip := fun h => absurd h same
        slots := fun _ => rfl
        timed := fun h => absurd h same
        others := fun _ _ _ _ _ => rfl }

end Station
end Sys2Proof.Machine
end

section
/-! PUT_VALVE of a present valve, as a whole (R13, R16, R17, R22; log entry 23). -/

namespace Sys2Proof.Machine

variable {s : State} {x : Station}

namespace Station

/-- What the state of a valve is after a PUT_VALVE that changes its topology or does not. -/
structure ValveStated (x y : Station) (v : Nat) (old r : Valve) (topology : Bool) : Prop where
  rest : ∃ vals, y = { x with nt := { x.nt with valves := vals }, vs := y.vs, ip := y.ip }
  here : y.valve? v = some (if topology = true then afterMove old r else r)
  valves : ∀ w, w ≠ v → y.valve? w = x.valve? w
  record : topology = true → y.vsOf v =
    { (if old.kind = r.kind ∧ old.node = r.node then x.vsOf v else movedState r (x.vsOf v)) with kept := usability? y v }
  still : topology = false → y.vsOf v = x.vsOf v
  others : ∀ w, w ≠ v → y.vsOf w = x.vsOf w
  queue : y.ip.queue = x.ip.queue
  stale : y.markStale.ip = x.markStale.ip
  canonical : y.canonical = true

theorem valveStated_spec (c : x.canonical = true) {v : Nat} {old r : Valve} (hr : x.valve? v = some r) {topology : Bool}
    (h : topology = true → x.allFree = true) : ValveStated x (x.valveStated v old r topology) v old r topology := by
  unfold valveStated
  cases topology with
  | false =>
    exact
      { rest := ⟨x.nt.valves, rfl⟩, here := hr, valves := fun _ _ => rfl, record := nofun, still := fun _ => rfl
        others := fun _ _ => rfl, queue := rfl, stale := rfl, canonical := c }
  | true =>
    obtain ⟨rest, here, valves, record, others, queue, stale, canonical⟩ := valveStateOnEdit_edited c (h rfl) (old := old) hr
    rw [if_pos rfl]
    exact ⟨rest, by rw [if_pos rfl]; exact here, valves, fun _ => record, nofun, others, queue, stale, canonical⟩

/-- The station after a PUT_VALVE of a present valve. -/
def valveRewritten (x : Station) (v : Nat) (old r : Valve) (topology : Bool) : Station :=
  ((x.valvePlaced v r old.node).valveStated v old r topology).valveTimed v (valveInputs old ≠ valveInputs r)

/-- What a PUT_VALVE of a present valve leaves and what it changes. -/
structure ValveRewritten (x y : Station) (v : Nat) (old r : Valve) (topology : Bool) : Prop where
  rest : ∃ vals map, y = { x with
    nt := { x.nt with valves := vals, nodeMap := map }, vs := y.vs, ip := y.ip
    im := { x.im with slots := y.im.slots }, lineA := y.lineA, lineB := y.lineB, outbox := y.outbox }
  here : y.valve? v = some (if topology = true then afterMove old r else r)
  valves : ∀ w, w ≠ v → y.valve? w = x.valve? w
  record : topology = true → y.vsOf v =
    { (if old.kind = r.kind ∧ old.node = r.node then x.vsOf v else movedState r (x.vsOf v)) with kept := usability? y v }
  still : topology = false → y.vsOf v = x.vsOf v
  others : ∀ w, w ≠ v → y.vsOf w = x.vsOf w
  stays : old.node = r.node → y.nt.nodeMap = x.nt.nodeMap ∧ ∀ n, y.node n = x.node n
  node : old.node ≠ r.node → ∀ m, y.node m =
    if r.node = some m then kinded x.clock .actuator (x.node m)
    else if old.node = some m then kinded x.clock .none (x.node m) else x.node m
  occupant : (∀ n, old.node = some n → n.Placed) → (∀ n, r.node = some n → n.Placed) → old.node ≠ r.node →
    ∀ m : Node, m.Placed →
    y.occupant? m = if r.node = some m then some (.valve v) else if old.node = some m then none else x.occupant? m
  calls : ∀ l, (y.line l).calls = (x.line l).calls
  queue : y.ip.queue = x.ip.queue
  ip : valveInputs old ≠ valveInputs r → y.ip = x.markStale.ip
  timed : valveInputs old ≠ valveInputs r →
    x.Retimed y v (profileOf y v (if topology = true then afterMove old r else r))
  entries : ∀ w, (valveInputs old ≠ valveInputs r → w ≠ v) → x.EntriesStand y w
  slots : ∀ k, ({ y.slot k with work := [], reopen := [] } : Slot) = { x.slot k with work := [], reopen := [] }

theorem valveRewritten_spec (c : x.canonical = true) (v : Nat) (old r : Valve) {topology : Bool}
    (h : topology = true → x.allFree = true) :
    ValveRewritten x (x.valveRewritten v old r topology) v old r topology := by
  have placed := valvePlaced_spec c v r old.node
  unfold valveRewritten
  generalize x.valvePlaced v r old.node = y1 at *
  obtain ⟨⟨map, rest1⟩, c1, here1, valves1, calls1, stays1, node1, -, occupant1⟩ := placed
  have free : topology = true → y1.allFree = true := fun e => by rw [rest1]; exact h e
  have stated := valveStated_spec c1 here1 (old := old) free
  generalize y1.valveStated v old r topology = y2 at *
  obtain ⟨⟨vals, rest2⟩, here2, valves2, record2, still2, others2, queue2, stale2, c2⟩ := stated
  obtain ⟨rest3, queue3, ip3, slots3, timed3, entries3⟩ := valveTimed_spec c2 here2 (valveInputs old ≠ valveInputs r)
  have slots21 : y2.im.slots = x.im.slots := by rw [rest2, rest1]
  generalize y2.valveTimed v (valveInputs old ≠ valveInputs r) = y3 at *
  have vs32 (w : Nat) : y3.vsOf w = y2.vsOf w := by rw [rest3]; rfl
  have vs1 (w : Nat) : y1.vsOf w = x.vsOf w := by rw [rest1]; rfl
  have class32 : usability? y3 v = usability? y2 v := by
    rw [rest3]
    exact usability_eq v rfl rfl rfl rfl
  have node31 (m : Node) : y3.node m = y1.node m := by rw [rest3, rest2]; rfl
  have line31 (l : Line) : y3.line l = y1.line l := by rw [rest3, rest2]; rfl
  have map31 : y3.nt.nodeMap = y1.nt.nodeMap := by rw [rest3, rest2]
  exact
    { rest := ⟨vals, map, by rw [rest3, rest2, rest1]⟩
      here := by rw [rest3]; exact here2
      valves := fun w hw => by
        rw [rest3]
        exact (valves2 w hw).trans (valves1 w hw)
      record := fun e => by rw [vs32, class32, record2 e, vs1]
      still := fun e => by rw [vs32, still2 e, vs1]
      others := fun w hw => by rw [vs32, others2 w hw, vs1]
      stays := fun e => ⟨map31.trans (stays1 e).1, fun n => (node31 n).trans (by
        unfold node
        rw [(stays1 e).2])⟩
      node := fun e m => (node31 m).trans (node1 e m)
      occupant := fun ho hn e m hm => by
        unfold occupant? at occupant1 ⊢
        rw [map31]
        exact occupant1 ho hn e m hm
      calls := fun l => by rw [line31, calls1]
      queue := by rw [queue3, queue2, rest1]
      ip := fun e => by
        rw [ip3 e, stale2]
        exact markStale_ip_of (by rw [rest1])
      timed := fun e => (timed3 e).of_slots slots21
      entries := fun w hw => (entries3 w hw).of_slots slots21
      slots := fun k => (slots3 k).trans (by simp only [slot, slots21]) }

end Station

/-- Settles O18. -/
theorem putValveRewritesAValve : Obligations.PutValveRewritesAValve := by
  unfold Obligations.PutValveRewritesAValve
  intro s tag f old normal kind ht he hc present hn hk hv ha hb hz hp place node topology refused bad admitted
  have edits : Station.valveTopology f normal kind node (s.st.valve? f.valve) = decide topology := by rw [present]; rfl
  have edits_old : Station.valveTopology f normal kind node (some old) = decide topology := rfl
  have decided := Station.putValve_eq he hn hk hv ha hb hz hp (node := node) rfl edits
  have bad_iff : s.st.badValve f node = true ↔ bad := Station.badValve_iff f kind place
  have no {st : Status} (hd : s.st.putValve f = refuse st s.st) : refused st :=
    exec_editRefused (r := .putValve f) rfl ht he rfl hd
  have free (h : admitted) : ¬ (decide topology && !s.st.allFree) = true := by
    simp only [Bool.and_eq_true, decide_eq_true_eq, Bool.not_eq_true']
    rintro ⟨t, n⟩
    rw [(h t).1] at n
    cases n
  have idle (h : admitted) : ¬ (decide topology && s.st.motionWork f.valve) = true := by
    simp only [Bool.and_eq_true, decide_eq_true_eq]
    rintro ⟨t, n⟩
    rw [(h t).2] at n
    cases n
  refine ⟨fun t hf => no ?_, fun t hf hm => no ?_, fun h hbad => no ?_, fun h hgood => ?_⟩
  · rw [decided, if_pos (by simp [t, hf])]
  · rw [decided, if_neg (by simp [hf]), if_pos (by simp [t, hm])]
  · rw [decided, if_neg (free h), if_neg (idle h), if_pos (bad_iff.mpr hbad)]
  · intro clampTo tmin tmax stall moved stored differs clamped d inputs
    have whole : ∃ r : Valve, Station.valveRecord f normal kind node (some old) = (r, clamped) ∧
        r = { stored with measured := old.measured, exercised := old.exercised } := by
      have velocity : clamp 0 5000 f.velocity = min f.velocity 5000 := clamp_zero _ _
      unfold Station.valveRecord
      rw [velocity]
      exact ⟨_, rfl, rfl⟩
    obtain ⟨r, record, hr⟩ := whole
    have rkind : r.kind = kind := by rw [hr]
    have rnode : r.node = node := by rw [hr]
    have rnormal : r.normal = normal := by rw [hr]
    have same_iff : (old.kind = r.kind ∧ old.node = r.node) ↔ ¬ moved := by
      rw [rkind, rnode]
      simp only [moved, ne_eq, not_or, not_not]
    have moves : moved → topology := fun m => m.elim (fun e => .inr (.inr (.inl e))) fun e => .inr (.inr (.inr (.inr (.inr e))))
    have still (m : ¬ moved) : r = stored := by
      rw [hr]
      unfold stored
      simp only [if_neg m]
    have final : (if decide topology = true then Station.afterMove old r else r) = stored := by
      by_cases m : moved
      · rw [if_pos (decide_eq_true (moves m)), Station.afterMove, if_neg (fun e => same_iff.mp e m), hr]
        unfold stored
        simp only [if_pos m]
      · rw [Station.afterMove, if_pos (same_iff.mpr m), ite_self, still m]
    have inputs_iff : Station.valveInputs old ≠ Station.valveInputs r ↔ inputs := by
      rw [hr]
      simp only [Station.valveInputs, inputs, ne_eq, List.cons.injEq, and_true, not_and_or]
      exact Iff.rfl
    rw [if_neg (free h), if_neg (idle h), if_neg (hgood ∘ bad_iff.mp),
      Station.storeValve_present present record rnode edits_old] at decided
    have spec := Station.valveRewritten_spec hc f.valve old r (topology := decide topology)
      fun t => (h (of_decide_eq_true t)).1
    change s.st.putValve f = editTaken clamped (s.st.valveRewritten f.valve old r (decide topology)) at decided
    have taken := exec_decided (.putValve tag f) tag (.putValve f) rfl ht he.1 rfl decided
    generalize s.st.valveRewritten f.valve old r (decide topology) = x at *
    obtain ⟨⟨vals, map, rest⟩, here, valves, state, unchanged, others, stays, nodes, occupant, calls, queue, ip, timed, entries,
      slots⟩ := spec
    rw [final] at here timed
    rw [rnode] at stays nodes occupant
    refine ⟨x, taken, here, valves, ?_, ?_, ?_, ?_, ?_, fun m => ?_, fun t m => ?_, fun t => ?_, others, stays,
      fun hne agrees => ?_, calls, queue, fun i => ⟨ip (inputs_iff.mpr i), timed (inputs_iff.mpr i)⟩,
      fun w hw => entries w fun i => hw (inputs_iff.mp i), slots, ?_, ?_, ?_, ?_, ?_, ?_, ?_⟩
    · rw [rest]
    · rw [rest]
    · rw [rest]
    · rw [rest]
    · rw [rest]
    · rw [state (decide_eq_true (moves m)), if_neg (fun e => same_iff.mp e m), Station.movedState_eq, rkind, rnormal]
    · rw [state (decide_eq_true t), if_pos (same_iff.mpr m)]
    · exact unchanged (decide_eq_false t)
    · have before (n : Node) (e : old.node = some n) : n.Placed := agrees.valves f.valve old n present e
      have after (n : Node) (e : node = some n) : n.Placed := by
        by_cases hact : kind = .actuated
        · exact Option.some.inj ((if_pos hact : node = some place).symm.trans e) ▸ (hp hact).2
        · exact nomatch (if_neg hact : node = none).symm.trans e
      refine ⟨fun n e => ?_, fun n e => ?_⟩
      · have away : ¬ node = some n := fun g => hne (e.trans g.symm)
        refine ⟨?_, ?_⟩
        · rw [occupant before after hne n (before n e), if_neg away, if_pos e]
        · rw [nodes hne, if_neg away, if_pos e]
          rfl
      · refine ⟨?_, ?_⟩
        · rw [occupant before after hne n (after n e), if_pos e]
        · rw [nodes hne, if_pos e]
          rfl
    all_goals rw [rest]

end Sys2Proof.Machine
end

section
/-! The load: its tests, and what the image that loads makes of the station (R26, R181, R184). -/

namespace Sys2Proof.Machine

variable {s : State} {x : Station}

/-! The tests. -/

theorem rowsOk_once {α : Type} (n : Nat) (ok : α → Bool) (rows : List (Nat × α)) :
    rowsOk n ok rows = true ↔
      ((rows.map (·.1)).Nodup ∧ ∀ m ∈ rows.map (·.1), m < n) ∧ ∀ p ∈ rows, ok p.2 = true := by
  rw [rowsOk_iff, and_assoc]
  simp only [List.forall_mem_map, ← forall₂_and]

theorem fieldsOk_iff (i : Image) : fieldsOk i = true ↔
    ((i.segments.map (·.1)).Nodup ∧ ∀ m ∈ i.segments.map (·.1), m < 512) ∧
    ((i.valves.map (·.1)).Nodup ∧ ∀ m ∈ i.valves.map (·.1), m < 768) ∧
    ((i.sensors.map (·.1)).Nodup ∧ ∀ m ∈ i.sensors.map (·.1), m < 48) ∧
    ((i.zones.map (·.1)).Nodup ∧ ∀ m ∈ i.zones.map (·.1), m < 16) ∧
    (∀ p ∈ i.segments, segmentOk p.2 = true) ∧ (∀ p ∈ i.valves, valveOk p.2 = true) ∧
    (∀ p ∈ i.sensors, sensorOk p.2 = true) ∧ (∀ p ∈ i.zones, zoneOk p.2 = true) ∧ timingOk i.timing = true := by
  simp only [fieldsOk, Bool.and_eq_true, rowsOk_once]
  constructor
  · rintro ⟨⟨⟨⟨⟨a, a'⟩, b, b'⟩, c, c'⟩, d, d'⟩, e⟩
    exact ⟨a, b, c, d, a', b', c', d', e⟩
  · rintro ⟨a, b, c, d, a', b', c', d', e⟩
    exact ⟨⟨⟨⟨⟨a, a'⟩, b, b'⟩, c, c'⟩, d, d'⟩, e⟩

theorem topologyOk_iff (i : Image) : topologyOk i = true ↔
    (∀ p ∈ i.valves, (∃ q ∈ i.segments, q.1 = p.2.sideA) ∧ (∃ q ∈ i.segments, q.1 = p.2.sideB) ∧ p.2.sideA ≠ p.2.sideB) ∧
    (∀ p ∈ i.sensors, ∃ q ∈ i.segments, q.1 = p.2.segment) ∧ (nodeKeys i).Nodup ∧
    i.segments.countP (fun p => p.2.source) ≤ 24 := by
  simp only [topologyOk, Bool.and_eq_true, List.all_eq_true, List.any_eq_true, decide_eq_true_eq, and_assoc]
  rfl

theorem countsOk_iff (i : Image) :
    countsOk i = true ↔ i.segments.length ≤ 512 ∧ i.valves.length ≤ 768 ∧ i.sensors.length ≤ 48 := by
  simp only [countsOk, decide_eq_true_eq]
  rfl

/-- The tests in their order. -/
theorem loadTest_holds (c : Content) (check : Word) : loadTest (.holds c check) =
    if c.format ≠ 2 then .error .format
    else if countsOk c.image = false then .error .format
    else if crc32 (Config.imageBytes c) ≠ check then .error .check
    else if c.codesDefined = false ∨ fieldsOk c.image = false ∨ topologyOk c.image = false then .error .content
    else .ok c.image := rfl

namespace Station

/-! Operations that rewrite Valve State records and node-table entries each by itself. -/

/-- From `s` to `t` every Valve State record is rewritten by `f` and every node-table entry by `g`. -/
structure Rewrites (s t : Station) (f : Nat → VsRec → VsRec) (g : Node → NodeEntry → NodeEntry) : Prop where
  rest : t = { s with vs := t.vs, lineA := t.lineA, lineB := t.lineB }
  canonical : t.canonical = true
  vs : ∀ v, t.vsOf v = f v (s.vsOf v)
  node : ∀ n, t.node n = g n (s.node n)
  lines : ∀ l, ({ t.line l with nodes := [] } : FieldLine) = { s.line l with nodes := [] }

theorem Rewrites.refl (c : x.canonical = true) : Rewrites x x (fun _ d => d) (fun _ e => e) :=
  ⟨rfl, c, fun _ => rfl, fun _ => rfl, fun _ => rfl⟩

theorem Rewrites.trans {y z : Station} {f f' : Nat → VsRec → VsRec} {g g' : Node → NodeEntry → NodeEntry}
    (h : Rewrites x y f g) (h' : Rewrites y z f' g') :
    Rewrites x z (fun v d => f' v (f v d)) (fun n e => g' n (g n e)) where
  rest := by rw [h'.rest, h.rest]
  canonical := h'.canonical
  vs v := by rw [h'.vs, h.vs]
  node n := by rw [h'.node, h.node]
  lines l := (h'.lines l).trans (h.lines l)

theorem rewrites_modVs (c : x.canonical = true) (v : Nat) (h : VsRec → VsRec) :
    Rewrites x (x.modVs v h) (fun w d => if w = v then h d else d) (fun _ e => e) where
  rest := rfl
  canonical := canonical_modVs v h c
  vs w := (vsOf_modVs c v w h).trans (by split <;> simp_all)
  node _ := rfl
  lines _ := rfl

theorem rewrites_modNode (c : x.canonical = true) (n : Node) (h : NodeEntry → NodeEntry) :
    Rewrites x (x.modNode n h) (fun _ d => d) (fun m e => if m = n then h e else e) where
  rest := by
    obtain ⟨l, a⟩ := n
    cases l <;> rfl
  canonical := canonical_modNode x c n h
  vs _ := by
    rw [modNode_lines]
    rfl
  node m := (node_modNode c n m h).trans (by split <;> simp_all)
  lines l := by
    obtain ⟨l', a⟩ := n
    cases l' <;> cases l <;> rfl

/-- A row of such operations. -/
theorem Rewrites.foldl {α : Type} (op : Station → α → Station) (f : α → Nat → VsRec → VsRec)
    (g : α → Node → NodeEntry → NodeEntry)
    (h : ∀ y a, y.canonical = true → Rewrites y (op y a) (f a) (g a)) (as : List α) (c : x.canonical = true) :
    Rewrites x (as.foldl op x) (fun v d => as.foldl (fun d a => f a v d) d) (fun n e => as.foldl (fun e a => g a n e) e) := by
  induction as generalizing x with
  | nil => exact .refl c
  | cons a as ih =>
    have first := h x a c
    exact first.trans (ih first.canonical)

/-- Each valve takes the record of its own row, where it has one. -/
theorem foldl_rows_none {α β : Type} (h : α → β) (rows : List (Nat × α)) (v : Nat) (hv : v ∉ rows.map (·.1)) (d : β) :
    rows.foldl (fun d p => if v = p.1 then h p.2 else d) d = d := by
  induction rows generalizing d with
  | nil => rfl
  | cons p ps ih =>
    simp only [List.map_cons, List.mem_cons, not_or] at hv
    rw [List.foldl_cons, if_neg hv.1]
    exact ih hv.2 d

theorem foldl_rows_some {α β : Type} (h : α → β) (rows : List (Nat × α)) (nodup : (rows.map (·.1)).Nodup) {v : Nat} {r : α}
    (hv : (v, r) ∈ rows) (d : β) : rows.foldl (fun d p => if v = p.1 then h p.2 else d) d = h r := by
  induction rows generalizing d with
  | nil => cases hv
  | cons p ps ih =>
    rw [List.map_cons, List.nodup_cons] at nodup
    rw [List.foldl_cons]
    rcases List.mem_cons.mp hv with rfl | later
    · rw [if_pos rfl]
      exact foldl_rows_none h ps v nodup.1 _
    · exact ih nodup.2 later _

/-- A node's kind is set by any row that names it. -/
theorem foldl_kinds {α : Type} (names : α → Node → Prop) [∀ a n, Decidable (names a n)] (k : NodeKind) (as : List α) (n : Node)
    (e : NodeEntry) : as.foldl (fun e a => if names a n then { e with kind := k } else e) e =
      if ∃ a ∈ as, names a n then { e with kind := k } else e := by
  induction as generalizing e with
  | nil => simp
  | cons a as ih =>
    rw [List.foldl_cons, ih]
    by_cases here : names a n
    · simp [here]
    · simp [here]

/-- A valve's kept class derived anew. -/
theorem deriveClasses (c : x.canonical = true) (vs : List Nat) (v : Nat) :
    (vs.foldl deriveClass x).vsOf v = (if v ∈ vs then { x.vsOf v with kept := usability? x v } else x.vsOf v) ∧
    vs.foldl deriveClass x = { x with vs := (vs.foldl deriveClass x).vs } ∧
    (vs.foldl deriveClass x).canonical = true ∧ usability? (vs.foldl deriveClass x) v = usability? x v := by
  induction vs generalizing x with
  | nil => exact ⟨rfl, rfl, c, rfl⟩
  | cons w ws ih =>
    have c1 : (x.deriveClass w).canonical = true := canonical_modVs w (fun d => { d with kept := usability? x w }) c
    have record : (x.deriveClass w).vsOf v = _ := vsOf_modVs c w v fun d => { d with kept := usability? x w }
    have derived : usability? (x.deriveClass w) v = usability? x v := by
      by_cases here : v = w
      · subst here
        exact usability_kept x c v _
      · rw [if_neg here] at record
        unfold usability?
        rw [record]
        rfl
    obtain ⟨now, rest, canonical, stands⟩ := ih c1
    rw [List.foldl_cons]
    refine ⟨?_, rest.trans rfl, canonical, stands.trans derived⟩
    rw [now, derived, record]
    by_cases here : v = w
    · subst here
      simp
    · simp [here]

end Station
end Sys2Proof.Machine
end

section
/-! LOADING_END (R26, R181, R184). -/

namespace Sys2Proof.Machine

variable {s : State} {x : Station}

theorem zones_networkOf (i : Image) (z : Nat) :
    (networkOf i).zones.readD {} z = i.zones.foldl (fun d p => if z = p.1 then p.2 else d) {} := by
  have go (rows : List (Nat × ZoneRec)) (t : Table ZoneRec) (h : Table.wf t = true) :
      (rows.foldl (fun (t : Table ZoneRec) p => t.writeD {} p.1 p.2) t).readD {} z =
        rows.foldl (fun d p => if z = p.1 then p.2 else d) (t.readD {} z) := by
    induction rows generalizing t with
    | nil => rfl
    | cons p ps ih =>
      rw [List.foldl_cons, List.foldl_cons, ih _ (Table.wf_writeD _ _ _ _ h)]
      congr 1
      by_cases here : z = p.1
      · rw [if_pos here, here]
        exact Table.readD_writeD_same _ _ _ _ h
      · rw [if_neg here]
        exact Table.readD_writeD_other _ _ _ _ _ h here
  exact go i.zones [] rfl

namespace Station

/-- The station with the image's table, as the load begins. -/
def tabled (x : Station) (i : Image) : Station := { x with nt := networkOf i, ss := { x.ss with station := .ready } }

theorem canonical_tabled (c : x.canonical = true) (i : Image) : (x.tabled i).canonical = true :=
  canonical_edit ({ x with ss := { x.ss with station := .ready } } : Station) c _ fun _ => netTidy_networkOf i

/-- What a valve's row of an image sets: its first state and the kind of its node. -/
theorem rewrites_valveRow {y : Station} (c : y.canonical = true) (p : Nat × Valve) :
    Rewrites y
      (match p.2.node with
        | some n => (y.modVs p.1 fun _ => freshState p.2).modNode n fun e => { e with kind := .actuator }
        | none => y.modVs p.1 fun _ => freshState p.2)
      (fun v d => if v = p.1 then freshState p.2 else d)
      (fun m e => if p.2.node = some m then { e with kind := .actuator } else e) := by
  have valve := rewrites_modVs c p.1 fun _ => freshState p.2
  split
  · rename_i n hn
    have node := rewrites_modNode valve.canonical n fun e => { e with kind := .actuator }
    have both := valve.trans node
    rw [hn]
    simp only [Option.some.injEq, eq_comm (a := n)]
    exact both
  · rename_i hn
    rw [hn]
    simpa using valve

/-- What a load makes of the station, beyond its tables. -/
structure Loaded (x y : Station) (i : Image) : Prop where
  rest : y = { x with nt := networkOf i, ss := { x.ss with station := .ready }, vs := y.vs, lineA := y.lineA, lineB := y.lineB }
  lines : ∀ l, ({ y.line l with nodes := [] } : FieldLine) = { x.line l with nodes := [] }
  valve : ∀ v r, (v, r) ∈ i.valves → y.vsOf v = { freshState r with kept := usability? y v }
  others : ∀ v, (∀ r, (v, r) ∉ i.valves) → y.vsOf v = x.vsOf v
  node : ∀ n, y.node n =
    if ∃ p ∈ i.sensors, p.2.node = n then { x.node n with kind := .sensor }
    else if ∃ p ∈ i.valves, p.2.node = some n then { x.node n with kind := .actuator } else x.node n

theorem loaded_spec (c : x.canonical = true) {i : Image} (sound : i.Sound) : Loaded x (x.loaded i) i := by
  have c0 := canonical_tabled c i
  have valves := Rewrites.foldl _ _ _ (fun y p (h : y.canonical = true) => rewrites_valveRow h p) i.valves c0
  have sensors := Rewrites.foldl
    (fun (y : Station) (p : Nat × Sensor) => y.modNode p.2.node fun e => { e with kind := .sensor }) _ _
    (fun y p (h : y.canonical = true) => rewrites_modNode h p.2.node fun e => { e with kind := .sensor })
    i.sensors valves.canonical
  obtain ⟨rest, c1, vs, node, lines⟩ := valves.trans sensors
  have classes := fun v => deriveClasses c1 (i.valves.map (·.1)) v
  rw [List.foldl_map] at classes
  have e : x.loaded i = i.valves.foldl (fun s p => s.deriveClass p.1)
      (i.sensors.foldl (fun s p => s.modNode p.2.node fun e => { e with kind := .sensor })
        (i.valves.foldl (fun y p =>
          match p.2.node with
          | some n => (y.modVs p.1 fun _ => freshState p.2).modNode n fun e => { e with kind := .actuator }
          | none => y.modVs p.1 fun _ => freshState p.2) (x.tabled i))) := rfl
  rw [e]
  generalize i.sensors.foldl (fun s p => s.modNode p.2.node fun e => { e with kind := .sensor })
    (i.valves.foldl (fun (y : Station) p =>
      match p.2.node with
      | some n => (y.modVs p.1 fun _ => freshState p.2).modNode n fun e => { e with kind := .actuator }
      | none => y.modVs p.1 fun _ => freshState p.2) (x.tabled i)) = y at *
  have vs (v : Nat) : y.vsOf v = i.valves.foldl (fun d p => if v = p.1 then freshState p.2 else d) (x.vsOf v) := by
    refine (vs v).trans ?_
    have idle (ps : List (Nat × Sensor)) (d : VsRec) : ps.foldl (fun d _ => d) d = d := by
      induction ps with
      | nil => rfl
      | cons p ps ih => exact ih
    exact idle _ _
  have last := fun v => (classes v).2.1
  generalize i.valves.foldl (fun s p => s.deriveClass p.1) y = z at *
  have zrest : z = { y with vs := z.vs } := last 0
  have named (v : Nat) : v ∈ i.valves.map (·.1) ↔ ∃ r, (v, r) ∈ i.valves := by simp
  exact
    { rest := by rw [zrest, rest]; rfl
      lines := fun l => by
        rw [zrest]
        exact lines l
      valve := fun v r hv => by
        obtain ⟨now, -, -, stands⟩ := classes v
        rw [now, if_pos ((named v).mpr ⟨r, hv⟩), stands, vs, foldl_rows_some freshState i.valves sound.valves hv]
      others := fun v hv => by
        have unnamed : v ∉ i.valves.map (·.1) := fun h => by
          obtain ⟨r, hr⟩ := (named v).mp h
          exact hv r hr
        rw [(classes v).1, if_neg unnamed, vs, foldl_rows_none freshState i.valves v unnamed]
      node := fun n => by
        have zn : z.node n = y.node n := by rw [zrest]; rfl
        rw [zn, node, foldl_kinds (fun (p : Nat × Valve) m => p.2.node = some m)]
        have sens : ∀ e : NodeEntry, i.sensors.foldl (fun e p => if n = p.2.node then { e with kind := NodeKind.sensor } else e) e =
            if ∃ p ∈ i.sensors, p.2.node = n then { e with kind := .sensor } else e := fun e => by
          have := foldl_kinds (fun (p : Nat × Sensor) m => m = p.2.node) .sensor i.sensors n e
          simpa only [eq_comm (a := n)] using this
        refine (sens _).trans ?_
        have same : (x.tabled i).node n = x.node n := rfl
        rw [same]
        split
        · split <;> rfl
        · rfl }

theorem loadingEnds_idle (h : x.ss.station ≠ .loading) (a : Bool) : x.loadingEnds a = x := if_pos h

/-- A line as it starts to serve calls, once loading and the settle wait have ended (R184). -/
def startedLine (settling : Bool) (l : FieldLine) : FieldLine :=
  if settling = true ∨ l.started = true then l else { l with started := true, broadcasts := .clear true :: l.broadcasts }

theorem startLines_loaded {y : Station} (h : y.ss.station ≠ .loading) : y.startLines =
    { y with lineA := startedLine y.ss.settling y.lineA, lineB := startedLine y.ss.settling y.lineB } := by
  rw [startLines_eq]
  simp only [h, false_or, startedLine]

theorem loadingEnds_failed (h : x.ss.station = .loading) {a : Bool} {c : LoadCause}
    (failed : loadTest (if a then x.ss.flash else .erased) = .error c) : x.loadingEnds a =
      ({ x with
        nt := {}
        ss := { x.ss with station := .blank }
        lineA := startedLine x.ss.settling x.lineA
        lineB := startedLine x.ss.settling x.lineB } : Station).post { kind := .loadFailed, cause := some c.cause } := by
  have loading : ¬ x.ss.station ≠ .loading := not_not.mpr h
  unfold loadingEnds
  rw [if_neg loading, failed]
  dsimp only
  rw [startLines_loaded (by exact nofun)]
  rfl

theorem loadingEnds_good (h : x.ss.station = .loading) {a : Bool} {i : Image}
    (good : loadTest (if a then x.ss.flash else .erased) = .ok i) : x.loadingEnds a = (x.loaded i).startLines := by
  have loading : ¬ x.ss.station ≠ .loading := not_not.mpr h
  unfold loadingEnds
  rw [if_neg loading, good]

theorem startedLine_nodes (settling : Bool) {l m : FieldLine}
    (h : ({ l with nodes := [] } : FieldLine) = { m with nodes := [] }) :
    ({ startedLine settling l with nodes := [] } : FieldLine) = { startedLine settling m with nodes := [] } := by
  obtain ⟨a1, a2, a3, a4, a5, a6, a7⟩ := l
  obtain ⟨b1, b2, b3, b4, b5, b6, b7⟩ := m
  simp only [FieldLine.mk.injEq, true_and] at h
  unfold startedLine
  simp only [h]
  split <;> rfl

end Station

theorem loadTest_cases (c : Content) (check : Word) :
    (c.format ≠ 2 ∨ ¬ countsOk c.image = true → loadTest (.holds c check) = .error .format) ∧
    (c.format = 2 → countsOk c.image = true → crc32 (Config.imageBytes c) ≠ check →
      loadTest (.holds c check) = .error .check) ∧
    (c.format = 2 → countsOk c.image = true → crc32 (Config.imageBytes c) = check →
      ¬ (c.codesDefined = true ∧ fieldsOk c.image = true ∧ topologyOk c.image = true) →
      loadTest (.holds c check) = .error .content) ∧
    (c.format = 2 → countsOk c.image = true → crc32 (Config.imageBytes c) = check →
      c.codesDefined = true ∧ fieldsOk c.image = true ∧ topologyOk c.image = true →
      loadTest (.holds c check) = .ok c.image) := by
  rw [loadTest_holds]
  refine ⟨fun h => ?_, fun hf hc hs => ?_, fun hf hc hs h => ?_, fun hf hc hs ⟨h1, h2, h3⟩ => ?_⟩
  · by_cases hf : c.format ≠ 2
    · rw [if_pos hf]
    · have hc : countsOk c.image = false := by simpa using h.resolve_left hf
      rw [if_neg hf, if_pos hc]
  · rw [if_neg (not_not.mpr hf), if_neg (by simp [hc]), if_pos hs]
  · have bad : c.codesDefined = false ∨ fieldsOk c.image = false ∨ topologyOk c.image = false := by
      simpa only [not_and_or, Bool.not_eq_true] using h
    rw [if_neg (not_not.mpr hf), if_neg (by simp [hc]), if_neg (not_not.mpr hs), if_pos bad]
  · rw [if_neg (not_not.mpr hf), if_neg (by simp [hc]), if_neg (not_not.mpr hs), if_neg (by simp [h1, h2, h3])]

/-- Settles O6. -/
theorem loadingTakesTheImageOrFails : Obligations.LoadingTakesTheImageOrFails := by
  unfold Obligations.LoadingTakesTheImageOrFails
  refine ⟨⟨rfl, fun c check => ?_⟩, fun s answers hup => ⟨fun hl => ?_, fun hl => ?_⟩⟩
  · intro i verdict counts sound once fields present topology
    have hcounts : countsOk i = true ↔ counts := countsOk_iff i
    have hfields : fieldsOk i = true ↔ fields := fieldsOk_iff i
    have htopology : topologyOk i = true ↔ topology := topologyOk_iff i
    rw [← hcounts, ← hfields, ← htopology]
    exact loadTest_cases c check
  · exact exec_station_idle hup (Station.loadingEnds_idle hl answers)
  · intro flash start
    refine ⟨fun c failed => ?_, fun i good hc => ?_⟩
    · exact exec_station_told hup (Station.loadingEnds_failed hl failed) hup.2
    · have sound := sound_of_load good
      obtain ⟨rest, lines, valve, others, node⟩ := Station.loaded_spec hc sound
      have ended := Station.loadingEnds_good hl good
      generalize s.st.loaded i = y at *
      have settling : y.ss.settling = s.st.ss.settling := by rw [rest]
      have ready : y.ss.station ≠ .loading := by rw [rest]; nofun
      have started := Station.startLines_loaded ready
      rw [settling] at started
      have table : y.startLines.nt = networkOf i := by rw [started, rest]
      have records (v : Nat) : y.startLines.vsOf v = y.vsOf v := by rw [started]; rfl
      have nodes (n : Node) : y.startLines.node n = y.node n := by
        have kept (l : FieldLine) : (Station.startedLine s.st.ss.settling l).nodes = l.nodes := by
          unfold Station.startedLine
          split <;> rfl
        rw [started]
        obtain ⟨l, a⟩ := n
        cases l <;> exact congrArg (fun t : Table NodeEntry => t.readD {} a) (kept _)
      have class_stands (v : Nat) : usability? y.startLines v = usability? y v := by
        have net : y.startLines.nt = y.nt := by rw [started]
        unfold usability? Station.valve?
        rw [net]
        simp only [records, nodes]
      have place (n : Node) (hn : n.Placed) (o : Occupant) := sound.find_place n hn o
      refine ⟨y.startLines, ?_, ?_, ?_, ?_, ?_, ?_, ?_, ?_, ?_, ?_, ?_, ?_, ?_, ?_⟩
      · rw [← ended]
        exact exec_station_quiet hup (by rw [ended, started, rest]; exact hup.2)
      · intro n r
        unfold Station.segment?
        rw [table]
        exact Table.find_gather _ _ _ sound.segments
      · intro v r
        unfold Station.valve?
        rw [table]
        exact sound.find_valve v r
      · intro n r
        unfold Station.sensor?
        rw [table]
        exact sound.find_sensor n r
      · intro z r hz
        unfold Station.zoneRec
        rw [table, zones_networkOf]
        exact Station.foldl_rows_some id i.zones sound.zones hz _
      · intro z hz
        unfold Station.zoneRec
        rw [table, zones_networkOf]
        exact Station.foldl_rows_none id i.zones z (by simpa using hz) _
      · rw [table]; rfl
      · rw [table]; rfl
      · intro n h1 h2
        have valves (v : Nat) : y.startLines.occupant? n = some (.valve v) ↔ ∃ r, (v, r) ∈ i.valves ∧ r.node = some n := by
          unfold Station.occupant?
          rw [table]
          exact place n ⟨h1, h2⟩ (.valve v)
        have sensors (k : Nat) : y.startLines.occupant? n = some (.sensor k) ↔ ∃ r, (k, r) ∈ i.sensors ∧ r.node = n := by
          unfold Station.occupant?
          rw [table]
          exact place n ⟨h1, h2⟩ (.sensor k)
        refine ⟨valves, sensors, ?_⟩
        rw [nodes, node]
        have sensed : (∃ p ∈ i.sensors, p.2.node = n) ↔ ∃ k, y.startLines.occupant? n = some (.sensor k) := by
          simp only [sensors, Prod.exists]
        have valved : (∃ p ∈ i.valves, p.2.node = some n) ↔ ∃ v, y.startLines.occupant? n = some (.valve v) := by
          simp only [valves, Prod.exists]
        cases e : y.startLines.occupant? n with
        | none => rw [if_neg (by simp [sensed, e]), if_neg (by simp [valved, e])]
        | some o =>
          cases o with
          | valve v => rw [if_neg (by simp [sensed, e]), if_pos (valved.mpr ⟨v, e⟩)]
          | sensor k => rw [if_pos (sensed.mpr ⟨k, e⟩)]
      · intro v r hv position percent
        rw [records, class_stands, valve v r hv, Station.freshState_eq]
      · intro v hv
        rw [records, others v hv]
      · intro l
        have lineA := lines .a
        have lineB := lines .b
        rw [started]
        cases l
        · exact Station.startedLine_nodes s.st.ss.settling lineA
        · exact Station.startedLine_nodes s.st.ss.settling lineB
      · rw [started, rest]
      · rw [started, rest]

end Sys2Proof.Machine
end

section
/-! MOVE_VALVE and EXERCISE_VALVE (R40, R168; log entries 12 and 23). -/

namespace Sys2Proof.Machine

variable {s : State} {x : Station}

theorem isReady_eq (h : x.ss.station = .ready) : x.isReady = true := by simp [Station.isReady, h]

theorem notLoading (h : x.ss.station = .ready) : x.ss.station ≠ .loading := by rw [h]; nofun

theorem sideOwned_eq {v : Nat} {r : Valve} (hr : x.valve? v = some r) :
    x.sideOwned v = (x.owned r.sideA || x.owned r.sideB) := by
  simp only [Station.sideOwned, hr]

theorem atTarget_iff (d : VsRec) (closes : Bool) :
    Station.atTarget d closes = true ↔ d.stale = false ∧ d.position = if closes = true then .closed else .opened := by
  simp only [Station.atTarget, Bool.and_eq_true, decide_eq_true_eq, Bool.not_eq_true']
  exact and_comm

/-- Settles O28. -/
theorem moveValveWaitsItsTurn : Obligations.MoveValveWaitsItsTurn := by
  unfold Obligations.MoveValveWaitsItsTurn
  intro s tag v target time ht hready i refused d
  have ready : ¬ s.st.isReady = false := by simp [isReady_eq hready]
  have no {st : Status} (hd : s.st.moveValve v target time = refuse st s.st) : refused st :=
    exec_refused (r := .moveValve v target time) rfl ht (notLoading hready) rfl hd
  refine ⟨fun out => no ?_, fun hv ht' absent => no ?_, fun r hv htgt hr => ?_⟩
  · have range : Config.valves ≤ v ∨ 1 < target := out
    simp only [Station.moveValve, ready, reduceCtorEq, if_false, range, if_true]
  · have range : ¬ (Config.valves ≤ v ∨ 1 < target) := not_or.mpr ⟨Nat.not_le.mpr hv, Nat.not_lt.mpr ht'⟩
    simp only [Station.moveValve, ready, reduceCtorEq, range, if_false, absent]
  · have range : ¬ (Config.valves ≤ v ∨ 1 < target) := not_or.mpr ⟨Nat.not_le.mpr hv, Nat.not_lt.mpr htgt⟩
    have owned := sideOwned_eq hr
    refine ⟨fun hk => no ?_, fun hk hh => no ?_, fun hk hh ho => no ?_, fun hk hh ha hb => ⟨fun hm => no ?_, ?_, ?_⟩⟩
    · simp [Station.moveValve, ready, range, hr, hk]
    · have held : 0 < (s.st.vsOf v).holds := hh
      simp [Station.moveValve, ready, range, hr, hk, held]
    · have unheld : (s.st.vsOf v).holds = 0 := hh
      have side : s.st.sideOwned v = true := by rw [owned, Bool.or_eq_true]; exact ho
      simp [Station.moveValve, ready, range, hr, hk, unheld, side]
    · have unheld : (s.st.vsOf v).holds = 0 := hh
      simp [Station.moveValve, ready, range, hr, hk, unheld, owned, ha, hb, hm]
    · intro hm hs hp
      have unheld : (s.st.vsOf v).holds = 0 := hh
      have there : Station.atTarget (s.st.vsOf v) (decide (target = 1)) = true :=
        (atTarget_iff _ _).mpr ⟨hs, by simpa using hp⟩
      have decided : s.st.moveValve v target time = (.ok, [], s.st) := by
        simp [Station.moveValve, ready, range, hr, hk, unheld, owned, ha, hb, hm, there]
      exact exec_quiet i tag (.moveValve v target time) rfl ht (notLoading hready) rfl decided ht.2.2.2
    · intro hm hp given m waiting
      have unheld : (s.st.vsOf v).holds = 0 := hh
      have away : Station.atTarget (s.st.vsOf v) (decide (target = 1)) = false := by
        rw [← Bool.not_eq_true, atTarget_iff]
        rintro ⟨h1, h2⟩
        rcases hp with hp | hp
        · exact nomatch h1.symm.trans hp
        · exact hp (by simpa using h2)
      have counted : given.elim 0 (clampedOne time) = if time = 0 ∨ time = max r.tmin (min time r.tmax) then 0 else 1 := by
        unfold given
        by_cases h0 : time = 0
        · simp [h0]
        · simp [h0, clampedOne]
      have decided : s.st.moveValve v target time = (.accepted, byte2 (given.elim 0 (clampedOne time)), waiting.decideAll) := by
        simp [Station.moveValve, ready, range, hr, hk, unheld, owned, ha, hb, hm, away]
        exact ⟨rfl, rfl⟩
      rw [counted] at decided
      exact ⟨exec_decided i tag (.moveValve v target time) rfl ht (notLoading hready) rfl decided,
        (Station.Frame.decideAll (Station.Frame.addMove m (.refl s.st))).moves (le_refl 3)⟩

/-- Settles O31. -/
theorem exerciseValveJoinsTheSet : Obligations.ExerciseValveJoinsTheSet := by
  unfold Obligations.ExerciseValveJoinsTheSet
  intro s tag v target ht hready i refused d
  have ready : ¬ s.st.isReady = false := by simp [isReady_eq hready]
  have no {st : Status} (hd : s.st.exerciseValve v target = refuse st s.st) : refused st :=
    exec_refused (r := .exerciseValve v target) rfl ht (notLoading hready) rfl hd
  refine ⟨fun out => no ?_, fun hv absent => no ?_, fun r hv hr => ?_⟩
  · have range : Config.valves ≤ v := out
    simp only [Station.exerciseValve, ready, reduceCtorEq, if_false, range, if_true]
  · have range : ¬ Config.valves ≤ v := Nat.not_le.mpr hv
    simp only [Station.exerciseValve, ready, reduceCtorEq, range, if_false, absent]
  · intro free fit
    have range : ¬ Config.valves ≤ v := Nat.not_le.mpr hv
    have owned : s.st.sideOwned v = true ↔ ¬ free := by
      rw [sideOwned_eq hr]
      simp only [free, Bool.or_eq_true, not_and_or, Bool.not_eq_false]
    have bars : (r.normal ≠ .normallyOpen ∨ (s.st.vsOf v).position ≠ .opened ∨ (s.st.vsOf v).stale = true ∨
        (s.st.move? v).isSome = true ∨ (s.st.vsOf v).owner.isSome = true) ↔ ¬ fit := by
      simp only [fit, not_and_or, ne_eq, Bool.not_eq_false, ← Option.isSome_iff_ne_none]
      rfl
    refine ⟨fun hk => no ?_, fun hk hh => no ?_, fun hk hh ho => no ?_, fun hk hh ho hf => no ?_, fun hk hh ho hf hb => no ?_,
      fun hk hh ho hf hroom hnone => ?_⟩
    · simp [Station.exerciseValve, ready, range, hr, hk]
    · have held : 0 < (s.st.vsOf v).holds := hh
      simp [Station.exerciseValve, ready, range, hr, hk, held]
    all_goals have unheld : ¬ 0 < (s.st.vsOf v).holds := Nat.not_lt.mpr (Nat.le_of_eq hh)
    all_goals have actuated : ¬ r.kind ≠ .actuated := not_not.mpr hk
    · simp only [Station.exerciseValve, ready, reduceCtorEq, range, hr, actuated, unheld, owned.mpr ho, if_false, if_true]
    all_goals have unowned : ¬ s.st.sideOwned v = true := fun h => owned.mp h ho
    · simp only [Station.exerciseValve, ready, reduceCtorEq, range, hr, actuated, unheld, unowned, bars.mpr hf, if_false, if_true]
    all_goals have fits := not_iff_not.mpr bars |>.mpr (not_not.mpr hf)
    · have busy : Config.exerciseCap ≤ s.st.xu.length ∨ (s.st.exercise? v).isSome = true := hb
      simp only [Station.exerciseValve, ready, reduceCtorEq, range, hr, actuated, unheld, unowned, fits, busy, if_false, if_true]
    · intro t queued
      have room : ¬ (Config.exerciseCap ≤ s.st.xu.length ∨ (s.st.exercise? v).isSome = true) := by
        rw [hnone]
        rintro (h | h)
        · exact absurd hroom (Nat.not_lt.mpr h)
        · cases h
      have decided : s.st.exerciseValve v target =
          (.accepted, byte2 (if target = t then 0 else 1), queued.decideAll) := by
        simp only [Station.exerciseValve, ready, reduceCtorEq, range, hr, actuated, unheld, unowned, fits, room, if_false]
        rfl
      exact ⟨exec_decided i tag (.exerciseValve v target) rfl ht (notLoading hready) rfl decided,
        (Station.Frame.decideAll (Station.Frame.addExercise _ (.refl s.st))).moves (le_refl 3)⟩

end Sys2Proof.Machine
end

section
/-! The planner's trigger, OPEN_INCIDENT and PLAN_EXPIRY (R47, R49, R64, R87, R90; log entries 11, 13 and 18). -/

namespace Sys2Proof.Machine

variable {s : State} {x : Station}

namespace Station

theorem trigger_rest (k : Nat) : x.trigger k = { x with ip := (x.trigger k).ip } := by
  unfold trigger markStale modFlight enqueue startNext
  split
  · rfl
  · dsimp only
    split <;> split <;> rfl

/-- An idle planner starts the slot's computation (R49). -/
theorem trigger_idle {k : Nat} (hf : x.ip.flight = none) (hq : x.ip.queue = []) :
    (x.trigger k).ip = { queue := [], flight := some { slot := k, seed := (x.slot k).burst } } := by
  simp [trigger, computing, hf, enqueue, hq, startNext, slot]

/-- A live computation of the slot becomes stale (R64). -/
theorem trigger_live {k : Nat} {f : Flight} (hf : x.ip.flight = some f) (hk : f.slot = k) (hc : f.cancel = false) :
    (x.trigger k).ip = { x.ip with flight := some { f with stale := true } } := by
  simp [trigger, computing, hf, hk, hc, markStale, modFlight]

/-- With another computation in flight the slot stands in the queue (R47). -/
theorem trigger_waits {k : Nat} {f : Flight} (hf : x.ip.flight = some f) (hk : f.slot ≠ k ∨ f.cancel = true) :
    (x.trigger k).ip = { x.ip with queue := if k ∈ x.ip.queue then x.ip.queue else x.ip.queue ++ [k] } := by
  have dead : x.computing k = false := by
    simp only [computing, hf]
    rcases hk with h | h <;> simp [h]
  by_cases hq : k ∈ x.ip.queue
  · simp only [trigger, dead, enqueue, startNext, hf, hq, List.contains_iff_mem, if_true, if_false, Bool.false_eq_true]
    rw [← hf]
  · simp [trigger, dead, enqueue, startNext, hf, hq]

theorem burstSlot?_owned {n k : Nat} (h : x.owner? n = some k) : x.burstSlot? n = some k := by
  simp only [burstSlot?, h]

theorem testedState_iff (st : SlotState) : testedState st = true ↔
    st ∈ ([.planning, .planned, .closing, .isolated, .unisolable, .aborted] : List SlotState) := by
  cases st <;> decide

/-- The first slot that lists the segment as a burst. -/
theorem burstSlot?_listed {n k : Nat} (h : x.owner? n = none) (hk : k < 4)
    (here : testedState (x.slot k).state = true ∧ n ∈ (x.slot k).burst)
    (first : ∀ j, j < k → ¬ (testedState (x.slot j).state = true ∧ n ∈ (x.slot j).burst)) : x.burstSlot? n = some k := by
  have asked (j : Nat) : (testedState (x.slot j).state && (x.slot j).burst.contains n) = true ↔
      testedState (x.slot j).state = true ∧ n ∈ (x.slot j).burst := by simp
  have earlier (j : Nat) (hj : j < k) : (testedState (x.slot j).state && (x.slot j).burst.contains n) = false := by
    rw [← Bool.not_eq_true, asked]
    exact first j hj
  have now := (asked k).mpr here
  simp only [burstSlot?, h, slotNumbers]
  match k, hk with
  | 0, _ => simp only [List.find?_cons, now]
  | 1, _ => simp only [List.find?_cons, earlier 0 (by decide), now]
  | 2, _ => simp only [List.find?_cons, earlier 0 (by decide), earlier 1 (by decide), now]
  | 3, _ => simp only [List.find?_cons, earlier 0 (by decide), earlier 1 (by decide), earlier 2 (by decide), now]

theorem burstSlot?_none {n : Nat} (h : x.owner? n = none)
    (unlisted : ∀ j, j < 4 → ¬ (testedState (x.slot j).state = true ∧ n ∈ (x.slot j).burst)) : x.burstSlot? n = none := by
  simp only [burstSlot?, h, List.find?_eq_none, Bool.and_eq_true, List.contains_iff_mem]
  intro j hj
  refine unlisted j ?_
  simp only [slotNumbers, List.mem_cons, List.not_mem_nil, or_false] at hj
  omega

theorem noteOpened_rest (k : Nat) : x.noteOpened k = { x with ip := (x.noteOpened k).ip } := by
  unfold noteOpened
  repeat' split
  all_goals rfl

/-- The station as a slot is opened, before the planner is told (R87). -/
def opened (x : Station) (k n : Nat) (rest : List Nat) : Station :=
  ({ x with im := { x.im with freeList := rest } } : Station).modSlot k fun _ => { state := .planning, burst := [n] }

theorem slot_opened (c : x.canonical = true) (k n : Nat) (rest : List Nat) (j : Nat) :
    (x.opened k n rest).slot j = if j = k then { state := .planning, burst := [n] } else x.slot j := by
  have c1 : ({ x with im := { x.im with freeList := rest } } : Station).canonical = true := c
  exact slot_modSlot c1 k j fun _ => { state := .planning, burst := [n] }

end Station

/-- Settles O41. -/
theorem openIncidentTakesTheHeadOfTheFreeList : Obligations.OpenIncidentTakesTheHeadOfTheFreeList := by
  unfold Obligations.OpenIncidentTakesTheHeadOfTheFreeList
  intro s tag n ht hready hc i refused listed
  have ready := isReady_eq hready
  have decided {a : Status} {b : List Byte} {x : Station} (hd : s.st.openIncident n = (a, b, x)) (ho : x.outbox = []) :
      exec i s = .next (s.replied tag 0x30 a b x) :=
    exec_quiet i tag (.openIncident n) rfl ht (notLoading hready) rfl hd ho
  have no {st : Status} (hd : s.st.openIncident n = refuse st s.st) : refused st := decided hd ht.2.2.2
  have lists (j : Nat) : (Station.testedState (s.st.slot j).state = true ∧ n ∈ (s.st.slot j).burst) ↔ listed j := by
    rw [Station.testedState_iff]
    exact and_comm
  refine ⟨fun hn => no ?_, fun hn absent => no ?_, fun hn present => ?_⟩
  · have range : Config.segments ≤ n := hn
    simp [Station.openIncident, ready, range]
  · have range : ¬ Config.segments ≤ n := Nat.not_le.mpr hn
    simp [Station.openIncident, ready, range, absent]
  · have range : ¬ Config.segments ≤ n := Nat.not_le.mpr hn
    have segment : (s.st.segment? n).isNone = false := by
      rw [Option.isNone_eq_false_iff]
      exact present
    have isolated {k : Nat} (h : s.st.burstSlot? n = some k) :
        exec i s = .next (s.replied tag 0x30 .alreadyIsolated (byte1 k) s.st) := by
      refine decided ?_ ht.2.2.2
      simp [Station.openIncident, ready, range, segment, h]
    refine ⟨fun k hk => isolated (Station.burstSlot?_owned hk), fun k hu hk hl first => isolated ?_, fun hu none => ?_⟩
    · exact Station.burstSlot?_listed hu hk ((lists k).mpr hl) fun j hj h => first j hj ((lists j).mp h)
    · have free := Station.burstSlot?_none hu fun j hj h => none j hj ((lists j).mp h)
      refine ⟨fun empty => no ?_, fun k rest hfree => ?_⟩
      · simp [Station.openIncident, ready, range, segment, free, empty]
      · have slots := Station.slot_opened hc k n rest
        have taken : s.st.openIncident n =
            (.accepted, byte1 k, ((s.st.opened k n rest).trigger k).noteOpened k) := by
          simp [Station.openIncident, ready, range, segment, free, hfree, Station.opened]
        have base : (s.st.opened k n rest).ip = s.st.ip ∧ (s.st.opened k n rest).im.freeList = rest ∧
            (s.st.opened k n rest).im.owner = s.st.im.owner ∧
            { s.st.opened k n rest with im := s.st.im, ip := s.st.ip } = s.st := ⟨rfl, rfl, rfl, rfl⟩
        generalize s.st.opened k n rest = y at *
        obtain ⟨planner, freeList, owner, same⟩ := base
        have told : (y.trigger k).noteOpened k = { y with ip := ((y.trigger k).noteOpened k).ip } :=
          (Station.noteOpened_rest k).trans (by rw [Station.trigger_rest (x := y)])
        refine ⟨(y.trigger k).noteOpened k, decided taken ?_, ?_, fun j hj => ?_, ?_, ?_, fun hf hq => ?_, fun f hf hne hk => ?_, ?_⟩
        · rw [told]
          exact (congrArg Station.outbox same).trans ht.2.2.2
        · rw [told]
          exact (slots k).trans (if_pos rfl)
        · rw [told]
          exact (slots j).trans (if_neg hj)
        · rw [told]
          exact freeList
        · rw [told]
          exact owner
        · have started := Station.trigger_idle (x := y) (k := k) (by rw [planner]; exact hf) (by rw [planner]; exact hq)
          rw [slots, if_pos rfl] at started
          simp [Station.noteOpened, started]
        · have waits := Station.trigger_waits (x := y) (k := k) (by rw [planner]; exact hf) (.inl hne)
          rw [planner, if_neg hk] at waits
          simp [Station.noteOpened, waits, hf, hne]
        · rw [told]
          exact same

namespace Station

/-- The station as a plan expires, before the planner is told (R90). -/
def unplanned (x : Station) (k : Nat) : Station :=
  x.modSlot k fun r => { r with state := .planning, deadline := none, overrideRequired := false }

theorem slot_unplanned (c : x.canonical = true) (k j : Nat) : (x.unplanned k).slot j =
    if j = k then { x.slot k with state := .planning, deadline := none, overrideRequired := false } else x.slot j :=
  slot_modSlot c k j fun r => { r with state := .planning, deadline := none, overrideRequired := false }

theorem planExpires_planned {k due : Nat} (h : (x.slot k).state = .planned) (hd : (x.slot k).deadline = some due) :
    x.planExpires k = ((({ x with clock := if clockReached x.clock due then x.clock else due } : Station).unplanned k).trigger
      k).post { kind := .planExpired, slot := some k } := by
  unfold planExpires
  rw [h, hd]
  dsimp only
  rw [advanceTo_eq]
  rfl

theorem planExpires_other {k : Nat} (h : (x.slot k).state ≠ .planned) : x.planExpires k = x := by
  unfold planExpires
  split
  · rename_i h1 _
    exact absurd h1 h
  · rfl

end Station

/-- A plan that expires at a clock reading. -/
theorem planExpiry_at (hup : s.up) (hc : s.st.canonical = true) {k now : Nat}
    (posted : s.st.planExpires k = ((({ s.st with clock := now } : Station).unplanned k).trigger k).post
      { kind := .planExpired, slot := some k }) :
    ∃ x : Station,
      exec (.planExpiry k) s = .next (s.told { kind := .planExpired, slot := some k } x) ∧ x.clock = now ∧
      x.slot k = { s.st.slot k with state := .planning, deadline := none, overrideRequired := false } ∧
      (∀ j, j ≠ k → x.slot j = s.st.slot j) ∧ x.im.owner = s.st.im.owner ∧ x.im.freeList = s.st.im.freeList ∧
      (s.st.ip.flight = none → s.st.ip.queue = [] →
        x.ip = { queue := [], flight := some { slot := k, seed := (s.st.slot k).burst } }) ∧
      (∀ f, s.st.ip.flight = some f → f.slot = k → f.cancel = false →
        x.ip = { s.st.ip with flight := some { f with stale := true } }) ∧
      (∀ f, s.st.ip.flight = some f → f.slot ≠ k ∨ f.cancel = true →
        x.ip = { s.st.ip with queue := if k ∈ s.st.ip.queue then s.st.ip.queue else s.st.ip.queue ++ [k] }) ∧
      { x with im := s.st.im, ip := s.st.ip, clock := s.st.clock } = s.st := by
  have c1 : ({ s.st with clock := now } : Station).canonical = true := hc
  have slots : ∀ j, (({ s.st with clock := now } : Station).unplanned k).slot j =
      if j = k then { s.st.slot k with state := .planning, deadline := none, overrideRequired := false } else s.st.slot j :=
    Station.slot_unplanned c1 k
  have base : (({ s.st with clock := now } : Station).unplanned k).ip = s.st.ip ∧
      (({ s.st with clock := now } : Station).unplanned k).clock = now ∧
      (({ s.st with clock := now } : Station).unplanned k).im.owner = s.st.im.owner ∧
      (({ s.st with clock := now } : Station).unplanned k).im.freeList = s.st.im.freeList ∧
      { ({ s.st with clock := now } : Station).unplanned k with im := s.st.im, ip := s.st.ip, clock := s.st.clock } =
        s.st := ⟨rfl, rfl, rfl, rfl, rfl⟩
  generalize ({ s.st with clock := now } : Station).unplanned k = y at *
  obtain ⟨planner, clock, owner, freeList, same⟩ := base
  have told : y.trigger k = { y with ip := (y.trigger k).ip } := Station.trigger_rest k
  have quiet : (y.trigger k).outbox = [] := by
    rw [told]
    exact (congrArg Station.outbox same).trans hup.2
  refine ⟨y.trigger k, exec_station_told hup posted quiet, ?_, ?_, fun j hj => ?_, ?_, ?_, fun hf hq => ?_, fun f hf hk hl => ?_,
    fun f hf hk => ?_, ?_⟩
  · rw [told]
    exact clock
  · rw [told]
    exact (slots k).trans (if_pos rfl)
  · rw [told]
    exact (slots j).trans (if_neg hj)
  · rw [told]
    exact owner
  · rw [told]
    exact freeList
  · rw [Station.trigger_idle (by rw [planner]; exact hf) (by rw [planner]; exact hq), slots, if_pos rfl]
  · rw [Station.trigger_live (by rw [planner]; exact hf) hk hl, planner]
  · rw [Station.trigger_waits (by rw [planner]; exact hf) hk, planner]
  · rw [told]
    exact same

/-- Settles O46. -/
theorem aPlanExpiresAtItsDeadline : Obligations.APlanExpiresAtItsDeadline := by
  unfold Obligations.APlanExpiresAtItsDeadline
  intro s k hup hc
  refine ⟨fun h => exec_station_idle hup (Station.planExpires_other h), fun due hs hd => ?_⟩
  intro clock ip
  exact planExpiry_at hup hc (Station.planExpires_planned hs hd)

end Sys2Proof.Machine
end

section
/-! What an operation on a valve's state writes: its position, its health, its position request (R27 to R31, R37), and the
SAMPLE due times of a zone (R133). -/

namespace Sys2Proof.Machine

variable {s : State} {x y : Station}

namespace Station

/-! SAMPLE due times. -/

/-- The node entries are as they were but for their SAMPLE due times, and nothing else is changed. -/
structure Sampled (x y : Station) : Prop where
  rest : y = { x with lineA := y.lineA, lineB := y.lineB }
  canonical : y.canonical = true
  lines : ∀ l, ({ y.line l with nodes := [] } : FieldLine) = { x.line l with nodes := [] }
  nodes : ∀ n, ({ y.node n with sampleDue := none } : NodeEntry) = { x.node n with sampleDue := none }

theorem Sampled.refl (c : x.canonical = true) : Sampled x x := ⟨rfl, c, fun _ => rfl, fun _ => rfl⟩

theorem Sampled.modNode {u : Station} (h : Sampled x u) (n : Node) (due : Option Nat) :
    Sampled x (u.modNode n fun e => { e with sampleDue := due }) where
  rest := by
    rw [modNode_lines, h.rest]
  canonical := canonical_modNode u h.canonical n _
  lines l := by
    rw [← h.lines l]
    obtain ⟨l', a⟩ := n
    cases l' <;> cases l <;> rfl
  nodes m := by
    rw [node_modNode h.canonical n m fun e => { e with sampleDue := due }, ← h.nodes m]
    split
    · rename_i here; rw [here]
    · rfl

theorem setSampleDue_sampled (c : x.canonical = true) (z : Nat) (due : Option Nat) : Sampled x (x.setSampleDue z due) := by
  have go (ns : List Nat) (u : Station) (h : Sampled x u) : Sampled x (ns.foldl
      (fun s n => match s.sensor? n with
        | some r => s.modNode r.node fun e => { e with sampleDue := due }
        | none => s) u) := by
    induction ns generalizing u with
    | nil => exact h
    | cons n ns ih =>
      refine ih _ ?_
      dsimp only
      split
      · exact h.modNode _ due
      · exact h
  exact go _ x (.refl c)

/-! Positions. -/

/-- A valve's record is `d` with its class derived again; of the rest only the planner, the incidents and the notices may
have changed. -/
structure Repositioned (x y : Station) (v : Nat) (d : VsRec) : Prop where
  rest : y = { x with vs := y.vs, ip := y.ip, im := y.im, outbox := y.outbox }
  canonical : y.canonical = true
  record : y.vsOf v = { d with kept := usability? y v }
  others : ∀ w, w ≠ v → y.vsOf w = x.vsOf w

/-- The class of a valve whose record has been written, and the watch of R93. -/
theorem classed_repositioned {u : Station} {v : Nat} {r : Valve} {d : VsRec} (c : u.canonical = true)
    (hr : u.valve? v = some r) (hv : ∀ w, u.vsOf w = if w = v then d else x.vsOf w)
    (hrest : u = { x with vs := u.vs, ip := u.ip }) (left : Prop) [Decidable left] :
    Repositioned x (if left then (u.refreshClass v).watchLeft v else u.refreshClass v) v d := by
  obtain ⟨rest, here, others, -, -, canonical⟩ := refreshClass_derived c hr
  rw [hv, if_pos rfl] at here
  generalize u.refreshClass v = t at *
  have quiet : Repositioned x t v d :=
    ⟨by rw [rest, hrest], canonical, here, fun w hw => by rw [others w hw, hv, if_neg hw]⟩
  split
  · have inner : InnerEq t (t.watchLeft v) := watchLeft_inner t v
    have watched : (t.watchLeft v).canonical = true := ((Works.refl _).watchLeft v).canon canonical
    generalize t.watchLeft v = y at *
    unfold InnerEq at inner
    have vs (w : Nat) : y.vsOf w = t.vsOf w := by rw [inner]; rfl
    have class_stands : usability? y v = usability? t v := by
      rw [inner]
      exact usability_eq v rfl rfl rfl rfl
    exact
      { rest := by rw [inner, quiet.rest]
        canonical := watched
        record := by rw [vs, class_stands, quiet.record]
        others := fun w hw => by rw [vs, quiet.others w hw] }
  · exact quiet

theorem reposition_repositioned (c : x.canonical = true) {v : Nat} {r : Valve} (hr : x.valve? v = some r) (f : VsRec → VsRec) :
    Repositioned x (x.reposition v f) v (f (x.vsOf v)) := by
  have c1 : (x.modVs v f).canonical = true := canonical_modVs v f c
  have record (w : Nat) : (x.modVs v f).vsOf w = if w = v then f (x.vsOf v) else x.vsOf w := vsOf_modVs c v w f
  have hr1 : (x.modVs v f).valve? v = some r := hr
  have base : (x.modVs v f) = { x with vs := (x.modVs v f).vs, ip := (x.modVs v f).ip } := rfl
  unfold reposition
  dsimp only
  generalize x.modVs v f = u at *
  by_cases passage : (x.vsOf v).position.passes = (u.vsOf v).position.passes
  · simp only [if_pos passage]
    exact classed_repositioned c1 hr1 record base _
  · simp only [if_neg passage]
    have marked : u.markStale = { x with vs := u.markStale.vs, ip := u.markStale.ip } := by
      rw [base]
      rfl
    exact classed_repositioned (u := u.markStale) ((Works.refl u).markStale.canon c1) hr1 record marked _

theorem positionFromPercent_repositioned (c : x.canonical = true) {v : Nat} {r : Valve} (hr : x.valve? v = some r) :
    Repositioned x (x.positionFromPercent v) v
      { x.vsOf v with position := ((x.vsOf v).percent.map classify).getD (x.vsOf v).position } := by
  have written : (match (x.vsOf v).percent with
      | some p => { x.vsOf v with position := classify p }
      | none => x.vsOf v) =
      ({ x.vsOf v with position := ((x.vsOf v).percent.map classify).getD (x.vsOf v).position } : VsRec) := by
    cases (x.vsOf v).percent <;> rfl
  rw [← written]
  exact reposition_repositioned c hr fun d => match d.percent with
    | some p => { d with position := classify p }
    | none => d

/-! Health. -/

/-- A valve's health is written and its class derived again; of the rest only the planner may have changed. -/
structure HealthSet (x y : Station) (v : Nat) (r : Valve) : Prop where
  rest : ∃ vals, y = { x with nt := { x.nt with valves := vals }, vs := y.vs, ip := y.ip }
  canonical : y.canonical = true
  valve : y.valve? v = some r
  valves : ∀ w, w ≠ v → y.valve? w = x.valve? w
  record : y.vsOf v = { x.vsOf v with kept := usability? y v }
  others : ∀ w, w ≠ v → y.vsOf w = x.vsOf w

theorem setHealth_set (c : x.canonical = true) {v : Nat} {r : Valve} (hr : x.valve? v = some r) (h : Health) :
    HealthSet x (x.setHealth v h) v { r with health := h } := by
  have c1 : (x.modValve v fun r => { r with health := h }).canonical = true := ((Works.refl x).modValve v _).canon c
  have written (w : Nat) := valve_modValve (s := x) v w fun r => { r with health := h }
  have net : ∃ vals, (x.modValve v fun r => { r with health := h }) = { x with nt := { x.nt with valves := vals } } := by
    unfold modValve
    split
    · exact ⟨_, rfl⟩
    · exact ⟨x.nt.valves, rfl⟩
  unfold setHealth
  generalize (x.modValve v fun r => { r with health := h }) = t at *
  obtain ⟨vals, net⟩ := net
  have here : t.valve? v = some { r with health := h } := by rw [written, if_pos rfl, hr, Option.map_some]
  have before (w : Nat) : t.vsOf w = x.vsOf w := by rw [net]; rfl
  obtain ⟨rest, record, others, -, -, canonical⟩ := refreshClass_derived c1 here
  exact
    { rest := ⟨vals, by rw [rest, net]⟩
      canonical
      valve := by rw [rest]; exact here
      valves := fun w hw => by rw [rest]; exact (written w).trans (if_neg hw)
      record := by rw [record, before]
      others := fun w hw => (others w hw).trans (before w) }

/-! The position request. -/

/-- A PRESENT node's valve asks for its position (R31). -/
structure PositionAsked (x y : Station) (v : Nat) (n : Node) : Prop where
  rest : y = { x with vs := y.vs, lineA := y.lineA, lineB := y.lineB }
  canonical : y.canonical = true
  record : y.vsOf v = { x.vsOf v with request := (x.vsOf v).request || decide ((x.node n).presence = .present) }
  others : ∀ w, w ≠ v → y.vsOf w = x.vsOf w
  lines : ∀ l, ({ y.line l with nodes := [] } : FieldLine) = { x.line l with nodes := [] }
  node : y.node n = if (x.node n).presence = .present then { x.node n with detailDue := some ((x.node n).detailDue.getD x.clock) }
    else x.node n
  nodes : ∀ m, m ≠ n → y.node m = x.node m

theorem requestPosition_asked (c : x.canonical = true) {v : Nat} {n : Node} (hn : x.nodeOf? v = some n) :
    PositionAsked x (x.requestPosition v) v n := by
  unfold requestPosition
  rw [hn]
  dsimp only
  by_cases present : (x.node n).presence = .present
  · rw [if_pos present]
    have c1 : (x.modVs v fun d => { d with request := true }).canonical = true := canonical_modVs v _ c
    have record (w : Nat) := vsOf_modVs c v w fun d => { d with request := true }
    have node (m : Node) := node_modNode c1 n m fun e => { e with detailDue := some (e.detailDue.getD x.clock) }
    have base : (x.modVs v fun d => { d with request := true }) =
      { x with vs := (x.modVs v fun d => { d with request := true }).vs } := rfl
    generalize (x.modVs v fun d => { d with request := true }) = t at *
    have before (m : Node) : t.node m = x.node m := by rw [base]; rfl
    have lines := modNode_lines t n fun e => { e with detailDue := some (e.detailDue.getD x.clock) }
    exact
      { rest := by rw [lines, base]
        canonical := canonical_modNode t c1 n _
        record := by
          have : (t.modNode n fun e => { e with detailDue := some (e.detailDue.getD x.clock) }).vsOf v = t.vsOf v := by
            rw [lines]; rfl
          rw [this, record, if_pos rfl]
          simp [present]
        others := fun w hw => by
          have : (t.modNode n fun e => { e with detailDue := some (e.detailDue.getD x.clock) }).vsOf w = t.vsOf w := by
            rw [lines]; rfl
          rw [this, record, if_neg hw]
        lines := fun l => by
          have same : t.line l = x.line l := by rw [base]; cases l <;> rfl
          rw [← same]
          obtain ⟨l', a⟩ := n
          cases l' <;> cases l <;> rfl
        node := by rw [node, if_pos rfl, before, if_pos present]
        nodes := fun m hm => by rw [node, if_neg hm, before] }
  · rw [if_neg present]
    exact
      { rest := rfl, canonical := c
        record := by simp [present]
        others := fun _ _ => rfl, lines := fun _ => rfl
        node := by rw [if_neg present]
        nodes := fun _ _ => rfl }

end Station
end Sys2Proof.Machine
end

section
/-! A zone's motion count (R110, R131), and what every end of a stroke does before its owner is told (R28, R35, R124, R158;
log entry 50). -/

namespace Sys2Proof.Machine

variable {s : State} {x y : Station}

namespace Station

/-! The motion count. -/

theorem count_setCount (c : x.canonical = true) (z n w : Nat) :
    (x.setCount z n).count w = if w = z then n else x.count w := by
  rw [canonical_iff] at c
  have tidy := c.2.2.2.2.2.2.2.2.1
  simp only [Table.tidy, Bool.and_eq_true] at tidy
  unfold count
  rw [setCount_md]
  split
  · rename_i here
    rw [here]
    exact Table.readD_writeD_same _ _ _ _ tidy.1
  · rename_i other
    exact Table.readD_writeD_other _ _ _ _ _ tidy.1 other

/-- The motion count of a zone is set, and the zone takes the state that follows; SAMPLE due times apart, the nodes stand. -/
structure CountMoved (x y : Station) (z n : Nat) (st : ZoneState) : Prop where
  rest : y = { x with md := { x.md with counts := y.md.counts }, pw := { x.pw with zones := y.pw.zones }, lineA := y.lineA,
                      lineB := y.lineB }
  canonical : y.canonical = true
  count : ∀ w, y.count w = if w = z then n else x.count w
  zones : ∀ w, y.zoneWatch w = if w = z then { x.zoneWatch z with state := st } else x.zoneWatch w
  lines : ∀ l, ({ y.line l with nodes := [] } : FieldLine) = { x.line l with nodes := [] }
  nodes : ∀ m, ({ y.node m with sampleDue := none } : NodeEntry) = { x.node m with sampleDue := none }

theorem setCount_moved (c : x.canonical = true) (z n : Nat) :
    CountMoved x (x.setCount z n) z n (x.zoneWatch z).state where
  rest := rfl
  canonical := ((Works.refl x).setCount z n).canon c
  count w := count_setCount c z n w
  zones w := by
    split
    · rename_i here; rw [here]; rfl
    · rfl
  lines _ := rfl
  nodes _ := rfl

theorem CountMoved.paced {z n : Nat} {st : ZoneState} (h : CountMoved x y z n st) (st' : ZoneState) (due : Option Nat) :
    CountMoved x ((y.modZoneWatch z fun w => { w with state := st' }).setSampleDue z due) z n st' := by
  have c1 : (y.modZoneWatch z fun w => { w with state := st' }).canonical = true :=
    ((Works.refl y).modZoneWatch z _).canon h.canonical
  have zones (w : Nat) := zoneWatch_modZoneWatch h.canonical z w fun w => { w with state := st' }
  have base : (y.modZoneWatch z fun w => { w with state := st' }) =
      { y with pw := { y.pw with zones := (y.modZoneWatch z fun w => { w with state := st' }).pw.zones } } := rfl
  generalize (y.modZoneWatch z fun w => { w with state := st' }) = u at *
  have sampled := setSampleDue_sampled c1 z due
  generalize u.setSampleDue z due = t at *
  have watched (w : Nat) : t.zoneWatch w = u.zoneWatch w := by rw [sampled.rest]; rfl
  exact
    { rest := by rw [sampled.rest, base, h.rest]
      canonical := sampled.canonical
      count := fun w => by
        rw [← h.count w, sampled.rest, base]
        rfl
      zones := fun w => by
        rw [watched, zones, h.zones, h.zones, if_pos rfl]
        by_cases here : w = z
        · rw [if_pos here, if_pos here]
        · rw [if_neg here, if_neg here, if_neg here]
      lines := fun l => by
        rw [sampled.lines l, base, ← h.lines l]
        cases l <;> rfl
      nodes := fun m => by
        rw [sampled.nodes m, base, ← h.nodes m]
        rfl }

/-- The state of a zone as one of its strokes ends (R131). -/
def loweredState (x : Station) (z : Nat) : ZoneState :=
  if x.count z ≤ 1 ∧ (x.zoneWatch z).state = .watch then .quiet else (x.zoneWatch z).state

theorem lowerCount_moved (c : x.canonical = true) (z : Nat) :
    CountMoved x (x.lowerCount z) z (x.count z - 1) (x.loweredState z) := by
  have lowered := setCount_moved c z (x.count z - 1)
  have now : (x.setCount z (x.count z - 1)).count z = x.count z - 1 := by rw [lowered.count, if_pos rfl]
  have still : (x.setCount z (x.count z - 1)).zoneWatch z = x.zoneWatch z := rfl
  unfold lowerCount loweredState
  dsimp only
  rw [now, still]
  by_cases ended : x.count z ≤ 1 ∧ (x.zoneWatch z).state = .watch
  · have last : (x.zoneWatch z).state = .watch ∧ x.count z - 1 = 0 := ⟨ended.2, by omega⟩
    rw [if_pos ended, if_pos last]
    exact lowered.paced .quiet none
  · have more : ¬ ((x.zoneWatch z).state = .watch ∧ x.count z - 1 = 0) := fun h => ended ⟨by omega, h.1⟩
    rw [if_neg ended, if_neg more]
    exact lowered

theorem raiseCount_moved (c : x.canonical = true) (z : Nat) :
    CountMoved x (x.raiseCount z) z (x.count z + 1)
      (if (x.zoneWatch z).state = .quiet then .watch else (x.zoneWatch z).state) := by
  have raised := setCount_moved c z (x.count z + 1)
  have still : (x.setCount z (x.count z + 1)).zoneWatch z = x.zoneWatch z := rfl
  unfold raiseCount
  dsimp only
  rw [still]
  split
  · exact raised.paced .watch (some x.clock)
  · exact raised

/-! The calls queued for a node. -/

theorem line_dropQueued (n : Node) (l : Line) : (x.dropQueued n).line l =
    if l = n.line then
      { x.line l with
        strokes := (x.line l).strokes.filter fun a => decide (a ≠ n.address)
        halts := (x.line l).halts.filter fun a => decide (a ≠ n.address) }
    else x.line l := by
  unfold dropQueued
  rw [line_modLine]
  split
  · rename_i here; rw [here]
  · rfl

/-- A change of a node entry leaves what a line has besides its nodes. -/
theorem line_modNode (n : Node) (f : NodeEntry → NodeEntry) (l : Line) :
    ({ (x.modNode n f).line l with nodes := [] } : FieldLine) = { x.line l with nodes := [] } := by
  obtain ⟨l', a⟩ := n
  cases l' <;> cases l <;> rfl

/-! The end of a stroke, up to the position: the record goes, the count falls, the owner and the queued calls go. -/

/-- The station when the stroke's record, motion count, owner and queued calls have gone. -/
def strokeGone (x : Station) (r : Stroke) : Station :=
  let y := ((x.dropStroke r.valve).lowerCount r.zone).modVs r.valve fun d => { d with owner := none }
  match y.nodeOf? r.valve with
  | some n => (y.dropQueued n).modNode n fun e => { e with detailDue := if r.accepted.isSome then none else e.detailDue }
  | none => y

/-- What has gone with a stroke. -/
structure StrokeGone (x y : Station) (r : Stroke) (n : Node) : Prop where
  rest : y = { x with md := { x.md with strokes := x.md.strokes.filter fun q => decide (q.valve ≠ r.valve), counts := y.md.counts }
                      vs := y.vs, pw := { x.pw with zones := y.pw.zones }, lineA := y.lineA, lineB := y.lineB }
  canonical : y.canonical = true
  count : ∀ w, y.count w = if w = r.zone then x.count r.zone - 1 else x.count w
  zones : ∀ w, y.zoneWatch w =
    if w = r.zone then { x.zoneWatch r.zone with state := x.loweredState r.zone } else x.zoneWatch w
  vs : ∀ w, y.vsOf w = if w = r.valve then { x.vsOf r.valve with owner := none } else x.vsOf w
  lines : ∀ l, ({ y.line l with nodes := [] } : FieldLine) =
    if l = n.line then
      { x.line l with
        nodes := []
        strokes := (x.line l).strokes.filter fun a => decide (a ≠ n.address)
        halts := (x.line l).halts.filter fun a => decide (a ≠ n.address) }
    else { x.line l with nodes := [] }
  node : ({ y.node n with sampleDue := none } : NodeEntry) =
    { x.node n with sampleDue := none, detailDue := if r.accepted.isSome then none else (x.node n).detailDue }
  nodes : ∀ m, m ≠ n → ({ y.node m with sampleDue := none } : NodeEntry) = { x.node m with sampleDue := none }

theorem strokeGone_gone (c : x.canonical = true) (r : Stroke) {n : Node} (hn : x.nodeOf? r.valve = some n) :
    StrokeGone x (x.strokeGone r) r n := by
  have c0 : (x.dropStroke r.valve).canonical = true := c
  obtain ⟨rest, c1, count, zones, lines, nodes⟩ := lowerCount_moved c0 r.zone
  unfold strokeGone
  generalize (x.dropStroke r.valve).lowerCount r.zone = u at *
  have c2 : (u.modVs r.valve fun d => { d with owner := none }).canonical = true :=
    canonical_modVs r.valve (fun d => { d with owner := none }) c1
  have vs (w : Nat) := vsOf_modVs c1 r.valve w fun d => { d with owner := none }
  have base : (u.modVs r.valve fun d => { d with owner := none }) =
      { u with vs := (u.modVs r.valve fun d => { d with owner := none }).vs } := rfl
  dsimp only
  generalize (u.modVs r.valve fun d => { d with owner := none }) = t at *
  have place : t.nodeOf? r.valve = some n := by
    rw [base, rest]
    exact hn
  rw [place]
  dsimp only
  have c3 : (t.dropQueued n).canonical = true := canonical_dropQueued t c2 n
  have node (m : Node) := node_modNode c3 n m fun e =>
    { e with detailDue := if r.accepted.isSome then none else e.detailDue }
  have line (l : Line) := line_modNode (x := t.dropQueued n) n
    (fun e => { e with detailDue := if r.accepted.isSome then none else e.detailDue }) l
  have restN := modNode_lines (t.dropQueued n) n fun e =>
    { e with detailDue := if r.accepted.isSome then none else e.detailDue }
  have restQ := dropQueued_lines t n
  have c4 : ((t.dropQueued n).modNode n fun e =>
      { e with detailDue := if r.accepted.isSome then none else e.detailDue }).canonical = true := canonical_modNode _ c3 n _
  generalize ((t.dropQueued n).modNode n fun e =>
    { e with detailDue := if r.accepted.isSome then none else e.detailDue }) = y at *
  have before (m : Node) : (t.dropQueued n).node m = u.node m := by
    rw [dropQueued_node, base]
    rfl
  have vsu (w : Nat) : u.vsOf w = x.vsOf w := by rw [rest]; rfl
  have vsy (w : Nat) : y.vsOf w = t.vsOf w := by
    rw [restN, restQ]
    rfl
  have lineU (l : Line) : t.line l = u.line l := by rw [base]; cases l <;> rfl
  have whole : y = { u with vs := t.vs, lineA := y.lineA, lineB := y.lineB } := by
    rw [restN, restQ, base]
  exact
    { rest := by
        rw [whole, rest]
        rfl
      canonical := c4
      count := fun w => by
        have : y.count w = u.count w := by rw [whole]; rfl
        rw [this, count]
        rfl
      zones := fun w => by
        have : y.zoneWatch w = u.zoneWatch w := by rw [whole]; rfl
        rw [this, zones]
        rfl
      vs := fun w => by
        rw [vsy, vs, vsu, vsu]
      lines := fun l => by
        rw [line l, line_dropQueued, lineU]
        have := lines l
        have old : (x.dropStroke r.valve).line l = x.line l := by cases l <;> rfl
        rw [old] at this
        split
        · generalize u.line l = a at *
          generalize x.line l = b at *
          obtain ⟨a1, a2, a3, a4, a5, a6, a7⟩ := a
          obtain ⟨b1, b2, b3, b4, b5, b6, b7⟩ := b
          simp only [FieldLine.mk.injEq, true_and] at this
          simp only [this]
        · exact this
      node := by
        have := nodes n
        have old : (x.dropStroke r.valve).node n = x.node n := rfl
        rw [old] at this
        rw [node, if_pos rfl, before]
        generalize u.node n = a at *
        generalize x.node n = b at *
        obtain ⟨a1, a2, a3, a4, a5, a6, a7, a8, a9⟩ := a
        obtain ⟨b1, b2, b3, b4, b5, b6, b7, b8, b9⟩ := b
        simp only [NodeEntry.mk.injEq, and_true] at this
        simp only [this]
      nodes := fun m hm => by
        rw [node, if_neg hm, before]
        exact nodes m }

end Station
end Sys2Proof.Machine
end

section
/-! The end of a stroke before its owner is told (R28, R35, R124; log entry 50). -/

namespace Sys2Proof.Machine

variable {s : State} {x y : Station}

namespace Station

/-- The position fields that the end of a stroke leaves (R28). -/
def endRecord (r : Stroke) (e : StrokeEnd) (d : VsRec) : VsRec :=
  if e = .completed then { d with position := (d.percent.map classify).getD d.position }
  else if r.accepted.isNone then { d with position := r.before.1, percent := r.before.2 }
  else if r.gotPercent then { d with position := .partway }
  else { d with position := .unknown, percent := none, stale := false }

/-- The end asks a PRESENT node for its position (R28, R31). -/
def endAsks (e : StrokeEnd) (absent : Bool) (p : Presence) : Bool :=
  !absent && decide (e ≠ .completed) && decide (p = .present)

/-- What the end of a stroke makes of the position. -/
structure PositionEnded (x y : Station) (v : Nat) (n : Node) (absent : Bool) (d : VsRec) (asks : Bool) : Prop where
  rest : y = { x with vs := y.vs, ip := y.ip, im := y.im, lineA := y.lineA, lineB := y.lineB, outbox := y.outbox }
  canonical : y.canonical = true
  record : ({ y.vsOf v with kept := none } : VsRec) = { d with request := d.request || asks, kept := none }
  kept : absent = false → (y.vsOf v).kept = usability? y v
  others : ∀ w, w ≠ v → y.vsOf w = x.vsOf w
  lines : ∀ l, ({ y.line l with nodes := [] } : FieldLine) = { x.line l with nodes := [] }
  node : y.node n = if asks = true then { x.node n with detailDue := some ((x.node n).detailDue.getD x.clock) } else x.node n
  nodes : ∀ m, m ≠ n → y.node m = x.node m

theorem Repositioned.ended {v : Nat} {d : VsRec} (h : Repositioned x y v d) (n : Node) :
    PositionEnded x y v n false d false where
  rest := by
    rw [h.rest]
  canonical := h.canonical
  record := by
    rw [h.record]
    simp
  kept _ := by rw [h.record]
  others := h.others
  lines l := by
    rw [h.rest]
    cases l <;> rfl
  node := by
    rw [if_neg (by decide), h.rest]
    rfl
  nodes m _ := by
    rw [h.rest]
    rfl

/-- The request mark and the due times of a node are no inputs of a class. -/
theorem usability?_asked {v : Nat} {n : Node} (h : PositionAsked x y v n) : usability? y v = usability? x v := by
  have valve : y.valve? v = x.valve? v := by rw [h.rest]; rfl
  have node (m : Node) : (y.node m).presence = (x.node m).presence ∧ (y.node m).last = (x.node m).last := by
    by_cases here : m = n
    · rw [here, h.node]
      split <;> exact ⟨rfl, rfl⟩
    · rw [h.nodes m here]
      exact ⟨rfl, rfl⟩
  unfold usability?
  rw [valve, h.record]
  simp only [node]

theorem Repositioned.asked {t : Station} {v : Nat} {d : VsRec} {n : Node} (h : Repositioned x y v d)
    (g : PositionAsked y t v n) : PositionEnded x t v n false d (decide ((x.node n).presence = .present)) := by
  have before (m : Node) : y.node m = x.node m := by rw [h.rest]; rfl
  have clock : y.clock = x.clock := by rw [h.rest]
  exact
    { rest := by rw [g.rest, h.rest]
      canonical := g.canonical
      record := by rw [g.record, h.record, before]
      kept := fun _ => by rw [usability?_asked g, g.record, h.record]
      others := fun w hw => by rw [g.others w hw, h.others w hw]
      lines := fun l => by
        rw [g.lines l, h.rest]
        cases l <;> rfl
      node := by
        rw [g.node, before, clock]
        simp only [decide_eq_true_eq]
      nodes := fun m hm => by rw [g.nodes m hm, before] }

theorem endPosition_ended (c : x.canonical = true) (r : Stroke) (e : StrokeEnd) (absent : Bool) {old : Valve} {n : Node}
    (hv : x.valve? r.valve = some old) (hn : old.node = some n) :
    PositionEnded x (x.endPosition r e absent) r.valve n absent
      (if absent = true then x.vsOf r.valve else endRecord r e (x.vsOf r.valve)) (endAsks e absent (x.node n).presence) := by
  cases absent with
  | true =>
    have same : x.endPosition r e true = x := rfl
    rw [same, if_pos rfl]
    exact
      { rest := rfl, canonical := c
        record := by simp [endAsks]
        kept := nofun
        others := fun _ _ => rfl, lines := fun _ => rfl
        node := rfl
        nodes := fun _ _ => rfl }
  | false =>
    rw [if_neg (by decide)]
    by_cases done : e = .completed
    · have moved := positionFromPercent_repositioned c hv
      have e1 : x.endPosition r e false = x.positionFromPercent r.valve := by simp [endPosition, done]
      rw [e1]
      simp only [endRecord, done, if_true, endAsks]
      simp only [ne_eq, not_true_eq_false, decide_false, Bool.and_false, Bool.false_and]
      exact moved.ended n
    · have asks {u : Station} {d : VsRec} (h : Repositioned x u r.valve d) :
          PositionEnded x (u.requestPosition r.valve) r.valve n false d (endAsks e false (x.node n).presence) := by
        have place : u.nodeOf? r.valve = some n := by
          have : u.valve? r.valve = x.valve? r.valve := by rw [h.rest]; rfl
          unfold nodeOf?
          rw [this, hv]
          exact hn
        have g := requestPosition_asked h.canonical place
        have ask : endAsks e false (x.node n).presence = decide ((x.node n).presence = .present) := by simp [endAsks, done]
        rw [ask]
        exact h.asked g
      unfold endPosition
      simp only [Bool.false_eq_true, if_false, done, endRecord]
      split
      · exact asks (reposition_repositioned c hv fun d => { d with position := r.before.1, percent := r.before.2 })
      · split
        · exact asks (reposition_repositioned c hv fun d => { d with position := .partway })
        · exact asks (reposition_repositioned c hv fun d => { d with position := .unknown, percent := none, stale := false })

/-- A failure of an entry's or a MOVE_VALVE's stroke that lowers the health (R35). -/
def lowersHealth (r : Stroke) (e : StrokeEnd) : Prop := ∃ c, e = .failed c ∧ c.isHard = true ∧ r.owner ≠ .exercise

theorem endCore_lowers {r : Stroke} {e : StrokeEnd} (absent : Bool) (h : lowersHealth r e) :
    x.endCore r e absent = ((x.strokeGone r).endPosition r e absent).setHealth r.valve .inoperable := by
  obtain ⟨c, he, hc⟩ := h
  subst he
  exact if_pos hc

theorem endCore_keeps {r : Stroke} {e : StrokeEnd} (absent : Bool) (h : ¬ lowersHealth r e) :
    x.endCore r e absent = (x.strokeGone r).endPosition r e absent := by
  cases e with
  | failed c => exact if_neg fun hc => h ⟨c, rfl, hc⟩
  | _ => rfl

theorem isHard_iff (c : Cause) : c.isHard = true ↔ c ∈ ([.stall, .timeout, .shortStroke, .nodeFault] : List Cause) := by
  cases c <;> decide

/-- All that the end of a stroke does before its owner is told. -/
structure CoreEnded (x y : Station) (r : Stroke) (e : StrokeEnd) (absent : Bool) (old : Valve) (n : Node) : Prop where
  rest : ∃ vals, y = { x with
    nt := { x.nt with valves := vals }
    md := { x.md with strokes := x.md.strokes.filter fun q => decide (q.valve ≠ r.valve), counts := y.md.counts }
    vs := y.vs, pw := { x.pw with zones := y.pw.zones }, ip := y.ip, im := y.im, lineA := y.lineA, lineB := y.lineB
    outbox := y.outbox }
  canonical : y.canonical = true
  count : ∀ w, y.count w = if w = r.zone then x.count r.zone - 1 else x.count w
  zones : ∀ w, y.zoneWatch w =
    if w = r.zone then { x.zoneWatch r.zone with state := x.loweredState r.zone } else x.zoneWatch w
  record : ({ y.vsOf r.valve with kept := none } : VsRec) =
    { (if absent = true then x.vsOf r.valve else endRecord r e (x.vsOf r.valve)) with
      owner := none, kept := none
      request := (x.vsOf r.valve).request || endAsks e absent (x.node n).presence }
  kept : absent = false → (y.vsOf r.valve).kept = usability? y r.valve
  others : ∀ w, w ≠ r.valve → y.vsOf w = x.vsOf w
  valve : (lowersHealth r e → y.valve? r.valve = some { old with health := .inoperable }) ∧
    (¬ lowersHealth r e → y.valve? r.valve = some old)
  valves : ∀ w, w ≠ r.valve → y.valve? w = x.valve? w
  lines : ∀ l, ({ y.line l with nodes := [] } : FieldLine) =
    if l = n.line then
      { x.line l with
        nodes := []
        strokes := (x.line l).strokes.filter fun a => decide (a ≠ n.address)
        halts := (x.line l).halts.filter fun a => decide (a ≠ n.address) }
    else { x.line l with nodes := [] }
  due : (y.node n).detailDue =
    if endAsks e absent (x.node n).presence = true
    then some ((if r.accepted.isSome then none else (x.node n).detailDue).getD x.clock)
    else if r.accepted.isSome then none else (x.node n).detailDue

theorem endRecord_owner (r : Stroke) (e : StrokeEnd) (d : VsRec) (o : Option Owner) :
    endRecord r e { d with owner := o } = { endRecord r e d with owner := o } := by
  unfold endRecord
  repeat' split
  all_goals rfl

theorem endRecord_request (r : Stroke) (e : StrokeEnd) (d : VsRec) : (endRecord r e d).request = d.request := by
  unfold endRecord
  repeat' split
  all_goals rfl

theorem endCore_ended (c : x.canonical = true) (r : Stroke) (e : StrokeEnd) (absent : Bool) {old : Valve} {n : Node}
    (hv : x.valve? r.valve = some old) (hn : old.node = some n) : CoreEnded x (x.endCore r e absent) r e absent old n := by
  have place : x.nodeOf? r.valve = some n := by
    unfold nodeOf?
    rw [hv]
    exact hn
  have gone := strokeGone_gone c r place
  have lowers := endCore_lowers (x := x) (r := r) (e := e) absent
  have keeps := endCore_keeps (x := x) (r := r) (e := e) absent
  generalize x.strokeGone r = t at *
  have valveT (w : Nat) : t.valve? w = x.valve? w := by rw [gone.rest]; rfl
  have ended := endPosition_ended gone.canonical r e absent ((valveT r.valve).trans hv) hn
  have presence : (t.node n).presence = (x.node n).presence := by
    have := congrArg NodeEntry.presence gone.node
    exact this
  have dueT : (t.node n).detailDue = if r.accepted.isSome then none else (x.node n).detailDue := by
    have := congrArg NodeEntry.detailDue gone.node
    exact this
  rw [presence, gone.vs, if_pos rfl] at ended
  generalize t.endPosition r e absent = u at *
  have clock : t.clock = x.clock := by rw [gone.rest]
  have zonesU (w : Nat) : u.zoneWatch w = t.zoneWatch w := by rw [ended.rest]; rfl
  have countU (w : Nat) : u.count w = t.count w := by rw [ended.rest]; rfl
  have valveU (w : Nat) : u.valve? w = x.valve? w := by rw [← valveT, ended.rest]; rfl
  have recordU : ({ u.vsOf r.valve with kept := none } : VsRec) =
      { (if absent = true then x.vsOf r.valve else endRecord r e (x.vsOf r.valve)) with
        owner := none, kept := none
        request := (x.vsOf r.valve).request || endAsks e absent (x.node n).presence } := by
    rw [ended.record]
    cases absent with
    | true => rfl
    | false =>
      rw [if_neg (by decide), if_neg (by decide), endRecord_owner]
      simp only [endRecord_request]
  have dueU : (u.node n).detailDue =
      if endAsks e absent (x.node n).presence = true
      then some ((if r.accepted.isSome then none else (x.node n).detailDue).getD x.clock)
      else if r.accepted.isSome then none else (x.node n).detailDue := by
    rw [ended.node]
    split
    · rw [← dueT, ← clock]
    · exact dueT
  by_cases low : lowersHealth r e
  · have set := setHealth_set ended.canonical ((valveU r.valve).trans hv) .inoperable
    rw [lowers low]
    generalize u.setHealth r.valve .inoperable = y at *
    obtain ⟨⟨vals, rest⟩, canonical, valve, valves, record, others⟩ := set
    exact
      { rest := ⟨vals, by rw [rest, ended.rest, gone.rest]⟩
        canonical := canonical
        count := fun w => by
          rw [← gone.count, ← countU, rest]
          rfl
        zones := fun w => by
          rw [← gone.zones, ← zonesU, rest]
          rfl
        record := by rw [record]; exact recordU
        kept := fun _ => by rw [record]
        others := fun w hw => by rw [others w hw, ended.others w hw, gone.vs, if_neg hw]
        valve := ⟨fun _ => valve, fun h => absurd low h⟩
        valves := fun w hw => by rw [valves w hw, valveU]
        lines := fun l => by
          rw [← gone.lines l, ← ended.lines l, rest]
          cases l <;> rfl
        due := by
          rw [← dueU, rest]
          rfl }
  · rw [keeps low]
    exact
      { rest := ⟨x.nt.valves, by rw [ended.rest, gone.rest]⟩
        canonical := ended.canonical
        count := fun w => by rw [← gone.count, ← countU]
        zones := fun w => by rw [← gone.zones, ← zonesU]
        record := recordU
        kept := ended.kept
        others := fun w hw => by rw [ended.others w hw, gone.vs, if_neg hw]
        valve := ⟨fun h => absurd h low, fun _ => (valveU r.valve).trans hv⟩
        valves := fun w _ => valveU w
        lines := fun l => by rw [← gone.lines l, ← ended.lines l]
        due := dueU }

end Station

/-- Settles O36. -/
theorem aStrokeEndsByItsRules : Obligations.AStrokeEndsByItsRules := by
  unfold Obligations.AStrokeEndsByItsRules
  intro s r e absent old n c hv hn v x d q ended line due hard
  have moves : s.Moves x := (Station.Frame.endCore r e absent (.refl s)).moves (le_refl 3)
  obtain ⟨⟨vals, rest⟩, -, count, zones, record, kept, others, ⟨low, sound⟩, valves, lines, dues⟩ :=
    Station.endCore_ended c r e absent hv hn
  change x = _ at rest
  change ∀ w, x.count w = _ at count
  change ∀ w, x.zoneWatch w = _ at zones
  change ({ q with kept := none } : VsRec) = _ at record
  change absent = false → q.kept = usability? x v at kept
  change ∀ w, w ≠ v → x.vsOf w = _ at others
  change Station.lowersHealth r e → x.valve? v = _ at low
  change ¬ Station.lowersHealth r e → x.valve? v = _ at sound
  change ∀ w, w ≠ v → x.valve? w = _ at valves
  change (x.node n).detailDue = _ at dues
  change ∀ l, ({ x.line l with nodes := [] } : FieldLine) = _ at lines
  have lowers : (hard ∧ r.owner ≠ .exercise) ↔ Station.lowersHealth r e := by
    simp only [hard, Station.lowersHealth, Station.isHard_iff]
    constructor
    · rintro ⟨⟨c, he, hc⟩, ho⟩
      exact ⟨c, he, hc, ho⟩
    · rintro ⟨c, he, hc, ho⟩
      exact ⟨⟨c, he, hc⟩, ho⟩
  clear_value x
  have field {α : Type} (f : VsRec → α) (hf : ∀ d : VsRec, f { d with kept := none } = f d) : f q = f _ :=
    (hf q).symm.trans (congrArg f record)
  have position : (q.position, q.percent, q.stale) = _ := field (fun d => (d.position, d.percent, d.stale)) fun _ => rfl
  have request : q.request = _ := field (·.request) fun _ => rfl
  have asks : Station.endAsks e absent (s.node n).presence = true ↔
      absent = false ∧ e ≠ .completed ∧ (s.node n).presence = .present := by
    simp only [Station.endAsks, Bool.and_eq_true, Bool.not_eq_true', decide_eq_true_eq, and_assoc]
  have strokes (l : Line) : (x.line l).strokes = if l = n.line then
      (s.line l).strokes.filter (fun a => decide (a ≠ n.address)) else (s.line l).strokes := by
    refine (congrArg FieldLine.strokes (lines l)).trans ?_
    split <;> rfl
  have halts (l : Line) : (x.line l).halts = if l = n.line then
      (s.line l).halts.filter (fun a => decide (a ≠ n.address)) else (s.line l).halts := by
    refine (congrArg FieldLine.halts (lines l)).trans ?_
    split <;> rfl
  refine ⟨?_, ?_, ?_, ?_, ?_, fun z hz => ⟨?_, ?_⟩, fun h => ?_, fun h => ?_, field (·.owner) fun _ => rfl, ?_, ?_, ?_,
    fun l hl => ⟨?_, ?_⟩, fun h => ?_, fun h he => ?_, fun h he => ⟨fun ha => ?_, fun ha hg => ?_, fun ha hg => ?_, fun hp => ⟨?_, ?_⟩⟩,
    fun h => ⟨?_, ?_⟩, fun hh ho => low (lowers.mp ⟨hh, ho⟩), fun h => sound fun hl => ?_, kept, fun w hw => ⟨others w hw, valves w hw⟩,
    moves⟩
  · rw [rest]
  · rw [rest]
  · rw [rest]
  · rw [rest]
  · rw [count, if_pos rfl]
  · rw [count, if_neg hz]
  · rw [zones, if_neg hz]
  · rw [zones, if_pos rfl]
    exact if_pos h
  · rw [zones, if_pos rfl, Station.loweredState, if_neg h]
  · refine (field (·.holds) fun _ => rfl).trans ?_
    dsimp only
    split
    · rfl
    · unfold Station.endRecord
      repeat' split
      all_goals rfl
  · rw [strokes, if_pos rfl]
  · rw [halts, if_pos rfl]
  · rw [strokes, if_neg hl]
  · rw [halts, if_neg hl]
  · rw [position]
    simp only [h, if_true]
    rfl
  · rw [position]
    simp only [h, he, Station.endRecord, Bool.false_eq_true, if_false, if_true]
    rfl
  · rw [position]
    simp only [h, he, ha, Station.endRecord, Bool.false_eq_true, if_false, Option.isNone_none, if_true]
    rfl
  · rw [position]
    have given : r.accepted.isNone = false := by simpa using Option.isSome_iff_ne_none.mpr ha
    simp only [h, he, given, hg, Station.endRecord, Bool.false_eq_true, if_false, if_true]
    rfl
  · rw [position]
    have given : r.accepted.isNone = false := by simpa using Option.isSome_iff_ne_none.mpr ha
    simp only [h, he, given, hg, Station.endRecord, Bool.false_eq_true, if_false]
  · rw [request, asks.mpr ⟨h, he, hp⟩]
    exact Bool.or_true _
  · rw [dues, if_pos (asks.mpr ⟨h, he, hp⟩)]
  · have quiet : Station.endAsks e absent (s.node n).presence = false := by
      rw [← Bool.not_eq_true, asks]
      rintro ⟨h1, h2, h3⟩
      rcases h with h | h | h
      · rw [h1] at h
        cases h
      · exact h2 h
      · exact h h3
    rw [request, quiet]
    exact Bool.or_false _
  · have quiet : ¬ Station.endAsks e absent (s.node n).presence = true := by
      rw [asks]
      rintro ⟨h1, h2, h3⟩
      rcases h with h | h | h
      · rw [h1] at h
        cases h
      · exact h2 h
      · exact h h3
    rw [dues, if_neg quiet]
  · obtain ⟨hh, ho⟩ := lowers.mpr hl
    rcases h with h | h
    · exact h hh
    · exact ho h

end Sys2Proof.Machine
end

section
/-! Which call a free line starts (R156 to R159). -/

namespace Sys2Proof.Machine

variable {s : State} {x : Station}

/-- In a list whose keys rise, a search finds the element of the lowest key. -/
theorem find_lowest {α : Type} (key : α → Nat) {xs : List α} (rising : xs.Pairwise fun a b => key a < key b)
    {p : α → Bool} {a : α} (ha : a ∈ xs) (hp : p a = true) (low : ∀ b ∈ xs, p b = true → key a ≤ key b) :
    xs.find? p = some a := by
  induction xs with
  | nil => simp at ha
  | cons b xs ih =>
    obtain ⟨above, rising⟩ := List.pairwise_cons.mp rising
    rcases List.mem_cons.mp ha with rfl | ha
    · exact List.find?_cons_of_pos hp
    · have hb : ¬ p b = true := fun hb => by
        have := low b List.mem_cons_self hb
        have := above a ha
        omega
      rw [List.find?_cons_of_neg hb]
      exact ih rising ha fun c hc => low c (List.mem_cons_of_mem b hc)

/-- The numbers of a table in its form rise. -/
theorem Table.rising {α : Type} {t : Table α} (h : Table.wf t = true) : t.Pairwise fun a b => a.1 < b.1 := by
  induction t with
  | nil => exact .nil
  | cons p t ih =>
    simp only [Table.wf, Bool.and_eq_true] at h
    exact List.pairwise_cons.mpr ⟨(Table.above_iff _ _).mp h.1, ih h.2⟩

/-- What a tidy table lists is what it reads as, but for the record not listed. -/
theorem Table.mem_iff_readD {α : Type} [DecidableEq α] {t : Table α} {d : α} (h : Table.tidy d t = true) (n : Nat) (r : α) :
    (n, r) ∈ t ↔ t.readD d n = r ∧ r ≠ d := by
  simp only [Table.tidy, Bool.and_eq_true] at h
  have listed : (n, r) ∈ t → r ≠ d := fun hm => by
    have := List.all_eq_true.mp h.2 (n, r) hm
    simpa using this
  rw [← Table.find_iff_mem t h.1, Table.readD]
  constructor
  · intro hf
    exact ⟨by rw [hf]; rfl, listed ((Table.find_iff_mem t h.1 n r).mp hf)⟩
  · rintro ⟨hr, hd⟩
    cases hf : t.find? n with
    | none => rw [hf] at hr; exact absurd hr.symm hd
    | some y => rw [hf] at hr; exact congrArg some hr

/-- The address that `earliest` answers: the one due first, the lowest of those. -/
theorem earliest_eq_some {now : Nat} {xs : List (Nat × Nat)} {m d : Nat} (hm : (m, d) ∈ xs) (hd : clockReached now d = true)
    (first : ∀ m' d', (m', d') ∈ xs → clockReached now d' = true →
      clockSince now d' < clockSince now d ∨ (clockSince now d' = clockSince now d ∧ m ≤ m')) :
    earliest now xs = some m := by
  obtain ⟨some_, none_⟩ := Station.earliest_spec now xs
  cases he : earliest now xs with
  | none =>
    have := none_ he (m, d) hm
    exact absurd hd (by simp [this])
  | some a =>
    obtain ⟨t, ha, ht, least⟩ := some_ a he
    have h1 := least m d hm hd
    have h2 := first a t ha ht
    exact congrArg some (by omega)

theorem earliest_eq_none {now : Nat} {xs : List (Nat × Nat)} (h : ∀ m d, (m, d) ∈ xs → clockReached now d = true → False) :
    earliest now xs = none := by
  cases he : earliest now xs with
  | none => rfl
  | some a =>
    obtain ⟨t, ha, ht, -⟩ := (Station.earliest_spec now xs).1 a he
    exact (h a t ha ht).elim

namespace Station

/-- An entry whose late DETAIL due time has been brought forward. -/
def forwarded (now : Nat) (e : NodeEntry) : NodeEntry := { e with detailDue := e.detailDue.map (broughtForward now) }

@[simp] theorem forwarded_seen (now : Nat) (e : NodeEntry) : (forwarded now e).kind = e.kind ∧
    (forwarded now e).presence = e.presence ∧ (forwarded now e).attend = e.attend ∧ (forwarded now e).step = e.step ∧
    (forwarded now e).rollDue = e.rollDue := ⟨rfl, rfl, rfl, rfl, rfl⟩

theorem bringForward_rest (l : Line) :
    x.bringForward l = { x with lineA := (x.bringForward l).lineA, lineB := (x.bringForward l).lineB } := by
  cases l <;> rfl

theorem bringForward_line (l : Line) :
    (x.bringForward l).line l = { x.line l with nodes := (x.line l).nodes.map fun p => (p.1, forwarded x.clock p.2) } := by
  cases l <;> rfl

theorem bringForward_sampled (l : Line) (n : Node) : (x.bringForward l).sampledFast n = x.sampledFast n := by
  rw [bringForward_rest]
  rfl

theorem bringForward_node (l : Line) (a : Nat) : (x.bringForward l).node ⟨l, a⟩ = forwarded x.clock (x.node ⟨l, a⟩) := by
  unfold node
  rw [bringForward_line]
  unfold Table.readD
  rw [Table.find_map]
  cases (x.line l).nodes.find? a <;> rfl

/-- An address whose entry is not the unlisted one. -/
theorem node_listed (c : x.canonical = true) {l : Line} {a : Nat} (h : x.node ⟨l, a⟩ ≠ {}) :
    (a, x.node ⟨l, a⟩) ∈ (x.line l).nodes :=
  (Table.mem_iff_readD (nodes_tidy c l) _ _).mpr ⟨rfl, h⟩

theorem node_of_listed (c : x.canonical = true) {l : Line} {a : Nat} {e : NodeEntry} (h : (a, e) ∈ (x.line l).nodes) :
    x.node ⟨l, a⟩ = e := ((Table.mem_iff_readD (nodes_tidy c l) _ _).mp h).1

theorem nodes_rising (c : x.canonical = true) (l : Line) : (x.line l).nodes.Pairwise fun a b => a.1 < b.1 := by
  have h := nodes_tidy c l
  simp only [Table.tidy, Bool.and_eq_true] at h
  exact Table.rising h.1

end Station
end Sys2Proof.Machine
end

section
/-! CALL_START: the call that comes first in the classes of R157. -/

namespace Sys2Proof.Machine

variable {s : State} {x : Station} {l : Line} {m : Nat}

namespace Station

/-- The node is PRESENT with its attend-outstanding mark set (R156). -/
def marked (x : Station) (n : Node) : Prop := (x.node n).presence = .present ∧ (x.node n).attend = true

/-- The node is PRESENT with its mark clear (R157). -/
def ready (x : Station) (n : Node) : Prop := (x.node n).presence = .present ∧ (x.node n).attend = false

/-- A DETAIL of the node is due since `d` (R158). -/
def detailFrom (x : Station) (n : Node) (d : Nat) : Prop :=
  (x.node n).kind = .actuator ∧ x.ready n ∧ clockReached x.clock d = true ∧
    (x.node n).detailDue.map (broughtForward x.clock) = some d

/-- A SAMPLE of the node is due since `d` (R159). -/
def sampleFrom (x : Station) (n : Node) (d : Nat) : Prop :=
  (x.node n).kind = .sensor ∧ x.sampledFast n = true ∧ clockReached x.clock d = true ∧
    d = (x.node n).sampleDue.getD x.clock

/-- The roll call of the node is due (R159). -/
def rollFrom (x : Station) (n : Node) : Prop :=
  (x.node n).kind ≠ .none ∧ x.sampledFast n = false ∧
    ∃ d, (x.node n).rollDue = some d ∧ clockReached x.clock d = true

/-- Of the addresses that are due, `m` is due first, the lowest of those (R157). -/
def dueFirstAt (x : Station) (due : Nat → Nat → Prop) (m : Nat) : Prop :=
  ∃ d, due m d ∧ ∀ m' d', due m' d' →
    clockSince x.clock d' < clockSince x.clock d ∨ (clockSince x.clock d' = clockSince x.clock d ∧ m ≤ m')

/-- The addresses whose roll call is due. -/
def rollQueue (y : Station) (l : Line) : List Nat :=
  ((y.line l).nodes.filter fun p => decide (p.2.kind ≠ .none) && !y.sampledFast ⟨l, p.1⟩ &&
    (match p.2.rollDue with | some d => clockReached y.clock d | none => false)).map (·.1)

section Classes

variable (c : x.canonical = true)

include c

theorem handshakeCall_first (h : x.marked ⟨l, m⟩) (low : ∀ j, j < m → ¬ x.marked ⟨l, j⟩) :
    (x.bringForward l).handshakeCall l = some (.addressed m
      (if (x.node ⟨l, m⟩).step = .needDetail then .detail else .acknowledge) 2) := by
  obtain ⟨present, attend⟩ := id h
  have listed := node_listed (l := l) (a := m) c fun e => by rw [e] at present; cases present
  have found : List.find? (fun p : Nat × NodeEntry => decide (p.2.presence = .present) && p.2.attend) (x.line l).nodes =
      some (m, x.node ⟨l, m⟩) := by
    refine find_lowest (·.1) (nodes_rising c l) listed (by simp [present, attend]) ?_
    rintro ⟨j, e⟩ hj hp
    rw [← node_of_listed c hj] at hp
    exact Nat.le_of_not_lt fun lt => low j lt (by simpa [marked] using hp)
  unfold handshakeCall
  rw [bringForward_line]
  dsimp only
  rw [List.find?_map]
  have same : (List.find? ((fun p : Nat × NodeEntry => decide (p.2.presence = .present) && p.2.attend) ∘
      fun p => (p.1, forwarded x.clock p.2)) (x.line l).nodes) = some (m, x.node ⟨l, m⟩) := found
  rw [same]
  cases hs : (x.node ⟨l, m⟩).step <;> simp [forwarded, hs]

theorem handshakeCall_none (h : ∀ j, ¬ x.marked ⟨l, j⟩) : (x.bringForward l).handshakeCall l = none := by
  unfold handshakeCall
  rw [bringForward_line, Option.map_eq_none_iff, List.find?_eq_none]
  intro p hp
  obtain ⟨⟨j, e⟩, hj, rfl⟩ := List.mem_map.mp hp
  have := h j
  rw [marked, node_of_listed c hj] at this
  simpa using this

omit c in
theorem readiness (a : Nat) : (decide ((((x.bringForward l).line l).nodes.readD {} a).presence = .present) &&
    !(((x.bringForward l).line l).nodes.readD {} a).attend) = true ↔ x.ready ⟨l, a⟩ := by
  have : ((x.bringForward l).line l).nodes.readD {} a = forwarded x.clock (x.node ⟨l, a⟩) := bringForward_node l a
  rw [this]
  simp [ready]

omit c in
theorem strokeAddress_first {before after : List Nat} (clear : x.supplyWarning = false)
    (queued : (x.line l).strokes = before ++ m :: after) (h : x.ready ⟨l, m⟩) (low : ∀ j ∈ before, ¬ x.ready ⟨l, j⟩) :
    (x.bringForward l).strokeAddress l = some m := by
  have off : (x.bringForward l).supplyWarning = false := by rw [bringForward_rest]; exact clear
  have same : ((x.bringForward l).line l).strokes = before ++ m :: after := by rw [bringForward_line]; exact queued
  unfold strokeAddress
  dsimp only
  rw [off, if_neg (by simp), same, List.find?_append, List.find?_eq_none.mpr fun j hj => low j hj ∘ (readiness j).mp,
    Option.none_or]
  exact List.find?_cons_of_pos ((readiness m).mpr h)

omit c in
theorem strokeAddress_none (h : x.supplyWarning = true ∨ ∀ j ∈ (x.line l).strokes, ¬ x.ready ⟨l, j⟩) :
    (x.bringForward l).strokeAddress l = none := by
  have warned : (x.bringForward l).supplyWarning = x.supplyWarning := by rw [bringForward_rest]
  have same : ((x.bringForward l).line l).strokes = (x.line l).strokes := by rw [bringForward_line]
  unfold strokeAddress
  dsimp only
  rw [warned]
  split
  · rfl
  · rename_i off
    rw [same]
    exact List.find?_eq_none.mpr fun j hj => (h.resolve_left off) j hj ∘ (readiness j).mp

/-- The DETAIL due times that the line compares. -/
theorem mem_details (j d : Nat) : ((j, d) ∈ ((x.bringForward l).line l).nodes.filterMap fun p =>
    if p.2.kind = .actuator ∧ p.2.presence = .present ∧ p.2.attend = false then p.2.detailDue.map fun d => (p.1, d)
    else none) ∧ clockReached x.clock d = true ↔ x.detailFrom ⟨l, j⟩ d := by
  rw [bringForward_line, List.mem_filterMap]
  simp only [List.mem_map, Option.ite_none_right_eq_some, detailFrom, ready]
  constructor
  · rintro ⟨⟨_, ⟨⟨i, e⟩, hi, rfl⟩, ⟨kind, present, attend⟩, due⟩, reached⟩
    obtain ⟨t, ht, pair⟩ := Option.map_eq_some_iff.mp due
    cases pair
    rw [node_of_listed c hi]
    exact ⟨kind, ⟨present, attend⟩, reached, ht⟩
  · rintro ⟨kind, ⟨present, attend⟩, reached, due⟩
    have listed := node_listed (l := l) (a := j) c fun e => by rw [e] at present; cases present
    exact ⟨⟨_, ⟨_, listed, rfl⟩, ⟨kind, present, attend⟩, Option.map_eq_some_iff.mpr ⟨d, due, rfl⟩⟩, reached⟩

theorem detailAddress_first (h : x.dueFirstAt (fun j => x.detailFrom ⟨l, j⟩) m) :
    (x.bringForward l).detailAddress l = some m := by
  obtain ⟨d, due, first⟩ := h
  have clock : (x.bringForward l).clock = x.clock := by rw [bringForward_rest]
  obtain ⟨mem, reached⟩ := (mem_details c m d).mpr due
  unfold detailAddress
  rw [clock]
  exact earliest_eq_some mem reached fun j t hj ht => first j t ((mem_details c j t).mp ⟨hj, ht⟩)

theorem detailAddress_none (h : ∀ j d, ¬ x.detailFrom ⟨l, j⟩ d) : (x.bringForward l).detailAddress l = none := by
  have clock : (x.bringForward l).clock = x.clock := by rw [bringForward_rest]
  unfold detailAddress
  rw [clock]
  exact earliest_eq_none fun j d hj hd => h j d ((mem_details c j d).mp ⟨hj, hd⟩)

/-- The SAMPLE due times that the line compares. -/
theorem mem_samples (j d : Nat) : ((j, d) ∈ ((x.bringForward l).line l).nodes.filterMap fun p =>
    if p.2.kind = .sensor ∧ (x.bringForward l).sampledFast ⟨l, p.1⟩ = true then some (p.1, p.2.sampleDue.getD x.clock)
    else none) ∧ clockReached x.clock d = true ↔ x.sampleFrom ⟨l, j⟩ d := by
  rw [bringForward_line, List.mem_filterMap]
  simp only [List.mem_map, Option.ite_none_right_eq_some, sampleFrom, bringForward_sampled, Option.some.injEq]
  constructor
  · rintro ⟨⟨_, ⟨⟨i, e⟩, hi, rfl⟩, ⟨kind, fast⟩, pair⟩, reached⟩
    cases pair
    rw [node_of_listed c hi]
    exact ⟨kind, fast, reached, rfl⟩
  · rintro ⟨kind, fast, reached, rfl⟩
    have listed := node_listed (l := l) (a := j) c fun e => by rw [e] at kind; cases kind
    exact ⟨⟨_, ⟨_, listed, rfl⟩, ⟨kind, fast⟩, rfl⟩, reached⟩

theorem sampleAddress_first (h : x.dueFirstAt (fun j => x.sampleFrom ⟨l, j⟩) m) :
    (x.bringForward l).sampleAddress l = some m := by
  obtain ⟨d, due, first⟩ := h
  have clock : (x.bringForward l).clock = x.clock := by rw [bringForward_rest]
  obtain ⟨mem, reached⟩ := (mem_samples c m d).mpr due
  unfold sampleAddress
  rw [clock]
  exact earliest_eq_some mem reached fun j t hj ht => first j t ((mem_samples c j t).mp ⟨hj, ht⟩)

theorem sampleAddress_none (h : ∀ j d, ¬ x.sampleFrom ⟨l, j⟩ d) : (x.bringForward l).sampleAddress l = none := by
  have clock : (x.bringForward l).clock = x.clock := by rw [bringForward_rest]
  unfold sampleAddress
  rw [clock]
  exact earliest_eq_none fun j d hj hd => h j d ((mem_samples c j d).mp ⟨hj, hd⟩)

/-- The addresses whose roll call is due, rising. -/
theorem rollQueue_rising : ((x.bringForward l).rollQueue l).Pairwise (· < ·) := by
  unfold rollQueue
  refine List.Pairwise.map _ (fun _ _ h => h) (List.Pairwise.filter _ ?_)
  rw [bringForward_line]
  exact List.Pairwise.map _ (fun _ _ h => h) (nodes_rising c l)

theorem mem_rollQueue (j : Nat) : j ∈ (x.bringForward l).rollQueue l ↔ x.rollFrom ⟨l, j⟩ := by
  have clock : (x.bringForward l).clock = x.clock := by rw [bringForward_rest]
  unfold rollQueue
  rw [bringForward_line]
  simp only [List.mem_map, List.mem_filter, Bool.and_eq_true, decide_eq_true_eq, Bool.not_eq_true', bringForward_sampled,
    clock, rollFrom]
  constructor
  · rintro ⟨_, ⟨⟨⟨i, e⟩, hi, rfl⟩, ⟨kind, fast⟩, due⟩, rfl⟩
    rw [node_of_listed c hi]
    refine ⟨kind, fast, ?_⟩
    cases hd : e.rollDue with
    | none => simp [hd] at due
    | some d => exact ⟨d, rfl, by simpa [hd] using due⟩
  · rintro ⟨kind, fast, d, hd, reached⟩
    have listed := node_listed (l := l) (a := j) c fun e => by rw [e] at kind; exact kind rfl
    refine ⟨_, ⟨⟨_, listed, rfl⟩, ⟨kind, fast⟩, ?_⟩, rfl⟩
    simp [hd, reached]

omit c in
theorem rollAddress_eq : (x.bringForward l).rollAddress l =
    match ((x.bringForward l).rollQueue l).find? fun a => decide ((x.line l).rollPointer < a) with
    | some a => some a
    | none => ((x.bringForward l).rollQueue l).head? := by
  have pointer : ((x.bringForward l).line l).rollPointer = (x.line l).rollPointer := by rw [bringForward_line]
  rw [← pointer]
  rfl

theorem rollAddress_first (h : x.rollFrom ⟨l, m⟩)
    (past : ((x.line l).rollPointer < m ∧ ∀ j, x.rollFrom ⟨l, j⟩ → (x.line l).rollPointer < j → m ≤ j) ∨
      ((∀ j, x.rollFrom ⟨l, j⟩ → j ≤ (x.line l).rollPointer) ∧ ∀ j, x.rollFrom ⟨l, j⟩ → m ≤ j)) :
    (x.bringForward l).rollAddress l = some m := by
  have rising := rollQueue_rising (l := l) c
  have due := mem_rollQueue (l := l) c
  rw [rollAddress_eq]
  generalize (x.bringForward l).rollQueue l = ns at *
  rcases past with ⟨above, low⟩ | ⟨below, low⟩
  · rw [find_lowest id rising ((due m).mpr h) (decide_eq_true above) fun j hj hp =>
      low j ((due j).mp hj) (of_decide_eq_true hp)]
  · rw [List.find?_eq_none.mpr fun j hj hp => absurd (of_decide_eq_true hp) (Nat.not_lt.mpr (below j ((due j).mp hj)))]
    have first := find_lowest id rising ((due m).mpr h) (p := fun _ => true) rfl fun j hj _ => low j ((due j).mp hj)
    dsimp only
    rw [← first]
    cases ns <;> rfl

theorem rollAddress_none (h : ∀ j, ¬ x.rollFrom ⟨l, j⟩) : (x.bringForward l).rollAddress l = none := by
  rw [rollAddress_eq, List.eq_nil_iff_forall_not_mem.mpr fun j hj => h j ((mem_rollQueue c j).mp hj)]
  rfl

end Classes

/-! The line as it starts a call. -/

theorem startCall_busy (h : ¬ ((x.line l).started = true ∧ (x.line l).onLine = none)) : x.startCall l = x := by
  unfold startCall
  refine if_pos ?_
  simpa [← Option.isSome_iff_ne_none, or_iff_not_imp_left] using h

variable (started : (x.line l).started = true) (idle : (x.line l).onLine = none)

include started idle

theorem startCall_broadcast {b : Broadcast} {bs : List Broadcast} (h : (x.line l).broadcasts = b :: bs) : x.startCall l =
    (x.bringForward l).modLine l fun y => { y with broadcasts := bs, onLine := some (.broadcast b) } := by
  unfold startCall
  simp only [started, idle, h, Option.isSome_none, reduceCtorEq, or_self, if_false]

theorem startCall_halt {ms : List Nat} (hb : (x.line l).broadcasts = []) (h : (x.line l).halts = m :: ms) : x.startCall l =
    (x.bringForward l).modLine l fun y => { y with halts := ms, onLine := some (.addressed m .halt 1) } := by
  unfold startCall
  simp only [started, idle, hb, h, Option.isSome_none, reduceCtorEq, or_self, if_false]

/-- With no broadcast and no HALT queued the classes from the handshake on are looked through. -/
theorem startCall_classes (hb : (x.line l).broadcasts = []) (hh : (x.line l).halts = []) : x.startCall l =
    match (x.bringForward l).handshakeCall l with
    | some c => (x.bringForward l).modLine l fun y => { y with onLine := some c }
    | none =>
      match (x.bringForward l).strokeAddress l with
      | some a => (x.bringForward l).modLine l fun y =>
          { y with strokes := y.strokes.erase a, onLine := some (.addressed a .stroke 3) }
      | none =>
        match (x.bringForward l).detailAddress l with
        | some a => (x.bringForward l).modLine l fun y => { y with onLine := some (.addressed a .detail 4) }
        | none =>
          match (x.bringForward l).sampleAddress l with
          | some a => (x.bringForward l).modLine l fun y => { y with onLine := some (.addressed a .sample 5) }
          | none =>
            match (x.bringForward l).rollAddress l with
            | none => x.bringForward l
            | some a => (x.bringForward l).modLine l fun y =>
                { y with
                  rollPointer := a
                  onLine := some (.addressed a (if (x.node ⟨l, a⟩).kind = .sensor then .sample else .poll) 6) } := by
  have kinds (a : Nat) : ((x.bringForward l).node ⟨l, a⟩).kind = (x.node ⟨l, a⟩).kind := by rw [bringForward_node]; rfl
  unfold startCall
  simp only [started, idle, hb, hh, Option.isSome_none, reduceCtorEq, or_self, if_false, kinds] <;> rfl

end Station

theorem exec_startCall (up : s.up) {t : Station} (h : s.st.startCall l = t) (quiet : t.outbox = []) :
    exec (.callStart l) s = .next { s with st := t } := by
  subst h
  exact exec_station_quiet up quiet

/-- An event that carries the clock to a due time, where one is set (log entry 11). -/
theorem exec_reachDue (up : s.up) {i : Instr} {due : Option Nat}
    (hi : exec i s = whileUp s (onStation fun x => x.reachDue due)) :
    (due = none → exec i s = .next s) ∧ ∀ d, due = some d →
      exec i s = .next { s with st := { s.st with clock := if clockReached s.st.clock d then s.st.clock else d } } := by
  rw [hi]
  refine ⟨fun none => ?_, fun d some => ?_⟩
  · exact exec_station_idle up (by rw [none]; rfl)
  · have carried : s.st.reachDue due = { s.st with clock := if clockReached s.st.clock d then s.st.clock else d } := by
      rw [some]
      exact Station.advanceTo_eq s.st d
    exact (exec_station_quiet (f := fun x => x.reachDue due) up (by rw [carried]; exact up.2)).trans
      (congrArg (fun t => Host.Outcome.next { s with st := t }) carried)

/-- Settles O50. -/
theorem aFreeLineStartsTheFirstClass : Obligations.AFreeLineStartsTheFirstClass := by
  unfold Obligations.AFreeLineStartsTheFirstClass
  constructor
  · intro s l up c x now e starts marked ready detail sample roll first free none3
    have quiet : (s.st.bringForward l).outbox = [] := by rw [Station.bringForward_rest]; exact up.2
    have started {f : FieldLine → FieldLine} (h : s.st.startCall l = (s.st.bringForward l).modLine l f) : starts f :=
      exec_startCall up h (by cases l <;> exact quiet)
    refine ⟨fun busy => exec_startCall up (Station.startCall_busy busy) up.2,
      fun b bs h hb => started (Station.startCall_broadcast h.1 h.2 hb),
      fun m ms h hb hh => started (Station.startCall_halt h.1 h.2 hb hh), ?_, ?_, ?_, ?_, ?_, ?_⟩
    · intro m h hb hh hm low
      refine started ((Station.startCall_classes h.1 h.2 hb hh).trans ?_)
      rw [Station.handshakeCall_first c hm low]
    · intro before m after h hb hh hm clear queued hr low
      refine started ((Station.startCall_classes h.1 h.2 hb hh).trans ?_)
      rw [Station.handshakeCall_none c hm, Station.strokeAddress_first clear queued hr low]
      have unqueued : ((s.st.bringForward l).line l).strokes.erase m = before ++ after := by
        rw [Station.bringForward_line]
        dsimp only
        rw [queued, List.erase_append_right _ fun mem => low m mem hr, List.erase_cons_head]
      rw [← unqueued]
      cases l <;> rfl
    · rintro m ⟨h, hb, hh, hm, hs⟩ due
      refine started ((Station.startCall_classes h.1 h.2 hb hh).trans ?_)
      rw [Station.handshakeCall_none c hm, Station.strokeAddress_none hs, Station.detailAddress_first c due]
    · rintro m ⟨h, hb, hh, hm, hs⟩ hd due
      refine started ((Station.startCall_classes h.1 h.2 hb hh).trans ?_)
      rw [Station.handshakeCall_none c hm, Station.strokeAddress_none hs, Station.detailAddress_none c hd,
        Station.sampleAddress_first c due]
    · rintro m ⟨h, hb, hh, hm, hs⟩ hd hp due past
      refine started ((Station.startCall_classes h.1 h.2 hb hh).trans ?_)
      rw [Station.handshakeCall_none c hm, Station.strokeAddress_none hs, Station.detailAddress_none c hd,
        Station.sampleAddress_none c hp, Station.rollAddress_first c due past]
    · rintro ⟨h, hb, hh, hm, hs⟩ hd hp hr
      refine exec_startCall up ((Station.startCall_classes h.1 h.2 hb hh).trans ?_) quiet
      rw [Station.handshakeCall_none c hm, Station.strokeAddress_none hs, Station.detailAddress_none c hd,
        Station.sampleAddress_none c hp, Station.rollAddress_none c hr]
  · intro s l a up e reaches
    exact ⟨exec_reachDue up rfl, exec_reachDue up rfl, exec_reachDue up rfl⟩

end Sys2Proof.Machine
end

section
/-! An answered call up to its delivery (R153): the call is complete, the node is PRESENT, its state is noted. -/

namespace Sys2Proof.Machine

variable {s : State} {x y : Station}

/-- An entry whose DETAIL is due, now if it was not due already. -/
def NodeEntry.asked (e : NodeEntry) (now : Nat) : NodeEntry := { e with detailDue := some (e.detailDue.getD now) }

namespace Station

/-- The entry of one node is `e`, and all else is as it was. -/
structure Noded (x y : Station) (n : Node) (e : NodeEntry) : Prop where
  rest : y = { x with lineA := y.lineA, lineB := y.lineB }
  canonical : y.canonical = true
  lines : ∀ l, ({ y.line l with nodes := [] } : FieldLine) = { x.line l with nodes := [] }
  nodes : ∀ m, y.node m = if m = n then e else x.node m

theorem Noded.refl (c : x.canonical = true) (n : Node) : Noded x x n (x.node n) where
  rest := rfl
  canonical := c
  lines _ := rfl
  nodes m := by split <;> simp_all

theorem Noded.modNode {n : Node} {e : NodeEntry} (h : Noded x y n e) (f : NodeEntry → NodeEntry) :
    Noded x (y.modNode n f) n (f e) where
  rest := by rw [modNode_lines, h.rest]
  canonical := canonical_modNode y h.canonical n f
  lines l := (line_modNode n f l).trans (h.lines l)
  nodes m := by
    rw [node_modNode h.canonical n m f, h.nodes, h.nodes, if_pos rfl]
    split <;> rfl

theorem modNode_noded (c : x.canonical = true) (n : Node) (f : NodeEntry → NodeEntry) :
    Noded x (x.modNode n f) n (f (x.node n)) := (Noded.refl c n).modNode f

/-- The line is free. -/
def freed (x : Station) (l : Line) : Station := x.modLine l fun y => { y with onLine := none }

theorem freed_canonical (c : x.canonical = true) (l : Line) : (x.freed l).canonical = true :=
  canonical_modLine l _ (fun _ h => h) c

theorem freed_rest (l : Line) : x.freed l = { x with lineA := (x.freed l).lineA, lineB := (x.freed l).lineB } := by
  cases l <;> rfl

theorem freed_line (l k : Line) : (x.freed l).line k = if k = l then { x.line k with onLine := none } else x.line k := by
  cases l <;> cases k <;> rfl

theorem freed_node (l : Line) (n : Node) : (x.freed l).node n = x.node n := by
  obtain ⟨k, a⟩ := n
  cases l <;> cases k <;> rfl

/-- The entry of a node of a kind when a call of it has completed (R147, R158, R159). -/
def calledEntry (x : Station) (n : Node) (call : CallKind) (cls : Nat) : NodeEntry :=
  { x.node n with
    rollDue := some (clockAfter x.clock (rollPeriod x.nt.timing))
    sampleDue := if cls = 5 ∧ x.sampledFast n = true then some (clockAfter x.clock 10) else (x.node n).sampleDue
    detailDue := if call = .detail then none else (x.node n).detailDue }

theorem completeCall_eq (n : Node) (cls : Nat) : x.completeCall n cls =
    if (x.node n).kind = .none then x.freed n.line
    else (x.freed n.line).modNode n fun e =>
      { e with
        rollDue := some (clockAfter x.clock (rollPeriod x.nt.timing))
        sampleDue := if cls = 5 ∧ x.sampledFast n = true then some (clockAfter x.clock 10) else e.sampleDue } := by
  have fast : (x.freed n.line).sampledFast n = x.sampledFast n := by rw [freed_rest]; rfl
  have clock : (x.freed n.line).clock = x.clock := by rw [freed_rest]
  have net : (x.freed n.line).nt = x.nt := by rw [freed_rest]
  rw [← fast, ← clock, ← net, ← freed_node n.line n]
  rfl

theorem completed_noded (c : x.canonical = true) {n : Node} (kind : (x.node n).kind ≠ .none) (call : CallKind) (cls : Nat) :
    Noded (x.freed n.line) ((x.completeCall n cls).clearDetailDue n call) n (x.calledEntry n call cls) := by
  have done := modNode_noded (freed_canonical c n.line) n fun e =>
      { e with
        rollDue := some (clockAfter x.clock (rollPeriod x.nt.timing))
        sampleDue := if cls = 5 ∧ x.sampledFast n = true then some (clockAfter x.clock 10) else e.sampleDue }
  rw [freed_node] at done
  rw [completeCall_eq, if_neg kind]
  unfold clearDetailDue calledEntry
  split
  · exact done.modNode fun e => { e with detailDue := none }
  · exact done

/-- A class derived again changes a class kept and the mark of the flight alone. -/
theorem refreshClass_rest (c : x.canonical = true) (v : Nat) :
    x.refreshClass v = { x with vs := (x.refreshClass v).vs, ip := (x.refreshClass v).ip } ∧
    (x.refreshClass v).canonical = true ∧
    ∀ w, ({ (x.refreshClass v).vsOf w with kept := none } : VsRec) = { x.vsOf w with kept := none } := by
  have canonical : (x.refreshClass v).canonical = true := ((Works.refl x).refreshClass v).canon c
  cases hr : x.valve? v with
  | none =>
    have none_ : usability? x v = none := by unfold usability?; rw [hr]
    have same : x.refreshClass v = x := by unfold refreshClass; rw [none_]
    rw [same]
    exact ⟨rfl, c, fun _ => rfl⟩
  | some r =>
    obtain ⟨-, here, others, -, rest⟩ := refreshClass_changes c hr
    refine ⟨rest, canonical, fun w => ?_⟩
    by_cases hw : w = v
    · rw [hw]; exact here
    · rw [others w hw]

/-- What is heard of a node leaves: the entries of nodes but for a DETAIL asked for, the records of valves but for their
class and position request. -/
structure Heard (x y : Station) (n : Node) (e : NodeEntry) : Prop where
  rest : y = { x with vs := y.vs, ip := y.ip, lineA := y.lineA, lineB := y.lineB, outbox := y.outbox }
  canonical : y.canonical = true
  lines : ∀ l, ({ y.line l with nodes := [] } : FieldLine) = { x.line l with nodes := [] }
  node : y.node n = e ∨ y.node n = e.asked x.clock
  nodes : ∀ m, m ≠ n → y.node m = x.node m ∨ y.node m = (x.node m).asked x.clock
  vs : ∀ w, ({ y.vsOf w with request := false, kept := none } : VsRec) = { x.vsOf w with request := false, kept := none }

/-- And nothing is asked for of a node that was PRESENT. -/
structure Calm (x y : Station) (n : Node) (e : NodeEntry) : Prop extends Heard x y n e where
  here : y.node n = e
  there : ∀ m, m ≠ n → y.node m = x.node m
  requests : ∀ w, ({ y.vsOf w with kept := none } : VsRec) = { x.vsOf w with kept := none }

theorem Noded.calm {n : Node} {e : NodeEntry} (h : Noded x y n e) : Calm x y n e := by
  have vs (w : Nat) : y.vsOf w = x.vsOf w := by rw [h.rest]; rfl
  have here : y.node n = e := (h.nodes n).trans (if_pos rfl)
  have there (m : Node) (hm : m ≠ n) : y.node m = x.node m := (h.nodes m).trans (if_neg hm)
  exact
    { rest := by rw [h.rest], canonical := h.canonical, lines := h.lines, node := .inl here
      nodes := fun m hm => .inl (there m hm), vs := fun w => by rw [vs], here, there, requests := fun w => by rw [vs] }

section Steps

variable {n : Node} {e : NodeEntry}

theorem Heard.post (h : Heard x y n e) (t : Notice) : Heard x (y.post t) n e where
  rest := by rw [h.rest]; rfl
  canonical := h.canonical
  lines l := (by cases l <;> rfl : (y.post t).line l = y.line l) ▸ h.lines l
  node := h.node
  nodes := h.nodes
  vs := h.vs

theorem Calm.post (h : Calm x y n e) (t : Notice) : Calm x (y.post t) n e :=
  { h.toHeard.post t with here := h.here, there := h.there, requests := h.requests }

theorem Heard.refreshClass (h : Heard x y n e) (v : Nat) : Heard x (y.refreshClass v) n e := by
  obtain ⟨rest, canonical, vs⟩ := refreshClass_rest h.canonical v
  generalize y.refreshClass v = z at *
  have node (m : Node) : z.node m = y.node m := by rw [rest]; rfl
  exact
    { rest := by rw [rest, h.rest], canonical
      lines := fun l => by
        have : z.line l = y.line l := by rw [rest]; cases l <;> rfl
        rw [this, h.lines]
      node := by rw [node]; exact h.node
      nodes := fun m => by rw [node]; exact h.nodes m
      vs := fun w => (congrArg (fun d : VsRec => { d with request := false }) (vs w)).trans (h.vs w) }

theorem Calm.refreshClass (h : Calm x y n e) (v : Nat) : Calm x (y.refreshClass v) n e := by
  obtain ⟨rest, -, vs⟩ := refreshClass_rest h.canonical v
  have node (m : Node) : (y.refreshClass v).node m = y.node m := by rw [rest]; rfl
  exact
    { h.toHeard.refreshClass v with
      here := by rw [node]; exact h.here
      there := fun m => by rw [node]; exact h.there m
      requests := fun w => (vs w).trans (h.requests w) }

theorem Heard.requestPosition (h : Calm x y n e) (v : Nat) : Heard x (y.requestPosition v) n e := by
  cases hm : y.nodeOf? v with
  | none =>
    have : y.requestPosition v = y := by unfold Station.requestPosition; rw [hm]
    rw [this]
    exact h.toHeard
  | some m =>
    obtain ⟨rest, canonical, record, others, lines, node, nodes⟩ := requestPosition_asked h.canonical hm
    have clock : y.clock = x.clock := by rw [h.rest]
    generalize y.requestPosition v = z at *
    have asks (k : Node) : z.node k = y.node k ∨ z.node k = (y.node k).asked x.clock := by
      by_cases hk : k = m
      · rw [hk, node, clock]
        split
        · exact .inr rfl
        · exact .inl rfl
      · exact .inl (nodes k hk)
    exact
      { rest := by rw [rest, h.rest], canonical
        lines := fun l => (lines l).trans (h.lines l)
        node := h.here ▸ asks n
        nodes := fun k hk => h.there k hk ▸ asks k
        vs := fun w => by
          by_cases hw : w = v
          · rw [hw, record]; exact h.vs v
          · rw [others w hw]; exact h.vs w }

/-- What is done to the node's entry next, where that keeps the due time or asks for a DETAIL. -/
theorem Heard.modNode (h : Heard x y n e) (f : NodeEntry → NodeEntry) (hf : f (e.asked x.clock) = (f e).asked x.clock) :
    Heard x (y.modNode n f) n (f e) where
  rest := by rw [modNode_lines, h.rest]
  canonical := canonical_modNode y h.canonical n f
  lines l := (line_modNode n f l).trans (h.lines l)
  node := by
    rw [node_modNode h.canonical n n f, if_pos rfl]
    rcases h.node with e | e <;> rw [e]
    · exact .inl rfl
    · exact .inr hf
  nodes m hm := by
    rw [node_modNode h.canonical n m f, if_neg hm]
    exact h.nodes m hm
  vs w := by
    rw [modNode_lines]
    exact h.vs w

theorem Calm.modNode (h : Calm x y n e) (f : NodeEntry → NodeEntry) (hf : f (e.asked x.clock) = (f e).asked x.clock) :
    Calm x (y.modNode n f) n (f e) :=
  { h.toHeard.modNode f hf with
    here := by rw [node_modNode h.canonical n n f, if_pos rfl, h.here]
    there := fun m hm => by rw [node_modNode h.canonical n m f, if_neg hm, h.there m hm]
    requests := fun w => by
      rw [modNode_lines]
      exact h.requests w }

theorem noteState_asked (now : Nat) (call : CallKind) (cls : Nat) (st : AnswerState) (e : NodeEntry) :
    noteState now call cls st (e.asked now) = (noteState now call cls st e).asked now := by
  unfold noteState NodeEntry.asked
  dsimp only
  generalize decide (st = AnswerState.fault ∧ e.kind = NodeKind.actuator ∧ call ≠ CallKind.detail) = faulty
  cases faulty <;> rfl

end Steps

/-- The entry of a node whose answer has been heard (R153, R156, R160). -/
def heardEntry (x : Station) (n : Node) (call : CallKind) (cls : Nat) (st : AnswerState) : NodeEntry :=
  noteState x.clock call cls st { x.calledEntry n call cls with misses := 0, presence := .present }

/-- An answer up to its delivery. -/
def heard (x : Station) (n : Node) (call : CallKind) (cls : Nat) (st : AnswerState) : Station :=
  (((x.completeCall n cls).clearDetailDue n call).takePresence n).takeState n call cls st

theorem requestPosition_outbox (v : Nat) : (x.requestPosition v).outbox = x.outbox := by
  unfold requestPosition
  split
  · rfl
  · split
    · rw [modNode_lines]
      rfl
    · rfl

theorem takePresence_heard {n : Node} {e : NodeEntry} (h : Noded x y n e) :
    Heard x (y.takePresence n) n { e with misses := 0, presence := .present } ∧
    (e.presence = .present → Calm x (y.takePresence n) n { e with misses := 0, presence := .present }) ∧
    (y.takePresence n).outbox = x.outbox ++
      (if e.presence = .absent then [{ kind := .nodePresent, clock := x.clock / 10, node := some n }] else []) := by
  have before : (y.node n).presence = e.presence := by rw [h.nodes, if_pos rfl]
  have seen : Calm x (y.modNode n fun e => { e with misses := 0, presence := .present }) n
      { e with misses := 0, presence := .present } := (h.modNode fun e => { e with misses := 0, presence := .present }).calm
  have box : (y.modNode n fun e => { e with misses := 0, presence := .present }).outbox = x.outbox := by
    rw [modNode_lines, h.rest]
  have box1 : ((y.modNode n fun e => { e with misses := 0, presence := .present }).post
      { kind := .nodePresent, node := some n }).outbox =
      x.outbox ++ [{ kind := .nodePresent, clock := x.clock / 10, node := some n }] := by
    have clock : (y.modNode n fun e => { e with misses := 0, presence := .present }).clock = x.clock := by
      rw [modNode_lines, h.rest]
    rw [← box, ← clock]
    rfl
  have noted := seen.post { kind := .nodePresent, node := some n }
  unfold takePresence
  dsimp only
  rw [before]
  generalize (y.modNode n fun e => { e with misses := 0, presence := .present }) = t at *
  have found {u : Station} (h : Calm x u n { e with misses := 0, presence := .present }) (v : Nat) :
      Heard x (u.nodeFound v) n { e with misses := 0, presence := .present } ∧ (u.nodeFound v).outbox = u.outbox := by
    unfold nodeFound
    dsimp only
    split
    · have asked := Heard.requestPosition h v
      refine ⟨asked.refreshClass v, ?_⟩
      rw [(refreshClass_rest asked.canonical v).1]
      exact requestPosition_outbox v
    · refine ⟨h.toHeard.refreshClass v, ?_⟩
      rw [(refreshClass_rest h.canonical v).1]
  by_cases absent : e.presence = .absent
  · simp only [absent, if_true, reduceCtorEq, if_false, false_implies, true_and]
    split
    · rename_i v _
      exact ⟨(found noted v).1, (found noted v).2.trans box1⟩
    · exact ⟨noted.toHeard, box1⟩
  · simp only [absent, if_false, List.append_nil]
    split
    · rename_i v _
      split
      · exact ⟨seen.toHeard, fun _ => seen, box⟩
      · rename_i fresh
        exact ⟨(found seen v).1, fun h => absurd h fresh, (found seen v).2.trans box⟩
    · exact ⟨seen.toHeard, fun _ => seen, box⟩

theorem heard_spec (c : x.canonical = true) {n : Node} (kind : (x.node n).kind ≠ .none) (call : CallKind) (cls : Nat)
    (st : AnswerState) :
    Heard (x.freed n.line) (x.heard n call cls st) n (x.heardEntry n call cls st) ∧
    ((x.node n).presence = .present → Calm (x.freed n.line) (x.heard n call cls st) n (x.heardEntry n call cls st)) ∧
    (x.heard n call cls st).outbox = x.outbox ++
      (if (x.node n).presence = .absent then [{ kind := .nodePresent, clock := x.clock / 10, node := some n }] else []) := by
  obtain ⟨present, calm, box⟩ := takePresence_heard (completed_noded c kind call cls)
  have pres : (x.calledEntry n call cls).presence = (x.node n).presence := rfl
  have net : (x.freed n.line).clock = x.clock ∧ (x.freed n.line).outbox = x.outbox := by
    rw [freed_rest]
    exact ⟨rfl, rfl⟩
  obtain ⟨clock, out⟩ := net
  rw [pres] at calm
  rw [pres, clock, out] at box
  unfold heard takeState
  generalize ((x.completeCall n cls).clearDetailDue n call).takePresence n = u at *
  have now : u.clock = (x.freed n.line).clock := by rw [present.rest]
  have asked := noteState_asked (x.freed n.line).clock call cls st
  have entry : x.heardEntry n call cls st = noteState (x.freed n.line).clock call cls st
    { x.calledEntry n call cls with misses := 0, presence := .present } := by rw [clock]; rfl
  rw [now, entry]
  have noted := present.modNode (noteState (x.freed n.line).clock call cls st) (asked _)
  have still (h : (x.node n).presence = .present) :=
    (calm h).modNode (noteState (x.freed n.line).clock call cls st) (asked _)
  have box1 : (u.modNode n (noteState (x.freed n.line).clock call cls st)).outbox = u.outbox := by rw [modNode_lines]
  rw [← box, ← box1]
  generalize (u.modNode n (noteState (x.freed n.line).clock call cls st)) = t at *
  dsimp only
  split
  · rename_i v _
    refine ⟨noted.refreshClass v, fun h => (still h).refreshClass v, ?_⟩
    rw [(refreshClass_rest noted.canonical v).1]
  · exact ⟨noted, still, rfl⟩

/-- An answer that is no handshake's, of a call that is no DETAIL, is delivered and no more. -/
theorem takeAnswer_delivered {n : Node} {call : CallKind} {cls : Nat} (handshake : cls ≠ 2) (detail : call ≠ .detail)
    (a : Answer) : x.takeAnswer n call cls a = (x.heard n call cls a.state).deliver n call a := by
  have none_ (y : Station) (prev : Option Nat) : y.rearmAfter n call prev = y := by
    cases call <;> first | rfl | exact absurd rfl detail
  unfold takeAnswer
  dsimp only
  rw [none_, if_neg handshake]
  rfl

theorem freed_keeps (l : Line) : x.Keeps (x.freed l) where
  clock := by rw [freed_rest]
  storage := by rw [freed_rest]
  warning := by rw [freed_rest]
  network := by rw [freed_rest]
  freeList := by rw [freed_rest]
  posted := ⟨[], by rw [freed_rest, List.append_nil]⟩
  canonical c := freed_canonical c l
  factors h := by rw [freed_rest]; exact h

theorem Heard.keeps {n : Node} {e : NodeEntry} (h : Heard x y n e) (posted : ∃ ns, y.outbox = x.outbox ++ ns) : x.Keeps y where
  clock := by rw [h.rest]
  storage := by rw [h.rest]
  warning := by rw [h.rest]
  network := by rw [h.rest]
  freeList := by rw [h.rest]
  posted
  canonical _ := h.canonical
  factors f := by rw [h.rest]; exact f

/-- What hearing of a node leaves alone altogether. -/
theorem heard_rest (c : x.canonical = true) {n : Node} (kind : (x.node n).kind ≠ .none) (call : CallKind) (cls : Nat)
    (st : AnswerState) : x.Keeps (x.heard n call cls st) ∧ x.heard n call cls st =
      { x with
        vs := (x.heard n call cls st).vs, ip := (x.heard n call cls st).ip, lineA := (x.heard n call cls st).lineA
        lineB := (x.heard n call cls st).lineB, outbox := (x.heard n call cls st).outbox } := by
  obtain ⟨h, -, box⟩ := heard_spec c kind call cls st
  have freed := freed_keeps (x := x) n.line
  have same := freed_rest (x := x) n.line
  have keeps : (x.freed n.line).Keeps (x.heard n call cls st) := h.keeps ⟨_, by rw [box, same]⟩
  exact ⟨freed.trans keeps, by rw [h.rest, same]⟩

end Station

/-- An answer that stands is taken for the call on the line (R153). -/
theorem exec_answerTaken (up : s.up) {l : Line} {a cls : Nat} {call : CallKind} (line : (s.st.line l).onLine =
    some (.addressed a call cls)) {bytes : List Byte} {ans : Answer} (kind : (s.st.node ⟨l, a⟩).kind ≠ .none)
    (stands : readAnswer? a call (s.st.node ⟨l, a⟩).kind bytes = some ans) : exec (.answerReceived l bytes) s =
      .next (takePostings { s with st := (s.st.takeAnswer ⟨l, a⟩ call cls ans).decideAll }) := by
  have taken : s.st.answerArrives l bytes = s.st.takeAnswer ⟨l, a⟩ call cls ans := by
    unfold Station.answerArrives
    rw [line]
    dsimp only
    rw [if_neg kind, stands]
  rw [← taken]
  exact exec_motion (fun x => x.answerArrives l bytes) s up

end Sys2Proof.Machine
end

section
/-! The answers to a STROKE call, and a DETAIL answer in MOVING (R119 to R121). -/

namespace Sys2Proof.Machine

variable {s : State} {x y : Station}

/-- In a list searched by a key, one element is rewritten. -/
theorem find_rewritten {α : Type} (key : α → Nat) (f : α → α) (hf : ∀ a, key (f a) = key a) (v w : Nat) (xs : List α) :
    (xs.map fun a => if key a = v then f a else a).find? (fun a => decide (key a = w)) =
      if w = v then (xs.find? fun a => decide (key a = v)).map f else xs.find? fun a => decide (key a = w) := by
  induction xs with
  | nil => simp
  | cons a xs ih =>
    rw [List.map_cons, List.find?_cons, List.find?_cons, List.find?_cons, ih]
    by_cases ha : key a = v <;> by_cases hw : w = v
    · simp [ha, hw, hf]
    · simp [ha, hw, hf, Ne.symm hw]
    · simp [ha, hw]
    · simp [ha, hw]

namespace Station

theorem stroke_modStroke (v w : Nat) (f : Stroke → Stroke) (hf : ∀ r, (f r).valve = r.valve) :
    (x.modStroke v f).stroke? w = if w = v then (x.stroke? v).map f else x.stroke? w :=
  find_rewritten Stroke.valve f hf v w x.md.strokes

theorem usablePosition_iff (a : DetailAnswer) : usablePosition a = true ↔ a.faults.getLsbD 3 = false ∧ a.percent ≤ 100 := by
  unfold usablePosition storedFaults
  by_cases high : 100 < a.percent
  · simp [high, show ¬ a.percent ≤ 100 by omega]
  · simp [high, show a.percent ≤ 100 by omega]

/-- The percent lies within tolerance of the target of a stroke (R121). -/
theorem withinTolerance_iff (target percent : Nat) : withinTolerance target percent = true ↔
    if target = 0 then percent ≤ 2 else if target = 100 then 98 ≤ percent
      else target ≤ percent + 2 ∧ percent ≤ target + 2 := by
  unfold withinTolerance
  split
  · simp
  · split <;> simp

/-- A stroke accepted is in MOVING (R119). -/
def moving (r : Stroke) (now : Nat) : Stroke :=
  { r with phase := .moving, accepted := some now, timeout := some (strokeTimeout r.time), overCount := 0, missedSending := false }

/-- What an accepted stroke leaves, before an end already decided sends it on to HALTING. -/
structure Accepted (x y : Station) (r : Stroke) (n : Node) : Prop where
  canonical : y.canonical = true
  strokes : ∀ w, y.stroke? w = if w = r.valve then some (moving r x.clock) else x.stroke? w
  position : (y.vsOf r.valve).position = match (x.vsOf r.valve).percent with
    | some p => if r.target < p then .closing else .opening
    | none => if r.target = 0 then .closing else .opening
  percent : (y.vsOf r.valve).percent = (x.vsOf r.valve).percent
  due : (y.node n).detailDue = some (clockAfter x.clock 5)
  others : ∀ w, w ≠ r.valve → y.vsOf w = x.vsOf w
  moves : x.Moves y

/-- The acceptance of a stroke. -/
def accepting (x : Station) (r : Stroke) (n : Node) : Station :=
  ((x.modStroke r.valve fun q =>
    { q with phase := .moving, accepted := some x.clock, timeout := some (strokeTimeout q.time), overCount := 0
             missedSending := false }).reposition r.valve fun d =>
      { d with position := match d.percent with
        | some p => if r.target < p then .closing else .opening
        | none => if r.target = 0 then .closing else .opening }).modNode n fun e =>
    { e with detailDue := some (clockAfter x.clock 5) }

theorem accepting_accepted (c : x.canonical = true) {r : Stroke} {n : Node} (hr : x.stroke? r.valve = some r)
    (hn : x.nodeOf? r.valve = some n) : Accepted x (x.accepting r n) r n := by
  obtain ⟨old, hv, -⟩ := nodeOf_eq_some.mp hn
  have moves : x.Moves (x.accepting r n) := by
    have framed : Frame 3 x (x.accepting r n) := by
      unfold accepting
      refine Frame.modNode n _ (Frame.reposition r.valve _ ?_ fun d => rfl) (fun _ => rfl) fun _ => rfl
      exact (Frame.refl x).modStroke r.valve _
    exact framed.moves (le_refl 3)
  unfold accepting at *
  have strokes (w : Nat) := stroke_modStroke (x := x) r.valve w (fun q =>
    { q with phase := .moving, accepted := some x.clock, timeout := some (strokeTimeout q.time), overCount := 0
             missedSending := false }) fun _ => rfl
  have c1 : (x.modStroke r.valve fun q =>
    { q with phase := .moving, accepted := some x.clock, timeout := some (strokeTimeout q.time), overCount := 0
             missedSending := false }).canonical = true := c
  have base : (x.modStroke r.valve fun q =>
    { q with phase := .moving, accepted := some x.clock, timeout := some (strokeTimeout q.time), overCount := 0
             missedSending := false }) = { x with md := (x.modStroke r.valve fun q =>
    { q with phase := .moving, accepted := some x.clock, timeout := some (strokeTimeout q.time), overCount := 0
             missedSending := false }).md } := rfl
  generalize (x.modStroke r.valve fun q =>
    { q with phase := .moving, accepted := some x.clock, timeout := some (strokeTimeout q.time), overCount := 0
             missedSending := false }) = t at *
  have hv1 : t.valve? r.valve = some old := by rw [base]; exact hv
  have vs (w : Nat) : t.vsOf w = x.vsOf w := by rw [base]; rfl
  obtain ⟨rest, canonical, record, others⟩ := reposition_repositioned c1 hv1 fun d =>
      { d with position := match d.percent with
        | some p => if r.target < p then .closing else .opening
        | none => if r.target = 0 then .closing else .opening }
  rw [vs] at record
  generalize (t.reposition r.valve fun d =>
      { d with position := match d.percent with
        | some p => if r.target < p then .closing else .opening
        | none => if r.target = 0 then .closing else .opening }) = u at *
  have nodes (m : Node) := node_modNode canonical n m fun e => { e with detailDue := some (clockAfter x.clock 5) }
  have lines := modNode_lines u n fun e => { e with detailDue := some (clockAfter x.clock 5) }
  have whole := canonical_modNode u canonical n fun e => { e with detailDue := some (clockAfter x.clock 5) }
  generalize (u.modNode n fun e => { e with detailDue := some (clockAfter x.clock 5) }) = y at *
  have records (w : Nat) : y.vsOf w = u.vsOf w := by rw [lines]; rfl
  exact
    { canonical := whole, moves
      strokes := fun w => by
        have : y.stroke? w = t.stroke? w := by rw [lines, rest]; rfl
        rw [this, strokes, hr]
        rfl
      position := by rw [records, record]
      percent := by rw [records, record]
      due := by rw [nodes, if_pos rfl]
      others := fun w hw => by rw [records, others w hw, vs] }

theorem acceptStroke_eq {r : Stroke} {n : Node} (c : x.canonical = true) (hn : x.nodeOf? r.valve = some n) :
    (x.accepting r n).nodeOf? r.valve = some n ∧
    x.acceptStroke r = if r.pendingEnd.isSome then (x.accepting r n).toHalting r else x.accepting r n := by
  obtain ⟨old, hv, -⟩ := nodeOf_eq_some.mp hn
  have c1 : (x.modStroke r.valve fun q =>
    { q with phase := .moving, accepted := some x.clock, timeout := some (strokeTimeout q.time), overCount := 0
             missedSending := false }).canonical = true := c
  obtain ⟨rest, -, -, -⟩ := reposition_repositioned c1 (r := old) hv fun d =>
      { d with position := match d.percent with
        | some p => if r.target < p then .closing else .opening
        | none => if r.target = 0 then .closing else .opening }
  unfold acceptStroke accepting
  dsimp only
  generalize ((x.modStroke r.valve fun q =>
    { q with phase := .moving, accepted := some x.clock, timeout := some (strokeTimeout q.time), overCount := 0
             missedSending := false }).reposition r.valve fun d =>
      { d with position := match d.percent with
        | some p => if r.target < p then .closing else .opening
        | none => if r.target = 0 then .closing else .opening }) = u at *
  have there : u.nodeOf? r.valve = some n := by rw [rest]; exact hn
  have clock : u.clock = x.clock := by rw [rest]; rfl
  rw [there, clock]
  refine ⟨?_, rfl⟩
  rw [modNode_lines]
  exact there

theorem toHalting_eq {r : Stroke} {n : Node} {e : StrokeEnd} (he : r.pendingEnd = some e) (hn : x.nodeOf? r.valve = some n) :
    x.toHalting r = if e = .halted .supply ∧ r.supplyWait ≠ 0 then x.modStroke r.valve fun q => { q with phase := .halting }
      else (x.modStroke r.valve fun q => { q with phase := .halting }).modLine n.line
        fun q => { q with halts := q.halts ++ [n.address] } := by
  have there : (x.modStroke r.valve fun q => { q with phase := .halting }).nodeOf? r.valve = some n := hn
  have needs : needsHalt r = true ↔ ¬ (e = .halted .supply ∧ r.supplyWait ≠ 0) := by
    simp only [needsHalt, he, decide_eq_true_eq, ne_eq, Option.some.injEq, not_and_or, not_not]
  unfold toHalting queueHalt
  dsimp only
  rw [there]
  by_cases left : e = .halted .supply ∧ r.supplyWait ≠ 0
  · rw [if_pos left, if_neg fun h => needs.mp h left]
  · rw [if_neg left, if_pos (needs.mpr left)]

theorem takeStrokeAnswer_eq {r : Stroke} {v : Nat} (hr : x.stroke? v = some r) (phase : r.phase = .sending) (n : Node)
    (code : Nat) : x.takeStrokeAnswer n v code =
      let y := if code = 1 then x.modNode n fun e => { e with attend := true, step := .needDetail } else x
      if code = 0 ∨ (code = 3 ∧ r.missedSending) then y.acceptStroke r
      else if r.pendingEnd.isSome then y.toHalting r
      else if code = 2 then endStroke false y r (.failed .localMode)
      else if r.sendings = 2 then endStroke false y r (.failed .nodeFault)
      else if code = 1 then y.modStroke v fun q => { q with awaitsHandshake := true, missedSending := false }
      else (y.modStroke v fun q => { q with awaitsDetail := true, missedSending := false }).modNode n fun e =>
        { e with detailDue := some y.clock } := by
  unfold takeStrokeAnswer
  rw [hr]
  dsimp only
  rw [if_neg (by simp [phase])]

theorem missStroke_eq {r : Stroke} {v : Nat} (hr : x.stroke? v = some r) (phase : r.phase = .sending) (n : Node) :
    x.missStroke n v = if r.pendingEnd.isSome then x.toHalting r
      else (x.modStroke v fun q => { q with missedSending := true }).modLine n.line
        fun q => { q with strokes := n.address :: q.strokes } := by
  unfold missStroke
  rw [hr]
  dsimp only
  rw [if_neg (by simp [phase])]

theorem judgeStroke_eq {r : Stroke} {v : Nat} {z : Valve} (hr : x.stroke? v = some r) (hz : x.valve? v = some z)
    (a : DetailAnswer) : x.judgeStroke v a =
      if r.phase ≠ .moving then x
      else if a.state = .fault then endStroke false x r (.failed .nodeFault)
      else if a.localMark then endStroke false x r (.failed .localMode)
      else match a.state with
        | .attend => endStroke false x r (.halted .clear)
        | .ready =>
          if usablePosition a = false then endStroke false x r (.failed .nodeFault)
          else if withinTolerance r.target a.percent then endStroke false x r .completed
          else endStroke false x r (.failed .shortStroke)
        | _ =>
          if x.nt.timing.window ≤ countAfter r.overCount a.torque z.stall then
            (x.modStroke v fun q => { q with overCount := countAfter r.overCount a.torque z.stall }).decideHalt v
              (.failed .stall)
          else x.modStroke v fun q => { q with overCount := countAfter r.overCount a.torque z.stall } := by
  unfold judgeStroke
  rw [hr, hz]
  rfl

end Station

/-- Settles O35. -/
theorem answersMoveAndJudgeAStroke : Obligations.AnswersMoveAndJudgeAStroke := by
  unfold Obligations.AnswersMoveAndJudgeAStroke
  refine ⟨?_, ?_, ?_⟩
  · intro s l a cls v bytes ans code up c line handshake occupied kind stands payload
    have some_ : (s.st.node ⟨l, a⟩).kind ≠ .none := by rw [kind]; nofun
    obtain ⟨keeps, rest⟩ := Station.heard_rest c some_ .stroke cls ans.state
    refine ⟨s.st.heard ⟨l, a⟩ .stroke cls ans.state, keeps, by rw [rest], by rw [rest], by rw [rest], ?_⟩
    rw [exec_answerTaken up line some_ (by rw [kind]; exact stands),
      Station.takeAnswer_delivered (call := .stroke) handshake (by nofun)]
    have there : (s.st.heard ⟨l, a⟩ .stroke cls ans.state).occupant? ⟨l, a⟩ = some (.valve v) := by
      rw [rest]; exact occupied
    unfold Station.deliver
    rw [there]
    dsimp only
    rw [payload]
  · intro s v n r c hr hv hn phase marked halting
    subst hv
    have answer := Station.takeStrokeAnswer_eq hr phase n
    have missed := Station.missStroke_eq hr phase n
    have halts {y : Station} (e : StrokeEnd) (he : r.pendingEnd = some e) (h : y.nodeOf? r.valve = some n) :
        halting e y (y.toHalting r) := Station.toHalting_eq he h
    have atMarked : marked.nodeOf? r.valve = some n := by
      have : marked = { s with lineA := marked.lineA, lineB := marked.lineB } := Station.modNode_lines s n _
      rw [this]
      exact hn
    refine ⟨fun code taken none_ => ?_, fun none_ => ?_, fun e he => ?_⟩
    · intro x
      have eq : x = s.accepting r n := by
        show s.takeStrokeAnswer n r.valve code = _
        have unmarked : code ≠ 1 := by omega
        rw [answer]
        dsimp only
        rw [if_pos taken, if_neg unmarked, (Station.acceptStroke_eq c hn).2, none_]
        rfl
      obtain ⟨-, strokes, position, percent, due, others, moves⟩ := Station.accepting_accepted c hr hn
      rw [eq]
      exact ⟨(strokes _).trans (if_pos rfl), position, percent, due,
        fun w hw => ⟨others w hw, (strokes w).trans (if_neg hw)⟩, moves⟩
    · refine ⟨?_, fun twice => ?_, fun twice none2 => ?_, fun once => ?_, fun once none2 => ?_, ?_⟩
      · rw [answer]; simp [none_]
      · rw [answer]; simp [none_, twice, marked]
      · rw [answer]; simp [none_, twice, none2]
      · rw [answer]; simp [none_, once, marked]
      · rw [answer]; simp [none_, once, none2]
      · rw [missed]; simp [none_]
    · have decided : r.pendingEnd.isSome = true := by rw [he]; rfl
      refine ⟨?_, ?_, fun none2 => ?_, ?_, ?_⟩
      · rw [answer]; simpa [decided] using halts e he hn
      · rw [answer]; simpa [decided] using halts e he atMarked
      · rw [answer]; simpa [decided, none2] using halts e he hn
      · rw [missed]; simpa [decided] using halts e he hn
      · obtain ⟨there, eq⟩ := Station.acceptStroke_eq c hn
        refine ⟨s.accepting r n, ?_, ((Station.accepting_accepted c hr hn).strokes _).trans (if_pos rfl)⟩
        rw [answer]
        dsimp only
        rw [if_pos (.inl rfl), if_neg (by decide), eq, if_pos decided]
        exact halts e he there
  · intro s v r x a hr hx ends there usable count counted
    have there_iff : withinTolerance r.target a.percent = true ↔ there := Station.withinTolerance_iff _ _
    have usable_iff : Station.usablePosition a = true ↔ usable := Station.usablePosition_iff a
    have judged := Station.judgeStroke_eq hr hx a
    refine ⟨fun still => judged.trans (if_pos still), fun moves => ?_⟩
    rw [if_neg (not_not.mpr moves)] at judged
    refine ⟨fun h => ?_, fun h hl => ?_, fun h hl => ?_, fun h hl hu => ?_, fun h hl hu ht => ?_, fun h hl hu ht => ?_,
      fun h hl low => ?_, fun h hl high => ?_⟩
    all_goals refine judged.trans ?_
    · simp [h]
    · simp [h, hl]
    · simp [h, hl]
    · simp [h, hl, Bool.eq_false_iff.mpr (hu ∘ usable_iff.mp)]
    · simp [h, hl, usable_iff.mpr hu, there_iff.mpr ht]
    · simp [h, hl, usable_iff.mpr hu, Bool.eq_false_iff.mpr (ht ∘ there_iff.mp)]
    · simp only [h, hl, reduceCtorEq, if_false]
      exact if_neg (Nat.not_le.mpr low)
    · simp only [h, hl, reduceCtorEq, if_false]
      exact if_pos high

end Sys2Proof.Machine
end

section
/-! PROOF. Two statements that fail: an exercise list may hold two records of one valve, and only the first is the
one that `exercise?` shows. The record behind it is still found by `abandonExercises`. -/

namespace Sys2Proof.Machine
namespace Doubled

/-- A segment of zone 0. -/
def segment : Segment := { zone := 0, source := false, connections := 0, priority := false, name := none }

/-- An actuated valve of zone 0 between segments 0 and 1, at this address of line A. -/
def valve (a : Nat) : Valve :=
  { sideA := 0, sideB := 1, zone := 0, normal := .normallyOpen, kind := .actuated, node := some ⟨.a, a⟩, length := 500
    waveSpeed := 1000, velocity := 1500, tmin := 100, tmax := 1200, stall := 110, health := .sound, measured := none
    exercised := none }

/-- Two valves and a sensor in zone 0. -/
def net : Network :=
  { segments := [(0, segment), (1, segment)]
    valves := [(1, valve 1), (2, valve 2)]
    sensors := [(0, ⟨⟨.a, 3⟩, 0⟩)]
    nodeMap := [(1, .valve 1), (2, .valve 2), (3, .sensor 0)] }

/-- Two exercises of one valve: the first is queued, the one behind it strokes outward. -/
def exercises : List Exercise :=
  [{ valve := 2, zone := 0, target := 20 }, { valve := 2, zone := 0, target := 20, phase := .outward }]

/-- A close stroke of valve 1 still in SENDING, whose call is not on the line. -/
def closing : Stroke := { valve := 1, zone := 0, owner := .closeEntry 0, target := 0, time := 200, before := (.opened, some 100) }

/-- A stroke of valve 2 in MOVING. -/
def moving : Stroke :=
  { valve := 2, zone := 0, owner := .exercise, target := 20, time := 200, before := (.opened, some 100), phase := .moving }

/-- Slot 0 in CLOSING with valve 1 stroking, and valve 2 in motion with two exercises. -/
def sampled : Station :=
  { nt := net, xu := exercises
    md := { strokes := [closing, moving] }
    im := { slots := [(0, { state := .closing, work := [{ valve := 1, kind := .actuated, state := .stroking }] })] } }

/-- The sample's SURGE ends valve 1's stroke first; its entry waits again, and that abandons the second exercise. -/
theorem sampled_taken :
    (sampled.takeSample 0 .ready 4000).stroke? 2 =
      some { moving with phase := .halting, pendingEnd := some (.taken .abandoned) } := by decide

theorem sampled_opens_nothing : ∀ k < 4, (sampled.slot k).reopen = [] := by decide

/-- Only the queued exercise shows. -/
theorem sampled_exercise (y : Exercise) (hy : sampled.exercise? 2 = some y) : y.phase ≠ .outward := by
  obtain rfl : { valve := 2, zone := 0, target := 20 } = y := Option.some.inj hy
  decide

/-- Refutes O38: the statement says of a moving stroke whose exercise is not outward that SURGE halts it, but here a
second exercise of the valve, behind a queued one, is abandoned first. -/
theorem not_aSampleIsJudged : ¬ Obligations.ASampleIsJudged := by
  unfold Obligations.ASampleIsJudged
  intro h
  obtain ⟨_, judged⟩ := h
  obtain ⟨_, usable⟩ := judged sampled 0 ⟨⟨.a, 3⟩, 0⟩ .ready 4000 (by decide) rfl
  obtain ⟨_, risen, _⟩ := usable (by decide)
  obtain ⟨_, _, _, _, _, _, _, _, _, _, strokes, _⟩ := risen (by decide) (by decide)
  obtain ⟨halts, _⟩ := strokes 2 moving ⟨.a, 2⟩ rfl rfl rfl fun _ k e hk he =>
    absurd he (by rw [sampled_opens_nothing k hk]; exact List.not_mem_nil)
  obtain ⟨⟨y, hy, same⟩, _⟩ := halts rfl rfl fun ⟨y, hy, out⟩ => sampled_exercise y hy out
  rw [sampled_taken] at hy
  cases hy
  exact absurd same (by decide)

/-- Slot 0 in CLOSING with valve 2 stroking for it, and two exercises of that valve. -/
def replanned : Station :=
  { nt := net, xu := exercises
    vs := [(2, { owner := some (.closeEntry 0) })]
    md := { strokes := [{ moving with owner := .closeEntry 0 }] }
    im := { slots := [(0, { state := .closing, work := [{ valve := 2, kind := .actuated, state := .stroking }] })] } }

/-- A plan that closes valve 1 in place of valve 2. -/
def plan : Plan :=
  { region := [], entries := [{ valve := 1, kind := .actuated, tcmd := 200, treq := 200, limited := false, offNormal := false }]
    report := { regionConnections := 0, cutOffCount := 0, cutOffConnections := 0, priorityList := [], priorityOverflow := 0 }
    overrideRequired := false, merged := [] }

set_option maxRecDepth 2000 in
/-- The new entry of valve 1 comes to wait in the zone, and that abandons the second exercise of valve 2. -/
theorem replanned_taken :
    (replanned.replan 0 plan).stroke? 2 =
      some { moving with owner := .closeEntry 0, retained := true, phase := .halting
                         pendingEnd := some (.taken .abandoned) } := by decide

theorem replanned_exercise (y : Exercise) (hy : replanned.exercise? 2 = some y) : y.phase ≠ .outward := by
  obtain rfl : { valve := 2, zone := 0, target := 20 } = y := Option.some.inj hy
  decide

/-- Refutes O47: the statement says that the stroke of an entry dropped by a replan goes on, retained, when its valve
has no outward exercise, but here a second exercise of the valve, behind a queued one, is abandoned. -/
theorem not_aCompletionDiscardsRequeuesOrApplies : ¬ Obligations.ACompletionDiscardsRequeuesOrApplies := by
  unfold Obligations.ACompletionDiscardsRequeuesOrApplies
  intro h
  obtain ⟨_, _, _, _, replans⟩ := h
  obtain ⟨_, _, _, _, _, _, _, _, _, _, dropped, _⟩ := replans replanned 0 plan (by decide) (by decide) rfl (by decide)
  obtain ⟨_, strokes⟩ := dropped _ (List.mem_singleton_self _) (by decide)
  have retained := strokes _ rfl rfl rfl rfl replanned_exercise
  rw [replanned_taken] at retained
  exact absurd retained (by decide)

end Doubled
end Sys2Proof.Machine
end

section
/-! PROOF. ABORT with a work list that names a valve twice: the end of the valve's stroke fails both entries before the
crews are told, so the statement about the crew that waited fails. -/

namespace Sys2Proof.Machine

/-! What a notice queue that is not full says of the notices posted. -/

theorem takeNotice_keeps (l : Link) (n : Notice) : l.notices <+: (l.takeNotice n).notices := by
  rw [Link.takeNotice]
  split
  · split
    · exact List.prefix_append _ _
    · exact List.prefix_rfl
  · exact List.prefix_rfl

theorem takeNotices_keep (ns : List Notice) (l : Link) : l.notices <+: (ns.foldl Link.takeNotice l).notices :=
  foldl_takeNotice (l.notices <+: ·.notices) (fun m n h => h.trans (takeNotice_keeps m n)) ns l List.prefix_rfl

/-- With room to the end, each posted notice of an enabled class is in the queue. -/
theorem mem_takeNotices {n : Notice} (ns : List Notice) (l : Link) (enabled : l.enables.of n.kind.classOf = true)
    (room : (ns.foldl Link.takeNotice l).notices.length < Config.noticeCap) (posted : n ∈ ns) :
    n ∈ (ns.foldl Link.takeNotice l).notices := by
  induction ns generalizing l with
  | nil => exact absurd posted List.not_mem_nil
  | cons m ns ih =>
    rw [List.foldl_cons] at room ⊢
    rcases List.mem_cons.1 posted with rfl | later
    · have kept := takeNotices_keep ns (l.takeNotice n)
      have fits : l.notices.length < Config.noticeCap :=
        lt_of_le_of_lt ((takeNotice_keeps l n).trans kept).length_le room
      refine kept.subset ?_
      rw [takeNotice_queued enabled fits]
      exact List.mem_append_right _ (List.mem_singleton_self _)
    · exact ih _ (by rwa [takeNotice_enables]) room later

namespace Doubled

/-- Slot 0 in CLOSING with two entries of valve 1, the first CLOSED and the second with its crew, and a stroke of the valve
whose call is not yet on the line. -/
def aborted : Station :=
  { ss := { station := .ready }, nt := net
    vs := [(1, { position := .closed, owner := some (.closeEntry 0) })]
    md := { strokes := [closing] }
    im := { slots := [(0, { state := .closing, work := [{ valve := 1, kind := .actuated, state := .closed },
      { valve := 1, kind := .crew, state := .crewWait }] })] } }

/-- The part with that station. -/
def aborting : State := { pending := [], nrstLow := false, ratePin := false, rateSamples := 0, sl := {}, st := aborted }

/-- What tells the crew of valve 1. -/
def crewTold : Notice :=
  { kind := .crewCancel, clock := 0, slot := some 0, valve := some 1, zone := some 0 }

/-- The notices in the queue at the end. -/
def queued : Host.Outcome State Fault Refusal → List Notice
  | .next t => t.sl.notices
  | _ => []

theorem queued_taken (t : State) :
    queued (.next (takePostings t)) = (t.st.outbox.foldl Link.takeNotice t.sl).notices := rfl

set_option maxRecDepth 2000 in
theorem aborting_queued : (queued (exec (.abort 0 0) aborting)).length < Config.noticeCap ∧
    crewTold ∉ queued (exec (.abort 0 0) aborting) := by decide

/-- Refutes O43: the stroke of the twice named valve ends at once and gives back OPEN, so both entries of the valve fail
and no crew is told, although the second was in CREW_WAIT. -/
theorem not_abortStopsAnIncident : ¬ Obligations.AbortStopsAnIncident := by
  unfold Obligations.AbortStopsAnIncident
  intro h
  obtain ⟨_, _, _, stops, _⟩ := h aborting 0 0 ⟨rfl, rfl, rfl, rfl⟩ rfl (by decide)
  obtain ⟨x, taken, _, _, _, ⟨_, told, _⟩, _⟩ := stops (by decide) (by decide)
  have posted : crewTold ∈ x.outbox :=
    told { valve := 1, kind := .crew, state := .crewWait } (List.mem_cons_of_mem _ (List.mem_singleton_self _)) rfl
  obtain ⟨ns, outbox⟩ := ((Station.Frame.decideAll (.refl x)).moves (le_refl 3)).posted
  obtain ⟨room, absent⟩ := aborting_queued
  rw [taken, queued_taken] at room absent
  refine absent (mem_takeNotices _ _ rfl room ?_)
  exact outbox ▸ List.mem_append_left ns posted

end Doubled
end Sys2Proof.Machine
end
